-- ==== Sys2Proof/Word.lean ====
section
/-! DEFINITION. The words of the model: bytes, two-byte fields, keys and the numbered places of the part. -/

namespace Sys2Proof

/-- A byte as it stands in a packet, a section or an order. -/
abbrev Byte := BitVec 8

/-- A two-byte field of an order or a section (R178: most significant byte first). -/
abbrev Word16 := BitVec 16

/-- An opaque 128-bit key (unit key, group key, tier key, even or odd key). -/
abbrev Key := BitVec 128

/-- A tuner port, TP0..TP3. -/
abbrev PortNo := Fin 4

/-- An input: 0..3 are TP0..TP3 and 4 is PB, the codes of R185. -/
abbrev Input := Fin 5

/-- A presentation output, PO0 or PO1. -/
abbrev OutputNo := Fin 2

/-- A capture tag, 0..7. -/
abbrev TagNo := Fin 8

/-- A service context, 0..15. -/
abbrev CtxNo := Fin 16

/-- A key slot, 0..15. -/
abbrev SlotNo := Fin 16

/-- A host filter, 0..23. -/
abbrev FilterNo := Fin 24

/-- A parental profile, 0..3. -/
abbrev ProfileNo := Fin 4

/-- The four digits of a carried PIN, one byte each (R185). -/
abbrev Pin := Vector Byte 4

end Sys2Proof
end

