-- ==== Sys2Proof/Config.lean ====
section
/-! DEFINITION. What the data book leaves open and the model does not choose: the cryptographic functions (00_scope.md
puts the algorithms outside the book) and the start and error flags of the packets the part makes itself. None has
a body. -/

namespace Sys2Proof

/-- The check value over the plain bytes of an access message under its opening key (R69, R88). Free: log 7. -/
opaque Config.checkValue : Key → List Byte → BitVec 64

/-- An enciphered key deciphered under an opening key (R69, R88). Free: log 7. -/
opaque Config.decipher : Key → Key → Key

/-- Byte `i` of a payload descrambled with a key (R93). Free: log 7. -/
opaque Config.descrambledByte : Key → List Byte → Nat → Byte

/-- The start flag (byte 1 bit 6, R179) of a packet the part makes itself, by stream number. Free: log 8. -/
opaque Config.ownStartFlag : Nat → Bool

/-- The error flag (byte 1 bit 7, R179) of a packet the part makes itself, by stream number. Free: log 8. -/
opaque Config.ownErrorFlag : Nat → Bool

end Sys2Proof
end

