-- ==== Sys2Proof/Syntax.lean ====
section
/-! DEFINITION. The commands of the block, one constructor for each row of spec/opcode_table.json.

An order command carries the tag byte of its order and then the parameters of Table 9-3 at their widths; an
identity or selection parameter may be out of range, and the owner answers it. -/

namespace Sys2Proof

/-- What a fuse read that passes its check gives (R65). -/
structure Fuses where
  unitAddress : BitVec 32
  unitKey : Key
  revision : Byte
  deriving DecidableEq, Repr

/-- A destination of a context: a presentation output or a capture tag (R100). -/
inductive Dest where
  | output (o : OutputNo)
  | tag (t : TagNo)
  deriving DecidableEq, Repr

/-- A byte of a demodulator's or HL-in's byte stream, with its start indication (R1). -/
structure LinkByte where
  byte : Byte
  start : Bool
  deriving DecidableEq, Repr

/-- The port and stream number a SET_SOURCE order carries. -/
abbrev SourceParam := Option (Byte × Word16)

/-- The commands. -/
inductive Instr where
  /-- PIN_RESET (R167): the release of RESETN, with the levels of LOCK0..LOCK3 at that moment. -/
  | pinReset (locks : Vector Bool 4)
  /-- FUSE_READ_END (R168): what the read gave, or none when its check failed. -/
  | fuseReadEnd (fuses : Option Fuses)
  /-- LOCK_LINE_FALLS (R2). -/
  | lockLineFalls (port : PortNo)
  /-- LOCK_LINE_RISES (R2). -/
  | lockLineRises (port : PortNo)
  /-- UNIT_TAKEN (R1, R3): bytes that arrive on a tuner port; every unit they complete or cut short is taken. -/
  | unitTaken (port : PortNo) (bytes : List LinkByte)
  /-- HL_IN_UNIT_TAKEN (R1, R8): bytes that arrive on HL-in; every unit they complete or cut short is taken. -/
  | hlInUnitTaken (bytes : List LinkByte)
  /-- DELIVERY_TIMEOUT (R36). -/
  | deliveryTimeout
  /-- UPTIME_SECOND (R42). -/
  | uptimeSecond
  /-- EXPIRY (R75). -/
  | expiry
  /-- WAIT_DEADLINE (R109): the wait deadline of this destination is reached. -/
  | waitDeadline (dest : Dest)
  /-- ACQUISITION_DEADLINE (R110): the acquisition deadline of this context is reached. -/
  | acquisitionDeadline (ctx : CtxNo)
  /-- LOCKOUT_END (R138). -/
  | lockoutEnd
  /-- GRANT_MINUTES_END (R141). -/
  | grantMinutesEnd
  /-- PO_SEND_OPPORTUNITY (R155). -/
  | poSendOpportunity (output : OutputNo)
  /-- HL_OUT_OPPORTUNITY (R162). -/
  | hlOutOpportunity
  /-- DECODE_ORDER (R170). -/
  | decodeOrder
  /-- SET_FILTER (R39). -/
  | setFilter (tag filter port : Byte) (stream : Word16) (pattern mask : Vector Byte 6) (options : Byte)
  /-- CLEAR_FILTER (R40). -/
  | clearFilter (tag filter : Byte)
  /-- SET_DELIVERY (R41). -/
  | setDelivery (tag trigger : Byte) (timeout : Word16)
  /-- SET_SOURCE GUIDE (R54). -/
  | setSourceGuide (tag : Byte) (source : SourceParam)
  /-- SET_SOURCE TIME (R43). -/
  | setSourceTime (tag : Byte) (source : SourceParam)
  /-- SET_SOURCE ACCESS (R67). -/
  | setSourceAccess (tag place : Byte) (source : SourceParam)
  /-- QUERY_CLOCK (R51). -/
  | queryClock (tag : Byte)
  /-- QUERY_GUIDE_SERVICE (R64). -/
  | queryGuideService (tag port : Byte) (service : Word16)
  /-- SET_HOME_NETWORK (R66). -/
  | setHomeNetwork (tag : Byte) (network : Word16)
  /-- READ_EXCEPTIONS (R80). -/
  | readExceptions (tag first : Byte)
  /-- CLEAR_EXCEPTIONS (R81): 0..16, or 0xFF for ALL. -/
  | clearExceptions (tag count : Byte)
  /-- QUERY_SLOT(slot) (R98). -/
  | querySlotSlot (tag slot : Byte)
  /-- QUERY_SLOT(input) (R98). -/
  | querySlotInput (tag input : Byte)
  /-- TUNE (R101). -/
  | tune (tag output port : Byte) (service : Word16)
  /-- CAPTURE (R102). -/
  | capture (tag captureTag port : Byte) (service : Word16)
  /-- PLAY (R102): ratings are (system, code) pairs. -/
  | play (tag output captureTag adult : Byte) (ratings : List (Byte × Byte))
  /-- RELEASE(output) (R113). -/
  | releaseOutput (tag output : Byte)
  /-- RELEASE(tag) (R113). -/
  | releaseTag (tag captureTag : Byte)
  /-- SET_ACQUISITION_LIMIT (R122). -/
  | setAcquisitionLimit (tag : Byte) (ms : Word16)
  /-- QUERY_CONTEXT (R123). -/
  | queryContext (tag ctx : Byte)
  /-- QUERY_PORT (R124). -/
  | queryPort (tag input : Byte)
  /-- QUERY_ENTRY (R20). -/
  | queryEntry (tag port : Byte) (stream : Word16)
  /-- LOAD_RATING_ROW (R145). -/
  | loadRatingRow (tag system : Byte) (levels : Vector Byte 64) (pin : Option Pin)
  /-- SET_PROFILE (R146): windows are (start, length) pairs. -/
  | setProfile (tag profile : Byte) (limits : Vector Byte 8) (unrated adult timeUnknown : Byte)
      (windows : List (Word16 × Word16)) (pin : Option Pin)
  /-- SET_PIN (R147). -/
  | setPin (tag profile : Byte) (pin newPin : Option Pin)
  /-- BIND_PROFILE (R148): 0..3, or 0xFF for none. -/
  | bindProfile (tag output profile : Byte) (pin : Option Pin)
  /-- LOCK_SERVICE (R149). -/
  | lockService (tag : Byte) (service : Word16) (mask : Byte) (pin : Option Pin)
  /-- UNLOCK_SERVICE (R150). -/
  | unlockService (tag : Byte) (service : Word16) (pin : Option Pin)
  /-- UNLOCK (R139): scope 0 EVENT, 1 MINUTES. -/
  | unlock (tag output : Byte) (pin : Pin) (scope : Byte) (minutes : Word16)
  /-- REVOKE_GRANTS (R142): 0, 1, or 0xFF for ALL. -/
  | revokeGrants (tag output : Byte)
  /-- LOCK_PARENTAL (R143). -/
  | lockParental (tag : Byte)
  /-- SET_OUTPUT_RATE (R164). -/
  | setOutputRate (tag output : Byte) (rate : Word16)
  /-- QUERY_OUTPUT (R165). -/
  | queryOutput (tag output : Byte)
  /-- QUERY_CAPTURE (R166). -/
  | queryCapture (tag captureTag : Byte)
  /-- IDENTIFY (R175). -/
  | identify (tag : Byte)
  /-- RESTART (R176). -/
  | restart (tag : Byte)
  /-- RESTART_EFFECT (R176). -/
  | restartEffect
  deriving DecidableEq, Repr

end Sys2Proof
end

