-- ==== Sys2Proof/WellFormed.lean ====
section
/-! DEFINITION. Which commands can occur on the part's links: the sizes that the operand types leave open. -/

namespace Sys2Proof

/-- A command carries 1 to 188 bytes of its link (log 6). -/
def bytesWellFormed (bytes : List LinkByte) : Bool :=
  1 ≤ bytes.length && bytes.length ≤ 188

/-- The PLAY ratings an order packet can frame: the count is one byte and 4 + 2c parameter bytes stand behind the
4-byte order header in a payload of at most 184 bytes (R171, R179). -/
def ratingsWellFormed (ratings : List (Byte × Byte)) : Bool :=
  ratings.length ≤ 88

/-- The SET_PROFILE windows an order packet can frame: 13 + 4w bytes, or 17 + 4w with a PIN, behind the order header
in a payload of at most 184 bytes (R171, R179). -/
def windowsWellFormed (windows : List (Word16 × Word16)) (pin : Option Pin) : Bool :=
  4 * windows.length + (if pin.isSome then 21 else 17) ≤ 184

/-- The check a command passes. -/
def Instr.wellFormed (i : Instr) : Bool :=
  match i with
  | .unitTaken _ bytes => bytesWellFormed bytes
  | .hlInUnitTaken bytes => bytesWellFormed bytes
  | .play _ _ _ _ ratings => ratingsWellFormed ratings
  | .setProfile _ _ _ _ _ _ windows pin => windowsWellFormed windows pin
  | .pinReset .. | .fuseReadEnd .. | .lockLineFalls .. | .lockLineRises .. | .deliveryTimeout | .uptimeSecond
  | .expiry | .waitDeadline .. | .acquisitionDeadline .. | .lockoutEnd | .grantMinutesEnd | .poSendOpportunity ..
  | .hlOutOpportunity | .decodeOrder | .setFilter .. | .clearFilter .. | .setDelivery .. | .setSourceGuide ..
  | .setSourceTime .. | .setSourceAccess .. | .queryClock .. | .queryGuideService .. | .setHomeNetwork ..
  | .readExceptions .. | .clearExceptions .. | .querySlotSlot .. | .querySlotInput .. | .tune .. | .capture ..
  | .releaseOutput .. | .releaseTag .. | .setAcquisitionLimit .. | .queryContext .. | .queryPort .. | .queryEntry ..
  | .loadRatingRow .. | .setPin .. | .bindProfile .. | .lockService .. | .unlockService .. | .unlock ..
  | .revokeGrants .. | .lockParental .. | .setOutputRate .. | .queryOutput .. | .queryCapture .. | .identify ..
  | .restart .. | .restartEffect => true

end Sys2Proof
end

