-- ==== Sys2Proof/Decode.lean ====
section
/-! DEFINITION. Reading the orders of an order packet (R170, R171, R185, Table 9-3) and writing them.

The opcode table gives no row any bits, so `decodeTableWord` spells no command (log 36); what the part itself
decodes are the bytes of order packets. -/

namespace Sys2Proof

/-- No row of the table gives bits, so no word spells a command. -/
def decodeTableWord (_nbits _w : Nat) : Option Instr :=
  none

/-- Two bytes as one field, most significant byte first (R178). -/
def word16 (hi lo : Byte) : Word16 :=
  hi ++ lo

/-- The two bytes of a field, most significant byte first (R178). -/
def bytes16 (w : Word16) : List Byte :=
  [w.extractLsb' 8 8, w.extractLsb' 0 8]

/-- A list of exactly `n` bytes as a vector. -/
def vecOf (n : Nat) (l : List Byte) : Option (Vector Byte n) :=
  if h : l.length = n then some ⟨l.toArray, by simpa using h⟩ else none

/-- An optional PIN at the end of an order: absent, or four bytes (R185). -/
def pinParam (l : List Byte) : Option (Option Pin) :=
  match l with
  | [] => some none
  | [a, b, c, d] => some (some #v[a, b, c, d])
  | _ => none

/-- The (system, code) pairs of PLAY. -/
def pairsParam : List Byte → List (Byte × Byte)
  | a :: b :: l => (a, b) :: pairsParam l
  | _ => []

/-- The (start, length) windows of SET_PROFILE. -/
def windowsParam : List Byte → List (Word16 × Word16)
  | a :: b :: c :: d :: l => (word16 a b, word16 c d) :: windowsParam l
  | _ => []

/-- The outcome of reading one framed order (R170, R171). -/
inductive OrderRead where
  /-- The order is handed to its owner. -/
  | order (i : Instr)
  /-- The parameter length is not one of the order's. -/
  | malformed
  /-- The code names no order. -/
  | unknown
  /-- The first parameter byte names no form. -/
  | badForm
  deriving DecidableEq, Repr

/-- SET_SOURCE: its first parameter byte selects the source, its length whether a pair follows (R171). -/
def readSetSource (tag : Byte) (params : List Byte) : OrderRead :=
  match params with
  | [] => .malformed
  | form :: rest =>
    match form.toNat, rest with
    | 0, [] => .order (.setSourceGuide tag none)
    | 0, [p, h, l] => .order (.setSourceGuide tag (some (p, word16 h l)))
    | 0, _ => .malformed
    | 1, [] => .order (.setSourceTime tag none)
    | 1, [p, h, l] => .order (.setSourceTime tag (some (p, word16 h l)))
    | 1, _ => .malformed
    | 2, [place] => .order (.setSourceAccess tag place none)
    | 2, [place, p, h, l] => .order (.setSourceAccess tag place (some (p, word16 h l)))
    | 2, _ => .malformed
    | _, _ => .badForm

/-- RELEASE and QUERY_SLOT: a form byte 0 or 1, then one byte (R171). -/
def readTwoForms (zero one : Byte → Instr) (params : List Byte) : OrderRead :=
  match params with
  | [] => .malformed
  | form :: rest =>
    match form.toNat, rest with
    | 0, [b] => .order (zero b)
    | 0, _ => .malformed
    | 1, [b] => .order (one b)
    | 1, _ => .malformed
    | _, _ => .badForm

/-- SET_FILTER: 17 bytes. -/
def readSetFilter (tag : Byte) (params : List Byte) : OrderRead :=
  match params with
  | filter :: port :: h :: l :: rest =>
    match vecOf 6 (rest.take 6), vecOf 6 ((rest.drop 6).take 6), rest.drop 12 with
    | some pattern, some mask, [options] =>
      .order (.setFilter tag filter port (word16 h l) pattern mask options)
    | _, _, _ => .malformed
  | _ => .malformed

/-- PLAY: 4 + 2c bytes for the rating count c it carries (R171). -/
def readPlay (tag : Byte) (params : List Byte) : OrderRead :=
  match params with
  | output :: captureTag :: adult :: count :: rest =>
    if rest.length = 2 * count.toNat then .order (.play tag output captureTag adult (pairsParam rest)) else .malformed
  | _ => .malformed

/-- LOAD_RATING_ROW: 65 bytes, or 69 with a PIN. -/
def readLoadRatingRow (tag : Byte) (params : List Byte) : OrderRead :=
  match params with
  | system :: rest =>
    match vecOf 64 (rest.take 64), pinParam (rest.drop 64) with
    | some levels, some pin => .order (.loadRatingRow tag system levels pin)
    | _, _ => .malformed
  | _ => .malformed

/-- SET_PROFILE: 13 + 4w bytes, or 17 + 4w with a PIN, for the window count w it carries (R171). -/
def readSetProfile (tag : Byte) (params : List Byte) : OrderRead :=
  match params with
  | profile :: rest =>
    match vecOf 8 (rest.take 8), rest.drop 8 with
    | some limits, unrated :: adult :: timeUnknown :: count :: tail =>
      if (tail.take (4 * count.toNat)).length = 4 * count.toNat then
        match pinParam (tail.drop (4 * count.toNat)) with
        | some pin =>
          .order (.setProfile tag profile limits unrated adult timeUnknown
            (windowsParam (tail.take (4 * count.toNat))) pin)
        | none => .malformed
      else .malformed
    | _, _ => .malformed
  | _ => .malformed

/-- SET_PIN: 10 bytes; the presence byte says which of the two PINs is carried (R185), and its bits 2 to 7 are
ignored (log 48). -/
def readSetPin (tag : Byte) (params : List Byte) : OrderRead :=
  match params with
  | [profile, presence, a, b, c, d, e, f, g, h] =>
    .order (.setPin tag profile (if presence.getLsbD 0 then some #v[a, b, c, d] else none)
      (if presence.getLsbD 1 then some #v[e, f, g, h] else none))
  | _ => .malformed

/-- Reading a framed order by its code (Table 9-3). -/
def readOrder (code tag : Byte) (params : List Byte) : OrderRead :=
  match code.toNat with
  | 0x01 => readSetFilter tag params
  | 0x02 => match params with | [f] => .order (.clearFilter tag f) | _ => .malformed
  | 0x03 => match params with | [t, h, l] => .order (.setDelivery tag t (word16 h l)) | _ => .malformed
  | 0x10 => readSetSource tag params
  | 0x11 => match params with | [] => .order (.queryClock tag) | _ => .malformed
  | 0x12 => match params with | [p, h, l] => .order (.queryGuideService tag p (word16 h l)) | _ => .malformed
  | 0x20 => match params with | [h, l] => .order (.setHomeNetwork tag (word16 h l)) | _ => .malformed
  | 0x21 => match params with | [f] => .order (.readExceptions tag f) | _ => .malformed
  | 0x22 => match params with | [n] => .order (.clearExceptions tag n) | _ => .malformed
  | 0x28 => readTwoForms (.querySlotSlot tag) (.querySlotInput tag) params
  | 0x30 => match params with | [o, p, h, l] => .order (.tune tag o p (word16 h l)) | _ => .malformed
  | 0x31 => match params with | [t, p, h, l] => .order (.capture tag t p (word16 h l)) | _ => .malformed
  | 0x32 => readPlay tag params
  | 0x33 => readTwoForms (.releaseOutput tag) (.releaseTag tag) params
  | 0x34 => match params with | [h, l] => .order (.setAcquisitionLimit tag (word16 h l)) | _ => .malformed
  | 0x35 => match params with | [c] => .order (.queryContext tag c) | _ => .malformed
  | 0x36 => match params with | [i] => .order (.queryPort tag i) | _ => .malformed
  | 0x37 => match params with | [p, h, l] => .order (.queryEntry tag p (word16 h l)) | _ => .malformed
  | 0x40 => readLoadRatingRow tag params
  | 0x41 => readSetProfile tag params
  | 0x42 => readSetPin tag params
  | 0x43 => match params with
    | o :: p :: rest => match pinParam rest with | some pin => .order (.bindProfile tag o p pin) | none => .malformed
    | _ => .malformed
  | 0x44 => match params with
    | h :: l :: m :: rest =>
      match pinParam rest with | some pin => .order (.lockService tag (word16 h l) m pin) | none => .malformed
    | _ => .malformed
  | 0x45 => match params with
    | h :: l :: rest =>
      match pinParam rest with | some pin => .order (.unlockService tag (word16 h l) pin) | none => .malformed
    | _ => .malformed
  | 0x46 => match params with
    | [o, a, b, c, d, sc, h, l] => .order (.unlock tag o #v[a, b, c, d] sc (word16 h l))
    | _ => .malformed
  | 0x47 => match params with | [o] => .order (.revokeGrants tag o) | _ => .malformed
  | 0x48 => match params with | [] => .order (.lockParental tag) | _ => .malformed
  | 0x50 => match params with | [o, h, l] => .order (.setOutputRate tag o (word16 h l)) | _ => .malformed
  | 0x51 => match params with | [o] => .order (.queryOutput tag o) | _ => .malformed
  | 0x52 => match params with | [t] => .order (.queryCapture tag t) | _ => .malformed
  | 0x60 => match params with | [] => .order (.identify tag) | _ => .malformed
  | 0x61 => match params with | [] => .order (.restart tag) | _ => .malformed
  | _ => .unknown

/-- What stands next in an order list (R170, steps 1 to 3). -/
inductive Framed where
  /-- No byte remains, or the next byte is 0. -/
  | ended
  /-- Fewer than 4 bytes remain: code and tag as read, a missing tag as 0. -/
  | headerOverrun (code tag : Byte)
  /-- Fewer parameter bytes remain than the header gives. -/
  | paramOverrun (code tag : Byte)
  /-- A framed order and how many bytes it takes. -/
  | framed (code tag : Byte) (params : List Byte)
  deriving DecidableEq, Repr

/-- Framing the next order of the bytes that remain (R170). -/
def frameOrder (l : List Byte) : Framed :=
  match l with
  | [] => .ended
  | code :: rest =>
    if code.toNat = 0 then .ended
    else
      match rest with
      | tag :: h :: lo :: params =>
        if params.length < (word16 h lo).toNat then .paramOverrun code tag
        else .framed code tag (params.take (word16 h lo).toNat)
      | _ => .headerOverrun code (rest.headD 0)

/-- The bytes of an optional PIN. -/
def pinBytes (pin : Option Pin) : List Byte :=
  match pin with
  | none => []
  | some p => p.toList

/-- A PIN that keeps its place when absent (SET_PIN). -/
def pinPlace (pin : Option Pin) : List Byte :=
  match pin with
  | none => [0, 0, 0, 0]
  | some p => p.toList

/-- The presence byte of SET_PIN. -/
def pinPresence (pin newPin : Option Pin) : Byte :=
  BitVec.ofNat 8 ((if pin.isSome then 1 else 0) + (if newPin.isSome then 2 else 0))

/-- The parameters of a source. -/
def sourceBytes (source : SourceParam) : List Byte :=
  match source with
  | none => []
  | some (p, st) => p :: bytes16 st

/-- Code, tag and parameter bytes of an order (Table 9-3); none for a command that is no order. -/
def orderParts (i : Instr) : Option (Byte × Byte × List Byte) :=
  match i with
  | .setFilter tag f p st pat m o => some (0x01, tag, f :: p :: bytes16 st ++ pat.toList ++ m.toList ++ [o])
  | .clearFilter tag f => some (0x02, tag, [f])
  | .setDelivery tag t ms => some (0x03, tag, t :: bytes16 ms)
  | .setSourceGuide tag src => some (0x10, tag, 0 :: sourceBytes src)
  | .setSourceTime tag src => some (0x10, tag, 1 :: sourceBytes src)
  | .setSourceAccess tag place src => some (0x10, tag, 2 :: place :: sourceBytes src)
  | .queryClock tag => some (0x11, tag, [])
  | .queryGuideService tag p sv => some (0x12, tag, p :: bytes16 sv)
  | .setHomeNetwork tag n => some (0x20, tag, bytes16 n)
  | .readExceptions tag f => some (0x21, tag, [f])
  | .clearExceptions tag n => some (0x22, tag, [n])
  | .querySlotSlot tag k => some (0x28, tag, [0, k])
  | .querySlotInput tag k => some (0x28, tag, [1, k])
  | .tune tag o p sv => some (0x30, tag, o :: p :: bytes16 sv)
  | .capture tag t p sv => some (0x31, tag, t :: p :: bytes16 sv)
  | .play tag o t a rs =>
    some (0x32, tag, o :: t :: a :: BitVec.ofNat 8 rs.length :: rs.flatMap (fun r => [r.1, r.2]))
  | .releaseOutput tag o => some (0x33, tag, [0, o])
  | .releaseTag tag t => some (0x33, tag, [1, t])
  | .setAcquisitionLimit tag ms => some (0x34, tag, bytes16 ms)
  | .queryContext tag c => some (0x35, tag, [c])
  | .queryPort tag p => some (0x36, tag, [p])
  | .queryEntry tag p st => some (0x37, tag, p :: bytes16 st)
  | .loadRatingRow tag sy lv pin => some (0x40, tag, sy :: lv.toList ++ pinBytes pin)
  | .setProfile tag p lim u a tu ws pin =>
    some (0x41, tag, p :: lim.toList ++ u :: a :: tu :: BitVec.ofNat 8 ws.length ::
      (ws.flatMap (fun w => bytes16 w.1 ++ bytes16 w.2) ++ pinBytes pin))
  | .setPin tag p pin new => some (0x42, tag, p :: pinPresence pin new :: pinPlace pin ++ pinPlace new)
  | .bindProfile tag o p pin => some (0x43, tag, o :: p :: pinBytes pin)
  | .lockService tag sv m pin => some (0x44, tag, bytes16 sv ++ m :: pinBytes pin)
  | .unlockService tag sv pin => some (0x45, tag, bytes16 sv ++ pinBytes pin)
  | .unlock tag o pin sc ms => some (0x46, tag, o :: pin.toList ++ sc :: bytes16 ms)
  | .revokeGrants tag o => some (0x47, tag, [o])
  | .lockParental tag => some (0x48, tag, [])
  | .setOutputRate tag o r => some (0x50, tag, o :: bytes16 r)
  | .queryOutput tag o => some (0x51, tag, [o])
  | .queryCapture tag t => some (0x52, tag, [t])
  | .identify tag => some (0x60, tag, [])
  | .restart tag => some (0x61, tag, [])
  | .pinReset .. | .fuseReadEnd .. | .lockLineFalls .. | .lockLineRises .. | .unitTaken .. | .hlInUnitTaken ..
  | .deliveryTimeout | .uptimeSecond | .expiry | .waitDeadline .. | .acquisitionDeadline .. | .lockoutEnd
  | .grantMinutesEnd | .poSendOpportunity .. | .hlOutOpportunity | .decodeOrder | .restartEffect => none

/-- The bytes of an order in an order packet (R185): code, tag, parameter length, parameters. -/
def orderBytes (i : Instr) : Option (List Byte) :=
  (orderParts i).map (fun (code, tag, params) => code :: tag :: bytes16 (BitVec.ofNat 16 params.length) ++ params)

end Sys2Proof
end

