-- ==== Sys2Proof/Machine/State.lean ====
section
/-! DEFINITION. The state of the part, block by block (Table 0-2), as plain data, and its value after pin reset. -/

namespace Sys2Proof.Machine

/-! ### Intake -/

/-- Port states (R2); HL-in is SEEKING or in sync, and in sync is UP (R8). -/
inductive PortState where
  | down | seeking | up
  deriving DecidableEq, Repr

/-- The sync tracking of one input (R3). -/
structure SyncRec where
  state : PortState
  goodRun : Nat
  badRun : Nat
  deriving DecidableEq, Repr

/-- Port statistics (Table 1-3). -/
structure PortStats where
  packets : Nat
  errored : Nat
  syncLosses : Nat
  stray : Nat
  gaps : Nat
  deriving DecidableEq, Repr

/-- The intake: lock lines, sync, the unit in progress of each input (R1) and statistics. -/
structure Intake where
  lock : Vector Bool 4
  sync : Vector SyncRec 5
  forming : Vector (Option (List Byte)) 5
  stats : Vector PortStats 5
  deriving DecidableEq, Repr

/-! ### Stream table -/

/-- Entry roles (Table 1-4). -/
inductive Role where
  | component | sections
  deriving DecidableEq, Repr

/-- The purposes of a context user (R15). -/
inductive Purpose where
  | component (index : Fin 8)
  | map
  | keys (slot : SlotNo)
  deriving DecidableEq, Repr

/-- A context user with its purposes (R15). -/
structure CtxUser where
  ctx : CtxNo
  purposes : List Purpose
  deriving DecidableEq, Repr

/-- Pin consumers (Table 1-4). -/
inductive PinConsumer where
  | index | access | time | guide
  | filter (f : FilterNo)
  deriving DecidableEq, Repr

/-- The pin consumers an entry holds; bit f of `filters` is host filter f. -/
structure Pins where
  index : Bool
  access : Bool
  time : Bool
  guide : Bool
  filters : BitVec 24
  deriving DecidableEq, Repr

/-- The assembly of a SECTIONS entry (Table 2-2): the blocks its chain holds, the bytes received in order, and the
bytes expected. -/
inductive Assembly where
  | idle
  | collecting (blocks : Nat) (bytes : List Byte) (expected : Option Nat)
  | skipping
  deriving DecidableEq, Repr

/-- A stream table entry (Table 1-4). -/
structure Entry where
  input : Input
  stream : Nat
  role : Role
  users : List CtxUser
  pins : Pins
  lastCount : Option Nat
  duplicate : Bool
  gaps : Nat
  assembly : Assembly
  starve : Nat
  deriving DecidableEq, Repr

/-! ### Section engine and section store -/

/-- A seen set of a suppressing filter (R34). -/
structure SeenSet where
  kind : Nat
  extension : Nat
  version : Nat
  indices : BitVec 256
  deriving DecidableEq, Repr

/-- A set host filter (Table 2-5); `port` none is ANY; `seen` is in creation order. -/
structure Filter where
  port : Option Input
  stream : Nat
  pattern : Vector Byte 6
  mask : Vector Byte 6
  deliverBad : Bool
  suppress : Bool
  seen : List SeenSet
  deriving DecidableEq, Repr

/-- A section in the delivery queue (R35, R37); `joined` is in reference cycles, `number` is taken at its first
packet (R188). -/
structure Delivery where
  filters : BitVec 24
  input : Input
  stream : Nat
  bad : Bool
  bytes : List Byte
  blocks : Nat
  joined : Nat
  number : Option Nat
  sentPackets : Nat
  deriving DecidableEq, Repr

/-- Section statistics (Table 2-6). -/
structure SectionStats where
  good : Nat
  badCrc : Nat
  framing : Nat
  header : Nat
  starved : Nat
  deriving DecidableEq, Repr

/-- The section engine and the section store. -/
structure Sections where
  freeBlocks : Nat
  filters : Vector (Option Filter) 24
  queue : List Delivery
  released : Bool
  trigger : Nat
  timeout : Nat
  nextNumber : Nat
  stats : Vector SectionStats 5
  deriving DecidableEq, Repr

/-! ### Clock unit -/

/-- Network time while the clock is SET: N and the local offset L in minutes (Table 3-1). -/
structure NetTime where
  n : Nat
  offset : Int
  deriving DecidableEq, Repr

/-- A pending offset change (N2, L2). -/
structure OffsetChange where
  n2 : Nat
  l2 : Int
  deriving DecidableEq, Repr

/-- A jump candidate (C, U). -/
structure Candidate where
  value : Nat
  uptime : Nat
  deriving DecidableEq, Repr

/-- The clock unit (Table 3-1); the clock state is SET while `net` is present. -/
structure Clock where
  uptime : Nat
  net : Option NetTime
  minute : Option Nat
  change : Option OffsetChange
  candidate : Option Candidate
  source : Option (PortNo × Nat)
  malformed : Nat
  steps : Nat
  jumps : Nat
  deriving DecidableEq, Repr

/-! ### Guide store -/

/-- A rating entry (system, code). -/
structure Rating where
  system : Nat
  code : Nat
  deriving DecidableEq, Repr

/-- An index in use, or the collection of a newer one (Table 3-4); entries are (service, map stream). -/
structure IndexRec where
  multiplex : Nat
  version : Nat
  received : BitVec 256
  entries : List (Nat × Nat)
  deriving DecidableEq, Repr

/-- Service index state of one tuner port (Table 3-4). -/
structure PortIndex where
  inUse : Option IndexRec
  collection : Option IndexRec
  overflow : Nat
  malformed : Nat
  deriving DecidableEq, Repr

/-- A service list record (Table 3-5). -/
structure ServiceRec where
  service : Nat
  kind : Nat
  tier : Option Nat
  adult : Bool
  seen : Bool
  deriving DecidableEq, Repr

/-- Version state of the service list (R55). -/
structure ListVersion where
  network : Nat
  version : Nat
  received : BitVec 256
  lastIndex : Nat
  deriving DecidableEq, Repr

/-- A stored event (Table 3-6); its end is computed. -/
structure Event where
  service : Nat
  id : Nat
  start : Nat
  duration : Nat
  tier : Option Nat
  ratings : List Rating
  deriving DecidableEq, Repr

/-- A tracked service and its recorded current event id (R63). -/
structure Tracked where
  service : Nat
  id : Option Nat
  deriving DecidableEq, Repr

/-- The guide store. -/
structure Guide where
  index : Vector PortIndex 4
  list : List ServiceRec
  listVersion : Option ListVersion
  listOverflow : Nat
  listMalformed : Nat
  events : List Event
  droppedFull : Nat
  evicted : Nat
  outside : Nat
  malformed : Nat
  tracked : List Tracked
  source : Option (PortNo × Nat)
  deriving DecidableEq, Repr

/-! ### Access engine -/

/-- A group membership (R74) with its sequence record (R70). -/
structure Group where
  id : Nat
  key : Key
  seq : Option Nat
  deriving DecidableEq, Repr

/-- An entitlement record (Table 4-1); source none is UNIT. -/
structure Entitlement where
  tier : Nat
  key : Key
  expiry : Option Nat
  source : Option Nat
  deriving DecidableEq, Repr

/-- Exception kinds (Table 4-2). -/
inductive ExceptionKind where
  | notEntitled | integrity | stale | wrongNetwork | listFull | malformed
  deriving DecidableEq, Repr

/-- An access exception record (Table 4-3). -/
structure ExceptionRec where
  kind : ExceptionKind
  input : Input
  stream : Nat
  tier : Option Nat
  seq : Option Nat
  netTime : Option Nat
  uptime : Nat
  repeats : Nat
  deriving DecidableEq, Repr

/-- A key slot in use (Table 5-1); bit c of `users` is context c. -/
structure Slot where
  input : Input
  stream : Nat
  tier : Option Nat
  even : Option Key
  odd : Option Key
  lastSeq : Option Nat
  lapsed : Bool
  run : Nat
  refused : Bool
  users : BitVec 16
  installs : Nat
  lapses : Nat
  keyed : Nat
  unkeyed : Nat
  badPhase : Nat
  duplicates : Nat
  malformed : Nat
  deriving DecidableEq, Repr

/-- The descrambler record of an input (R97). -/
structure DescramblerStats where
  clear : Nat
  keyed : Nat
  unkeyed : Nat
  badPhase : Nat
  withoutSlot : Nat
  deriving DecidableEq, Repr

/-- The access engine; the access state is ENABLED while `fuses` is present (R65). -/
structure Access where
  reading : Bool
  fuses : Option Fuses
  home : Option Nat
  sources : Vector (Option (PortNo × Nat)) 2
  unreadable : Nat
  notAddressed : Nat
  accepted : Nat
  applied : Nat
  unitSeq : Option Nat
  groups : List Group
  entitlements : List Entitlement
  log : List ExceptionRec
  overflow : Bool
  slots : Vector (Option Slot) 16
  stats : Vector DescramblerStats 5
  deriving DecidableEq, Repr

/-! ### Context controller -/

/-- Context states (Table 6-1). -/
inductive CtxState where
  | free | locate | map | key | entry | running | retiring
  deriving DecidableEq, Repr

/-- Component kinds (Table 9-8). -/
inductive ComponentKind where
  | video | audio | subtitle | data
  deriving DecidableEq, Repr

/-- A component of a service; its index is its place in the list. -/
structure Component where
  kind : ComponentKind
  stream : Nat
  deriving DecidableEq, Repr

/-- Failure reasons (Table 6-4). -/
inductive FailReason where
  | notInIndex | noIndex | noMap | noKey | noEntry | notEntitled | noRoom
  deriving DecidableEq, Repr

/-- Play ratings and adult flag of a playback context (Table 6-2). -/
structure PlayInfo where
  ratings : List Rating
  adult : Bool
  deriving DecidableEq, Repr

/-- A service context (Table 6-2). -/
structure Context where
  state : CtxState
  input : Input
  service : Nat
  mapStream : Option Nat
  mapVersion : Option Nat
  components : List Component
  entryComponent : Option Nat
  mapRatings : List Rating
  keyStream : Option Nat
  slot : Option SlotNo
  play : Option PlayInfo
  deadline : Option Nat
  drain : Nat
  malformed : Nat
  overflow : Nat
  refused : Nat
  lastFailure : Option FailReason
  deriving DecidableEq, Repr

/-- Reasons of a parental verdict (R130); all clear is PASS. -/
structure Reasons where
  rating : Bool
  unrated : Bool
  adult : Bool
  locked : Bool
  quiet : Bool
  deriving DecidableEq, Repr

/-- A hold set (Table 6-5); PARENTAL is held while its reason set is not empty. -/
structure HoldSet where
  signal : Bool
  entitlement : Bool
  keyLapse : Bool
  parental : Reasons
  deriving DecidableEq, Repr

/-- A current binding with the hold set of its destination. -/
structure Binding where
  ctx : CtxNo
  hold : HoldSet
  deriving DecidableEq, Repr

/-- A pending binding with its wait deadline in part time (R100). -/
structure PendingBinding where
  ctx : CtxNo
  wait : Nat
  hold : HoldSet
  deriving DecidableEq, Repr

/-- The bindings of a presentation output (R100). -/
structure OutBind where
  current : Option Binding
  pending : Option PendingBinding
  deriving DecidableEq, Repr

/-- A capture tag record (R100); a BOUND tag is started when its wait deadline is absent. -/
inductive TagRec where
  | idle
  | bound (ctx : CtxNo) (wait : Option Nat) (hold : HoldSet)
  | draining (ctx : CtxNo)
  deriving DecidableEq, Repr

/-- The context controller. -/
structure Ctl where
  contexts : Vector Context 16
  outputs : Vector OutBind 2
  tags : Vector TagRec 8
  limit : Nat
  deriving DecidableEq, Repr

/-! ### Parental unit -/

/-- A quiet window (start W, length D). -/
structure Window where
  start : Nat
  length : Nat
  deriving DecidableEq, Repr

/-- A profile (Table 7-1); a policy is true for HOLD. -/
structure Profile where
  limits : Vector Nat 8
  unratedHold : Bool
  adultHold : Bool
  windows : List Window
  timeUnknownHold : Bool
  pin : Option Pin
  failures : Nat
  lockoutEnd : Option Nat
  deriving DecidableEq, Repr

/-- A locked service (R128); bit p of `mask` is profile p. -/
structure LockedService where
  service : Nat
  mask : BitVec 4
  deriving DecidableEq, Repr

/-- The programme a grant lifts (Table 7-2). -/
inductive GrantKey where
  | tuner (service : Nat)
  | pb (tag : Nat)
  deriving DecidableEq, Repr

/-- The scope of a grant (Table 7-2). -/
inductive GrantScope where
  | event (id : Option Nat)
  | minutes (endsAt : Nat)
  deriving DecidableEq, Repr

/-- An unlock grant (Table 7-2). -/
structure Grant where
  output : OutputNo
  key : GrantKey
  profile : ProfileNo
  scope : GrantScope
  deriving DecidableEq, Repr

/-- Ends of a grant (Table 7-6). -/
inductive GrantEnd where
  | minutes | event | binding | profile | revoked | displaced
  deriving DecidableEq, Repr

/-- The parental unit. -/
structure Parental where
  table : Vector (Vector Nat 64) 8
  profiles : Vector Profile 4
  binding : Vector (Option ProfileNo) 2
  locked : List LockedService
  grants : List Grant
  lock : Bool
  deriving DecidableEq, Repr

/-! ### Output unit -/

/-- A packet in a presentation queue (R151). -/
structure QueuedPacket where
  packet : List Byte
  arrival : BitVec 32
  ctx : CtxNo
  deriving DecidableEq, Repr

/-- A placed switch marker (R151). -/
structure Marker where
  ctx : CtxNo
  input : Input
  service : Nat
  components : List Component
  ahead : Nat
  deriving DecidableEq, Repr

/-- A presentation output (R151, Table 8-1, R154). -/
structure Output where
  queue : List QueuedPacket
  marker : Option Marker
  overflowMark : Bool
  markerCount : Nat
  packetsSent : Nat
  markersSent : Nat
  fillerSent : Nat
  overflowDiscards : Nat
  stampsCorrected : Nat
  stampFaults : Nat
  rate : Nat
  paceStart : Nat
  paceIndex : Nat
  deriving DecidableEq, Repr

/-- A packet in the capture queue (R158). -/
structure CapturePacket where
  packet : List Byte
  tag : TagNo
  ctx : CtxNo
  deriving DecidableEq, Repr

/-- The capture record of a tag (R159). -/
structure CaptureRec where
  captured : Nat
  lost : Nat
  sent : Nat
  lossMark : Bool
  deriving DecidableEq, Repr

/-- The arbiter's counts of packets sent (R162). -/
structure ArbiterCounts where
  answers : Nat
  notices : Nat
  capture : Nat
  delivery : Nat
  filler : Nat
  deriving DecidableEq, Repr

/-- The output unit. -/
structure Out where
  outputs : Vector Output 2
  capture : List CapturePacket
  captureCount : Vector Nat 16
  records : Vector CaptureRec 8
  sent : ArbiterCounts
  run : Nat
  deriving DecidableEq, Repr

/-! ### Management unit -/

/-- Outcome codes (Table 9-2), in the order of their codes. -/
inductive OutcomeCode where
  | done | accepted | already | noRoom | tableFull | tagBusy | badParam | unknownOrder | malformed | writeOnce
  | noPin | wrongPin | lockedOut | notBound | notFound
  deriving DecidableEq, Repr

/-- An answer (R172). -/
structure Answer where
  code : Byte
  tag : Byte
  outcome : OutcomeCode
  adjusted : Bool
  results : List Byte
  deriving DecidableEq, Repr

/-- Causes of READY (R168). -/
inductive ReadyCause where
  | pinReset | restart
  deriving DecidableEq, Repr

/-- Notices (Table 9-5). The fuses of READY are absent while DISABLED. -/
inductive Notice where
  | ready (cause : ReadyCause) (fuses : Option Fuses)
  | port (input : Input) (state : PortState)
  | tuneDone (dest : Dest) (ctx : CtxNo) (input : Input) (service : Nat) (hold : HoldSet)
  | tuneFailed (dest : Dest) (ctx : CtxNo) (input : Input) (service : Nat) (reason : FailReason)
  | superseded (output : OutputNo) (ctx : CtxNo) (input : Input) (service : Nat)
  | hold (dest : Dest) (ctx : CtxNo) (hold : HoldSet)
  | tagFree (tag : TagNo)
  | event (service : Nat) (previous new : Option Nat)
  | clockSet (n : Nat) (offset : Int)
  | clockJump (n : Nat) (offset : Int) (previous : Nat)
  | exception (kind : ExceptionKind) (input : Input) (stream : Nat) (tier : Option Nat)
  | overflow
  | lockout (profile : ProfileNo) (lockoutEnd : Nat)
  | grantEnd (output : OutputNo) (key : GrantKey) (profile : ProfileNo) (cause : GrantEnd)
  | outputOverflow (output : OutputNo) (discards : Nat)
  | captureLoss (tag : TagNo) (lost : Nat)
  deriving DecidableEq, Repr

/-- The notice queue (R173). -/
structure NoticeQueue where
  queue : List Notice
  missed : Bool
  deriving DecidableEq, Repr

/-- An order packet in the management buffer with its decode position (R169). -/
structure OrderPacket where
  payload : List Byte
  position : Nat
  deriving DecidableEq, Repr

/-- The management unit (Table 9-1), less the notice queue. -/
structure Mgmt where
  ready : Bool
  buffer : List OrderPacket
  answers : List Answer
  overrun : Nat
  cause : ReadyCause
  restarting : Bool
  deriving DecidableEq, Repr

/-- The output links: the continuity counts of the part's own streams (R180) and the packet last sent on each. -/
structure Link where
  answerCount : Nat
  noticeCount : Nat
  deliveryCount : Nat
  hlOut : Option (List Byte)
  po : Vector (Option (List Byte)) 2
  deriving DecidableEq, Repr

/-- Reference cycles since the release of RESETN, and the 27 MHz counter. -/
structure TimeBase where
  cycles : Nat
  counter : BitVec 32
  deriving DecidableEq, Repr

/-- The part, and the queue of the commands that wait. -/
structure State where
  pending : List Instr
  time : TimeBase
  intake : Intake
  table : List Entry
  sections : Sections
  clock : Clock
  guide : Guide
  access : Access
  ctl : Ctl
  parental : Parental
  out : Out
  notices : NoticeQueue
  mgmt : Mgmt
  link : Link
  deriving DecidableEq, Repr

/-- Faults. No rule of the data book stops the part, so there is none. -/
inductive Fault where
  deriving DecidableEq, Repr

/-- Refusals. -/
inductive Refusal where
  /-- Raised by an arm of exec for a command without a meaning yet: safe, nothing is claimed of it. -/
  | notModelled (mnemonic : String)
  deriving DecidableEq, Repr

/-! ### Values after pin reset -/

def PortStats.zero : PortStats := ⟨0, 0, 0, 0, 0⟩

def SectionStats.zero : SectionStats := ⟨0, 0, 0, 0, 0⟩

def DescramblerStats.zero : DescramblerStats := ⟨0, 0, 0, 0, 0⟩

/-- The sync record an input has after a reset, by its lock line (R7). HL-in has no lock line and is SEEKING (R8). -/
def SyncRec.ofLock (high : Bool) : SyncRec :=
  { state := if high then .seeking else .down, goodRun := 0, badRun := 0 }

/-- The intake at the release of RESETN, by the lock lines (R7, R8, R10). -/
def Intake.ofLocks (locks : Vector Bool 4) : Intake :=
  { lock := locks
    sync := #v[.ofLock locks[0], .ofLock locks[1], .ofLock locks[2], .ofLock locks[3], .ofLock true]
    forming := Vector.replicate 5 none
    stats := #v[.zero, .zero, .zero, .zero, .zero] }

def Pins.none : Pins := ⟨false, false, false, false, 0⟩

/-- The fixed entry of a tuner port (R19). -/
def Entry.fixed (p : PortNo) : Entry :=
  { input := p.castSucc, stream := 0x0010, role := .sections, users := [], pins := { Pins.none with index := true },
    lastCount := none, duplicate := false, gaps := 0, assembly := .idle, starve := 0 }

/-- The stream table after either reset (R19). -/
def fixedTable : List Entry :=
  [.fixed 0, .fixed 1, .fixed 2, .fixed 3]

def PortIndex.empty : PortIndex := ⟨none, none, 0, 0⟩

/-- A FREE context with an absent last failure (R99). -/
def Context.empty : Context :=
  { state := .free, input := 0, service := 0, mapStream := none, mapVersion := none, components := [],
    entryComponent := none, mapRatings := [], keyStream := none, slot := none, play := none, deadline := none,
    drain := 0, malformed := 0, overflow := 0, refused := 0, lastFailure := none }

def OutBind.empty : OutBind := ⟨none, none⟩

def Reasons.none : Reasons := ⟨false, false, false, false, false⟩

def HoldSet.none : HoldSet := ⟨false, false, false, .none⟩

/-- A profile after pin reset (Table 7-1). -/
def Profile.initial : Profile :=
  { limits := Vector.replicate 8 15, unratedHold := false, adultHold := true, windows := [], timeUnknownHold := false,
    pin := none, failures := 0, lockoutEnd := none }

/-- A presentation output after pin reset (R151, R154). -/
def Output.initial : Output :=
  { queue := [], marker := none, overflowMark := false, markerCount := 0, packetsSent := 0, markersSent := 0,
    fillerSent := 0, overflowDiscards := 0, stampsCorrected := 0, stampFaults := 0, rate := 20000, paceStart := 0,
    paceIndex := 0 }

def CaptureRec.zero : CaptureRec := ⟨0, 0, 0, false⟩

def ArbiterCounts.zero : ArbiterCounts := ⟨0, 0, 0, 0, 0⟩

/-- The part right after the release of RESETN with every lock line low (log 4), the fuse read in progress. -/
def State.reset : State where
  pending := []
  time := { cycles := 0, counter := 0 }
  intake := .ofLocks #v[false, false, false, false]
  table := fixedTable
  sections :=
    { freeBlocks := 512, filters := Vector.replicate 24 none, queue := [], released := false, trigger := 1,
      timeout := 20, nextNumber := 0, stats := Vector.replicate 5 .zero }
  clock :=
    { uptime := 0, net := none, minute := none, change := none, candidate := none, source := none, malformed := 0,
      steps := 0, jumps := 0 }
  guide :=
    { index := Vector.replicate 4 .empty, list := [], listVersion := none, listOverflow := 0, listMalformed := 0,
      events := [], droppedFull := 0, evicted := 0, outside := 0, malformed := 0, tracked := [], source := none }
  access :=
    { reading := true, fuses := none, home := none, sources := Vector.replicate 2 none, unreadable := 0,
      notAddressed := 0, accepted := 0, applied := 0, unitSeq := none, groups := [], entitlements := [], log := [],
      overflow := false, slots := Vector.replicate 16 none, stats := Vector.replicate 5 .zero }
  ctl :=
    { contexts := Vector.replicate 16 .empty, outputs := Vector.replicate 2 .empty, tags := Vector.replicate 8 .idle,
      limit := 3000 }
  parental :=
    { table := Vector.replicate 8 (Vector.replicate 64 15), profiles := Vector.replicate 4 .initial,
      binding := Vector.replicate 2 none, locked := [], grants := [], lock := false }
  out :=
    { outputs := Vector.replicate 2 .initial, capture := [], captureCount := Vector.replicate 16 0,
      records := Vector.replicate 8 .zero, sent := .zero, run := 0 }
  notices := { queue := [], missed := false }
  mgmt := { ready := false, buffer := [], answers := [], overrun := 0, cause := .pinReset, restarting := false }
  link := { answerCount := 0, noticeCount := 0, deliveryCount := 0, hlOut := none, po := Vector.replicate 2 none }

end Sys2Proof.Machine
end

