-- ==== Sys2Proof/Machine/Operands.lean ====
section
/-! DEFINITION. The byte layouts the part reads and writes: fields of bytes (R178), transport packets (R179), section
headers and their CRC (R29, R181), section bodies (R182 to R184) and the part's own packets (R185 to R189). -/

namespace Sys2Proof.Machine

/-! ### Fields -/

/-- Byte `i` of a list as a number; past the end it reads 0. -/
def byteAt (l : List Byte) (i : Nat) : Nat :=
  (l.getD i 0).toNat

/-- Bit `k` of byte `i`. -/
def bitAt (l : List Byte) (i k : Nat) : Bool :=
  (l.getD i 0).getLsbD k

/-- Two bytes, most significant first (R178). -/
def field16 (l : List Byte) (i : Nat) : Nat :=
  byteAt l i * 256 + byteAt l (i + 1)

/-- Four bytes, most significant first (R178). -/
def field32 (l : List Byte) (i : Nat) : Nat :=
  field16 l i * 65536 + field16 l (i + 2)

/-- Two bytes as a signed number (R183). -/
def signed16 (l : List Byte) (i : Nat) : Int :=
  if field16 l i < 32768 then (field16 l i : Int) else (field16 l i : Int) - 65536

/-- The number a run of bytes stands for, most significant first. -/
def bytesValue (l : List Byte) : Nat :=
  l.foldl (fun acc b => acc * 256 + b.toNat) 0

/-- A 16-byte key at byte `i`. -/
def keyAt (l : List Byte) (i : Nat) : Key :=
  BitVec.ofNat 128 (bytesValue ((l.drop i).take 16))

def enc8 (n : Nat) : List Byte :=
  [BitVec.ofNat 8 n]

def enc16 (n : Nat) : List Byte :=
  [BitVec.ofNat 8 (n / 256), BitVec.ofNat 8 n]

def enc24 (n : Nat) : List Byte :=
  [BitVec.ofNat 8 (n / 65536), BitVec.ofNat 8 (n / 256), BitVec.ofNat 8 n]

def enc32 (n : Nat) : List Byte :=
  enc16 (n / 65536) ++ enc16 n

/-- A signed two-byte field (R187: the local offset). -/
def encSigned16 (z : Int) : List Byte :=
  enc16 (z % 65536).toNat

def encBool (b : Bool) : List Byte :=
  enc8 b.toNat

/-- A presence byte, bit k for the k-th optional field (Table 9-11). -/
def presence (bs : List Bool) : List Byte :=
  enc8 (bs.foldr (fun b acc => b.toNat + 2 * acc) 0)

/-- An optional field that keeps its place, its bytes 0 when absent (Table 9-11). -/
def encOpt {α : Type} (width : Nat) (enc : α → List Byte) : Option α → List Byte
  | none => List.replicate width 0
  | some a => enc a

/-- A list: a count byte, then its items (Table 9-11). -/
def encList {α : Type} (enc : α → List Byte) (l : List α) : List Byte :=
  enc8 l.length ++ l.flatMap enc

/-! ### Transport packets (Table 9-6) -/

def errorFlag (p : List Byte) : Bool := bitAt p 1 7

def startFlag (p : List Byte) : Bool := bitAt p 1 6

def streamNumber (p : List Byte) : Nat := byteAt p 1 % 32 * 256 + byteAt p 2

/-- Key phase: 0 clear, 1 reserved, 2 even, 3 odd. -/
def keyPhase (p : List Byte) : Nat := byteAt p 3 / 64

def adaptationPresent (p : List Byte) : Bool := bitAt p 3 5

def payloadPresent (p : List Byte) : Bool := bitAt p 3 4

def continuityCount (p : List Byte) : Nat := byteAt p 3 % 16

/-- The adaptation length A. -/
def adaptationLength (p : List Byte) : Nat := byteAt p 4

/-- The clock stamp flag, read when A ≥ 1. -/
def stampFlag (p : List Byte) : Bool :=
  adaptationPresent p && decide (1 ≤ adaptationLength p) && bitAt p 5 6

/-- An adaptation area that does not fit, or whose stamp lies beyond A (R179). -/
def faultyAdaptation (p : List Byte) : Bool :=
  adaptationPresent p &&
    (decide ((if payloadPresent p then 182 else 183) < adaptationLength p) ||
      (stampFlag p && decide (adaptationLength p < 7)))

/-- The entry mark; a faulty adaptation area is not read (R179). -/
def entryMark (p : List Byte) : Bool :=
  adaptationPresent p && !faultyAdaptation p && decide (1 ≤ adaptationLength p) && bitAt p 5 7

/-- The six bytes of the clock stamp as one number. -/
def stampField (p : List Byte) : Nat :=
  bytesValue ((p.drop 6).take 6)

/-- The clock stamp (base, extension), when present and the adaptation area is readable. -/
def clockStamp (p : List Byte) : Option (Nat × Nat) :=
  if stampFlag p && !faultyAdaptation p then some (stampField p / 32768, stampField p % 512) else none

/-- A packet with its clock stamp replaced; the 6 bits between base and extension are kept (Table 9-6). -/
def withStamp (p : List Byte) (base ext : Nat) : List Byte :=
  let v := base * 32768 + (stampField p / 512 % 64) * 512 + ext
  p.take 6 ++ (enc16 (v / 4294967296) ++ enc32 v) ++ p.drop 12

/-- Where the payload begins: after the header and the adaptation area (R179). -/
def payloadStart (p : List Byte) : Nat :=
  if adaptationPresent p then 5 + adaptationLength p else 4

def payload (p : List Byte) : List Byte :=
  if payloadPresent p then p.drop (payloadStart p) else []

/-- A packet with its error flag set (R179). -/
def withErrorFlag (p : List Byte) : List Byte :=
  p.modify 1 (· ||| 0x80)

/-- The unit as the intake examines it: a faulty adaptation area sets the error flag (R179). -/
def asTaken (p : List Byte) : List Byte :=
  if faultyAdaptation p then withErrorFlag p else p

def withClearPhase (p : List Byte) : List Byte :=
  p.modify 3 (· &&& 0x3F)

/-- A packet renumbered (R158). -/
def withStream (p : List Byte) (n : Nat) : List Byte :=
  (p.modify 1 (fun b => (b &&& 0xE0) ||| BitVec.ofNat 8 (n / 256 % 32))).set 2 (BitVec.ofNat 8 n)

/-- A packet as it leaves the part: byte 1 bit 5 is 0 on output (Table 9-6). -/
def asSent (p : List Byte) : List Byte :=
  p.modify 1 (· &&& 0xDF)

/-- A packet descrambled with a key: its payload replaced byte for byte, its key phase clear (R93). -/
def descrambled (k : Key) (p : List Byte) : List Byte :=
  withClearPhase (p.take (payloadStart p) ++
    (payload p).mapIdx (fun i _ => Config.descrambledByte k (payload p) i))

/-- A unit is good-sync when it holds 188 bytes and begins with 0x47 (R1). -/
def goodSync (u : List Byte) : Bool :=
  u.length == 188 && byteAt u 0 == 0x47

/-- Bytes brought to a length with 0xFF (R179). -/
def padTo (n : Nat) (l : List Byte) : List Byte :=
  l.take n ++ List.replicate (n - l.length) 0xFF

/-- A packet the part makes itself: no adaptation area, key phase clear, payload present (R155, R186 to R189); its error and
start flags are free (log 8). -/
def ownPacket (stream count : Nat) (body : List Byte) : List Byte :=
  [0x47,
    BitVec.ofNat 8
      ((if Config.ownErrorFlag stream then 128 else 0) + (if Config.ownStartFlag stream then 64 else 0) +
        stream / 256 % 32),
    BitVec.ofNat 8 stream, BitVec.ofNat 8 (16 + count % 16)] ++ padTo 184 body

/-- Filler: stream 0x1FFF, continuity count 0, payload bytes 0xFF (R155). -/
def fillerPacket : List Byte :=
  ownPacket 0x1FFF 0 []

/-! ### Sections (Table 9-7) -/

/-- One bit of the CRC register (R29). -/
def crcShift (r : BitVec 32) : BitVec 32 :=
  if r.msb then (r <<< 1) ^^^ 0x04C11DB7 else r <<< 1

/-- One byte of the CRC, most significant bit first (R29). -/
def crcByte (r : BitVec 32) (b : Byte) : BitVec 32 :=
  Nat.repeat crcShift 8 (r ^^^ (b.setWidth 32 <<< 24))

/-- The CRC-32 register after a run of bytes; a good section leaves 0 (R29). -/
def crc32 (l : List Byte) : BitVec 32 :=
  l.foldl crcByte 0xFFFFFFFF

/-- The header fields of a section (Table 2-1). -/
structure SectionHeader where
  kind : Nat
  extension : Nat
  version : Nat
  current : Bool
  index : Nat
  lastIndex : Nat
  deriving DecidableEq, Repr

/-- The length L of a section from its first three bytes (R181). -/
def sectionLength (l : List Byte) : Nat :=
  byteAt l 1 % 16 * 256 + byteAt l 2

def sectionHeader (l : List Byte) : SectionHeader :=
  { kind := byteAt l 0, extension := field16 l 3, version := byteAt l 5 / 2 % 32, current := bitAt l 5 0,
    index := byteAt l 6, lastIndex := byteAt l 7 }

/-- The L − 9 bytes between the header and the CRC (R181). -/
def sectionBody (l : List Byte) : List Byte :=
  (l.drop 8).take (l.length - 12)

/-- The six header bytes host filters match, in order (R181: bytes 0, 3, 4, 5, 6, 7). -/
def matchedBytes (l : List Byte) : List Byte :=
  [l.getD 0 0, l.getD 3 0, l.getD 4 0, l.getD 5 0, l.getD 6 0, l.getD 7 0]

/-! ### Section bodies (R182 to R184) -/

/-- (service, map stream) pairs of a service index body; none when it is not whole pairs (R182). -/
def indexPairs : List Byte → Option (List (Nat × Nat))
  | [] => some []
  | a :: b :: c :: d :: l =>
    (indexPairs l).map ((a.toNat * 256 + b.toNat, c.toNat % 32 * 256 + d.toNat) :: ·)
  | _ => none

/-- Component kinds of a service map (Table 9-8). -/
def componentKind (n : Nat) : Option ComponentKind :=
  match n with
  | 1 => some .video
  | 2 => some .audio
  | 3 => some .subtitle
  | 4 => some .data
  | _ => none

/-- `count` ratings of two bytes each. -/
def readRatings (l : List Byte) (count : Nat) : List Rating :=
  (List.range count).map (fun i => { system := byteAt l (2 * i), code := byteAt l (2 * i + 1) })

/-- A service map (Table 9-8). -/
structure MapBody where
  keyStream : Option Nat
  ratings : List Rating
  components : List Component
  deriving DecidableEq, Repr

/-- The components of a map body, none when a kind names no value (R182). -/
def readComponents : List Byte → Option (List Component)
  | [] => some []
  | k :: a :: b :: l =>
    match componentKind k.toNat, readComponents l with
    | some kind, some cs => some ({ kind := kind, stream := a.toNat % 32 * 256 + b.toNat } :: cs)
    | _, _ => none
  | _ => none

/-- Reading a service map body (R182). -/
def readMap (l : List Byte) : Option MapBody :=
  let r := byteAt l 2
  let c := byteAt l (3 + 2 * r)
  if 3 < r || l.length != 4 + 2 * r + 3 * c then none
  else
    (readComponents (l.drop (4 + 2 * r))).map fun cs =>
      { keyStream := if bitAt l 0 7 then some (field16 l 0 % 8192) else none
        ratings := readRatings (l.drop 3) r
        components := cs }

/-- Records of a service list body; none when it is not whole records (R183). -/
def serviceRecords : List Byte → Option (List ServiceRec)
  | [] => some []
  | a :: b :: k :: f :: t :: l =>
    (serviceRecords l).map
      ({ service := a.toNat * 256 + b.toNat, kind := k.toNat, tier := if f.getLsbD 0 then some t.toNat else none,
         adult := f.getLsbD 1, seen := true } :: ·)
  | _ => none

/-- An event of an event table body; its rating count is as carried (R183). -/
structure EventBody where
  id : Nat
  start : Nat
  duration : Nat
  tier : Option Nat
  ratings : List Rating
  deriving DecidableEq, Repr

/-- Events of an event table body (R183); `fuel` is the body's length. -/
def eventBodies : Nat → List Byte → Option (List EventBody)
  | _, [] => some []
  | 0, _ => none
  | fuel + 1, l =>
    let n := byteAt l 10
    if l.length < 11 + 2 * n then none
    else
      (eventBodies fuel (l.drop (11 + 2 * n))).map
        ({ id := field16 l 0, start := field32 l 2, duration := field16 l 6,
           tier := if bitAt l 8 0 then some (byteAt l 9) else none, ratings := readRatings (l.drop 11) n } :: ·)

/-- The time fields of a time section (R183). -/
structure TimeBody where
  n : Nat
  offset : Int
  change : Option OffsetChange
  deriving DecidableEq, Repr

/-- Reading a time body: exactly 13 bytes (R183). -/
def readTime (l : List Byte) : Option TimeBody :=
  if l.length != 13 then none
  else
    some { n := field32 l 0, offset := signed16 l 4,
           change := if bitAt l 6 0 then some { n2 := field32 l 7, l2 := signed16 l 11 } else none }

/-- A key message (Table 9-9); the keys are still enciphered. -/
structure KeyBody where
  network : Nat
  tier : Nat
  seq : Nat
  even : Option Key
  odd : Option Key
  plain : List Byte
  check : BitVec 64
  deriving DecidableEq, Repr

/-- The check value of an access message body: its last 8 bytes (R184). -/
def bodyCheck (l : List Byte) : BitVec 64 :=
  BitVec.ofNat 64 (bytesValue (l.drop (l.length - 8)))

/-- The bytes a check value is computed over: every body byte before it (R184). -/
def bodyPlain (l : List Byte) : List Byte :=
  l.take (l.length - 8)

/-- Reading a key message body: exactly 46 bytes (R184). -/
def readKeyMessage (l : List Byte) : Option KeyBody :=
  if l.length != 46 then none
  else
    some { network := field16 l 0, tier := byteAt l 2, seq := field16 l 3,
           even := if bitAt l 5 0 then some (keyAt l 6) else none,
           odd := if bitAt l 5 1 then some (keyAt l 22) else none,
           plain := bodyPlain l, check := bodyCheck l }

/-- The address of an entitlement message (Table 9-10). -/
inductive AccessAddress where
  | unit (address : Nat)
  | group (id : Nat)
  deriving DecidableEq, Repr

/-- The instruction of an entitlement message; its keys are still enciphered (R184). -/
inductive AccessInstr where
  | grant (tier : Nat) (expiry : Option Nat) (key : Key)
  | revoke (tier : Nat)
  | groups (pairs : List (Nat × Key))
  | purge
  deriving DecidableEq, Repr

/-- An entitlement message (Table 9-10). -/
structure AccessBody where
  network : Nat
  address : AccessAddress
  seq : Nat
  instr : AccessInstr
  plain : List Byte
  check : BitVec 64
  deriving DecidableEq, Repr

/-- The address by its kind; none for a kind that is neither UNIT nor GROUP (R68, Table 9-10). -/
def readAddress (l : List Byte) : Option AccessAddress :=
  match byteAt l 2 with
  | 1 => some (.unit (field32 l 3))
  | 2 => some (.group (field16 l 5))
  | _ => none

/-- The instruction from its code and fields, which must take exactly the bytes given (R184). -/
def readInstr (code : Nat) (l : List Byte) : Option AccessInstr :=
  match code with
  | 1 =>
    if l.length = 22 then some (.grant (byteAt l 0) (if bitAt l 1 0 then some (field32 l 2) else none) (keyAt l 6))
    else none
  | 2 => if l.length = 1 then some (.revoke (byteAt l 0)) else none
  | 3 =>
    if l.length = 1 + 18 * byteAt l 0 then
      some (.groups ((List.range (byteAt l 0)).map (fun i => (field16 l (1 + 18 * i), keyAt l (3 + 18 * i)))))
    else none
  | 4 => if l.length = 0 then some .purge else none
  | _ => none

/-- Reading an entitlement message body: 12 bytes of fields, the instruction, 8 bytes of check (R184); an instruction
that carries no whole field list cannot be read. -/
def readAccess (l : List Byte) : Option AccessBody :=
  if l.length < 20 then none
  else
    match readAddress l, readInstr (byteAt l 11) ((l.drop 12).take (l.length - 20)) with
    | some address, some instr =>
      some { network := field16 l 0, address := address, seq := field32 l 7, instr := instr, plain := bodyPlain l,
             check := bodyCheck l }
    | _, _ => none

end Sys2Proof.Machine
end

