-- ==== Sys2Proof/Machine/Ops.lean ====
section
/-! DEFINITION. The named operations every block uses: reading and writing one of several like things, saturating
counts, the passing of time, notices, and the sending of a packet on a link. -/

namespace Sys2Proof.Machine

/-! ### Places of a vector -/

def getAt {α : Type} {n : Nat} (v : Vector α n) (i : Fin n) : α :=
  v.get i

def setAt {α : Type} {n : Nat} (v : Vector α n) (i : Fin n) (x : α) : Vector α n :=
  v.set i.val x i.isLt

def modAt {α : Type} {n : Nat} (v : Vector α n) (i : Fin n) (f : α → α) : Vector α n :=
  setAt v i (f (getAt v i))

/-! ### The numbered places of the part -/

def outputNos : List OutputNo := [0, 1]

def inputNos : List Input := [0, 1, 2, 3, 4]

def tagNos : List TagNo := [0, 1, 2, 3, 4, 5, 6, 7]

def ctxNos : List CtxNo := [0, 1, 2, 3, 4, 5, 6, 7, 8, 9, 10, 11, 12, 13, 14, 15]

def slotNos : List SlotNo := [0, 1, 2, 3, 4, 5, 6, 7, 8, 9, 10, 11, 12, 13, 14, 15]

def profileNos : List ProfileNo := [0, 1, 2, 3]

def filterNos : List FilterNo :=
  [0, 1, 2, 3, 4, 5, 6, 7, 8, 9, 10, 11, 12, 13, 14, 15, 16, 17, 18, 19, 20, 21, 22, 23]

/-- PB, the playback intake. -/
def pb : Input := 4

/-- The input of a tuner port. -/
def inputOf (p : PortNo) : Input := p.castSucc

/-- A number of an order parameter as one of `n` places, none when it is out of range. -/
def place (n : Nat) (v : Nat) : Option (Fin n) :=
  if h : v < n then some ⟨v, h⟩ else none

/-! ### Sets as bits -/

def bitOf {n : Nat} (i : Fin n) : BitVec n :=
  BitVec.twoPow n i.val

def hasBit {n : Nat} (s : BitVec n) (i : Fin n) : Bool :=
  s.getLsbD i.val

def addBit {n : Nat} (s : BitVec n) (i : Fin n) : BitVec n :=
  s ||| bitOf i

def dropBit {n : Nat} (s : BitVec n) (i : Fin n) : BitVec n :=
  s &&& ~~~(bitOf i)

/-- Whether an index 0..255 is in a 256-bit set. -/
def hasIndex (s : BitVec 256) (i : Nat) : Bool :=
  s.getLsbD i

def addIndex (s : BitVec 256) (i : Nat) : BitVec 256 :=
  s ||| BitVec.twoPow 256 i

/-! ### Saturating counts -/

/-- The top of a 32-bit count (R10). -/
def top32 : Nat := 4294967295

/-- The top of a 16-bit count (R12). -/
def top16 : Nat := 65535

/-- A count that stays at its top once it is reached (R10). -/
def bump (top n : Nat) : Nat :=
  if n < top then n + 1 else n

/-- A count raised several times. -/
def bumpBy (top n k : Nat) : Nat :=
  Nat.repeat (bump top) k n

/-! ### Time -/

def cyclesPerSecond : Nat := 27000000

def cyclesPerMs : Nat := 27000

/-- Part time: whole milliseconds since the release of RESETN (R99). -/
def State.partTime (s : State) : Nat :=
  s.time.cycles / cyclesPerMs

/-- Reference cycles pass. -/
def passCycles (k : Nat) (s : State) : State :=
  { s with time := { cycles := s.time.cycles + k, counter := s.time.counter + BitVec.ofNat 32 k } }

/-- Time moves forward to a moment; a moment already past leaves it as it is (log 2). -/
def advanceTo (t : Nat) (s : State) : State :=
  passCycles (t - s.time.cycles) s

/-! ### Reading the state -/

def State.context (s : State) (c : CtxNo) : Context := getAt s.ctl.contexts c

def State.slot (s : State) (k : SlotNo) : Option Slot := getAt s.access.slots k

def State.profile (s : State) (p : ProfileNo) : Profile := getAt s.parental.profiles p

def State.binding (s : State) (o : OutputNo) : OutBind := getAt s.ctl.outputs o

def State.tag (s : State) (t : TagNo) : TagRec := getAt s.ctl.tags t

def State.output (s : State) (o : OutputNo) : Output := getAt s.out.outputs o

/-- An input is UP; for HL-in, in sync (R8, R9). -/
def State.up (s : State) (i : Input) : Bool := (getAt s.intake.sync i).state == .up

/-! ### Writing the state -/

def State.setContext (s : State) (c : CtxNo) (x : Context) : State :=
  { s with ctl := { s.ctl with contexts := setAt s.ctl.contexts c x } }

def State.setSlot (s : State) (k : SlotNo) (x : Option Slot) : State :=
  { s with access := { s.access with slots := setAt s.access.slots k x } }

def State.setProfile (s : State) (p : ProfileNo) (x : Profile) : State :=
  { s with parental := { s.parental with profiles := setAt s.parental.profiles p x } }

def State.setBinding (s : State) (o : OutputNo) (x : OutBind) : State :=
  { s with ctl := { s.ctl with outputs := setAt s.ctl.outputs o x } }

def State.setTag (s : State) (t : TagNo) (x : TagRec) : State :=
  { s with ctl := { s.ctl with tags := setAt s.ctl.tags t x } }

def State.setOutput (s : State) (o : OutputNo) (x : Output) : State :=
  { s with out := { s.out with outputs := setAt s.out.outputs o x } }

def State.setSync (s : State) (i : Input) (x : SyncRec) : State :=
  { s with intake := { s.intake with sync := setAt s.intake.sync i x } }

/-- A count of an input's port statistics (R10). -/
def countPort (i : Input) (f : PortStats → PortStats) (s : State) : State :=
  { s with intake := { s.intake with stats := modAt s.intake.stats i f } }

/-- A count of an input's section statistics (R38). -/
def countSection (i : Input) (f : SectionStats → SectionStats) (s : State) : State :=
  { s with sections := { s.sections with stats := modAt s.sections.stats i f } }

/-- A count of an input's descrambler record (R97). -/
def countDescrambler (i : Input) (f : DescramblerStats → DescramblerStats) (s : State) : State :=
  { s with access := { s.access with stats := modAt s.access.stats i f } }

def countFraming (i : Input) (s : State) : State :=
  countSection i (fun r => { r with framing := bump top32 r.framing }) s

/-! ### Notices -/

/-- A notice joins the queue, or is discarded and sets the missed flag (R173). -/
def offer (n : Notice) (s : State) : State :=
  if s.notices.queue.length < 32 then
    { s with notices := { s.notices with queue := s.notices.queue ++ [n] } }
  else
    { s with notices := { s.notices with missed := true } }

/-- READY takes the head of the queue; a full queue loses its newest notice and sets the missed flag (R168). -/
def placeReady (s : State) : State :=
  let n := Notice.ready s.mgmt.cause s.access.fuses
  if s.notices.queue.length < 32 then
    { s with notices := { s.notices with queue := n :: s.notices.queue } }
  else
    { s with notices := { queue := n :: s.notices.queue.take 31, missed := true } }

/-! ### Answers -/

/-- What an owner returns for an order (R172). -/
structure Reply where
  outcome : OutcomeCode
  adjusted : Bool
  results : List Byte
  deriving DecidableEq, Repr

/-- A refusal, which carries no results (R172). -/
def refuse (o : OutcomeCode) : Reply :=
  { outcome := o, adjusted := false, results := [] }

/-- DONE with results. -/
def done (results : List Byte) : Reply :=
  { outcome := .done, adjusted := false, results := results }

/-- ACCEPTED with the context number (R101). -/
def acceptedFor (c : CtxNo) : Reply :=
  { outcome := .accepted, adjusted := false, results := enc8 c.val }

/-- The answer joins the tail of the answer queue (R171). -/
def pushAnswer (code tag : Byte) (r : Reply) (s : State) : State :=
  { s with mgmt := { s.mgmt with answers := s.mgmt.answers ++ [⟨code, tag, r.outcome, r.adjusted, r.results⟩] } }

/-- The management unit hands orders on: it is READY, no RESTART waits, and the answer queue has room (R167, R171,
R176). -/
def State.handsOn (s : State) : Bool :=
  s.mgmt.ready && !s.mgmt.restarting && decide (s.mgmt.answers.length < 16)

/-- The hand-over of an order to its owner, whose answer joins the queue (R171). Where the management unit hands no
order on, the order is not taken and nothing changes (log 1). -/
def handOver (code tag : Byte) (take : State → Reply × State) (s : State) : State :=
  if s.handsOn then pushAnswer code tag (take s).1 (take s).2 else s

/-! ### Links -/

/-- A packet leaves on HL-out. -/
def sendHlOut (p : List Byte) (s : State) : State :=
  { s with link := { s.link with hlOut := some p } }

/-- A packet leaves on a presentation output. -/
def sendPo (o : OutputNo) (p : List Byte) (s : State) : State :=
  { s with link := { s.link with po := setAt s.link.po o (some p) } }

end Sys2Proof.Machine
end

