-- ==== Sys2Proof/Machine/Table.lean ====
section
/-! DEFINITION. The stream table: users, additions and removals (R15 to R19), and the assembly an entry carries (R26). -/

namespace Sys2Proof.Machine

/-! ### Entries -/

/-- Admissible stream numbers of an input (R16). -/
def admissible (i : Input) (stream : Nat) : Bool :=
  if i = pb then decide (0x1000 ≤ stream) && decide (stream ≤ 0x11FF) else decide (stream ≤ 0x1FEF)

/-- The entry of a pair (input, stream number). -/
def isAt (i : Input) (stream : Nat) (e : Entry) : Bool :=
  e.input == i && e.stream == stream

def findEntry (i : Input) (stream : Nat) (s : State) : Option Entry :=
  s.table.find? (isAt i stream)

/-- The pinned mark: set while the entry holds at least one pin consumer (R15). -/
def Entry.pinned (e : Entry) : Bool :=
  e.pins.index || e.pins.access || e.pins.time || e.pins.guide || e.pins.filters != 0

/-- An entry with no context user and a clear pinned mark (R18). -/
def Entry.unused (e : Entry) : Bool :=
  e.users.isEmpty && !e.pinned

/-- The blocks an entry's assembly holds (R27). -/
def Entry.blocks (e : Entry) : Nat :=
  match e.assembly with
  | .collecting n _ _ => n
  | .idle | .skipping => 0

def blocksOf (es : List Entry) : Nat :=
  (es.map Entry.blocks).sum

def Purpose.slot? (p : Purpose) : Option SlotNo :=
  match p with
  | .keys k => some k
  | .component _ | .map => none

/-- The KEYS slot of an entry: at most one (R15). -/
def Entry.keysSlot (e : Entry) : Option SlotNo :=
  e.users.findSome? (fun u => u.purposes.findSome? Purpose.slot?)

/-- The contexts that hold MAP on an entry, in user order. -/
def Entry.mapUsers (e : Entry) : List CtxNo :=
  (e.users.filter (fun u => u.purposes.contains .map)).map CtxUser.ctx

/-- The contexts that hold a COMPONENT purpose, each with its first component index, in user order (R14). -/
def Entry.componentUsers (e : Entry) : List (CtxNo × Fin 8) :=
  e.users.filterMap fun u =>
    (u.purposes.findSome? (fun p => match p with | .component i => some i | .map | .keys _ => none)).map (u.ctx, ·)

def Entry.hasUser (c : CtxNo) (e : Entry) : Bool :=
  e.users.any (fun u => u.ctx == c)

/-! ### Pins -/

def Pins.holds (p : Pins) (c : PinConsumer) : Bool :=
  match c with
  | .index => p.index
  | .access => p.access
  | .time => p.time
  | .guide => p.guide
  | .filter f => hasBit p.filters f

def Pins.add (p : Pins) (c : PinConsumer) : Pins :=
  match c with
  | .index => { p with index := true }
  | .access => { p with access := true }
  | .time => { p with time := true }
  | .guide => { p with guide := true }
  | .filter f => { p with filters := addBit p.filters f }

/-- Taking a pin consumer away; INDEX stays, as it pins fixed entries only (R18, R19). -/
def Pins.drop (p : Pins) (c : PinConsumer) : Pins :=
  match c with
  | .index => p
  | .access => { p with access := false }
  | .time => { p with time := false }
  | .guide => { p with guide := false }
  | .filter f => { p with filters := dropBit p.filters f }

/-! ### Users of an entry -/

/-- A purpose is added to the context's record, which is created if absent (R17); users stand in context order
(log 10). -/
def addPurpose (c : CtxNo) (p : Purpose) : List CtxUser → List CtxUser
  | [] => [⟨c, [p]⟩]
  | u :: us =>
    if u.ctx = c then (if u.purposes.contains p then u :: us else ⟨c, u.purposes ++ [p]⟩ :: us)
    else if c < u.ctx then ⟨c, [p]⟩ :: u :: us
    else u :: addPurpose c p us

/-- A purpose is taken away; a record left with none goes (R18). -/
def dropPurpose (c : CtxNo) (p : Purpose) (us : List CtxUser) : List CtxUser :=
  us.filterMap fun u =>
    if u.ctx = c then
      let rest := u.purposes.filter (· != p)
      if rest.isEmpty then none else some ⟨c, rest⟩
    else some u

/-- What a request to add names besides the stream and the role (R17). -/
inductive UserReq where
  | ctx (c : CtxNo) (p : Purpose)
  | pin (p : PinConsumer)
  deriving DecidableEq, Repr

def Entry.add (r : UserReq) (e : Entry) : Entry :=
  match r with
  | .ctx c p => { e with users := addPurpose c p e.users }
  | .pin p => { e with pins := e.pins.add p }

/-- A KEYS purpose whose slot differs from the entry's present KEYS slot (R17). -/
def Entry.slotConflict (r : UserReq) (e : Entry) : Bool :=
  match r with
  | .ctx _ (.keys k) =>
    match e.keysSlot with
    | some k' => k' != k
    | none => false
  | .ctx _ (.component _) | .ctx _ .map | .pin _ => false

/-- A new entry with its one user (R17). -/
def newEntry (i : Input) (stream : Nat) (role : Role) (r : UserReq) : Entry :=
  Entry.add r
    { input := i, stream := stream, role := role, users := [], pins := .none, lastCount := none, duplicate := false,
      gaps := 0, assembly := .idle, starve := 0 }

/-- Results of an addition (R17, Table 1-6). -/
inductive AddResult where
  | granted | tableFull | conflict | inadmissible
  deriving DecidableEq, Repr

/-- The answer of an order whose addition is refused (Table 1-6). -/
def AddResult.outcome (r : AddResult) : OutcomeCode :=
  match r with
  | .granted => .done
  | .tableFull => .tableFull
  | .conflict | .inadmissible => .badParam

/-- The first item that meets a test is changed in place. -/
def updateFirst {α : Type} (hit : α → Bool) (f : α → α) : List α → List α
  | [] => []
  | a :: l => if hit a then f a :: l else a :: updateFirst hit f l

/-- The entry of a pair is changed in place. -/
def modifyEntry (i : Input) (stream : Nat) (f : Entry → Entry) (s : State) : State :=
  { s with table := updateFirst (isAt i stream) f s.table }

/-- A request to add a user (R17). -/
def addUser (i : Input) (stream : Nat) (role : Role) (r : UserReq) (s : State) : AddResult × State :=
  match findEntry i stream s with
  | some e =>
    if e.role ≠ role then (.conflict, s)
    else if e.slotConflict r then (.conflict, s)
    else (.granted, modifyEntry i stream (Entry.add r) s)
  | none =>
    if !admissible i stream then (.inadmissible, s)
    else if 192 ≤ s.table.length then (.tableFull, s)
    else (.granted, { s with table := s.table ++ [newEntry i stream role r] })

/-- Users are removed from entries; an entry left unused is removed and the blocks of its assembly are freed (R18,
R26). -/
def removeUsers (hit : Entry → Bool) (f : Entry → Entry) (s : State) : State :=
  let gone := fun e => hit e && (f e).unused
  { s with
    table := (s.table.filter (fun e => !gone e)).map (fun e => if hit e then f e else e)
    sections := { s.sections with freeBlocks := s.sections.freeBlocks + blocksOf (s.table.filter gone) } }

/-- Removing a purpose of a context (R18). -/
def removePurpose (i : Input) (stream : Nat) (c : CtxNo) (p : Purpose) (s : State) : State :=
  removeUsers (isAt i stream) (fun e => { e with users := dropPurpose c p e.users }) s

/-- Removing a whole context from every entry it uses (R18, R114). -/
def removeContext (c : CtxNo) (s : State) : State :=
  removeUsers (Entry.hasUser c) (fun e => { e with users := e.users.filter (fun u => u.ctx != c) }) s

/-- Removing a pin consumer (R18). -/
def removePin (i : Input) (stream : Nat) (p : PinConsumer) (s : State) : State :=
  removeUsers (isAt i stream) (fun e => { e with pins := e.pins.drop p }) s

/-- The entry of a pair holds a pin consumer. -/
def holdsPin (i : Input) (stream : Nat) (p : PinConsumer) (s : State) : Bool :=
  match findEntry i stream s with
  | some e => e.pins.holds p
  | none => false

/-! ### Assemblies -/

/-- Abandoning the section in progress on the entry of a pair: its blocks are freed and it is SKIPPING (R26). -/
def abandon (i : Input) (stream : Nat) (s : State) : State :=
  match findEntry i stream s with
  | none => s
  | some e =>
    let s := { s with sections := { s.sections with freeBlocks := s.sections.freeBlocks + e.blocks } }
    modifyEntry i stream (fun e => { e with assembly := .skipping }) s

/-- Whether a section is in progress. -/
def Assembly.inProgress (a : Assembly) : Bool :=
  match a with
  | .collecting _ _ _ => true
  | .idle | .skipping => false

/-- An entry whose port has left UP (R5): its continuity record is absent, and an assembly in progress is abandoned
(log 21). -/
def Entry.leftUp (e : Entry) : Entry :=
  { e with
    lastCount := none
    duplicate := false
    assembly := if e.assembly.inProgress then .skipping else e.assembly }

/-- What the intake does to a port's entries when it leaves UP (R5). -/
def clearPortRecords (i : Input) (s : State) : State :=
  { s with
    table := s.table.map (fun e => if e.input == i then e.leftUp else e)
    sections := { s.sections with
      freeBlocks := s.sections.freeBlocks + blocksOf (s.table.filter (fun e => e.input == i)) } }

end Sys2Proof.Machine
end

