-- ==== Sys2Proof/Machine/Flags.lean ====
section
/-! DEFINITION. The marks that are computed from the state: the current event (R63), required tiers (R105), the viewing
verdict (R130 to R135), hold sets and their notices (R115 to R118), and the end of grants (R141). -/

namespace Sys2Proof.Machine

/-! ### What contexts read of the guide and of the entitlements -/

/-- The end of an event (Table 3-6). -/
def Event.stop (e : Event) : Nat :=
  e.start + 60 * e.duration

/-- The current event of a service: the stored event whose interval contains N (R63). -/
def currentEvent (s : State) (service : Nat) : Option Event :=
  match s.clock.net with
  | none => none
  | some t => s.guide.events.find? fun e =>
      e.service == service && decide (e.start ≤ t.n) && decide (t.n < e.stop)

/-- The recorded current event id of a tracked service (R63); none when the service is not tracked. -/
def trackedRec (s : State) (service : Nat) : Option Tracked :=
  s.guide.tracked.find? (fun t => t.service == service)

/-- The current event the verdict of a tuner context reads: the tracked one of a RUNNING context, else the store as it
stands (R131). -/
def verdictEvent (s : State) (x : Context) : Option Event :=
  if x.state = .running then
    match (trackedRec s x.service).bind Tracked.id with
    | some id => s.guide.events.find? (fun e => e.service == x.service && e.id == id)
    | none => none
  else currentEvent s x.service

def serviceRec (s : State) (service : Nat) : Option ServiceRec :=
  s.guide.list.find? (fun r => r.service == service)

/-- The entitlement list holds a tier (R71). -/
def tierHeld (s : State) (tier : Nat) : Bool :=
  s.access.entitlements.any (fun r => r.tier == tier)

/-- The required tiers of a context that are present (R105); a PB context has none. -/
def requiredTiers (s : State) (x : Context) : List Nat :=
  if x.input = pb then []
  else ((serviceRec s x.service).bind ServiceRec.tier).toList ++ ((currentEvent s x.service).bind Event.tier).toList

/-- The key slot of a context. -/
def slotOf (s : State) (x : Context) : Option Slot :=
  x.slot.bind s.slot

/-! ### Hold reasons -/

/-- The ENTITLEMENT reason (R116). -/
def entitlementReason (s : State) (x : Context) : Bool :=
  (requiredTiers s x).any (fun t => !tierHeld s t) ||
    match slotOf s x with
    | none => false
    | some k => k.refused || k.tier.any (fun t => !tierHeld s t)

/-- The KEY_LAPSE reason (R115). -/
def keyLapseReason (s : State) (x : Context) : Bool :=
  (slotOf s x).any Slot.lapsed

/-- The key a grant must have to serve a context (R135). -/
def grantKey (x : Context) : GrantKey :=
  if x.input = pb then .pb x.service else .tuner x.service

/-- The level of a rating entry of system 0..7 (R125); codes beyond the table are 15. -/
def ratingLevel (s : State) (system : Fin 8) (code : Nat) : Nat :=
  match place 64 code with
  | some k => getAt (getAt s.parental.table system) k
  | none => 15

/-- The entry set E of a context (R131): map ratings, then those of the current event or of PLAY, less the systems
from 8 up. -/
def ratingEntries (s : State) (x : Context) : List Rating :=
  (x.mapRatings ++
    (if x.input = pb then ((x.play.map PlayInfo.ratings).getD []) else ((verdictEvent s x).map Event.ratings).getD [])).filter
    (fun r => decide (r.system < 8))

/-- A rating entry whose level is above the profile's limit (R132). -/
def aboveLimit (s : State) (p : Profile) (r : Rating) : Bool :=
  match place 8 r.system with
  | some k => decide (getAt p.limits k < ratingLevel s k r.code)
  | none => false

/-- A programme marked adult (R133). -/
def markedAdult (s : State) (x : Context) : Bool :=
  if x.input = pb then x.play.any PlayInfo.adult else (serviceRec s x.service).any ServiceRec.adult

/-- A minute of week inside a quiet window (R134). -/
def insideWindow (m : Nat) (w : Window) : Bool :=
  decide (((m : Int) - (w.start : Int)) % 10080 < (w.length : Int))

/-- QUIET (R134). -/
def quietReason (s : State) (p : Profile) : Bool :=
  match s.clock.net, s.clock.minute with
  | some _, some m => p.windows.any (insideWindow m)
  | _, _ => p.timeUnknownHold && !p.windows.isEmpty

/-- The verdict of a context on an output bound to profile `p`, before grants (R131 to R134). -/
def profileReasons (s : State) (x : Context) (p : ProfileNo) : Reasons :=
  { rating := (ratingEntries s x).any (aboveLimit s (s.profile p))
    unrated := (ratingEntries s x).isEmpty && (s.profile p).unratedHold
    adult := (s.profile p).adultHold && markedAdult s x
    locked := x.input != pb && s.parental.locked.any (fun l => l.service == x.service && hasBit l.mask p)
    quiet := quietReason s (s.profile p) }

/-- A grant serves (output, key, profile) (R135). -/
def Grant.serves (g : Grant) (o : OutputNo) (k : GrantKey) (p : ProfileNo) : Bool :=
  g.output == o && g.key == k && g.profile == p

/-- The viewing verdict of a pair (R131 to R135); no reason is PASS. -/
def verdict (s : State) (c : CtxNo) (o : OutputNo) : Reasons :=
  match getAt s.parental.binding o with
  | none => .none
  | some p =>
    if s.parental.grants.any (fun g => g.serves o (grantKey (s.context c)) p) then .none
    else profileReasons s (s.context c) p

/-! ### Hold sets -/

/-- A destination receives packets only while its hold set is empty (R117). -/
def HoldSet.isEmpty (h : HoldSet) : Bool :=
  h == .none

/-- Which reasons a report lets the context controller judge again (R115). -/
structure Which where
  signal : Bool
  entitlement : Bool
  keyLapse : Bool
  parental : Bool
  deriving DecidableEq, Repr

def judgeAll : Which := ⟨true, true, true, true⟩

def judgeSignal : Which := ⟨true, false, false, false⟩

def judgeEntitlement : Which := ⟨false, true, false, false⟩

/-- What a slot report touches (R115, R116). -/
def judgeSlot : Which := ⟨false, true, true, false⟩

def judgeVerdict : Which := ⟨false, false, false, true⟩

/-- The hold set of destination `d` of context `c` with the named reasons judged again; a capture destination holds
only SIGNAL and ENTITLEMENT (R115). -/
def judged (s : State) (w : Which) (c : CtxNo) (d : Dest) (old : HoldSet) : HoldSet :=
  { signal := if w.signal then !s.up (s.context c).input else old.signal
    entitlement := if w.entitlement then entitlementReason s (s.context c) else old.entitlement
    keyLapse :=
      match d with
      | .output _ => if w.keyLapse then keyLapseReason s (s.context c) else old.keyLapse
      | .tag _ => false
    parental :=
      match d with
      | .output o => if w.parental then verdict s c o else old.parental
      | .tag _ => .none }

/-- The active hold set of an output is judged again; a change sends a HOLD notice (R118). -/
def rejudgeCurrent (w : Which) (p : CtxNo → Bool) (o : OutputNo) (s : State) : State :=
  match (s.binding o).current with
  | none => s
  | some b =>
    let h := judged s w b.ctx (.output o) b.hold
    if p b.ctx && h != b.hold then
      offer (.hold (.output o) b.ctx h) (s.setBinding o { s.binding o with current := some { b with hold := h } })
    else s

/-- The hold set of a pending binding is judged again; it sends no notice (R118). -/
def rejudgePending (w : Which) (p : CtxNo → Bool) (o : OutputNo) (s : State) : State :=
  match (s.binding o).pending with
  | none => s
  | some b =>
    if p b.ctx then
      s.setBinding o
        { s.binding o with pending := some { b with hold := judged s w b.ctx (.output o) b.hold } }
    else s

def rejudgeOutput (w : Which) (p : CtxNo → Bool) (o : OutputNo) (s : State) : State :=
  rejudgePending w p o (rejudgeCurrent w p o s)

/-- The hold set of a tag is judged again; a change sends a HOLD notice when capture has started (R118). -/
def rejudgeTag (w : Which) (p : CtxNo → Bool) (t : TagNo) (s : State) : State :=
  match s.tag t with
  | .idle | .draining _ => s
  | .bound c wait old =>
    let h := judged s w c (.tag t) old
    if p c && h != old then
      let s := s.setTag t (.bound c wait h)
      if wait.isNone then offer (.hold (.tag t) c h) s else s
    else s

/-- The reasons named are judged again on every destination of the contexts that meet the test: the outputs, then the
tags (log 41). -/
def rejudge (w : Which) (p : CtxNo → Bool) (s : State) : State :=
  tagNos.foldl (fun s t => rejudgeTag w p t s) (outputNos.foldl (fun s o => rejudgeOutput w p o s) s)

/-- Verdicts of the pairs whose context meets the test are computed again (R136). -/
def rejudgeVerdicts (p : CtxNo → Bool) (s : State) : State :=
  outputNos.foldl (fun s o => rejudgeOutput judgeVerdict p o s) s

/-- Both pairs of an output are computed again (R136). -/
def rejudgePairs (o : OutputNo) (s : State) : State :=
  rejudgeOutput judgeVerdict (fun _ => true) o s

/-- A tuner context on a service (R136); a FREE or RETIRING context has no destination. -/
def onService (s : State) (service : Nat) (c : CtxNo) : Bool :=
  (s.context c).input != pb && (s.context c).service == service

/-- A RUNNING tuner context on a service (R63). -/
def runningOn (s : State) (service : Nat) (c : CtxNo) : Bool :=
  onService s service c && (s.context c).state == .running

/-! ### The end of grants -/

/-- Grants that meet a test are removed, each with its GRANT_END notice (R141), the oldest first (log 47); the
verdicts are computed by the caller. -/
def endGrants (hit : Grant → Bool) (cause : GrantEnd) (s : State) : State :=
  (s.parental.grants.filter hit).foldl (fun s g => offer (.grantEnd g.output g.key g.profile cause) s)
    { s with parental := { s.parental with grants := s.parental.grants.filter (fun g => !hit g) } }

/-- Grants end, and after all of their notices both pairs of each output that lost one are computed again (R141; log 47). -/
def endGrantsAndJudge (hit : Grant → Bool) (cause : GrantEnd) (s : State) : State :=
  (outputNos.filter (fun o => s.parental.grants.any (fun g => hit g && g.output == o))).foldl
    (fun s o => rejudgePairs o s) (endGrants hit cause s)

end Sys2Proof.Machine
end

