-- ==== Sys2Proof/Machine/Queues.lean ====
section
/-! DEFINITION. What enters the output unit: handovers to the presentation and capture queues (R152, R158, R159) and
the placing of a switch marker (R153). -/

namespace Sys2Proof.Machine

/-- The drain count of a context rises by 1 (R161). -/
def raiseDrain (c : CtxNo) (s : State) : State :=
  s.setContext c { s.context c with drain := (s.context c).drain + 1 }

/-- A presentation copy joins an output's queue, or is discarded by a full one (R152). -/
def handToOutput (o : OutputNo) (c : CtxNo) (packet : List Byte) (arrival : BitVec 32) (s : State) : State :=
  let x := s.output o
  if x.queue.length < 64 then
    raiseDrain c (s.setOutput o { x with queue := x.queue ++ [⟨packet, arrival, c⟩] })
  else
    let discards := bump top32 x.overflowDiscards
    let s := s.setOutput o { x with overflowDiscards := discards, overflowMark := true }
    if x.overflowMark then s else offer (.outputOverflow o discards) s

/-- A switch marker takes the empty marker place of an output (R153). -/
def placeMarker (o : OutputNo) (c : CtxNo) (s : State) : State :=
  let x := s.context c
  s.setOutput o
    { s.output o with
      marker := some
        { ctx := c, input := x.input, service := x.service, components := x.components,
          ahead := (s.output o).queue.length } }

def State.captureRec (s : State) (t : TagNo) : CaptureRec := getAt s.out.records t

def State.setCaptureRec (s : State) (t : TagNo) (r : CaptureRec) : State :=
  { s with out := { s.out with records := setAt s.out.records t r } }

/-- The stream number of a tag's slot on HL-out and HL-in (R16). -/
def captureStream (t : Nat) (slot : Nat) : Nat :=
  0x1000 + t * 64 + slot

/-- A raw packet is renumbered and joins the capture queue, or is refused by the queue or the context's share and
counted against its tag (R158, R159). -/
def handToCapture (t : TagNo) (c : CtxNo) (slot : Nat) (packet : List Byte) (s : State) : State :=
  if s.out.capture.length < 128 && getAt s.out.captureCount c < 64 then
    let s := { s with out :=
      { s.out with
        capture := s.out.capture ++ [CapturePacket.mk (withStream packet (captureStream t.val slot)) t c]
        captureCount := modAt s.out.captureCount c (· + 1) } }
    let s := s.setCaptureRec t { s.captureRec t with captured := bump top32 (s.captureRec t).captured }
    raiseDrain c s
  else
    let r := s.captureRec t
    let lost := bump top32 r.lost
    let s := s.setCaptureRec t { r with lost := lost, lossMark := true }
    if r.lossMark then s else offer (.captureLoss t lost) s

/-- A new binding of a tag clears its record (R159). -/
def clearCaptureRec (t : TagNo) (s : State) : State :=
  s.setCaptureRec t .zero

end Sys2Proof.Machine
end

