-- ==== Sys2Proof/Machine/Context.lean ====
section
/-! DEFINITION. Service contexts: key slot requests (R83, R84), tracking (R63), acquisition (R99 to R105), failure,
supersession and retirement (R111 to R114), and changes while a context runs (R119 to R121). -/

namespace Sys2Proof.Machine

/-! ### Key slots -/

/-- The slot of a pair (input, key stream): each pair has at most one (R82). -/
def findSlot (i : Input) (stream : Nat) (s : State) : Option SlotNo :=
  slotNos.find? (fun k => (s.slot k).any (fun x => x.input == i && x.stream == stream))

/-- A slot as a join creates it (R83). -/
def newSlot (c : CtxNo) (i : Input) (stream : Nat) : Slot :=
  { input := i, stream := stream, tier := none, even := none, odd := none, lastSeq := none, lapsed := false, run := 0,
    refused := false, users := addBit 0 c, installs := 0, lapses := 0, keyed := 0, unkeyed := 0, badPhase := 0,
    duplicates := 0, malformed := 0 }

/-- A join request (R83). -/
def joinSlot (c : CtxNo) (i : Input) (stream : Nat) (s : State) : Option SlotNo × State :=
  match findSlot i stream s with
  | some k => (some k, s.setSlot k ((s.slot k).map (fun x => { x with users := addBit x.users c })))
  | none =>
    match slotNos.find? (fun k => (s.slot k).isNone) with
    | some k => (some k, s.setSlot k (some (newSlot c i stream)))
    | none => (none, s)

/-- A leave request (R84): a slot left without users becomes FREE. -/
def leaveSlot (c : CtxNo) (k : SlotNo) (s : State) : State :=
  match s.slot k with
  | none => s
  | some x =>
    if hasBit x.users c then
      let users := dropBit x.users c
      s.setSlot k (if users = 0 then none else some { x with users := users })
    else s

/-- A slot that holds at least one key and whose refused flag is clear lets a context leave KEY (R105). -/
def Slot.opens (x : Slot) : Bool :=
  (x.even.isSome || x.odd.isSome) && !x.refused

/-! ### Tracking (R63) -/

def startTracking (service : Nat) (s : State) : State :=
  match trackedRec s service with
  | some _ => s
  | none =>
    { s with guide :=
      { s.guide with tracked := s.guide.tracked ++ [⟨service, (currentEvent s service).map Event.id⟩] } }

/-- Tracking ends with the last RUNNING context of a service. -/
def endTracking (service : Nat) (s : State) : State :=
  if ctxNos.any (runningOn s service) then s
  else { s with guide := { s.guide with tracked := s.guide.tracked.filter (fun t => t.service != service) } }

/-! ### Retirement -/

def TagRec.boundTo (t : TagRec) (c : CtxNo) : Bool :=
  match t with
  | .bound c' _ _ => c' == c
  | .idle | .draining _ => false

def TagRec.drainingFrom (t : TagRec) (c : CtxNo) : Bool :=
  match t with
  | .draining c' => c' == c
  | .idle | .bound _ _ _ => false

def State.isCurrent (s : State) (o : OutputNo) (c : CtxNo) : Bool :=
  (s.binding o).current.any (fun b => b.ctx == c)

def State.isPending (s : State) (o : OutputNo) (c : CtxNo) : Bool :=
  (s.binding o).pending.any (fun b => b.ctx == c)

/-- A context has a destination: an output or tag that names it; a DRAINING tag is none (R100). -/
def hasDestination (s : State) (c : CtxNo) : Bool :=
  outputNos.any (fun o => s.isCurrent o c || s.isPending o c) || tagNos.any (fun t => (s.tag t).boundTo c)

/-- A tag DRAINING with a context that is freed becomes IDLE, with a TAG_FREE notice (R114). -/
def freeTag (c : CtxNo) (t : TagNo) (s : State) : State :=
  if (s.tag t).drainingFrom c then offer (.tagFree t) (s.setTag t .idle) else s

/-- A RETIRING context whose drain count is zero leaves its slot, frees its tags, 0 to 7 (log 41), and becomes FREE (R114). -/
def freeContext (c : CtxNo) (s : State) : State :=
  let x := s.context c
  let s := match x.slot with
    | some k => leaveSlot c k s
    | none => s
  let s := tagNos.foldl (fun s t => freeTag c t s) s
  s.setContext c { Context.empty with lastFailure := x.lastFailure }

/-- A RETIRING context is freed when its drain count is zero (R114). -/
def freeIfDrained (c : CtxNo) (s : State) : State :=
  if (s.context c).state = .retiring && (s.context c).drain = 0 then freeContext c s else s

/-- A context with no destination left enters RETIRING (R114). -/
def retire (c : CtxNo) (s : State) : State :=
  let x := s.context c
  if x.state = .free || x.state = .retiring then s
  else
    let s := removeContext c s
    let s := s.setContext c { x with state := .retiring, deadline := none }
    let s := if x.state = .running && x.input != pb then endTracking x.service s else s
    freeIfDrained c s

def retireIfUnbound (c : CtxNo) (s : State) : State :=
  if hasDestination s c then s else retire c s

/-! ### Failure and supersession -/

/-- The acquisition stages (Table 6-1). -/
def CtxState.acquiring (t : CtxState) : Bool :=
  match t with
  | .locate | .map | .key | .entry => true
  | .free | .running | .retiring => false

/-- A pending binding to a failed context is dropped with its TUNE_FAILED notice (R111). -/
def failOutput (c : CtxNo) (reason : FailReason) (o : OutputNo) (s : State) : State :=
  if s.isPending o c then
    offer (.tuneFailed (.output o) c (s.context c).input (s.context c).service reason)
      (s.setBinding o { s.binding o with pending := none })
  else s

/-- A tag BOUND to a failed context becomes IDLE with its TUNE_FAILED notice (R111). -/
def failTag (c : CtxNo) (reason : FailReason) (t : TagNo) (s : State) : State :=
  if (s.tag t).boundTo c then
    offer (.tuneFailed (.tag t) c (s.context c).input (s.context c).service reason) (s.setTag t .idle)
  else s

/-- A context that fails in acquisition (R111). -/
def failContext (c : CtxNo) (reason : FailReason) (s : State) : State :=
  let s := s.setContext c { s.context c with lastFailure := some reason }
  let s := outputNos.foldl (fun s o => failOutput c reason o s) s
  let s := tagNos.foldl (fun s t => failTag c reason t s) s
  retire c s

/-- A superseded context is no longer a destination's; its notice is sent and it may retire (R112). -/
def supersede (o : OutputNo) (c : CtxNo) (s : State) : State :=
  retireIfUnbound c (offer (.superseded o c (s.context c).input (s.context c).service) s)

/-- A pending binding of an output is dropped under R112. -/
def dropSuperseded (o : OutputNo) (s : State) : State :=
  match (s.binding o).pending with
  | none => s
  | some b => supersede o b.ctx (s.setBinding o { s.binding o with pending := none })

/-! ### Binding and allocation -/

/-- The context of an identity that can be reused (R101). -/
def findContext (i : Input) (service : Nat) (s : State) : Option CtxNo :=
  ctxNos.find? fun c =>
    (s.context c).state != .free && (s.context c).state != .retiring && (s.context c).input == i &&
      (s.context c).service == service

/-- The lowest-numbered FREE context (R99). -/
def freeCtx (s : State) : Option CtxNo :=
  ctxNos.find? (fun c => (s.context c).state == .free)

/-- A context as allocation sets it: identity, first stage and acquisition deadline; the last failure is kept (R99,
R101). -/
def allocated (s : State) (c : CtxNo) (i : Input) (service : Nat) (stage : CtxState) : Context :=
  { Context.empty with
    state := stage, input := i, service := service, deadline := some (s.partTime + s.ctl.limit),
    lastFailure := (s.context c).lastFailure }

/-- The wait deadline of a binding made now (R101). -/
def waitDeadline (s : State) (c : CtxNo) : Nat :=
  match (s.context c).deadline with
  | some d => if (s.context c).state.acquiring then d else s.partTime + s.ctl.limit
  | none => s.partTime + s.ctl.limit

/-- A context becomes the pending binding of an output, its hold set judged; ENTITLEMENT is judged again on every
destination of the context (R116), and then an earlier pending binding is superseded (R101, R112; log 53). -/
def bindPending (o : OutputNo) (c : CtxNo) (s : State) : State :=
  let old := (s.binding o).pending
  let s := s.setBinding o
    { s.binding o with
      pending := some { ctx := c, wait := waitDeadline s c, hold := judged s judgeAll c (.output o) .none } }
  let s := rejudge judgeEntitlement (· == c) s
  match old with
  | none => s
  | some b => supersede o b.ctx s

/-- A capture tag becomes BOUND with its started mark clear, and its record is cleared (R102, R159); ENTITLEMENT is judged
again on every destination of the context (R116). -/
def bindTag (t : TagNo) (c : CtxNo) (s : State) : State :=
  rejudge judgeEntitlement (· == c)
    (clearCaptureRec t (s.setTag t (.bound c (some (waitDeadline s c)) (judged s judgeAll c (.tag t) .none))))

/-! ### LOCATE and MAP -/

/-- A context enters MAP on a stream: it adds its MAP purpose, or fails with NO_ROOM (R104). -/
def enterMap (c : CtxNo) (stream : Nat) (s : State) : State :=
  let s := s.setContext c { s.context c with state := .map, mapStream := some stream }
  match addUser (s.context c).input stream .sections (.ctx c .map) s with
  | (.granted, s) => s
  | (_, s) => failContext c .noRoom s

/-- The index in use of an input; PB has none (R52). -/
def indexInUse (s : State) (i : Input) : Option IndexRec :=
  (place 4 i.val).bind (fun p => (getAt s.guide.index p).inUse)

/-- The map stream an index lists for a service. -/
def IndexRec.lists (x : IndexRec) (service : Nat) : Option Nat :=
  (x.entries.find? (fun e => e.1 == service)).map Prod.snd

/-- A context in LOCATE judges the index in use of its port (R103). -/
def locate (c : CtxNo) (s : State) : State :=
  if (s.context c).state = .locate then
    match indexInUse s (s.context c).input with
    | none => s
    | some x =>
      match x.lists (s.context c).service with
      | some stream => enterMap c stream s
      | none => failContext c .notInIndex s
  else s

/-! ### Service maps -/

def componentIndices : List (Fin 8) := [0, 1, 2, 3, 4, 5, 6, 7]

/-- The component list a context takes from a usable map: the first 8, with PB's own stream numbers (R104). -/
def usedComponents (x : Context) (m : MapBody) : List Component :=
  (m.components.zip componentIndices).map fun (k, i) =>
    if x.input = pb then { k with stream := captureStream x.service (2 + i.val) } else k

/-- The key stream a context takes from a usable map (R104). -/
def usedKeyStream (x : Context) (m : MapBody) : Option Nat :=
  m.keyStream.map (fun st => if x.input = pb then captureStream x.service 1 else st)

/-- The entry component: the first VIDEO one, or component 0 (Table 6-2). -/
def entryComponentOf (cs : List Component) : Option Nat :=
  if cs.isEmpty then none else some ((cs.findIdx? (fun k => k.kind == .video)).getD 0)

/-- Component streams with their indices. -/
def componentStreams (cs : List Component) : List (Nat × Fin 8) :=
  (cs.map Component.stream).zip componentIndices

/-- A usable map, less the extension test (R104). -/
def usableMap (x : Context) (body : List Byte) : Option MapBody :=
  (readMap body).bind fun m =>
    if !m.components.isEmpty && decide ((m.components.map Component.stream).Nodup) &&
        (x.input == pb ||
          (m.components.all (fun k => admissible x.input k.stream) && m.keyStream.all (admissible x.input)))
    then some m else none

/-- A context holds a purpose on the entry of a pair. -/
def holdsPurpose (i : Input) (stream : Nat) (c : CtxNo) (p : Purpose) (s : State) : Bool :=
  match findEntry i stream s with
  | some e => e.users.any (fun u => u.ctx == c && u.purposes.contains p)
  | none => false

/-- COMPONENT purposes are added in index order; the result says whether all were granted and which are new (R104,
R119). -/
def addComponents (i : Input) (c : CtxNo) : List (Nat × Fin 8) → State → Bool × List (Nat × Fin 8) × State
  | [], s => (true, [], s)
  | (st, k) :: l, s =>
    match addUser i st .component (.ctx c (.component k)) s with
    | (.granted, s') =>
      let r := addComponents i c l s'
      (r.1, if holdsPurpose i st c (.component k) s then r.2.1 else (st, k) :: r.2.1, r.2.2)
    | (_, s') => (false, [], s')

/-- COMPONENT purposes are removed. -/
def removeComponents (i : Input) (c : CtxNo) (l : List (Nat × Fin 8)) (s : State) : State :=
  l.foldl (fun s r => removePurpose i r.1 c (.component r.2) s) s

/-- The map overflow count rises for a map that lists more than 8 components (R104). -/
def countMapOverflow (c : CtxNo) (m : MapBody) (s : State) : State :=
  if 8 < m.components.length then
    s.setContext c { s.context c with overflow := bump top16 (s.context c).overflow }
  else s

/-! ### KEY -/

/-- A context in KEY enters ENTRY when its slot opens (R105). -/
def judgeKey (c : CtxNo) (s : State) : State :=
  if (s.context c).state = .key && (slotOf s (s.context c)).any Slot.opens then
    s.setContext c { s.context c with state := .entry }
  else s

/-- Entry to KEY: the precheck, the join, the KEYS purpose and the judging of the slot (R105). -/
def enterKey (c : CtxNo) (stream : Nat) (s : State) : State :=
  let s := s.setContext c { s.context c with state := .key }
  let s := rejudge judgeEntitlement (· == c) s
  let x := s.context c
  if (requiredTiers s x).any (fun t => !tierHeld s t) then failContext c .notEntitled s
  else
    match joinSlot c x.input stream s with
    | (none, s) => failContext c .noRoom s
    | (some k, s) =>
      let s := s.setContext c { x with slot := some k }
      match addUser x.input stream .sections (.ctx c (.keys k)) s with
      | (.granted, s) => judgeKey c (rejudge judgeSlot (· == c) s)
      | (_, s) => failContext c .noRoom s

/-- What a context records from a map (R104, R119). -/
def recordMap (x : Context) (version : Nat) (m : MapBody) : Context :=
  { x with
    mapVersion := some version, components := usedComponents x m, entryComponent := entryComponentOf (usedComponents x m),
    mapRatings := m.ratings }

/-- A context in MAP takes its first usable map (R104). -/
def takeMap (c : CtxNo) (version : Nat) (m : MapBody) (s : State) : State :=
  let s := countMapOverflow c m s
  let x := s.context c
  match addComponents x.input c (componentStreams (usedComponents x m)) s with
  | (false, _, s) => failContext c .noRoom s
  | (true, _, s) =>
    let s := s.setContext c { recordMap x version m with keyStream := usedKeyStream x m }
    let s := rejudgeVerdicts (· == c) s
    match usedKeyStream x m with
    | some stream => enterKey c stream s
    | none => s.setContext c { s.context c with state := .entry }

/-! ### Changes while a context runs -/

/-- A context gives up its key stream: its KEYS purpose and its place in the slot (R120). -/
def dropKeyStream (c : CtxNo) (x : Context) (s : State) : State :=
  match x.keyStream, x.slot with
  | some st, some k => leaveSlot c k (removePurpose x.input st c (.keys k) s)
  | _, _ => s

/-- A map change that names another key stream moves the context between slots (R120). -/
def moveKeyStream (c : CtxNo) (ks : Option Nat) (s : State) : State :=
  let x := s.context c
  match ks with
  | some st =>
    match joinSlot c x.input st s with
    | (none, s) => s
    | (some k, s) =>
      match addUser x.input st .sections (.ctx c (.keys k)) s with
      | (.granted, s) =>
        let s := dropKeyStream c x s
        let stage := if x.state = .entry && x.keyStream.isNone then CtxState.key else x.state
        let s := s.setContext c { x with keyStream := some st, slot := some k, state := stage }
        judgeKey c (rejudge judgeSlot (· == c) s)
      | (_, s) => leaveSlot c k s
  | none =>
    let s := dropKeyStream c x s
    let stage := if x.state = .key then CtxState.entry else x.state
    rejudge judgeSlot (· == c) (s.setContext c { x with keyStream := none, slot := none, state := stage })

/-- A usable map of another version offered to a context in KEY, ENTRY or RUNNING (R119). The overflow count rises at every
such offer, also of a change that is refused and repeated (log 45). -/
def changeMap (c : CtxNo) (version : Nat) (m : MapBody) (s : State) : State :=
  let s := countMapOverflow c m s
  let x := s.context c
  let new := componentStreams (usedComponents x m)
  match addComponents x.input c new s with
  | (false, added, s) =>
    let s := removeComponents x.input c added s
    s.setContext c { x with refused := bump top16 x.refused }
  | (true, _, s) =>
    let s := removeComponents x.input c ((componentStreams x.components).filter (fun r => !new.contains r)) s
    let s := s.setContext c (recordMap x version m)
    let s := rejudgeVerdicts (· == c) s
    if usedKeyStream x m = x.keyStream then s else moveKeyStream c (usedKeyStream x m) s

/-- A section of kind 0x12 offered to MAP(c) (R104, R119). -/
def mapSection (c : CtxNo) (h : SectionHeader) (body : List Byte) (s : State) : State :=
  let x := s.context c
  if x.state = .free || x.state = .locate || x.state = .retiring then s
  else if x.input != pb && h.extension != x.service then s
  else
    match usableMap x body with
    | none => s.setContext c { x with malformed := bump top16 x.malformed }
    | some m =>
      if x.state = .map then takeMap c h.version m s
      else if x.mapVersion = some h.version then s
      else changeMap c h.version m s

/-- A change of the port's index moves a context's MAP purpose (R121). -/
def moveMapStream (c : CtxNo) (s : State) : State :=
  let x := s.context c
  match (indexInUse s x.input).bind (fun r => r.lists x.service) with
  | none => s
  | some stream =>
    if x.mapStream = some stream then s
    else
      match addUser x.input stream .sections (.ctx c .map) s with
      | (.granted, s) =>
        let s := match x.mapStream with
          | some old => removePurpose x.input old c .map s
          | none => s
        s.setContext c { x with mapStream := some stream }
      | (_, s) => s.setContext c { x with refused := bump top16 x.refused }

/-- One context at a report of its port's index (R103, R121). -/
def indexReport (p : PortNo) (c : CtxNo) (s : State) : State :=
  let x := s.context c
  if x.input = inputOf p then
    match x.state with
    | .locate => locate c s
    | .map | .key | .entry | .running => moveMapStream c s
    | .free | .retiring => s
  else s

/-- A change of a tuner port's index is reported to the contexts on the port (R53, R103, R121), in ascending context number
(log 10). -/
def indexChanged (p : PortNo) (s : State) : State :=
  ctxNos.foldl (fun s c => indexReport p c s) s

/-! ### Reports to the context controller -/

/-- A change of a slot's condition is reported to each of its users (R85). -/
def slotReport (k : SlotNo) (s : State) : State :=
  match s.slot k with
  | none => s
  | some x =>
    let users := ctxNos.filter (hasBit x.users)
    users.foldl (fun s c => judgeKey c s) (rejudge judgeSlot (hasBit x.users) s)

/-- Lost or gained tiers are reported: ENTITLEMENT is judged for every context (R76, R77, R116). -/
def tierReport (s : State) : State :=
  rejudge judgeEntitlement (fun _ => true) s

/-- A service list report, of the contexts on a service (R57, R116, R136): ENTITLEMENT is judged, with its HOLD notices,
before the verdicts (log 52). -/
def serviceReport (service : Nat) (s : State) : State :=
  let s := rejudge judgeEntitlement (onService s service) s
  rejudgeVerdicts (onService s service) s

/-- A port entered or left UP: SIGNAL is judged for the contexts on it (R4, R5, R115). -/
def signalReport (i : Input) (s : State) : State :=
  rejudge judgeSignal (fun c => (s.context c).input == i) s

end Sys2Proof.Machine
end

