-- ==== Sys2Proof/Machine/Guide.lean ====
section
/-! DEFINITION. The guide store: service index (R52, R53), service list (R55 to R57), event store (R58 to R63). -/

namespace Sys2Proof.Machine

/-! ### Service index -/

/-- A record's entries as pairs are added to it (R53). -/
structure PairsAcc where
  entries : List (Nat × Nat)
  overflow : Nat
  changed : Bool
  deriving DecidableEq, Repr

/-- One pair: it replaces the stream of its service, joins while fewer than 64 are held, or overflows (R53). -/
def addPair (a : PairsAcc) (p : Nat × Nat) : PairsAcc :=
  match a.entries.find? (fun e => e.1 == p.1) with
  | some old =>
    if old.2 = p.2 then a
    else { a with entries := a.entries.map (fun e => if e.1 == p.1 then p else e), changed := true }
  | none =>
    if a.entries.length < 64 then { a with entries := a.entries ++ [p], changed := true }
    else { a with overflow := bump top16 a.overflow }

/-- A section's pairs and index are added to a record (R53). -/
def addPairs (r : IndexRec) (index : Nat) (pairs : List (Nat × Nat)) (overflow : Nat) : IndexRec × PairsAcc :=
  let a := pairs.foldl addPair ⟨r.entries, overflow, false⟩
  ({ r with received := addIndex r.received index, entries := a.entries }, a)

/-- A section belongs to a record when both version and extension equal (R53). -/
def IndexRec.owns (h : SectionHeader) (r : IndexRec) : Bool :=
  r.version == h.version && r.multiplex == h.extension

/-- A collection that has taken a section replaces the index in use when the section's index equals its last index
(R53); the result says whether it did. -/
def settleCollection (h : SectionHeader) (r : IndexRec) (overflow : Nat) (x : PortIndex) : PortIndex × Bool :=
  if h.index = h.lastIndex then ({ x with inUse := some r, collection := none, overflow := overflow }, true)
  else ({ x with collection := some r, overflow := overflow }, false)

/-- A section's usable pairs taken by a port's index state; the result says whether the change is reported (R53). -/
def takePairs (h : SectionHeader) (pairs : List (Nat × Nat)) (x : PortIndex) : PortIndex × Bool :=
  match x.inUse.filter (IndexRec.owns h) with
  | some r =>
    if hasIndex r.received h.index then (x, false)
    else
      let (r, a) := addPairs r h.index pairs x.overflow
      ({ x with inUse := some r, overflow := a.overflow }, a.changed)
  | none =>
    match x.collection.filter (IndexRec.owns h) with
    | some r =>
      if hasIndex r.received h.index then (x, false)
      else
        let (r, a) := addPairs r h.index pairs x.overflow
        settleCollection h r a.overflow x
    | none =>
      let (r, a) := addPairs ⟨h.extension, h.version, 0, []⟩ h.index pairs x.overflow
      settleCollection h r a.overflow x

def State.setPortIndex (s : State) (p : PortNo) (x : PortIndex) : State :=
  { s with guide := { s.guide with index := setAt s.guide.index p x } }

/-- A service index section offered to INDEX (R53). -/
def indexSection (p : PortNo) (h : SectionHeader) (body : List Byte) (s : State) : State :=
  let x := getAt s.guide.index p
  match indexPairs body with
  | none => s.setPortIndex p { x with malformed := bump top16 x.malformed }
  | some pairs =>
    let usable := pairs.filter (fun e => admissible (inputOf p) e.2)
    let x := { x with malformed := bumpBy top16 x.malformed (pairs.length - usable.length) }
    let r := takePairs h usable x
    let s := s.setPortIndex p r.1
    if r.2 then indexChanged p s else s

/-- A port that enters DOWN loses its index in use and collection (R6, R52). -/
def clearIndex (p : PortNo) (s : State) : State :=
  let x := getAt s.guide.index p
  indexChanged p (s.setPortIndex p { x with inUse := none, collection := none })

/-! ### Service list -/

/-- The service list while a section is merged; `reports` names the services whose change is reported (R57). -/
structure ListAcc where
  list : List ServiceRec
  overflow : Nat
  reports : List Nat
  deriving DecidableEq, Repr

/-- One record merged (R56): a known service is replaced, a new one is inserted while fewer than 256 are held. -/
def mergeRecord (a : ListAcc) (r : ServiceRec) : ListAcc :=
  match a.list.find? (fun x => x.service == r.service) with
  | some old =>
    { a with
      list := a.list.map (fun x => if x.service == r.service then r else x)
      reports := if old.tier = r.tier && old.adult = r.adult then a.reports else a.reports ++ [r.service] }
  | none =>
    if a.list.length < 256 then { a with list := a.list ++ [r], reports := a.reports ++ [r.service] }
    else { a with overflow := bump top16 a.overflow }

/-- The version state a section is merged under (R56): its own version starts anew when network id or version
differ. -/
def sectionListVersion (h : SectionHeader) (v : Option ListVersion) : ListVersion :=
  match v.filter (fun v => v.network == h.extension && v.version == h.version) with
  | some v => { v with received := addIndex v.received h.index, lastIndex := h.lastIndex }
  | none => { network := h.extension, version := h.version, received := addIndex 0 h.index, lastIndex := h.lastIndex }

/-- Every index from 0 to the last index is received (R56). -/
def ListVersion.complete (v : ListVersion) : Bool :=
  (List.range (v.lastIndex + 1)).all (hasIndex v.received)

/-- A service list section offered to GUIDE (R56); the reports follow the merge, those of swept records last (log 27). -/
def serviceListSection (h : SectionHeader) (body : List Byte) (s : State) : State :=
  match serviceRecords body with
  | none => { s with guide := { s.guide with listMalformed := bump top16 s.guide.listMalformed } }
  | some records =>
    let same := s.guide.listVersion.any (fun v => v.network == h.extension && v.version == h.version)
    let v := sectionListVersion h s.guide.listVersion
    let held := if same then s.guide.list else s.guide.list.map (fun r => { r with seen := false })
    let a := records.foldl mergeRecord ⟨held, s.guide.listOverflow, []⟩
    let kept := if v.complete then a.list.filter ServiceRec.seen else a.list
    let swept := if v.complete then a.list.filter (fun r => !r.seen) else []
    let s := { s with guide := { s.guide with list := kept, listVersion := some v, listOverflow := a.overflow } }
    (a.reports ++ swept.map ServiceRec.service).foldl (fun s service => serviceReport service s) s

/-! ### Current events -/

/-- An EVENT grant of a service whose event id is another than the new one (R141). -/
def Grant.outlived (service : Nat) (new : Option Nat) (g : Grant) : Bool :=
  g.key == .tuner service &&
    match g.scope with
    | .event (some id) => new != some id
    | .event none | .minutes _ => false

/-- A changed current event is reported to the context controller and the parental unit, which ends outlived grants,
the oldest first, and then computes each pair once (R63, R136; log 47). -/
def reportEvent (service : Nat) (ended : Grant → Bool) (s : State) : State :=
  let s := rejudge judgeEntitlement (runningOn s service) s
  let lost := fun (o : OutputNo) => s.parental.grants.any (fun g => ended g && g.output == o)
  let running := runningOn s service
  outputNos.foldl (fun s' o => rejudgeOutput judgeVerdict (fun c => running c || lost o) o s')
    (endGrants ended .event s)

/-- The current event of a tracked service is judged (R63); `content` says that an update changed the tier or ratings
of the current event. -/
def judgeService (content : Bool) (service : Nat) (s : State) : State :=
  match trackedRec s service with
  | none => s
  | some t =>
    let new := (currentEvent s service).map Event.id
    if new = t.id then (if content then reportEvent service (fun _ => false) s else s)
    else
      let s := { s with guide :=
        { s.guide with tracked := s.guide.tracked.map (fun r => if r.service == service then ⟨service, new⟩ else r) } }
      reportEvent service (Grant.outlived service new) (offer (.event service t.id new) s)

/-- The current event of every tracked service is judged (R63), in the order their tracking began (log 43). -/
def judgeTracked (s : State) : State :=
  (s.guide.tracked.map Tracked.service).foldl (fun s service => judgeService false service s) s

/-! ### Event store -/

/-- Two events overlap when each starts before the other ends (R60). -/
def Event.overlaps (a b : Event) : Bool :=
  decide (a.start < b.stop) && decide (b.start < a.stop)

/-- Events stand by service, and within a service by start (R58). -/
def insertOrdered (e : Event) : List Event → List Event
  | [] => [e]
  | x :: l =>
    if x.service < e.service || (x.service == e.service && decide (x.start ≤ e.start)) then x :: insertOrdered e l
    else e :: x :: l

/-- Outside the window: ended, or later than the 48-hour horizon (R60). -/
def outsideWindow (s : State) (e : Event) : Bool :=
  s.clock.net.any (fun t => decide (e.stop ≤ t.n) || decide (t.n + 172800 < e.start))

def State.setEvents (s : State) (l : List Event) : State :=
  { s with guide := { s.guide with events := l } }

/-- The later candidate for eviction of two (R61): latest start, then highest service, then highest id. -/
def laterStarting (a b : Event) : Event :=
  if a.start < b.start || (a.start == b.start && (a.service < b.service || (a.service == b.service && a.id < b.id)))
  then b else a

/-- The latest-starting event held (R61). -/
def latestEvent : List Event → Option Event
  | [] => none
  | e :: l => some (l.foldl laterStarting e)

def sameEvent (a b : Event) : Bool :=
  a.service == b.service && a.id == b.id

/-- Events leave the store one by one, the current events being judged on each removal (R60, R63; log 13). -/
def removeEvents (l : List Event) (s : State) : State :=
  l.foldl
    (fun s x => judgeService false x.service (s.setEvents (s.guide.events.filter (fun y => !sameEvent y x)))) s

/-- The tier or rating entries differ, the id being the same (R63). -/
def contentChanged (old new : Option Event) : Bool :=
  match old, new with
  | some a, some b => a.id == b.id && (a.tier != b.tier || a.ratings != b.ratings)
  | _, _ => false

/-- A stored event takes the fields and the place of an event of its id (R60, step 3), and is judged (R63). -/
def updateEvent (e : Event) (s : State) : State :=
  let t := s.setEvents (insertOrdered e (s.guide.events.filter (fun x => !sameEvent x e)))
  judgeService (contentChanged (currentEvent s e.service) (currentEvent t e.service)) e.service t

/-- A new event joins the store, and is judged (R60, step 4; R63). -/
def storeEvent (e : Event) (s : State) : State :=
  judgeService false e.service (s.setEvents (insertOrdered e s.guide.events))

/-- A new event that finds the store full evicts the latest-starting event, or is dropped (R61). -/
def storeFull (e : Event) (s : State) : State :=
  let dropped := { s with guide := { s.guide with droppedFull := bump top16 s.guide.droppedFull } }
  match latestEvent s.guide.events with
  | some l =>
    if e.start < l.start then
      storeEvent e (removeEvents [l] { s with guide := { s.guide with evicted := bump top16 s.guide.evicted } })
    else dropped
  | none => dropped

/-- A stored event that an event of its service, with another id, overlaps (R60, step 2). -/
def Event.displacedBy (e x : Event) : Bool :=
  x.service == e.service && x.id != e.id && x.overlaps e

/-- An event is inserted (R60): outside the window it is counted and its stored copy removed; else the events it overlaps go
and it is updated, stored, or judged against a full store. -/
def insertEvent (e : Event) (s : State) : State :=
  if outsideWindow s e then
    removeEvents (s.guide.events.filter (fun x => sameEvent x e))
      { s with guide := { s.guide with outside := bump top16 s.guide.outside } }
  else
    let s := removeEvents (s.guide.events.filter (Event.displacedBy e)) s
    if s.guide.events.any (fun x => sameEvent x e) then updateEvent e s
    else if s.guide.events.length < 2048 then storeEvent e s
    else storeFull e s

/-- One event of a section: dropped when malformed, else inserted (R59). -/
def takeEvent (service : Nat) (s : State) (b : EventBody) : State :=
  if b.duration = 0 || 1440 < b.duration || 3 < b.ratings.length then
    { s with guide := { s.guide with malformed := bump top16 s.guide.malformed } }
  else
    insertEvent { service := service, id := b.id, start := b.start, duration := b.duration, tier := b.tier,
                  ratings := b.ratings } s

/-- An event table section offered to GUIDE (R59). -/
def eventSection (h : SectionHeader) (body : List Byte) (s : State) : State :=
  match eventBodies body.length body with
  | none => { s with guide := { s.guide with malformed := bump top16 s.guide.malformed } }
  | some events => events.foldl (takeEvent h.extension) s

/-- The guide store at a clock second: the sweep, then the judging (R49, R62, R63). -/
def guideClockSecond (s : State) : State :=
  match s.clock.net with
  | none => s
  | some t => judgeTracked (s.setEvents (s.guide.events.filter (fun e => decide (t.n < e.stop))))

end Sys2Proof.Machine
end

