-- ==== Sys2Proof/Machine/Access.lean ====
section
/-! DEFINITION. The access engine: the exception log (R78, R79), entitlement messages (R68 to R77) and key messages
(R86 to R90). -/

namespace Sys2Proof.Machine

/-- The access state is ENABLED (R65). -/
def State.accessEnabled (s : State) : Bool :=
  s.access.fuses.isSome

/-! ### The exception log -/

/-- An exception is merged into the newest record, appended, or counted as overflow (R78, R79). -/
def logException (kind : ExceptionKind) (i : Input) (stream : Nat) (tier : Option Nat) (seq : Nat) (s : State) : State :=
  let r : ExceptionRec :=
    { kind := kind, input := i, stream := stream, tier := tier, seq := some seq, netTime := s.clock.net.map NetTime.n,
      uptime := s.clock.uptime, repeats := 1 }
  let same := fun (x : ExceptionRec) => x.kind == kind && x.input == i && x.stream == stream && x.tier == tier
  if s.access.log.getLast?.any same then
    { s with access :=
      { s.access with
        log := s.access.log.dropLast ++
          (s.access.log.getLast?.map (fun x => { r with repeats := bump 255 x.repeats })).toList } }
  else if s.access.log.length < 16 then
    let first := s.access.log.isEmpty
    let s := { s with access := { s.access with log := s.access.log ++ [r] } }
    if first then offer (.exception kind i stream tier) s else s
  else if s.access.overflow then s
  else offer .overflow { s with access := { s.access with overflow := true } }

/-! ### Tier loss and tier gain -/

/-- A slot whose tier is lost: its keys are erased and it is LAPSED (R76). -/
def Slot.erased (x : Slot) : Slot :=
  { x with even := none, odd := none, lapsed := true }

/-- The slots whose tier is among those lost. -/
def slotsOfTiers (lost : List Nat) (s : State) : List SlotNo :=
  slotNos.filter (fun k => (s.slot k).any (fun x => x.tier.any lost.contains))

/-- Tiers are lost (R76): the keys of their slots are erased and the changes reported, then the lost set (log 28). -/
def loseTiers (lost : List Nat) (s : State) : State :=
  if lost.isEmpty then s
  else
    let hit := slotsOfTiers lost s
    let s := hit.foldl (fun s k => s.setSlot k ((s.slot k).map Slot.erased)) s
    tierReport (hit.foldl (fun s k => slotReport k s) s)

/-- Entitlement records that meet a test are removed and their tiers lost (R76). -/
def removeTiers (hit : Entitlement → Bool) (s : State) : State :=
  loseTiers ((s.access.entitlements.filter hit).map Entitlement.tier)
    { s with access := { s.access with entitlements := s.access.entitlements.filter (fun r => !hit r) } }

/-- A record whose expiry is present and at or below a time (R75). -/
def Entitlement.expiredAt (n : Nat) (r : Entitlement) : Bool :=
  r.expiry.any (fun e => decide (e ≤ n))

/-- Expiry at a clock second (R75); while the clock is UNSET no record expires. -/
def expireTiers (s : State) : State :=
  match s.clock.net with
  | none => s
  | some t => removeTiers (Entitlement.expiredAt t.n) s

/-! ### The instructions of entitlement messages -/

def countApplied (s : State) : State :=
  { s with access := { s.access with applied := bump top32 s.access.applied } }

/-- GRANT (R72): one record is written; an expiry already reached removes it at once. -/
def applyGrant (i : Input) (stream : Nat) (seq : Nat) (r : Entitlement) (s : State) : State :=
  let expired := s.clock.net.any (fun t => r.expiredAt t.n)
  if tierHeld s r.tier then
    let s := countApplied s
    if expired then removeTiers (fun x => x.tier == r.tier) s
    else
      { s with access :=
        { s.access with entitlements := s.access.entitlements.map (fun x => if x.tier == r.tier then r else x) } }
  else if 64 ≤ s.access.entitlements.length then logException .listFull i stream (some r.tier) seq s
  else
    let s := countApplied s
    if expired then
      let hit := slotsOfTiers [r.tier] s
      let s := hit.foldl (fun s k => s.setSlot k ((s.slot k).map Slot.erased)) s
      tierReport (hit.foldl (fun s k => slotReport k s) s)
    else tierReport { s with access := { s.access with entitlements := s.access.entitlements ++ [r] } }

/-- The group a new membership list gives: a kept group keeps its sequence record (R74). -/
def joinGroup (old : List Group) (p : Nat × Key) : Group :=
  { id := p.1, key := p.2, seq := (old.find? (fun g => g.id == p.1)).bind Group.seq }

/-- GROUPS in a UNIT message (R74): the memberships are replaced, and records of dropped groups are lost. -/
def applyGroups (pairs : List (Nat × Key)) (s : State) : State :=
  let dropped := (s.access.groups.map Group.id).filter (fun g => !(pairs.map Prod.fst).contains g)
  let s := { s with access := { s.access with groups := pairs.map (joinGroup s.access.groups) } }
  removeTiers (fun r => r.source.any dropped.contains) (countApplied s)

/-- An accepted instruction is applied (R72 to R74); `source` is none for a UNIT message, else the group. -/
def applyInstr (i : Input) (stream : Nat) (source : Option Nat) (seq : Nat) (key : Key) (a : AccessInstr) (s : State) :
    State :=
  match a with
  | .grant tier expiry k =>
    applyGrant i stream seq { tier := tier, key := Config.decipher key k, expiry := expiry, source := source } s
  | .revoke tier => countApplied (removeTiers (fun r => r.tier == tier) s)
  | .groups pairs =>
    if source.isSome || 4 < pairs.length || !decide ((pairs.map Prod.fst).Nodup) then
      logException .malformed i stream none seq s
    else applyGroups (pairs.map (fun p => (p.1, Config.decipher key p.2))) s
  | .purge =>
    if source.isSome then logException .malformed i stream none seq s
    else countApplied (removeTiers (fun _ => true) s)

/-! ### Entitlement messages -/

/-- The tier a log record takes from an entitlement message (R69). -/
def AccessInstr.tier? (a : AccessInstr) : Option Nat :=
  match a with
  | .grant t _ _ => some t
  | .revoke t => some t
  | .groups _ | .purge => none

/-- A sequence number is accepted when the record is absent or below it (R70). -/
def seqAccepted (record : Option Nat) (seq : Nat) : Bool :=
  match record with
  | none => true
  | some r => decide (r < seq)

/-- The opening key and the sequence record of an address, or none when the message is not for this unit (R68 to
R70). -/
def opening (s : State) (a : AccessAddress) : Option (Key × Option Nat) :=
  match a with
  | .unit n =>
    match s.access.fuses with
    | some f => if f.unitAddress.toNat = n then some (f.unitKey, s.access.unitSeq) else none
    | none => none
  | .group g => (s.access.groups.find? (fun x => x.id == g)).map (fun x => (x.key, x.seq))

/-- The sequence record of an address takes a value (R70). -/
def recordSeq (a : AccessAddress) (seq : Nat) (s : State) : State :=
  match a with
  | .unit _ => { s with access := { s.access with unitSeq := some seq } }
  | .group g =>
    { s with access :=
      { s.access with groups := s.access.groups.map (fun x => if x.id == g then { x with seq := some seq } else x) } }

def AccessAddress.source (a : AccessAddress) : Option Nat :=
  match a with
  | .unit _ => none
  | .group g => some g

/-- An addressed message: network check, opening, sequence, instruction (R69, R70). -/
def openMessage (i : Input) (stream : Nat) (home : Nat) (m : AccessBody) (key : Key) (record : Option Nat) (s : State) :
    State :=
  if m.network ≠ home then logException .wrongNetwork i stream m.instr.tier? m.seq s
  else if Config.checkValue key m.plain ≠ m.check then logException .integrity i stream m.instr.tier? m.seq s
  else if !seqAccepted record m.seq then logException .stale i stream m.instr.tier? m.seq s
  else
    let s := recordSeq m.address m.seq s
    let s := { s with access := { s.access with accepted := bump top32 s.access.accepted } }
    applyInstr i stream m.address.source m.seq key m.instr s

/-- An entitlement message offered to ACCESS (R68). -/
def entitlementSection (i : Input) (stream : Nat) (h : SectionHeader) (body : List Byte) (s : State) : State :=
  match s.access.fuses, s.access.home with
  | some _, some home =>
    match (if h.extension = 0 then readAccess body else none) with
    | none => { s with access := { s.access with unreadable := bump top32 s.access.unreadable } }
    | some m =>
      match opening s m.address with
      | none => { s with access := { s.access with notAddressed := bump top32 s.access.notAddressed } }
      | some (key, record) => openMessage i stream home m key record s
  | _, _ => s

/-! ### Key messages -/

/-- The condition of a slot (R85): it holds a key, refused, tier and whether that is held, lapsed. -/
def slotCondition (s : State) (k : SlotNo) : Option (Bool × Bool × Option Nat × Bool × Bool) :=
  (s.slot k).map fun x =>
    (x.even.isSome || x.odd.isSome, x.refused, x.tier, x.tier.any (tierHeld s), x.lapsed)

/-- A slot takes new contents; a change of its condition is reported (R85). -/
def updateSlot (k : SlotNo) (x : Slot) (s : State) : State :=
  let s' := s.setSlot k (some x)
  if slotCondition s' k = slotCondition s k then s' else slotReport k s'

/-- An accepted key message is installed (R90). -/
def installed (x : Slot) (m : KeyBody) (tierKey : Key) : Slot :=
  { x with
    tier := some m.tier
    even := (m.even.map (Config.decipher tierKey)).or x.even
    odd := (m.odd.map (Config.decipher tierKey)).or x.odd
    lastSeq := some m.seq
    refused := false
    installs := bump top16 x.installs }

/-- The sequence test on a tuner port (R89). -/
inductive SeqTest where
  | accepted | duplicate | stale
  deriving DecidableEq, Repr

def keySeqTest (x : Slot) (seq : Nat) : SeqTest :=
  if x.input = pb then .accepted
  else
    match x.lastSeq with
    | none => .accepted
    | some last =>
      let d := ((seq : Int) - (last : Int)) % 65536
      if d = 0 then .duplicate else if d ≤ 32767 then .accepted else .stale

/-- A well-formed key message on slot k: network, tier, check, sequence, install (R87 to R90). -/
def takeKeyMessage (k : SlotNo) (x : Slot) (home : Nat) (m : KeyBody) (s : State) : State :=
  if m.network ≠ home then logException .wrongNetwork x.input x.stream (some m.tier) m.seq s
  else
    match s.access.entitlements.find? (fun r => r.tier == m.tier) with
    | none =>
      updateSlot k { x with refused := true }
        (logException .notEntitled x.input x.stream (some m.tier) m.seq s)
    | some r =>
      if Config.checkValue r.key m.plain ≠ m.check then
        logException .integrity x.input x.stream (some m.tier) m.seq s
      else
        match keySeqTest x m.seq with
        | .accepted => updateSlot k (installed x m r.key) s
        | .duplicate => s.setSlot k (some { x with duplicates := bump top16 x.duplicates })
        | .stale => logException .stale x.input x.stream (some m.tier) m.seq s

/-- A key message offered to slot k on the entry of a pair (R86). -/
def keySection (k : SlotNo) (i : Input) (stream : Nat) (h : SectionHeader) (body : List Byte) (s : State) : State :=
  match s.access.fuses, s.access.home, s.slot k with
  | some _, some home, some x =>
    if x.input = i && x.stream = stream then
      match (readKeyMessage body).filter (fun m => m.tier == h.extension) with
      | none => s.setSlot k (some { x with malformed := bump top16 x.malformed })
      | some m => takeKeyMessage k x home m s
    else s
  | _, _, _ => s

end Sys2Proof.Machine
end

