-- ==== Sys2Proof/Machine/Clock.lean ====
section
/-! DEFINITION. The clock unit: uptime (R42), the network clock (R44 to R49) and the minute of week (R50), with what the
parental unit does at the uptime second (R138, R141). -/

namespace Sys2Proof.Machine

/-! ### Minute of week and pending change -/

/-- The minute of week of N and L (R50). -/
def minuteOfWeek (n : Nat) (offset : Int) : Nat :=
  ((((n : Int) + 60 * offset) / 60) % 10080).toNat

/-- The pending offset change is tested (R48). -/
def Clock.applyChange (c : Clock) : Clock :=
  match c.net, c.change with
  | some t, some ch =>
    if ch.n2 ≤ t.n then { c with net := some { t with offset := ch.l2 }, change := none } else c
  | _, _ => c

/-- A clock after a time update: the pending change tested, M computed (R48, R50). -/
def Clock.settled (c : Clock) : Clock :=
  { c.applyChange with minute := c.applyChange.net.map (fun t => minuteOfWeek t.n t.offset) }

def State.setClock (s : State) (c : Clock) : State :=
  { s with clock := c }

/-! ### Announcements -/

/-- The minute event: fired when M differs from the one held, and announced to the parental unit (R50, R136). -/
def minuteEvent (old : Option Nat) (s : State) : State :=
  if s.clock.minute = old then s else rejudgeVerdicts (fun _ => true) s

/-- A clock second: the guide store, then the access engine (R49; log 12). -/
def clockSecond (s : State) : State :=
  expireTiers (guideClockSecond s)

/-- A time update is announced: the clock second, then any minute event (R49, R50). -/
def announceTime (old : Option Nat) (s : State) : State :=
  minuteEvent old (clockSecond s)

/-! ### The uptime second -/

/-- Lockout ends that uptime has reached are made absent (R138). -/
def endLockouts (s : State) : State :=
  { s with parental :=
    { s.parental with profiles := s.parental.profiles.map fun p =>
        { p with lockoutEnd := p.lockoutEnd.filter (fun e => decide (s.clock.uptime < e)) } } }

/-- A MINUTES grant whose end is reached (R141). -/
def Grant.minutesOver (uptime : Nat) (g : Grant) : Bool :=
  match g.scope with
  | .minutes e => decide (e ≤ uptime)
  | .event _ => false

def endMinuteGrants (s : State) : State :=
  endGrantsAndJudge (Grant.minutesOver s.clock.uptime) .minutes s

/-- The network clock advances while it is SET, and stays at its top unannounced (R47). -/
def clockAdvance (s : State) : State :=
  match s.clock.net with
  | none => s
  | some t =>
    if top32 ≤ t.n then s
    else
      announceTime s.clock.minute (s.setClock (Clock.settled { s.clock with net := some { t with n := t.n + 1 } }))

/-- The uptime second (R42): uptime rises, the parental unit ends lockouts and MINUTES grants, the clock advances. -/
def uptimeSecond (s : State) : State :=
  let s := advanceTo ((s.clock.uptime + 1) * cyclesPerSecond) s
  let s := s.setClock { s.clock with uptime := bump top32 s.clock.uptime }
  clockAdvance (endMinuteGrants (endLockouts s))

/-! ### Time sections -/

/-- A local offset a time section may carry (R44). -/
def offsetOk (z : Int) : Bool :=
  decide (-720 ≤ z) && decide (z ≤ 840) && z % 15 == 0

/-- A well-formed time section (R44). -/
def wellFormedTime (h : SectionHeader) (body : List Byte) : Option TimeBody :=
  (readTime body).filter fun t =>
    h.extension == 0 && offsetOk t.offset && t.change.all (fun c => offsetOk c.l2)

/-- A well-formed section taken while the clock is UNSET (R45). At the change of clock state the guide store judges the
tracked services, then the parental unit all verdicts, and then the time update is announced (log 12). -/
def setFirst (t : TimeBody) (s : State) : State :=
  let old := s.clock.minute
  let c := Clock.settled { s.clock with net := some ⟨t.n, t.offset⟩, change := t.change }
  let s := s.setClock c
  let s := offer (.clockSet t.n ((c.net.map NetTime.offset).getD t.offset)) s
  announceTime old (rejudgeVerdicts (fun _ => true) (judgeTracked s))

/-- The absolute difference of two unsigned values (R46). -/
def absDiff (a b : Nat) : Nat :=
  if a ≤ b then b - a else a - b

/-- A candidate a value confirms (R46). -/
def Candidate.confirms (uptime value : Nat) (k : Candidate) : Bool :=
  decide (uptime ≤ k.uptime + 60) && decide (absDiff value (k.value + (uptime - k.uptime)) ≤ 2)

/-- A well-formed section taken while the clock is SET (R46). -/
def compareTime (t : TimeBody) (now : NetTime) (s : State) : State :=
  let old := s.clock.minute
  if absDiff t.n now.n ≤ 4 then
    let c := Clock.settled { s.clock with net := some ⟨t.n, t.offset⟩, change := t.change, candidate := none }
    if t.n = now.n then minuteEvent old (s.setClock c)
    else announceTime old (s.setClock { c with steps := bump top32 c.steps })
  else if s.clock.candidate.any (Candidate.confirms s.clock.uptime t.n) then
    let c := Clock.settled
      { s.clock with net := some ⟨t.n, t.offset⟩, change := t.change, candidate := none,
                     jumps := bump top32 s.clock.jumps }
    announceTime old
      (offer (.clockJump t.n ((c.net.map NetTime.offset).getD t.offset) now.n) (s.setClock c))
  else
    minuteEvent old (s.setClock (Clock.settled
      { s.clock with change := t.change, candidate := some ⟨t.n, s.clock.uptime⟩ }))

/-- A time section offered to TIME (R44). -/
def timeSection (h : SectionHeader) (body : List Byte) (s : State) : State :=
  match wellFormedTime h body with
  | none => s.setClock { s.clock with malformed := bump top32 s.clock.malformed }
  | some t =>
    match s.clock.net with
    | none => setFirst t s
    | some now => compareTime t now s

end Sys2Proof.Machine
end

