-- ==== Sys2Proof/Machine/Section.lean ====
section
/-! DEFINITION. The section engine: assembly (R22 to R25), block claims (R28), completion (R29 to R31), host filters (R33,
R34) and the delivery queue (R35, R36). -/

namespace Sys2Proof.Machine

/-! ### The delivery queue -/

/-- The oldest section has waited the delivery timeout (R36; log 25). -/
def oldestTimedOut (s : State) : Bool :=
  match s.sections.queue with
  | [] => false
  | d :: _ => decide (d.joined + s.sections.timeout * cyclesPerMs ≤ s.time.cycles)

/-- A waiting queue is released when it holds the trigger count, or its oldest section has waited the timeout (R36). -/
def judgeDelivery (s : State) : State :=
  if !s.sections.queue.isEmpty && (decide (s.sections.trigger ≤ s.sections.queue.length) || oldestTimedOut s) then
    { s with sections := { s.sections with released := true } }
  else s

/-! ### Host filters -/

/-- The header pattern of a filter (R33). -/
def Filter.agrees (x : Filter) (bytes : List Byte) : Bool :=
  ((x.pattern.toList.zip x.mask.toList).zip (matchedBytes bytes)).all
    (fun r => (r.1.1 &&& r.1.2) == (r.2 &&& r.1.2))

/-- The seen sets of a suppressing filter after a matching good section, or none when it is suppressed (R34); the
section's index is recorded, as it joins the delivery queue in the same completion. -/
def seenAfter (h : SectionHeader) (seen : List SeenSet) : Option (List SeenSet) :=
  let ours := fun (x : SeenSet) => x.kind == h.kind && x.extension == h.extension
  match seen.find? ours with
  | some x =>
    if x.version = h.version then
      if hasIndex x.indices h.index then none
      else some (seen.map (fun y => if ours y then { y with indices := addIndex y.indices h.index } else y))
    else
      some (seen.map (fun y => if ours y then { y with version := h.version, indices := addIndex 0 h.index } else y))
  | none =>
    let new : SeenSet := ⟨h.kind, h.extension, h.version, addIndex 0 h.index⟩
    some ((if seen.length < 8 then seen else seen.tail) ++ [new])

/-- One filter against a completed section: the filter as matching leaves it, or none when it does not match (R31, R33,
R34). -/
def Filter.matchSection (x : Filter) (bad : Bool) (bytes : List Byte) : Option Filter :=
  if !x.agrees bytes then none
  else if bad then (if x.deliverBad then some x else none)
  else if x.suppress then (seenAfter (sectionHeader bytes) x.seen).map (fun seen => { x with seen := seen })
  else some x

/-- A section is matched against filter f, present on its entry; the set gathers the filters that matched (R33, R35). -/
def matchFilter (present : BitVec 24) (bad : Bool) (bytes : List Byte) (f : FilterNo) (a : BitVec 24 × State) :
    BitVec 24 × State :=
  if hasBit present f then
    match getAt a.2.sections.filters f with
    | none => a
    | some x =>
      match x.matchSection bad bytes with
      | none => a
      | some x' =>
        (addBit a.1 f,
          { a.2 with sections := { a.2.sections with filters := setAt a.2.sections.filters f (some x') } })
  else a

/-! ### Completion -/

/-- A good section is offered to the internal consumers of its kind on its entry (R30, Table 2-4). -/
def offerSection (e : Entry) (h : SectionHeader) (body : List Byte) (s : State) : State :=
  match h.kind with
  | 0x10 =>
    match place 4 e.input.val with
    | some p => if e.pins.index then indexSection p h body s else s
    | none => s
  | 0x30 => if e.pins.guide then serviceListSection h body s else s
  | 0x31 => if e.pins.guide then eventSection h body s else s
  | 0x32 => if e.pins.time then timeSection h body s else s
  | 0x94 => if e.pins.access then entitlementSection e.input e.stream h body s else s
  | 0x90 =>
    match e.keysSlot with
    | some k => keySection k e.input e.stream h body s
    | none => s
  | 0x12 => e.mapUsers.foldl (fun s c => mapSection c h body s) s
  | _ => s

/-- The tests before the offer (R30): a header fault is counted, whatever the current flag (log 24), and not offered; a next
version is not offered. -/
def takeGoodSection (e : Entry) (bytes : List Byte) (s : State) : State :=
  let h := sectionHeader bytes
  let s := countSection e.input (fun r => { r with good := bump top32 r.good }) s
  if h.lastIndex < h.index then countSection e.input (fun r => { r with header := bump top32 r.header }) s
  else if !h.current then s
  else offerSection e h (sectionBody bytes) s

/-- A completed section's blocks leave its assembly for the delivery queue or for the free blocks (R35); the entry may
be gone by then, and its blocks with it (R18). -/
def moveSection (i : Input) (stream : Nat) (bad : Bool) (bytes : List Byte) (matched : BitVec 24) (s : State) : State :=
  match findEntry i stream s with
  | none => s
  | some e =>
    let s := modifyEntry i stream (fun e => { e with assembly := .idle }) s
    if matched = 0 then
      { s with sections := { s.sections with freeBlocks := s.sections.freeBlocks + e.blocks } }
    else
      let d : Delivery :=
        { filters := matched, input := i, stream := stream, bad := bad, bytes := bytes, blocks := e.blocks,
          joined := s.time.cycles, number := none, sentPackets := 0 }
      judgeDelivery { s with sections := { s.sections with queue := s.sections.queue ++ [d] } }

/-- The filters present on the entry of a pair. -/
def presentFilters (i : Input) (stream : Nat) (s : State) : BitVec 24 :=
  match findEntry i stream s with
  | some e => e.pins.filters
  | none => 0

/-- A section is complete (R29): its CRC is checked, it is offered, matched and moved on. -/
def completeSection (e : Entry) (bytes : List Byte) (s : State) : State :=
  let bad := crc32 bytes != 0
  let s :=
    if bad then countSection e.input (fun r => { r with badCrc := bump top32 r.badCrc }) s
    else takeGoodSection e bytes s
  let r := filterNos.foldl (fun a f => matchFilter (presentFilters e.input e.stream s) bad bytes f a) (0, s)
  moveSection e.input e.stream bad bytes r.1 r.2

/-! ### Assembly -/

/-- The consumers of an entry are only GUIDE or host filters, or both (R28). -/
def Entry.restricted (e : Entry) : Bool :=
  e.mapUsers.isEmpty && e.keysSlot.isNone && !e.pins.index && !e.pins.access && !e.pins.time

/-- A block claim is granted by the free count and the reserve (R28). -/
def claimGranted (e : Entry) (s : State) : Bool :=
  if e.restricted then decide (64 < s.sections.freeBlocks) else decide (1 ≤ s.sections.freeBlocks)

/-- A refused claim: the section is abandoned and the starvation counted (R28). -/
def starve (i : Input) (stream : Nat) (s : State) : State :=
  let s := modifyEntry i stream (fun e => { e with starve := bump top16 e.starve }) (abandon i stream s)
  countSection i (fun r => { r with starved := bump top32 r.starved }) s

def setAssembly (i : Input) (stream : Nat) (a : Assembly) (s : State) : State :=
  modifyEntry i stream (fun e => { e with assembly := a }) s

/-- What appending a byte came to. -/
inductive Appended where
  | inProgress | completed | abandoned
  deriving DecidableEq, Repr

/-- The bytes expected once three bytes are in: L + 3, or none where L lies outside 9..1021 (R24). -/
def expectedSize (bytes : List Byte) : Option Nat :=
  let l := sectionLength bytes
  if 9 ≤ l && l ≤ 1021 then some (l + 3) else none

/-- A byte has its block: it joins the section in progress, whose length is read at the third byte and which is
completed at its last (R24, R29). -/
def storeByte (e : Entry) (blocks : Nat) (bytes : List Byte) (expected : Option Nat) (s : State) : Appended × State :=
  if bytes.length = 3 then
    match expectedSize bytes with
    | some n => (.inProgress, setAssembly e.input e.stream (.collecting blocks bytes (some n)) s)
    | none =>
      (.abandoned, countFraming e.input
        (abandon e.input e.stream (setAssembly e.input e.stream (.collecting blocks bytes none) s)))
  else
    let s := setAssembly e.input e.stream (.collecting blocks bytes expected) s
    if expected = some bytes.length then (.completed, completeSection e bytes s) else (.inProgress, s)

/-- One byte is appended to the section of an entry, claiming a block at each 64-byte boundary (R24, R28). -/
def appendByte (i : Input) (stream : Nat) (b : Byte) (s : State) : Appended × State :=
  match findEntry i stream s with
  | none => (.abandoned, s)
  | some e =>
    let (blocks, bytes, expected) :=
      match e.assembly with
      | .collecting n l x => (n, l, x)
      | .idle | .skipping => (0, [], none)
    if bytes.length % 64 = 0 then
      if claimGranted e s then
        storeByte e (blocks + 1) (bytes ++ [b]) expected
          { s with sections := { s.sections with freeBlocks := s.sections.freeBlocks - 1 } }
      else (.abandoned, starve i stream s)
    else storeByte e blocks (bytes ++ [b]) expected s

/-- Bytes from the first one after a section's end, or within a section (R22, R24, R25). `between` says that the next
byte is the first after the end of a section. -/
def takeBytes (i : Input) (stream : Nat) : Bool → List Byte → State → State
  | true, [], s => setAssembly i stream .idle s
  | false, [], s => s
  | between, b :: l, s =>
    if between && b == 0xFF then setAssembly i stream .idle s
    else
      match appendByte i stream b s with
      | (.inProgress, s) => takeBytes i stream false l s
      | (.completed, s) => takeBytes i stream true l s
      | (.abandoned, s) => s

/-- The lead run of a section in progress (R23): it finishes the section, cuts it short, or runs over it. -/
def leadBytes (i : Input) (stream : Nat) : List Byte → State → State
  | [], s => countFraming i (abandon i stream s)
  | b :: l, s =>
    match appendByte i stream b s with
    | (.inProgress, s) => leadBytes i stream l s
    | (.completed, s) => if l.isEmpty then s else countFraming i s
    | (.abandoned, s) => s

/-- The assembly of the entry of a pair is COLLECTING. -/
def collecting (i : Input) (stream : Nat) (s : State) : Bool :=
  match findEntry i stream s with
  | some e => e.assembly.inProgress
  | none => false

/-- A payload that opens with a lead byte (R23). -/
def takeLead (i : Input) (stream : Nat) (l : List Byte) (s : State) : State :=
  match l with
  | [] => countFraming i (abandon i stream s)
  | p :: rest =>
    if rest.length < p.toNat then countFraming i (abandon i stream s)
    else
      let s := if collecting i stream s then leadBytes i stream (rest.take p.toNat) s else s
      takeBytes i stream true (rest.drop p.toNat) s

/-- A payload handed to the section engine (R22, R23). -/
def handPayload (i : Input) (stream : Nat) (start : Bool) (l : List Byte) (s : State) : State :=
  if start then takeLead i stream l s
  else if collecting i stream s then takeBytes i stream false l s
  else s

end Sys2Proof.Machine
end

