-- ==== Sys2Proof/Machine/Packets.lean ====
section
/-! DEFINITION. The way of a component packet: descrambler (R92 to R95), entry packet (R106), switch (R107), capture start
(R108) and admission (R117). -/

namespace Sys2Proof.Machine

/-! ### Descrambler -/

/-- The key a slot holds for a phase (R93). -/
def Slot.keyFor (x : Slot) (phase : Nat) : Option Key :=
  if phase = 2 then x.even else if phase = 3 then x.odd else none

/-- The presentation copy of a component packet for a context, or none (R92 to R95). -/
def presentationCopy (s : State) (x : Context) (p : List Byte) : Option (List Byte) :=
  if !payloadPresent p then some (withClearPhase p)
  else if keyPhase p = 0 then some p
  else
    match slotOf s x with
    | none => none
    | some k => (k.keyFor (keyPhase p)).map (fun key => descrambled key p)

/-- A packet that finds its key: the slot becomes KEYED (R93). -/
def keyedSlot (x : Slot) : Slot :=
  { x with run := 0, keyed := bump top32 x.keyed, lapsed := false }

/-- A packet that finds no key: at a run of 64 a KEYED slot becomes LAPSED (R94). -/
def unkeyedSlot (x : Slot) : Slot :=
  let run := bump 64 x.run
  if 64 ≤ run && !x.lapsed then
    { x with run := run, unkeyed := bump top32 x.unkeyed, lapsed := true, lapses := bump top16 x.lapses }
  else { x with run := run, unkeyed := bump top32 x.unkeyed }

/-- A packet with payload is classified with a slot (R92 to R95). -/
def classifySlot (i : Input) (p : List Byte) (k : SlotNo) (s : State) : State :=
  match s.slot k with
  | none => s
  | some x =>
    if keyPhase p = 0 then countDescrambler i (fun r => { r with clear := bump top32 r.clear }) s
    else if keyPhase p = 1 then
      countDescrambler i (fun r => { r with badPhase := bump top32 r.badPhase })
        (s.setSlot k (some { x with badPhase := bump top32 x.badPhase }))
    else if (x.keyFor (keyPhase p)).isSome then
      updateSlot k (keyedSlot x) (countDescrambler i (fun r => { r with keyed := bump top32 r.keyed }) s)
    else
      updateSlot k (unkeyedSlot x) (countDescrambler i (fun r => { r with unkeyed := bump top32 r.unkeyed }) s)

/-- A packet with payload on a context without a slot is counted by its phase (R92). -/
def classifySlotless (i : Input) (p : List Byte) (s : State) : State :=
  countDescrambler i
    (fun r =>
      if keyPhase p = 0 then { r with clear := bump top32 r.clear }
      else if keyPhase p = 1 then { r with badPhase := bump top32 r.badPhase }
      else { r with withoutSlot := bump top32 r.withoutSlot }) s

/-- A component packet is classified once for each slot of the contexts it is shown to, in ascending slot number, and then
once for each context without a slot (R14, R97; logs 11, 37). A packet without payload is not classified (R92). -/
def classify (i : Input) (p : List Byte) (users : List CtxNo) (s : State) : State :=
  if payloadPresent p then
    let slots := slotNos.filter (fun k => users.any (fun c => (s.context c).slot == some k))
    let slotless := users.filter (fun c => (s.context c).slot.isNone)
    slotless.foldl (fun s _ => classifySlotless i p s) (slots.foldl (fun s k => classifySlot i p k s) s)
  else s

/-! ### Switching and capture start -/

/-- An output switches to context c at its entry packet: marker, binding with the grants of the output ended, entry
packet, old context, TUNE_DONE (R107). -/
def switchOutput (o : OutputNo) (c : CtxNo) (copy : Option (List Byte)) (arrival : BitVec 32) (s : State) : State :=
  let old := (s.binding o).current
  let s := placeMarker o c s
  let s := s.setBinding o { current := some ⟨c, .none⟩, pending := none }
  let s := endGrants (fun g => g.output == o) .binding s
  let hold := judged s judgeAll c (.output o) .none
  let s := s.setBinding o { current := some ⟨c, hold⟩, pending := none }
  let s := match copy with
    | some p => if hold.isEmpty then handToOutput o c p arrival s else s
    | none => s
  let s := match old with
    | some b => retireIfUnbound b.ctx s
    | none => s
  offer (.tuneDone (.output o) c (s.context c).input (s.context c).service hold) s

/-- An output whose pending binding is c switches when its marker place is empty (R107). -/
def canSwitch (s : State) (c : CtxNo) (o : OutputNo) : Bool :=
  s.isPending o c && (s.output o).marker.isNone

/-- A tag BOUND to c that is not started begins capture (R108). -/
def startTag (c : CtxNo) (t : TagNo) (s : State) : State :=
  match s.tag t with
  | .bound c' (some _) _ =>
    if c' = c then
      let hold := judged s judgeAll c (.tag t) .none
      offer (.tuneDone (.tag t) c (s.context c).input (s.context c).service hold) (s.setTag t (.bound c none hold))
    else s
  | .bound _ none _ | .idle | .draining _ => s

/-! ### Admission -/

/-- The presentation copy goes to an output whose current binding is c and whose hold set is empty (R117). -/
def admitOutput (c : CtxNo) (copy : Option (List Byte)) (arrival : BitVec 32) (o : OutputNo) (s : State) : State :=
  match (s.binding o).current, copy with
  | some b, some p => if b.ctx = c && b.hold.isEmpty then handToOutput o c p arrival s else s
  | _, _ => s

/-- The raw copy goes to a started tag of c whose hold set is empty (R117). -/
def admitTag (c : CtxNo) (slot : Nat) (p : List Byte) (t : TagNo) (s : State) : State :=
  match s.tag t with
  | .bound c' none hold => if c' = c && hold.isEmpty then handToCapture t c slot p s else s
  | .bound _ (some _) _ | .idle | .draining _ => s

/-- The copies of a packet are handed to the active destinations of a RUNNING context (R117); `except` lists the outputs
that have already had it at their switch. -/
def admitPacket (c : CtxNo) (k : Fin 8) (p : List Byte) (copy : Option (List Byte)) (arrival : BitVec 32)
    (except : List OutputNo) (s : State) : State :=
  if (s.context c).state = .running then
    let s := (outputNos.filter (fun o => !except.contains o)).foldl (fun s o => admitOutput c copy arrival o s) s
    tagNos.foldl (fun s t => admitTag c (2 + k.val) p t s) s
  else s

/-- The entry packet makes a context RUNNING (R106, steps 1 and 2). -/
def becomeRunning (c : CtxNo) (s : State) : State :=
  let x := s.context c
  if x.state = .entry then
    let s := s.setContext c { x with state := .running, deadline := none }
    if x.input = pb then s else startTracking x.service s
  else s

/-- An entry packet of a context: RUNNING, pending destinations, admission (R106). -/
def takeEntryPacket (c : CtxNo) (k : Fin 8) (p : List Byte) (arrival : BitVec 32) (s : State) : State :=
  let s := becomeRunning c s
  let copy := presentationCopy s (s.context c) p
  let switching := outputNos.filter (canSwitch s c)
  let s := switching.foldl (fun s o => switchOutput o c copy arrival s) s
  let s := tagNos.foldl (fun s t => startTag c t s) s
  admitPacket c k p copy arrival switching s

/-- A component packet shown to a context under a component index (R14, R106, R117). -/
def takeComponent (p : List Byte) (arrival : BitVec 32) (c : CtxNo) (k : Fin 8) (s : State) : State :=
  let x := s.context c
  let marked := entryMark p && x.entryComponent == some k.val
  match x.state with
  | .entry => if marked then takeEntryPacket c k p arrival s else s
  | .running =>
    if marked then takeEntryPacket c k p arrival s else admitPacket c k p (presentationCopy s x p) arrival [] s
  | .free | .locate | .map | .key | .retiring => s

/-- A packet of a COMPONENT entry is classified, then shown to each context user (R14). -/
def showPacket (i : Input) (e : Entry) (p : List Byte) (arrival : BitVec 32) (s : State) : State :=
  e.componentUsers.foldl (fun s u => takeComponent p arrival u.1 u.2 s) (classify i p (e.componentUsers.map Prod.fst) s)

/-- The raw copy of a packet of a SECTIONS entry goes to the started tags of a RUNNING context (R117). -/
def admitRaw (c : CtxNo) (slot : Nat) (p : List Byte) (s : State) : State :=
  if (s.context c).state = .running then tagNos.foldl (fun s t => admitTag c slot p t s) s else s

/-- A packet of a SECTIONS entry is offered raw to the captures of the contexts that hold MAP (slot 0) or KEYS (slot 1)
(R14, R117). A context that holds both is offered it twice, to its tags as slot 0 and then to its tags as slot 1 (log 46). -/
def offerRaw (e : Entry) (p : List Byte) (s : State) : State :=
  e.users.foldl
    (fun s u =>
      let s := if u.purposes.contains .map then admitRaw u.ctx 0 p s else s
      if u.purposes.any (fun q => q.slot?.isSome) then admitRaw u.ctx 1 p s else s) s

end Sys2Proof.Machine
end

