-- ==== Sys2Proof/Machine/Management.lean ====
section
/-! DEFINITION. The management buffer (R169, R170) and what RESTART and the fuse read leave (R65, R167, R168, R176). -/

namespace Sys2Proof.Machine

/-! ### The management buffer -/

/-- The bytes of an order packet that are not decoded yet. -/
def OrderPacket.rest (p : OrderPacket) : List Byte :=
  p.payload.drop p.position

/-- The order list of a packet has ended (R170, step 1). -/
def OrderPacket.listEnded (p : OrderPacket) : Bool :=
  p.rest.isEmpty || byteAt p.rest 0 == 0

/-- Packets at the head whose order list has ended leave the buffer (R170; log 18). -/
def dropEnded : List OrderPacket → List OrderPacket
  | [] => []
  | p :: l => if p.listEnded then dropEnded l else p :: l

def State.setBuffer (s : State) (l : List OrderPacket) : State :=
  { s with mgmt := { s.mgmt with buffer := l } }

/-- Decoding goes on until a RESTART is decoded (R176). -/
def pruneBuffer (s : State) : State :=
  if s.mgmt.restarting then s else s.setBuffer (dropEnded s.mgmt.buffer)

/-- An order packet handed to the management unit: discarded while STARTING (R167), else it joins the buffer or is
counted as an overrun (R169). -/
def takeOrderPacket (p : List Byte) (s : State) : State :=
  if !s.mgmt.ready then s
  else if s.mgmt.buffer.length < 4 then pruneBuffer (s.setBuffer (s.mgmt.buffer ++ [⟨payload p, 0⟩]))
  else { s with mgmt := { s.mgmt with overrun := bump top32 s.mgmt.overrun } }

/-! ### Resets -/

/-- The part at its pin reset values; the commands that wait stay in the queue (R167, log 31). -/
def pinResetState (locks : Vector Bool 4) (s : State) : State :=
  { State.reset with pending := s.pending, intake := .ofLocks locks }

/-- The fuse read ends: the access state is fixed and READY is placed (R65, R168). It ends once after a pin reset. -/
def endFuseRead (fuses : Option Fuses) (s : State) : State :=
  if s.access.reading then
    placeReady { s with access := { s.access with reading := false, fuses := fuses } }
  else s

/-- The intake after RESTART: tuner ports by their lock lines, HL-in in its sync, statistics 0 (R7 to R10). HL-in's run
counts (log 4) and the units in progress (log 6) stay. -/
def restartIntake (x : Intake) : Intake :=
  { Intake.ofLocks x.lock with
    sync := setAt (Intake.ofLocks x.lock).sync pb (getAt x.sync pb)
    forming := x.forming }

/-- The section engine after RESTART (R27, R32, R36, R38, R188). -/
def restartSections (x : Sections) : Sections :=
  { x with
    freeBlocks := 512, filters := Vector.replicate 24 none, queue := [], released := false,
    stats := Vector.replicate 5 .zero }

/-- The clock unit after RESTART (Table 3-1). -/
def restartClock (x : Clock) : Clock :=
  { x with candidate := none, source := none }

/-- The guide store after RESTART (R52, R54, R55, R58). -/
def restartGuide (x : Guide) : Guide :=
  { x with index := Vector.replicate 4 .empty, tracked := [], source := none }

/-- The access engine after RESTART (R65 to R78, R82, R97). -/
def restartAccess (x : Access) : Access :=
  { x with
    sources := Vector.replicate 2 none, slots := Vector.replicate 16 none, stats := Vector.replicate 5 .zero }

/-- The context controller after RESTART (R99, R100, R122). -/
def restartCtl (x : Ctl) : Ctl :=
  { x with
    contexts := Vector.replicate 16 .empty, outputs := Vector.replicate 2 .empty, tags := Vector.replicate 8 .idle }

/-- A presentation output after RESTART: its rate and pacing run on (R151, R154). -/
def restartOutput (x : Output) : Output :=
  { Output.initial with rate := x.rate, paceStart := x.paceStart, paceIndex := x.paceIndex }

/-- The output unit after RESTART (R151, R158, R159, R162, R163). -/
def restartOut (x : Out) : Out :=
  { outputs := x.outputs.map restartOutput, capture := [], captureCount := Vector.replicate 16 0,
    records := Vector.replicate 8 .zero, sent := .zero, run := 0 }

/-- The management unit after RESTART (Table 9-1). -/
def restartMgmt : Mgmt :=
  { ready := false, buffer := [], answers := [], overrun := 0, cause := .restart, restarting := false }

/-- Every block takes its RESTART values and READY is placed (R176, stage 3). -/
def restartState (s : State) : State :=
  placeReady
    { s with
      intake := restartIntake s.intake
      table := fixedTable
      sections := restartSections s.sections
      clock := restartClock s.clock
      guide := restartGuide s.guide
      access := restartAccess s.access
      ctl := restartCtl s.ctl
      parental := { s.parental with grants := [] }
      out := restartOut s.out
      notices := { queue := [], missed := false }
      mgmt := restartMgmt }

/-- RESTART takes effect once its answer has been sent (R176, stage 2). -/
def restartEffect (s : State) : State :=
  if s.mgmt.restarting && s.mgmt.answers.isEmpty then restartState s else s

end Sys2Proof.Machine
end

