-- ==== Sys2Proof/Machine/Intake.lean ====
section
/-! DEFINITION. The intake: lock lines and sync (R2 to R9), unit formation (R1), examination (R11), continuity (R12),
errored packets (R13) and hand-off (R14); the commands LOCK_LINE_FALLS, LOCK_LINE_RISES, UNIT_TAKEN and HL_IN_UNIT_TAKEN. -/

namespace Sys2Proof.Machine

/-! ### Continuity and hand-off -/

/-- What the continuity check comes to (R12). -/
inductive Continuity where
  | accepted | dropped | gap
  deriving DecidableEq, Repr

/-- The continuity check of a packet with payload and count k (R12). -/
def continuity (e : Entry) (k : Nat) : Continuity :=
  match e.lastCount with
  | none => .accepted
  | some last =>
    if k = (last + 1) % 16 then .accepted
    else if k = last && !e.duplicate then .dropped
    else .gap

/-- The entry's record after the check (R12). -/
def Entry.afterCheck (k : Nat) (c : Continuity) (e : Entry) : Entry :=
  match c with
  | .accepted => { e with lastCount := some k, duplicate := false }
  | .dropped => { e with duplicate := true }
  | .gap => { e with lastCount := some k, duplicate := false, gaps := bump top16 e.gaps }

/-- An accepted packet is handed on by the role of its entry (R14; log 26). -/
def handOff (i : Input) (e : Entry) (p : List Byte) (arrival : BitVec 32) (s : State) : State :=
  match e.role with
  | .component => showPacket i e p arrival s
  | .sections =>
    let s := if payloadPresent p then handPayload i e.stream (startFlag p) (payload p) s else s
    offerRaw e p s

/-- A packet whose error flag is set (R13). -/
def takeErrored (i : Input) (e : Entry) (p : List Byte) (arrival : BitVec 32) (s : State) : State :=
  match e.role with
  | .component => handOff i e p arrival s
  | .sections =>
    offerRaw e p (modifyEntry i e.stream (fun e => { e with lastCount := none }) (abandon i e.stream s))

/-- The continuity check and what follows it (R11, steps 6 and 7). -/
def takeChecked (i : Input) (e : Entry) (p : List Byte) (arrival : BitVec 32) (s : State) : State :=
  if !payloadPresent p then handOff i e p arrival s
  else
    let k := continuityCount p
    let c := continuity e k
    let s := modifyEntry i e.stream (Entry.afterCheck k c) s
    match c with
    | .accepted => handOff i e p arrival s
    | .dropped => s
    | .gap =>
      let s := countPort i (fun r => { r with gaps := bump top32 r.gaps }) s
      let s := match e.role with
        | .sections => abandon i e.stream s
        | .component => s
      handOff i e p arrival s

/-- The packets count, and the errored count of a flagged packet (R10). -/
def countPacket (i : Input) (p : List Byte) (s : State) : State :=
  countPort i
    (fun r =>
      { r with packets := bump top32 r.packets, errored := if errorFlag p then bump top32 r.errored else r.errored }) s

def countStray (i : Input) (s : State) : State :=
  countPort i (fun r => { r with stray := bump top32 r.stray }) s

/-- Examination of a packet on an input that is UP (R11). -/
def examine (i : Input) (p : List Byte) (arrival : BitVec 32) (s : State) : State :=
  let s := countPacket i p s
  let n := streamNumber p
  if n = 0x1FFF then s
  else if i ≠ pb && 0x1FF0 ≤ n then countStray i s
  else
    match findEntry i n s with
    | none => s
    | some e => if errorFlag p then takeErrored i e p arrival s else takeChecked i e p arrival s

/-! ### Port state -/

/-- An input enters UP (R4, R9): its PORT notice joins before the HOLD notices of the SIGNAL report (log 49). -/
def enterUp (i : Input) (s : State) : State :=
  let s := s.setSync i { getAt s.intake.sync i with state := .up, badRun := 0 }
  signalReport i (offer (.port i .up) s)

/-- An input leaves UP for another state (R5, R9): its PORT notice joins before the HOLD notices of the SIGNAL report
(log 49). -/
def leaveUp (i : Input) (x : SyncRec) (s : State) : State :=
  let s := offer (.port i x.state) (s.setSync i x)
  signalReport i (clearPortRecords i s)

/-- A unit taken by a SEEKING input (Table 1-1). -/
def takeSeeking (i : Input) (good : Bool) (s : State) : State :=
  let x := getAt s.intake.sync i
  if good then
    let s := s.setSync i { x with goodRun := x.goodRun + 1 }
    if 3 ≤ x.goodRun + 1 then enterUp i s else s
  else s.setSync i { x with goodRun := 0 }

/-- A bad-sync unit taken by an input that is UP (Table 1-1). -/
def takeBadSync (i : Input) (s : State) : State :=
  let x := getAt s.intake.sync i
  if 2 ≤ x.badRun + 1 then
    let s := countPort i (fun r => { r with syncLosses := bump top32 r.syncLosses }) s
    leaveUp i { state := .seeking, goodRun := 0, badRun := 0 } s
  else s.setSync i { x with badRun := x.badRun + 1 }

/-- A good-sync unit returns the bad-sync run count to 0 (Table 1-1). -/
def takeGoodSync (i : Input) (s : State) : State :=
  s.setSync i { getAt s.intake.sync i with badRun := 0 }

/-! ### HL-in -/

/-- A good-sync unit in sync on HL-in is sorted by its stream number (Table 1-2). -/
def sortHlIn (p : List Byte) (arrival : BitVec 32) (s : State) : State :=
  let n := streamNumber p
  if n = 0x1FF0 then
    if errorFlag p then countPort pb (fun r => { r with errored := bump top32 r.errored }) s
    else takeOrderPacket p s
  else if 0x1000 ≤ n && n ≤ 0x11FF then examine pb p arrival s
  else if n = 0x1FFF then countPacket pb p s
  else countStray pb (countPacket pb p s)

/-- A good-sync unit in UP is a packet of its input (R3, R8). -/
def usePacket (i : Input) (p : List Byte) (arrival : BitVec 32) (s : State) : State :=
  if i = pb then sortHlIn p arrival s else examine i p arrival s

/-- A unit taken on an input, with its sync tracking (R3, R8); its arrival time is the 27 MHz counter (R1). -/
def takeUnit (i : Input) (unit : List Byte) (s : State) : State :=
  match (getAt s.intake.sync i).state with
  | .down => s
  | .seeking => takeSeeking i (goodSync unit) s
  | .up => if goodSync unit then usePacket i (asTaken unit) s.time.counter (takeGoodSync i s) else takeBadSync i s

/-! ### Unit formation -/

def State.forming (s : State) (i : Input) : Option (List Byte) :=
  getAt s.intake.forming i

def State.setForming (s : State) (i : Input) (v : Option (List Byte)) : State :=
  { s with intake := { s.intake with forming := setAt s.intake.forming i v } }

/-- A start indication cuts the unit in progress short: it is taken (R1). -/
def cutShort (i : Input) (s : State) : State :=
  match s.forming i with
  | none => s
  | some u => takeUnit i u (s.setForming i none)

/-- A byte arrives on an input (R1, R8): a start byte cuts the unit in progress short and begins a unit, the 188th byte ends
one; a byte on an input that is DOWN, or outside a unit, is ignored (log 6). -/
def takeLinkByte (i : Input) (s : State) (b : LinkByte) : State :=
  if (getAt s.intake.sync i).state = .down then s
  else if b.start then (cutShort i s).setForming i (some [b.byte])
  else
    match s.forming i with
    | none => s
    | some u =>
      if u.length + 1 = 188 then takeUnit i (u ++ [b.byte]) (s.setForming i none)
      else s.setForming i (some (u ++ [b.byte]))

/-- Bytes that arrive on an input, in their order (R1, R8). -/
def takeLinkBytes (i : Input) (bytes : List LinkByte) (s : State) : State :=
  bytes.foldl (takeLinkByte i) s

/-! ### The commands -/

def State.setLock (s : State) (p : PortNo) (high : Bool) : State :=
  { s with intake := { s.intake with lock := setAt s.intake.lock p high } }

/-- A falling lock line puts the port in DOWN and discards its unit in progress (R1); a port that was not DOWN clears its
service index (R2, R5, R6). -/
def lockFalls (p : PortNo) (s : State) : State :=
  let i := inputOf p
  let x := getAt s.intake.sync i
  let s := (s.setLock p false).setForming i none
  match x.state with
  | .down => s
  | .seeking => clearIndex p (s.setSync i { x with state := .down })
  | .up => clearIndex p (leaveUp i { x with state := .down } s)

/-- A rising lock line puts a DOWN port in SEEKING with its good-sync run count at 0 (R2). -/
def lockRises (p : PortNo) (s : State) : State :=
  let i := inputOf p
  let x := getAt s.intake.sync i
  let s := s.setLock p true
  match x.state with
  | .down => s.setSync i { x with state := .seeking, goodRun := 0 }
  | .seeking | .up => s

/-- LOCK_LINE_FALLS (R2). -/
def execLockLineFalls (p : PortNo) (s : State) : Host.Outcome State Fault Refusal :=
  .next (lockFalls p s)

/-- LOCK_LINE_RISES (R2). -/
def execLockLineRises (p : PortNo) (s : State) : Host.Outcome State Fault Refusal :=
  .next (lockRises p s)

/-- UNIT_TAKEN (R1, R3). -/
def execUnitTaken (p : PortNo) (bytes : List LinkByte) (s : State) : Host.Outcome State Fault Refusal :=
  .next (takeLinkBytes (inputOf p) bytes s)

/-- HL_IN_UNIT_TAKEN (R1, R8). -/
def execHlInUnitTaken (bytes : List LinkByte) (s : State) : Host.Outcome State Fault Refusal :=
  .next (takeLinkBytes pb bytes s)

end Sys2Proof.Machine
end

