-- ==== Sys2Proof/Machine/Output.lean ====
section
/-! DEFINITION. What leaves the part: presentation outputs (R153 to R157), the HL-out arbiter (R160, R162, R163), delivery
packets (R37, R188), and the layouts of answers, notices and markers (R186, R187, R189); the commands PO_SEND_OPPORTUNITY
and HL_OUT_OPPORTUNITY. -/

namespace Sys2Proof.Machine

/-! ### Codes -/

def PortState.code (x : PortState) : Nat :=
  match x with
  | .down => 0
  | .seeking => 1
  | .up => 2

def ComponentKind.code (k : ComponentKind) : Nat :=
  match k with
  | .video => 1
  | .audio => 2
  | .subtitle => 3
  | .data => 4

/-- Failure reasons (R186). -/
def FailReason.code (r : FailReason) : Nat :=
  match r with
  | .notInIndex => 1
  | .noIndex => 2
  | .noMap => 3
  | .noKey => 4
  | .noEntry => 5
  | .notEntitled => 6
  | .noRoom => 7

/-- Exception kinds (R187). -/
def ExceptionKind.code (k : ExceptionKind) : Nat :=
  match k with
  | .notEntitled => 1
  | .integrity => 2
  | .stale => 3
  | .wrongNetwork => 4
  | .listFull => 5
  | .malformed => 6

/-- Grant end causes (R187). -/
def GrantEnd.code (c : GrantEnd) : Nat :=
  match c with
  | .minutes => 1
  | .event => 2
  | .binding => 3
  | .profile => 4
  | .revoked => 5
  | .displaced => 6

/-- Outcome codes (Table 9-2). -/
def OutcomeCode.code (o : OutcomeCode) : Nat :=
  match o with
  | .done => 0
  | .accepted => 1
  | .already => 2
  | .noRoom => 3
  | .tableFull => 4
  | .tagBusy => 5
  | .badParam => 6
  | .unknownOrder => 7
  | .malformed => 8
  | .writeOnce => 9
  | .noPin => 10
  | .wrongPin => 11
  | .lockedOut => 12
  | .notBound => 13
  | .notFound => 14

/-- Parental reasons, RATING in bit 0 (R186). -/
def Reasons.code (r : Reasons) : Nat :=
  r.rating.toNat + 2 * r.unrated.toNat + 4 * r.adult.toNat + 8 * r.locked.toNat + 16 * r.quiet.toNat

/-- Hold set, SIGNAL in bit 0 (R186). -/
def HoldSet.code (h : HoldSet) : Nat :=
  h.signal.toNat + 2 * h.entitlement.toNat + 4 * h.keyLapse.toNat + 8 * (h.parental != .none).toNat

/-- A hold set and its PARENTAL reason set. -/
def encHold (h : HoldSet) : List Byte :=
  enc8 h.code ++ enc8 h.parental.code

/-- A destination: 0 output or 1 tag, then its number (R187). -/
def encDest (d : Dest) : List Byte :=
  match d with
  | .output o => enc8 0 ++ enc8 o.val
  | .tag t => enc8 1 ++ enc8 t.val

/-- A grant key: 0 TUNER or 1 PB, then the service or tag (R187). -/
def encGrantKey (k : GrantKey) : List Byte :=
  match k with
  | .tuner s => enc8 0 ++ enc16 s
  | .pb t => enc8 1 ++ enc16 t

/-- Part revision and unit address behind their presence byte (Table 9-5, READY). -/
def encFuses (f : Option Fuses) : List Byte :=
  presence [f.isSome, f.isSome] ++ encOpt 1 (fun x => enc8 x.revision.toNat) f ++
    encOpt 4 (fun x => enc32 x.unitAddress.toNat) f

/-- The identity of a context: port, then service or tag. -/
def encIdentity (i : Input) (service : Nat) : List Byte :=
  enc8 i.val ++ enc16 service

/-! ### Notices (Table 9-5) -/

def Notice.kind (n : Notice) : Nat :=
  match n with
  | .ready .. => 1
  | .port .. => 2
  | .tuneDone .. => 3
  | .tuneFailed .. => 4
  | .superseded .. => 5
  | .hold .. => 6
  | .tagFree .. => 7
  | .event .. => 8
  | .clockSet .. => 9
  | .clockJump .. => 9
  | .exception .. => 10
  | .overflow => 11
  | .lockout .. => 12
  | .grantEnd .. => 13
  | .outputOverflow .. => 14
  | .captureLoss .. => 15

def Notice.body (n : Notice) : List Byte :=
  match n with
  | .ready cause fuses =>
    enc8 (match cause with | .pinReset => 0 | .restart => 1) ++ encBool fuses.isSome ++ encFuses fuses
  | .port i st => enc8 i.val ++ enc8 st.code
  | .tuneDone d c i sv h => encDest d ++ enc8 c.val ++ encIdentity i sv ++ encHold h
  | .tuneFailed d c i sv r => encDest d ++ enc8 c.val ++ encIdentity i sv ++ enc8 r.code
  | .superseded o c i sv => enc8 o.val ++ enc8 c.val ++ encIdentity i sv
  | .hold d c h => encDest d ++ enc8 c.val ++ encHold h
  | .tagFree t => enc8 t.val
  | .event sv a b => enc16 sv ++ presence [a.isSome, b.isSome] ++ encOpt 2 enc16 a ++ encOpt 2 enc16 b
  | .clockSet n l => enc8 0 ++ presence [false] ++ enc32 n ++ encSigned16 l ++ enc32 0
  | .clockJump n l old => enc8 1 ++ presence [true] ++ enc32 n ++ encSigned16 l ++ enc32 old
  | .exception k i st t => enc8 k.code ++ enc8 i.val ++ enc16 st ++ presence [t.isSome] ++ encOpt 1 enc8 t
  | .overflow => []
  | .lockout p e => enc8 p.val ++ enc32 e
  | .grantEnd o k p c => enc8 o.val ++ encGrantKey k ++ enc8 p.val ++ enc8 c.code
  | .outputOverflow o n => enc8 o.val ++ enc32 n
  | .captureLoss t n => enc8 t.val ++ enc32 n

/-- A notice packet's payload (R187). Bits 1 to 7 of the flags byte are sent 0 (log 51). -/
def noticePayload (n : Notice) (missed : Bool) : List Byte :=
  enc8 n.kind ++ encBool missed ++ enc8 n.body.length ++ n.body

/-- An answer packet's payload (R186). Bits 1 to 7 of the flags byte are sent 0 (log 51). -/
def answerPayload (a : Answer) : List Byte :=
  [a.code, a.tag] ++ enc8 a.outcome.code ++ encBool a.adjusted ++ enc16 a.results.length ++ a.results

/-- A switch marker's payload (R189). -/
def markerPayload (m : Marker) : List Byte :=
  enc8 m.ctx.val ++ encIdentity m.input m.service ++ encList (fun k => enc8 k.kind.code ++ enc16 k.stream) m.components

/-! ### Drain counts -/

/-- A departure lowers a context's drain count; one that brings it to 0 frees a RETIRING context (R161, R114). -/
def lowerDrain (c : CtxNo) (s : State) : State :=
  freeIfDrained c (s.setContext c { s.context c with drain := (s.context c).drain - 1 })

/-! ### Presentation outputs -/

/-- What happens to the clock stamp of a departing packet (R156, R157). -/
inductive StampResult where
  | none | corrected (base ext : Nat) | fault
  deriving DecidableEq, Repr

/-- A stamp corrected by a residence time of t cycles (R156). -/
def stampResult (p : List Byte) (t : Nat) : StampResult :=
  match clockStamp p with
  | none => .none
  | some (b, e) =>
    if e < 300 then .corrected ((b + (e + t) / 300) % 8589934592) ((e + t) % 300) else .fault

/-- The head packet of a presentation queue departs (R155, R156). -/
def departPo (o : OutputNo) (q : QueuedPacket) (rest : List QueuedPacket) (s : State) : State :=
  let x := s.output o
  let r := stampResult q.packet (s.time.counter - q.arrival).toNat
  let p := match r with
    | .corrected b e => withStamp q.packet b e
    | .none | .fault => q.packet
  let x :=
    { x with
      queue := rest
      marker := x.marker.map (fun m => { m with ahead := m.ahead - 1 })
      packetsSent := bump top32 x.packetsSent
      stampsCorrected := (match r with | .corrected _ _ => bump top32 x.stampsCorrected | .none | .fault => x.stampsCorrected)
      stampFaults := (match r with | .fault => bump top32 x.stampFaults | .none | .corrected _ _ => x.stampFaults) }
  lowerDrain q.ctx (sendPo o (asSent p) (s.setOutput o x))

/-- The marker of an output is sent (R155). -/
def sendMarker (o : OutputNo) (m : Marker) (s : State) : State :=
  let x := s.output o
  sendPo o (ownPacket 0x1FF8 x.markerCount (markerPayload m))
    (s.setOutput o
      { x with marker := none, markerCount := (x.markerCount + 1) % 16, markersSent := bump top32 x.markersSent })

/-- The queue's head, or filler, is sent (R155, steps 2 and 3). -/
def sendQueued (o : OutputNo) (s : State) : State :=
  let x := s.output o
  match x.queue with
  | q :: rest => departPo o q rest s
  | [] => sendPo o fillerPacket (s.setOutput o { x with fillerSent := bump top32 x.fillerSent })

/-- The moment of an output's next opportunity, in reference cycles (R154). -/
def nextOpportunity (x : Output) : Nat :=
  x.paceStart + (x.paceIndex + 1) * cyclesPerSecond / x.rate

/-- A send opportunity of a presentation output (R154, R155). -/
def sendPresentation (o : OutputNo) (s : State) : State :=
  let s := advanceTo (nextOpportunity (s.output o)) s
  let s := s.setOutput o { s.output o with paceIndex := (s.output o).paceIndex + 1 }
  match (s.output o).marker with
  | some m => if m.ahead = 0 then sendMarker o m s else sendQueued o s
  | none => sendQueued o s

/-! ### HL-out -/

/-- The head answer is sent (R162). -/
def sendAnswer (a : Answer) (rest : List Answer) (s : State) : State :=
  sendHlOut (ownPacket 0x1FF1 s.link.answerCount (answerPayload a))
    { s with
      mgmt := { s.mgmt with answers := rest }
      link := { s.link with answerCount := (s.link.answerCount + 1) % 16 }
      out := { s.out with sent := { s.out.sent with answers := bump top32 s.out.sent.answers } } }

def Notice.isReady (n : Notice) : Bool :=
  n.kind == 1

/-- The head notice is sent with the missed flag, which is cleared; sending READY makes the unit READY (R162, R168,
R173). -/
def sendNotice (n : Notice) (rest : List Notice) (s : State) : State :=
  sendHlOut (ownPacket 0x1FF2 s.link.noticeCount (noticePayload n s.notices.missed))
    { s with
      notices := { queue := rest, missed := false }
      mgmt := { s.mgmt with ready := s.mgmt.ready || n.isReady }
      link := { s.link with noticeCount := (s.link.noticeCount + 1) % 16 }
      out := { s.out with sent := { s.out.sent with notices := bump top32 s.out.sent.notices } } }

/-- The head capture packet departs (R160). -/
def sendCapture (q : CapturePacket) (rest : List CapturePacket) (s : State) : State :=
  let s :=
    { s with out :=
      { s.out with
        capture := rest
        captureCount := modAt s.out.captureCount q.ctx (· - 1)
        sent := { s.out.sent with capture := bump top32 s.out.sent.capture }
        run := bump 3 s.out.run } }
  let s := s.setCaptureRec q.tag { s.captureRec q.tag with sent := bump top32 (s.captureRec q.tag).sent }
  lowerDrain q.ctx (sendHlOut (asSent q.packet) s)

/-- How many delivery packets a section takes (R37). -/
def deliveryPackets (d : Delivery) : Nat :=
  (d.bytes.length + 175) / 176

/-- The position mark of the next packet (R37, Table 9-12). -/
def positionMark (d : Delivery) : Nat :=
  if deliveryPackets d ≤ 1 then 0
  else if d.sentPackets = 0 then 1
  else if d.sentPackets + 1 = deliveryPackets d then 3
  else 2

/-- The payload of the next delivery packet (Table 9-12). -/
def deliveryPayload (d : Delivery) (number : Nat) : List Byte :=
  enc8 number ++ enc24 d.filters.toNat ++ enc16 (d.input.val * 8192 + d.stream % 8192) ++
    enc16 (positionMark d * 16384 + d.bad.toNat * 8192 + d.bytes.length % 2048) ++
    (d.bytes.drop (176 * d.sentPackets)).take 176

/-- The next delivery packet of the head section is sent; its last packet frees the section, and an empty queue waits
again (R36, R37, R188). -/
def sendDelivery (d : Delivery) (rest : List Delivery) (s : State) : State :=
  let number := d.number.getD s.sections.nextNumber
  let next := if d.number.isSome then s.sections.nextNumber else (s.sections.nextNumber + 1) % 256
  let last := decide (deliveryPackets d ≤ d.sentPackets + 1)
  let queue := if last then rest else { d with number := some number, sentPackets := d.sentPackets + 1 } :: rest
  sendHlOut (ownPacket 0x1FF3 s.link.deliveryCount (deliveryPayload d number))
    { s with
      sections :=
        { s.sections with
          queue := queue
          nextNumber := next
          freeBlocks := s.sections.freeBlocks + (if last then d.blocks else 0)
          released := s.sections.released && !queue.isEmpty }
      link := { s.link with deliveryCount := (s.link.deliveryCount + 1) % 16 }
      out := { s.out with sent := { s.out.sent with delivery := bump top32 s.out.sent.delivery }, run := 0 } }

/-- Nothing waits: filler is sent (R162). -/
def sendFiller (s : State) : State :=
  sendHlOut fillerPacket
    { s with out := { s.out with sent := { s.out.sent with filler := bump top32 s.out.sent.filler } } }

/-- Capture or delivery sends, the capture run count choosing where both wait; else filler (R162, R163). -/
def sendCaptureOrDelivery (s : State) : State :=
  match s.out.capture, (if s.sections.released then s.sections.queue else []) with
  | [], [] => sendFiller s
  | q :: rest, [] => sendCapture q rest s
  | [], d :: rest => sendDelivery d rest s
  | q :: qs, d :: ds => if s.out.run < 3 then sendCapture q qs s else sendDelivery d ds s

/-- A notice waits for HL-out: until READY is placed, no notice goes (R174; log 16). -/
def waitingNotice (s : State) : Option (Notice × List Notice) :=
  match s.notices.queue with
  | [] => none
  | n :: rest => if s.mgmt.ready || n.isReady then some (n, rest) else none

/-- A send opportunity of HL-out (R162). -/
def arbitrate (s : State) : State :=
  match s.mgmt.answers with
  | a :: rest => sendAnswer a rest s
  | [] =>
    match waitingNotice s with
    | some (n, rest) => sendNotice n rest s
    | none => sendCaptureOrDelivery s

/-! ### The commands -/

/-- PO_SEND_OPPORTUNITY (R155). -/
def execPoSendOpportunity (o : OutputNo) (s : State) : Host.Outcome State Fault Refusal :=
  .next (sendPresentation o s)

/-- HL_OUT_OPPORTUNITY (R162). -/
def execHlOutOpportunity (s : State) : Host.Outcome State Fault Refusal :=
  .next (arbitrate s)

end Sys2Proof.Machine
end

