-- ==== Sys2Proof/Machine/Events.lean ====
section
/-! DEFINITION. The commands of the reset pin, the fuses, the clock and the deadlines: PIN_RESET, FUSE_READ_END,
RESTART_EFFECT, UPTIME_SECOND, EXPIRY, LOCKOUT_END, GRANT_MINUTES_END, DELIVERY_TIMEOUT, WAIT_DEADLINE,
ACQUISITION_DEADLINE. -/

namespace Sys2Proof.Machine

/-- The oldest section of a waiting queue has waited the delivery timeout: the queue becomes released (R36). -/
def deliveryTimedOut (s : State) : State :=
  match s.sections.queue with
  | [] => s
  | d :: _ =>
    if s.sections.released then s
    else
      let s := advanceTo (d.joined + s.sections.timeout * cyclesPerMs) s
      { s with sections := { s.sections with released := true } }

/-- The wait deadline of an output's pending binding is reached while its context is RUNNING (R109). -/
def outputWaitOver (o : OutputNo) (s : State) : State :=
  match (s.binding o).pending with
  | none => s
  | some b =>
    if (s.context b.ctx).state = .running then
      let s := advanceTo (b.wait * cyclesPerMs) s
      let s := s.setBinding o { s.binding o with pending := none }
      retireIfUnbound b.ctx
        (offer (.tuneFailed (.output o) b.ctx (s.context b.ctx).input (s.context b.ctx).service .noEntry) s)
    else s

/-- The wait deadline of a tag is reached while its context is RUNNING (R109). -/
def tagWaitOver (t : TagNo) (s : State) : State :=
  match s.tag t with
  | .bound c (some w) _ =>
    if (s.context c).state = .running then
      let s := (advanceTo (w * cyclesPerMs) s).setTag t .idle
      retireIfUnbound c (offer (.tuneFailed (.tag t) c (s.context c).input (s.context c).service .noEntry) s)
    else s
  | .bound _ none _ | .idle | .draining _ => s

/-- The reason a context fails with at its acquisition deadline, by its stage (Table 6-4). -/
def stageReason (t : CtxState) : Option FailReason :=
  match t with
  | .locate => some .noIndex
  | .map => some .noMap
  | .key => some .noKey
  | .entry => some .noEntry
  | .free | .running | .retiring => none

/-- The acquisition deadline of a context is reached (R110). -/
def acquisitionOver (c : CtxNo) (s : State) : State :=
  match stageReason (s.context c).state, (s.context c).deadline with
  | some reason, some d => failContext c reason (advanceTo (d * cyclesPerMs) s)
  | _, _ => s

/-- PIN_RESET (R167). -/
def execPinReset (locks : Vector Bool 4) (s : State) : Host.Outcome State Fault Refusal :=
  .next (pinResetState locks s)

/-- FUSE_READ_END (R168). -/
def execFuseReadEnd (fuses : Option Fuses) (s : State) : Host.Outcome State Fault Refusal :=
  .next (endFuseRead fuses s)

/-- RESTART_EFFECT (R176). -/
def execRestartEffect (s : State) : Host.Outcome State Fault Refusal :=
  .next (restartEffect s)

/-- UPTIME_SECOND (R42). -/
def execUptimeSecond (s : State) : Host.Outcome State Fault Refusal :=
  .next (uptimeSecond s)

/-- EXPIRY (R75). -/
def execExpiry (s : State) : Host.Outcome State Fault Refusal :=
  .next (expireTiers s)

/-- LOCKOUT_END (R138). -/
def execLockoutEnd (s : State) : Host.Outcome State Fault Refusal :=
  .next (endLockouts s)

/-- GRANT_MINUTES_END (R141). -/
def execGrantMinutesEnd (s : State) : Host.Outcome State Fault Refusal :=
  .next (endMinuteGrants s)

/-- DELIVERY_TIMEOUT (R36). -/
def execDeliveryTimeout (s : State) : Host.Outcome State Fault Refusal :=
  .next (deliveryTimedOut s)

/-- WAIT_DEADLINE (R109). -/
def execWaitDeadline (d : Dest) (s : State) : Host.Outcome State Fault Refusal :=
  .next (match d with
    | .output o => outputWaitOver o s
    | .tag t => tagWaitOver t s)

/-- ACQUISITION_DEADLINE (R110). -/
def execAcquisitionDeadline (c : CtxNo) (s : State) : Host.Outcome State Fault Refusal :=
  .next (acquisitionOver c s)

end Sys2Proof.Machine
end

