-- ==== Sys2Proof/Machine/SectionOrders.lean ====
section
/-! DEFINITION. The orders of the section engine (R39 to R41) and of the stream table (R20). -/

namespace Sys2Proof.Machine

/-! ### SET_FILTER and CLEAR_FILTER -/

/-- The port of a filter: 0..4, or 0xFF for ANY (R185); the outer option is a port out of range. -/
def filterPort (b : Byte) : Option (Option Input) :=
  if b.toNat = 255 then some none else (place 5 b.toNat).map some

/-- The inputs whose entries a filter names (R32). -/
def filterInputs (port : Option Input) (stream : Nat) : List Input :=
  match port with
  | some i => [i]
  | none => inputNos.filter (fun i => admissible i stream)

/-- The stream number is admissible on the named port, or for ANY on some input (R39). -/
def filterStreamOk (port : Option Input) (stream : Nat) : Bool :=
  match port with
  | some i => admissible i stream
  | none => inputNos.any (fun i => admissible i stream)

/-- A filter's pin consumer is added on entries of its stream (R39), in ascending input; the first refusal ends it (log 42).
The inputs returned are those where it was not present before. -/
def addFilterPins (f : FilterNo) (stream : Nat) : List Input → State → AddResult × List Input × State
  | [], s => (.granted, [], s)
  | i :: l, s =>
    match addUser i stream .sections (.pin (.filter f)) s with
    | (.granted, s') =>
      let r := addFilterPins f stream l s'
      (r.1, if holdsPin i stream (.filter f) s then r.2.1 else i :: r.2.1, r.2.2)
    | (r, s') => (r, [], s')

/-- A filter's pin consumer is removed from entries of a stream. -/
def removeFilterPins (f : FilterNo) (stream : Nat) (l : List Input) (s : State) : State :=
  l.foldl (fun s i => removePin i stream (.filter f) s) s

def State.setFilter (s : State) (f : FilterNo) (x : Option Filter) : State :=
  { s with sections := { s.sections with filters := setAt s.sections.filters f x } }

/-- The old setting's entries that the new one does not name (R39). -/
def staleInputs (old : Filter) (new : Filter) : List Input :=
  (filterInputs old.port old.stream).filter
    (fun i => !(old.stream == new.stream && (filterInputs new.port new.stream).contains i))

/-- A checked SET_FILTER (R39). -/
def installFilter (f : FilterNo) (x : Filter) (s : State) : Reply × State :=
  match addFilterPins f x.stream (filterInputs x.port x.stream) s with
  | (.granted, _, s) =>
    let s := match getAt s.sections.filters f with
      | some old => removeFilterPins f old.stream (staleInputs old x) s
      | none => s
    (done [], s.setFilter f (some x))
  | (r, added, s) => (refuse r.outcome, removeFilterPins f x.stream added s)

/-- SET_FILTER (R39). -/
def takeSetFilter (filter port : Byte) (stream : Word16) (pattern mask : Vector Byte 6) (options : Byte) (s : State) :
    Reply × State :=
  match place 24 filter.toNat, filterPort port with
  | some f, some i =>
    if filterStreamOk i stream.toNat then
      installFilter f
        { port := i, stream := stream.toNat, pattern := pattern, mask := mask, deliverBad := options.getLsbD 0,
          suppress := options.getLsbD 1, seen := [] } s
    else (refuse .badParam, s)
  | _, _ => (refuse .badParam, s)

/-- CLEAR_FILTER (R40). -/
def takeClearFilter (filter : Byte) (s : State) : Reply × State :=
  match place 24 filter.toNat with
  | none => (refuse .badParam, s)
  | some f =>
    match getAt s.sections.filters f with
    | none => (refuse .notFound, s)
    | some x =>
      (done [], (removeFilterPins f x.stream (filterInputs x.port x.stream) s).setFilter f none)

/-! ### SET_DELIVERY -/

/-- A value brought into a range. -/
def clamp (lo hi v : Nat) : Nat :=
  if v < lo then lo else if hi < v then hi else v

/-- SET_DELIVERY (R41). -/
def takeSetDelivery (trigger : Byte) (timeout : Word16) (s : State) : Reply × State :=
  if [1, 4, 8, 16].contains trigger.toNat then
    let t := clamp 1 100 timeout.toNat
    let s := { s with sections := { s.sections with trigger := trigger.toNat, timeout := t } }
    ({ outcome := .done, adjusted := t != timeout.toNat, results := enc8 trigger.toNat ++ enc8 t }, judgeDelivery s)
  else (refuse .badParam, s)

/-! ### QUERY_ENTRY -/

def Role.code (r : Role) : Nat :=
  match r with
  | .component => 0
  | .sections => 1

/-- Assembly states (Table 2-2). -/
def Assembly.code (a : Assembly) : Nat :=
  match a with
  | .idle => 0
  | .collecting _ _ _ => 1
  | .skipping => 2

/-- The context users of an entry as a set. -/
def Entry.contexts (e : Entry) : BitVec 16 :=
  e.users.foldl (fun a u => addBit a u.ctx) 0

/-- The pin consumers INDEX, ACCESS, TIME, GUIDE as a set (Table 1-4). -/
def Pins.code (p : Pins) : Nat :=
  p.index.toNat + 2 * p.access.toNat + 4 * p.time.toNat + 8 * p.guide.toNat

/-- The results of QUERY_ENTRY (R20; log 14). -/
def entryResults (e : Entry) : List Byte :=
  presence [e.lastCount.isSome] ++ enc8 e.role.code ++ enc16 e.contexts.toNat ++ enc8 e.pins.code ++
    enc24 e.pins.filters.toNat ++ encOpt 1 enc8 e.lastCount ++ encBool e.duplicate ++ enc16 e.gaps ++
    enc8 e.assembly.code ++ enc16 e.starve

/-- QUERY_ENTRY (R20). -/
def takeQueryEntry (port : Byte) (stream : Word16) (s : State) : Reply × State :=
  match place 5 port.toNat with
  | none => (refuse .badParam, s)
  | some i =>
    if 0x1FFF < stream.toNat then (refuse .badParam, s)
    else
      match findEntry i stream.toNat s with
      | none => (refuse .notFound, s)
      | some e => (done (entryResults e), s)

/-! ### The commands -/

/-- SET_FILTER (R39). -/
def execSetFilter (tag filter port : Byte) (stream : Word16) (pattern mask : Vector Byte 6) (options : Byte) (s : State) :
    Host.Outcome State Fault Refusal :=
  .next (handOver 0x01 tag (takeSetFilter filter port stream pattern mask options) s)

/-- CLEAR_FILTER (R40). -/
def execClearFilter (tag filter : Byte) (s : State) : Host.Outcome State Fault Refusal :=
  .next (handOver 0x02 tag (takeClearFilter filter) s)

/-- SET_DELIVERY (R41). -/
def execSetDelivery (tag trigger : Byte) (timeout : Word16) (s : State) : Host.Outcome State Fault Refusal :=
  .next (handOver 0x03 tag (takeSetDelivery trigger timeout) s)

/-- QUERY_ENTRY (R20). -/
def execQueryEntry (tag port : Byte) (stream : Word16) (s : State) : Host.Outcome State Fault Refusal :=
  .next (handOver 0x37 tag (takeQueryEntry port stream) s)

end Sys2Proof.Machine
end

