-- ==== Sys2Proof/Machine/GuideOrders.lean ====
section
/-! DEFINITION. The orders of the clock unit and the guide store: SET_SOURCE TIME (R43), SET_SOURCE GUIDE (R54),
QUERY_CLOCK (R51), QUERY_GUIDE_SERVICE (R64). -/

namespace Sys2Proof.Machine

/-! ### Sources -/

/-- A source pair, none when its port or stream number is out of range (R43, R54, R67). -/
def sourcePair (p : Byte × Word16) : Option (PortNo × Nat) :=
  (place 4 p.1.toNat).bind (fun port => if p.2.toNat ≤ 0x1FEF then some (port, p.2.toNat) else none)

/-- A pin consumer leaves the entry of an old source. -/
def unpin (c : PinConsumer) (old : Option (PortNo × Nat)) (s : State) : State :=
  match old with
  | some p => removePin (inputOf p.1) p.2 c s
  | none => s

/-- A source order (R43, R54, R67): `old` is the pair held and `put` stores the new one. -/
def changeSource (c : PinConsumer) (old : Option (PortNo × Nat)) (put : Option (PortNo × Nat) → State → State)
    (param : SourceParam) (s : State) : Reply × State :=
  match param with
  | none => (done [], put none (unpin c old s))
  | some raw =>
    match sourcePair raw with
    | none => (refuse .badParam, s)
    | some p =>
      if old = some p then (done [], s)
      else
        match addUser (inputOf p.1) p.2 .sections (.pin c) s with
        | (.granted, s) => (done [], put (some p) (unpin c old s))
        | (r, s) => (refuse r.outcome, s)

def putTimeSource (p : Option (PortNo × Nat)) (s : State) : State :=
  { s with clock := { s.clock with source := p } }

def putGuideSource (p : Option (PortNo × Nat)) (s : State) : State :=
  { s with guide := { s.guide with source := p } }

/-- SET_SOURCE TIME (R43). -/
def takeSetSourceTime (param : SourceParam) (s : State) : Reply × State :=
  changeSource .time s.clock.source putTimeSource param s

/-- SET_SOURCE GUIDE (R54). -/
def takeSetSourceGuide (param : SourceParam) (s : State) : Reply × State :=
  changeSource .guide s.guide.source putGuideSource param s

/-! ### QUERY_CLOCK -/

/-- The results of QUERY_CLOCK (R51; log 14): N and L have a presence bit each. -/
def clockResults (c : Clock) : List Byte :=
  presence [c.net.isSome, c.net.isSome, c.minute.isSome, c.change.isSome, c.candidate.isSome, c.source.isSome] ++
    encBool c.net.isSome ++ encOpt 6 (fun t => enc32 t.n ++ encSigned16 t.offset) c.net ++ encOpt 2 enc16 c.minute ++
    encOpt 6 (fun x => enc32 x.n2 ++ encSigned16 x.l2) c.change ++
    encOpt 8 (fun x => enc32 x.value ++ enc32 (c.uptime - x.uptime)) c.candidate ++ enc32 c.uptime ++
    encOpt 3 (fun p => enc8 p.1.val ++ enc16 p.2) c.source ++ enc32 c.malformed ++ enc32 c.steps ++ enc32 c.jumps

/-- QUERY_CLOCK (R51). -/
def takeQueryClock (s : State) : Reply × State :=
  (done (clockResults s.clock), s)

/-! ### QUERY_GUIDE_SERVICE -/

def encRating (r : Rating) : List Byte :=
  enc8 r.system ++ enc8 r.code

/-- The results of QUERY_GUIDE_SERVICE (R64; log 14). The version and the multiplex id of the index share a presence bit, and
so do network id and version of the list; the tiers inside the record and the event have theirs in the one byte. -/
def guideResults (s : State) (p : PortNo) (service : Nat) : List Byte :=
  let x := getAt s.guide.index p
  let stream := x.inUse.bind (fun r => r.lists service)
  let record := serviceRec s service
  let event := currentEvent s service
  let g := s.guide
  presence
      [stream.isSome, x.inUse.isSome, record.isSome, (record.bind ServiceRec.tier).isSome, g.listVersion.isSome,
        event.isSome, (event.bind Event.tier).isSome] ++
    encOpt 2 enc16 stream ++ encOpt 3 (fun r => enc8 r.version ++ enc16 r.multiplex) x.inUse ++
    encOpt 3 (fun r => enc8 r.kind ++ encOpt 1 enc8 r.tier ++ encBool r.adult) record ++
    encOpt 3 (fun v => enc16 v.network ++ enc8 v.version) g.listVersion ++
    encOpt 9 (fun e => enc16 e.id ++ enc32 e.start ++ enc16 e.duration ++ encOpt 1 enc8 e.tier) event ++
    encList encRating ((event.map Event.ratings).getD []) ++
    enc16 (g.events.filter (fun e => e.service == service)).length ++ enc16 x.overflow ++ enc16 x.malformed ++
    enc16 g.listOverflow ++ enc16 g.listMalformed ++ enc16 g.droppedFull ++ enc16 g.evicted ++ enc16 g.outside ++
    enc16 g.malformed ++ enc16 g.tracked.length

/-- What the guide store holds nothing of (R64). -/
def guideKnows (s : State) (p : PortNo) (service : Nat) : Bool :=
  ((getAt s.guide.index p).inUse.bind (fun r => r.lists service)).isSome || (serviceRec s service).isSome ||
    s.guide.events.any (fun e => e.service == service)

/-- QUERY_GUIDE_SERVICE (R64). -/
def takeQueryGuideService (port : Byte) (service : Word16) (s : State) : Reply × State :=
  match place 4 port.toNat with
  | none => (refuse .badParam, s)
  | some p =>
    if guideKnows s p service.toNat then (done (guideResults s p service.toNat), s) else (refuse .notFound, s)

/-! ### The commands -/

/-- SET_SOURCE GUIDE (R54). -/
def execSetSourceGuide (tag : Byte) (param : SourceParam) (s : State) : Host.Outcome State Fault Refusal :=
  .next (handOver 0x10 tag (takeSetSourceGuide param) s)

/-- SET_SOURCE TIME (R43). -/
def execSetSourceTime (tag : Byte) (param : SourceParam) (s : State) : Host.Outcome State Fault Refusal :=
  .next (handOver 0x10 tag (takeSetSourceTime param) s)

/-- QUERY_CLOCK (R51). -/
def execQueryClock (tag : Byte) (s : State) : Host.Outcome State Fault Refusal :=
  .next (handOver 0x11 tag takeQueryClock s)

/-- QUERY_GUIDE_SERVICE (R64). -/
def execQueryGuideService (tag port : Byte) (service : Word16) (s : State) : Host.Outcome State Fault Refusal :=
  .next (handOver 0x12 tag (takeQueryGuideService port service) s)

end Sys2Proof.Machine
end

