-- ==== Sys2Proof/Machine/AccessOrders.lean ====
section
/-! DEFINITION. The orders of the access engine: SET_HOME_NETWORK (R66), SET_SOURCE ACCESS (R67), READ_EXCEPTIONS (R80),
CLEAR_EXCEPTIONS (R81), QUERY_SLOT (R98). -/

namespace Sys2Proof.Machine

/-- SET_HOME_NETWORK (R66). -/
def takeSetHomeNetwork (network : Word16) (s : State) : Reply × State :=
  match s.access.home with
  | some _ => (refuse .writeOnce, s)
  | none => (done [], { s with access := { s.access with home := some network.toNat } })

def putAccessSource (k : Fin 2) (p : Option (PortNo × Nat)) (s : State) : State :=
  { s with access := { s.access with sources := setAt s.access.sources k p } }

/-- The other access source place. -/
def otherPlace (k : Fin 2) : Fin 2 :=
  if k = 0 then 1 else 0

/-- SET_SOURCE ACCESS (R67). -/
def takeSetSourceAccess (placeNo : Byte) (param : SourceParam) (s : State) : Reply × State :=
  match place 2 placeNo.toNat with
  | none => (refuse .badParam, s)
  | some k =>
    let other := getAt s.access.sources (otherPlace k)
    if other.isSome && param.bind sourcePair == other then (refuse .badParam, s)
    else changeSource .access (getAt s.access.sources k) (putAccessSource k) param s

/-! ### The exception log -/

/-- An exception record: 19 bytes (R186). -/
def encException (r : ExceptionRec) : List Byte :=
  presence [r.tier.isSome, r.seq.isSome, r.netTime.isSome] ++ enc8 r.kind.code ++ enc8 r.input.val ++ enc16 r.stream ++
    encOpt 1 enc8 r.tier ++ encOpt 4 enc32 r.seq ++ encOpt 4 enc32 r.netTime ++ enc32 r.uptime ++ enc8 r.repeats

/-- The results of READ_EXCEPTIONS (R80): up to 8 records, then 21 bytes of totals (R186). -/
def exceptionResults (first : Nat) (a : Access) : List Byte :=
  encList encException ((a.log.drop first).take 8) ++ enc8 a.log.length ++ encBool a.overflow ++ encBool a.fuses.isSome ++
    enc32 a.unreadable ++ enc32 a.notAddressed ++ enc32 a.accepted ++ enc32 a.applied ++ enc8 a.entitlements.length ++
    enc8 a.groups.length

/-- READ_EXCEPTIONS (R80). -/
def takeReadExceptions (first : Byte) (s : State) : Reply × State :=
  if 15 < first.toNat then (refuse .badParam, s) else (done (exceptionResults first.toNat s.access), s)

/-- CLEAR_EXCEPTIONS (R81). -/
def takeClearExceptions (count : Byte) (s : State) : Reply × State :=
  if 16 < count.toNat && count.toNat != 255 then (refuse .badParam, s)
  else
    let n := if count.toNat = 255 then s.access.log.length else min count.toNat s.access.log.length
    let rest := s.access.log.drop n
    (done (enc8 n ++ enc8 rest.length),
      { s with access := { s.access with log := rest, overflow := s.access.overflow && !rest.isEmpty } })

/-! ### QUERY_SLOT -/

/-- The results of QUERY_SLOT(slot) (R98); the users stand as a list in ascending number (log 14). -/
def slotResults (s : State) (x : Slot) : List Byte :=
  presence [x.tier.isSome, x.lastSeq.isSome] ++ enc8 x.input.val ++ enc16 x.stream ++ encOpt 1 enc8 x.tier ++
    encBool (x.tier.any (tierHeld s)) ++ encBool x.even.isSome ++ encBool x.odd.isSome ++ encOpt 2 enc16 x.lastSeq ++
    encBool x.lapsed ++ enc8 x.run ++ encBool x.refused ++ encBool (!s.up x.input) ++
    encList (fun (c : CtxNo) => enc8 c.val) (ctxNos.filter (hasBit x.users)) ++ enc16 x.installs ++ enc16 x.lapses ++
    enc16 x.duplicates ++ enc16 x.malformed ++ enc32 x.keyed ++ enc32 x.unkeyed ++ enc32 x.badPhase

/-- QUERY_SLOT(slot) (R98). -/
def takeQuerySlotSlot (slot : Byte) (s : State) : Reply × State :=
  match place 16 slot.toNat with
  | none => (refuse .badParam, s)
  | some k =>
    match s.slot k with
    | none => (refuse .notFound, s)
    | some x => (done (slotResults s x), s)

/-- The results of QUERY_SLOT(input) (R98). -/
def slotInputResults (s : State) (i : Input) : List Byte :=
  let r := getAt s.access.stats i
  enc32 r.clear ++ enc32 r.keyed ++ enc32 r.unkeyed ++ enc32 r.badPhase ++ enc32 r.withoutSlot ++
    encList (fun (k : SlotNo) => enc8 k.val) (slotNos.filter (fun k => (s.slot k).any (fun x => x.input == i))) ++
    encBool s.accessEnabled

/-- QUERY_SLOT(input) (R98). -/
def takeQuerySlotInput (input : Byte) (s : State) : Reply × State :=
  match place 5 input.toNat with
  | none => (refuse .badParam, s)
  | some i => (done (slotInputResults s i), s)

/-! ### The commands -/

/-- SET_SOURCE ACCESS (R67). -/
def execSetSourceAccess (tag placeNo : Byte) (param : SourceParam) (s : State) : Host.Outcome State Fault Refusal :=
  .next (handOver 0x10 tag (takeSetSourceAccess placeNo param) s)

/-- SET_HOME_NETWORK (R66). -/
def execSetHomeNetwork (tag : Byte) (network : Word16) (s : State) : Host.Outcome State Fault Refusal :=
  .next (handOver 0x20 tag (takeSetHomeNetwork network) s)

/-- READ_EXCEPTIONS (R80). -/
def execReadExceptions (tag first : Byte) (s : State) : Host.Outcome State Fault Refusal :=
  .next (handOver 0x21 tag (takeReadExceptions first) s)

/-- CLEAR_EXCEPTIONS (R81). -/
def execClearExceptions (tag count : Byte) (s : State) : Host.Outcome State Fault Refusal :=
  .next (handOver 0x22 tag (takeClearExceptions count) s)

/-- QUERY_SLOT(slot) (R98). -/
def execQuerySlotSlot (tag slot : Byte) (s : State) : Host.Outcome State Fault Refusal :=
  .next (handOver 0x28 tag (takeQuerySlotSlot slot) s)

/-- QUERY_SLOT(input) (R98). -/
def execQuerySlotInput (tag input : Byte) (s : State) : Host.Outcome State Fault Refusal :=
  .next (handOver 0x28 tag (takeQuerySlotInput input) s)

end Sys2Proof.Machine
end

