-- ==== Sys2Proof/Machine/ContextOrders.lean ====
section
/-! DEFINITION. The orders of the context controller: TUNE (R101), CAPTURE and PLAY (R102), RELEASE (R113),
SET_ACQUISITION_LIMIT (R122), QUERY_CONTEXT (R123), QUERY_PORT (R124). -/

namespace Sys2Proof.Machine

/-! ### TUNE, CAPTURE, PLAY -/

/-- A context of an identity. -/
def Context.is (x : Context) (i : Input) (service : Nat) : Bool :=
  x.input == i && x.service == service

/-- The output's current binding is the context of an identity (R101). -/
def currentIs (s : State) (o : OutputNo) (i : Input) (service : Nat) : Bool :=
  (s.binding o).current.any (fun b => (s.context b.ctx).is i service)

/-- The output's pending binding when it is the context of an identity (R101). -/
def pendingOf (s : State) (o : OutputNo) (i : Input) (service : Nat) : Option CtxNo :=
  (((s.binding o).pending.map PendingBinding.ctx).filter (fun c => (s.context c).is i service))

/-- TUNE on an output that exists, of a service on a tuner port (R101). -/
def tuneTo (o : OutputNo) (i : Input) (service : Nat) (s : State) : Reply × State :=
  if currentIs s o i service then (refuse .already, dropSuperseded o s)
  else
    match pendingOf s o i service with
    | some c => (acceptedFor c, s)
    | none =>
      match findContext i service s with
      | some c => (acceptedFor c, bindPending o c s)
      | none =>
        match freeCtx s with
        | none => (refuse .noRoom, s)
        | some c =>
          (acceptedFor c, locate c (bindPending o c (s.setContext c (allocated s c i service .locate))))

/-- TUNE (R101). -/
def takeTune (output port : Byte) (service : Word16) (s : State) : Reply × State :=
  match place 2 output.toNat, place 4 port.toNat with
  | some o, some p => tuneTo o (inputOf p) service.toNat s
  | _, _ => (refuse .badParam, s)

/-- CAPTURE on an IDLE tag (R102). -/
def captureTo (t : TagNo) (i : Input) (service : Nat) (s : State) : Reply × State :=
  match findContext i service s with
  | some c => (acceptedFor c, bindTag t c s)
  | none =>
    match freeCtx s with
    | none => (refuse .noRoom, s)
    | some c => (acceptedFor c, locate c (bindTag t c (s.setContext c (allocated s c i service .locate))))

/-- CAPTURE (R102). R102 does not order its two refusals: a port out of range is answered BAD_PARAM also where the tag is BOUND
or DRAINING (log 54, DESIGN CHOICE). -/
def takeCapture (captureTag port : Byte) (service : Word16) (s : State) : Reply × State :=
  match place 8 captureTag.toNat, place 4 port.toNat with
  | some t, some p =>
    match s.tag t with
    | .idle => captureTo t (inputOf p) service.toNat s
    | .bound _ _ _ | .draining _ => (refuse .tagBusy, s)
  | _, _ => (refuse .badParam, s)

/-- A playback context's ratings and adult flag are replaced and reported to the parental unit (R102). -/
def setPlay (c : CtxNo) (info : PlayInfo) (s : State) : State :=
  rejudgeVerdicts (· == c) (s.setContext c { s.context c with play := some info })

/-- PLAY of a tag on an output, with checked parameters (R102; log 22). -/
def playTo (o : OutputNo) (tag : Nat) (info : PlayInfo) (s : State) : Reply × State :=
  if currentIs s o pb tag then (refuse .already, dropSuperseded o s)
  else
    match findContext pb tag s with
    | some c =>
      let s := setPlay c info s
      (acceptedFor c, if s.isPending o c then s else bindPending o c s)
    | none =>
      match freeCtx s with
      | none => (refuse .noRoom, s)
      | some c =>
        let stream := captureStream tag 0
        let x := { allocated s c pb tag .map with play := some info, mapStream := some stream }
        (acceptedFor c, enterMap c stream (bindPending o c (s.setContext c x)))

/-- PLAY (R102). -/
def takePlay (output captureTag adult : Byte) (ratings : List (Byte × Byte)) (s : State) : Reply × State :=
  match place 2 output.toNat, place 8 captureTag.toNat with
  | some o, some t =>
    if 3 < ratings.length || 1 < adult.toNat then (refuse .badParam, s)
    else
      playTo o t.val
        { ratings := ratings.map (fun r => { system := r.1.toNat, code := r.2.toNat }), adult := adult.toNat == 1 } s
  | _, _ => (refuse .badParam, s)

/-! ### RELEASE -/

/-- RELEASE(output) (R113): the current binding's context stands before the pending one's, in the answer and when they
retire (log 44). -/
def takeReleaseOutput (output : Byte) (s : State) : Reply × State :=
  match place 2 output.toNat with
  | none => (refuse .badParam, s)
  | some o =>
    let removed := ((s.binding o).current.map Binding.ctx).toList ++ ((s.binding o).pending.map PendingBinding.ctx).toList
    if removed.isEmpty then (refuse .notFound, s)
    else
      let ended := (s.binding o).current.isSome
      let s := s.setBinding o .empty
      let s := if ended then endGrants (fun g => g.output == o) .binding s else s
      (done (encList (fun (c : CtxNo) => enc8 c.val) removed), removed.foldl (fun s c => retireIfUnbound c s) s)

/-- RELEASE(tag) (R113). -/
def takeReleaseTag (captureTag : Byte) (s : State) : Reply × State :=
  match place 8 captureTag.toNat with
  | none => (refuse .badParam, s)
  | some t =>
    match s.tag t with
    | .idle => (refuse .notFound, s)
    | .draining _ => (refuse .already, s)
    | .bound c _ _ => (done [], retireIfUnbound c (s.setTag t (.draining c)))

/-! ### SET_ACQUISITION_LIMIT -/

/-- An acquisition limit brought into 500..10000 ms in steps of 100 ms (R122). -/
def clampLimit (ms : Nat) : Nat :=
  clamp 500 10000 ms / 100 * 100

/-- SET_ACQUISITION_LIMIT (R122); the limit is answered in two bytes (log 14). -/
def takeSetAcquisitionLimit (ms : Word16) (s : State) : Reply × State :=
  let limit := clampLimit ms.toNat
  ({ outcome := .done, adjusted := limit != ms.toNat, results := enc16 limit },
    { s with ctl := { s.ctl with limit := limit } })

/-! ### QUERY_CONTEXT -/

/-- Context states in the order of Table 6-1. -/
def CtxState.code (t : CtxState) : Nat :=
  match t with
  | .free => 0
  | .locate => 1
  | .map => 2
  | .key => 3
  | .entry => 4
  | .running => 5
  | .retiring => 6

/-- The continuity state of a component's entry in one byte: the last count, bit 4 its presence, bit 5 the duplicate
mark (log 15). -/
def continuityState (e : Option Entry) : List Byte :=
  match e with
  | none => enc8 0
  | some e => enc8 (e.lastCount.getD 0 % 16 + 16 * e.lastCount.isSome.toNat + 32 * e.duplicate.toNat)

/-- One component: index, kind, stream number, gap count and continuity state of its entry (R123): of the pair's entry, also
where a RETIRING context no longer uses it, and 0 where there is none (log 15). -/
def encComponent (s : State) (i : Input) (k : Component × Fin 8) : List Byte :=
  let e := findEntry i k.1.stream s
  enc8 k.2.val ++ enc8 k.1.kind.code ++ enc16 k.1.stream ++ enc16 ((e.map Entry.gaps).getD 0) ++ continuityState e

/-- Part time remaining to a deadline, in ms. -/
def remaining (s : State) (d : Nat) : Nat :=
  d - s.partTime

/-- A destination of a context: which it is, its wait deadline while it is pending, its hold set. -/
abbrev Held := Dest × Option Nat × HoldSet

/-- One destination: which it is, 1 active or 0 pending, hold set, reasons (R123). -/
def encDestination (d : Held) : List Byte :=
  encDest d.1 ++ encBool d.2.1.isNone ++ encHold d.2.2

/-- The destinations of a context on an output. -/
def outputDestinations (s : State) (c : CtxNo) (o : OutputNo) : List Held :=
  ((s.binding o).current.filter (fun b => b.ctx == c)).toList.map (fun b => (.output o, none, b.hold)) ++
    ((s.binding o).pending.filter (fun b => b.ctx == c)).toList.map (fun b => (.output o, some b.wait, b.hold))

/-- The destination of a context on a tag. -/
def tagDestinations (s : State) (c : CtxNo) (t : TagNo) : List Held :=
  match s.tag t with
  | .bound c' wait h => if c' = c then [(.tag t, wait, h)] else []
  | .idle | .draining _ => []

/-- The destinations of a context: outputs 0 and 1, then tags 0 to 7 (log 15). -/
def destinationsOf (s : State) (c : CtxNo) : List Held :=
  outputNos.flatMap (outputDestinations s c) ++ tagNos.flatMap (tagDestinations s c)

/-- The tags DRAINING from a context, as a set. -/
def drainingTags (s : State) (c : CtxNo) : BitVec 8 :=
  tagNos.foldl (fun a t => if (s.tag t).drainingFrom c then addBit a t else a) 0

/-- Assembly state and starve count of the entry of a stream (R123), found as that of a component; 0 where there is none
(log 15). -/
def encAssemblyOf (s : State) (i : Input) (stream : Option Nat) : List Byte :=
  let e := stream.bind (fun st => findEntry i st s)
  enc8 ((e.map (fun e => e.assembly.code)).getD 0) ++ enc16 ((e.map Entry.starve).getD 0)

/-- The results of QUERY_CONTEXT for a context that is not FREE, in the order of R123 (R186). The state of the slot has no
presence bit and reads 0 without a slot, assembly state and starve count stand together for each of the two entries, the wait
times are a list, and the tags DRAINING from the context stand last (log 15). -/
def contextResults (s : State) (c : CtxNo) (x : Context) : List Byte :=
  presence
      [x.mapStream.isSome, x.mapVersion.isSome, x.keyStream.isSome, x.slot.isSome, x.deadline.isSome, x.play.isSome] ++
    encIdentity x.input x.service ++ encOpt 2 enc16 x.mapStream ++ encOpt 1 enc8 x.mapVersion ++
    encList encRating x.mapRatings ++ encList (encComponent s x.input) (x.components.zip componentIndices) ++
    encOpt 2 enc16 x.keyStream ++ encOpt 1 (fun (k : SlotNo) => enc8 k.val) x.slot ++
    encBool ((slotOf s x).any Slot.lapsed) ++ encAssemblyOf s x.input x.mapStream ++
    encAssemblyOf s x.input x.keyStream ++
    encList encDestination (destinationsOf s c) ++ encOpt 2 (fun d => enc16 (remaining s d)) x.deadline ++
    encList (fun d => enc16 (remaining s d)) ((destinationsOf s c).filterMap (fun d => d.2.1)) ++ enc8 x.drain ++
    enc16 x.malformed ++ enc16 x.overflow ++ enc16 x.refused ++
    encList encRating ((x.play.map PlayInfo.ratings).getD []) ++ encBool (x.play.any PlayInfo.adult) ++
    enc8 (drainingTags s c).toNat

/-- QUERY_CONTEXT (R123). State and last failure begin with a presence byte of their own, the rest of the record with a second
one (log 15). -/
def takeQueryContext (ctx : Byte) (s : State) : Reply × State :=
  match place 16 ctx.toNat with
  | none => (refuse .badParam, s)
  | some c =>
    let x := s.context c
    let head := presence [x.lastFailure.isSome] ++ enc8 x.state.code ++
      encOpt 1 (fun (r : FailReason) => enc8 r.code) x.lastFailure
    (done (if x.state = .free then head else head ++ contextResults s c x), s)

/-! ### QUERY_PORT -/

/-- One tag record: presence of its context, state IDLE 0, BOUND 1, DRAINING 2, context (R124). -/
def encTagRec (t : TagRec) : List Byte :=
  match t with
  | .idle => presence [false] ++ enc8 0 ++ enc8 0
  | .bound c _ _ => presence [true] ++ enc8 1 ++ enc8 c.val
  | .draining c => presence [true] ++ enc8 2 ++ enc8 c.val

/-- The results of QUERY_PORT (R124); the eight tag records stand without a count byte (log 14). -/
def portResults (s : State) (i : Input) : List Byte :=
  let p := getAt s.intake.stats i
  let q := getAt s.sections.stats i
  enc8 (getAt s.intake.sync i).state.code ++ enc32 p.packets ++ enc32 p.errored ++ enc32 p.syncLosses ++ enc32 p.stray ++
    enc32 p.gaps ++ enc32 q.good ++ enc32 q.badCrc ++ enc32 q.framing ++ enc32 q.header ++ enc32 q.starved ++
    encList (fun c => enc8 c.val ++ enc8 (s.context c).state.code)
      (ctxNos.filter (fun c => (s.context c).state != .free && (s.context c).input == i)) ++
    tagNos.flatMap (fun t => encTagRec (s.tag t))

/-- QUERY_PORT (R124). -/
def takeQueryPort (input : Byte) (s : State) : Reply × State :=
  match place 5 input.toNat with
  | none => (refuse .badParam, s)
  | some i => (done (portResults s i), s)

/-! ### The commands -/

/-- TUNE (R101). -/
def execTune (tag output port : Byte) (service : Word16) (s : State) : Host.Outcome State Fault Refusal :=
  .next (handOver 0x30 tag (takeTune output port service) s)

/-- CAPTURE (R102). -/
def execCapture (tag captureTag port : Byte) (service : Word16) (s : State) : Host.Outcome State Fault Refusal :=
  .next (handOver 0x31 tag (takeCapture captureTag port service) s)

/-- PLAY (R102). -/
def execPlay (tag output captureTag adult : Byte) (ratings : List (Byte × Byte)) (s : State) :
    Host.Outcome State Fault Refusal :=
  .next (handOver 0x32 tag (takePlay output captureTag adult ratings) s)

/-- RELEASE(output) (R113). -/
def execReleaseOutput (tag output : Byte) (s : State) : Host.Outcome State Fault Refusal :=
  .next (handOver 0x33 tag (takeReleaseOutput output) s)

/-- RELEASE(tag) (R113). -/
def execReleaseTag (tag captureTag : Byte) (s : State) : Host.Outcome State Fault Refusal :=
  .next (handOver 0x33 tag (takeReleaseTag captureTag) s)

/-- SET_ACQUISITION_LIMIT (R122). -/
def execSetAcquisitionLimit (tag : Byte) (ms : Word16) (s : State) : Host.Outcome State Fault Refusal :=
  .next (handOver 0x34 tag (takeSetAcquisitionLimit ms) s)

/-- QUERY_CONTEXT (R123). -/
def execQueryContext (tag ctx : Byte) (s : State) : Host.Outcome State Fault Refusal :=
  .next (handOver 0x35 tag (takeQueryContext ctx) s)

/-- QUERY_PORT (R124). -/
def execQueryPort (tag input : Byte) (s : State) : Host.Outcome State Fault Refusal :=
  .next (handOver 0x36 tag (takeQueryPort input) s)

end Sys2Proof.Machine
end

