-- ==== Sys2Proof/Machine/ParentalOrders.lean ====
section
/-! DEFINITION. The orders of the parental unit: PIN checks (R137), the parental lock and its gate (R143, R144), and R139,
R140, R142, R145 to R150. -/

namespace Sys2Proof.Machine

/-! ### PIN checks -/

/-- The outcome of a PIN check (R137). -/
inductive PinResult where
  | right
  | noPin
  | lockedOut (seconds : Nat)
  | wrong (failures : Nat) (began : Bool)
  deriving DecidableEq, Repr

/-- A PIN check against profile q (R137). -/
def pinCheck (q : ProfileNo) (pin : Pin) (s : State) : PinResult × State :=
  let x := s.profile q
  match x.pin with
  | none => (.noPin, s)
  | some right =>
    if x.lockoutEnd.any (fun e => decide (s.clock.uptime < e)) then
      (.lockedOut (x.lockoutEnd.getD 0 - s.clock.uptime), s)
    else if pin = right then (.right, s.setProfile q { x with failures := 0 })
    else if 3 ≤ x.failures + 1 then
      (.wrong 0 true,
        offer (.lockout q (s.clock.uptime + 600))
          (s.setProfile q { x with failures := 0, lockoutEnd := some (s.clock.uptime + 600) }))
    else (.wrong (x.failures + 1) false, s.setProfile q { x with failures := x.failures + 1 })

/-- The answer to a failed check, with the results R172 gives LOCKED_OUT and WRONG_PIN. -/
def pinReply (r : PinResult) : Reply :=
  match r with
  | .right => done []
  | .noPin => refuse .noPin
  | .lockedOut n => { outcome := .lockedOut, adjusted := false, results := enc16 n }
  | .wrong n began => { outcome := .wrongPin, adjusted := false, results := enc8 n ++ encBool began }

/-- A PIN whose digits are all 0..9 (R137, R185). -/
def digitsOk (pin : Pin) : Bool :=
  pin.toList.all (fun d => decide (d.toNat ≤ 9))

/-- An order goes on to its effect when a PIN check against profile q succeeds; the caller has checked the digits (R137). -/
def afterCheck (q : ProfileNo) (pin : Option Pin) (effect : State → Reply × State) (s : State) : Reply × State :=
  match pin with
  | none => (refuse .badParam, s)
  | some pin =>
    match pinCheck q pin s with
    | (.right, s) => effect s
    | (r, s) => (pinReply r, s)

/-- The gate of Table 7-7 (R144). A carried PIN with a digit above 9 is refused (R137, R185), also while the lock is clear
(log 23); then, while the lock is set, the order must carry a right PIN, and while it is clear no PIN check is made. -/
def gated (q : ProfileNo) (pin : Option Pin) (effect : State → Reply × State) (s : State) : Reply × State :=
  if !pin.all digitsOk then (refuse .badParam, s)
  else if s.parental.lock then afterCheck q pin effect s
  else effect s

/-- The profile of Table 7-7 for an order on profile p: p if it has a PIN, profile 0 if not. -/
def gateProfile (s : State) (p : ProfileNo) : ProfileNo :=
  if (s.profile p).pin.isSome then p else 0

/-! ### LOAD_RATING_ROW, SET_PROFILE, SET_PIN, BIND_PROFILE -/

/-- The row of a system takes 64 levels and every pair is computed again (R145). -/
def loadRow (system : Fin 8) (levels : Vector Byte 64) (s : State) : State :=
  rejudgeVerdicts (fun _ => true)
    { s with parental := { s.parental with table := setAt s.parental.table system (levels.map BitVec.toNat) } }

/-- LOAD_RATING_ROW (R145). -/
def takeLoadRatingRow (system : Byte) (levels : Vector Byte 64) (pin : Option Pin) (s : State) : Reply × State :=
  match place 8 system.toNat with
  | none => (refuse .badParam, s)
  | some k =>
    if levels.toList.all (fun l => decide (l.toNat ≤ 15)) then gated 0 pin (fun s => (done [], loadRow k levels s)) s
    else (refuse .badParam, s)

/-- A quiet window in range (R146). -/
def windowOk (w : Word16 × Word16) : Bool :=
  decide (w.1.toNat ≤ 10079) && decide (1 ≤ w.2.toNat) && decide (w.2.toNat ≤ 10080)

/-- The pairs of the outputs bound to a profile are computed again (R136). -/
def rejudgeProfile (p : ProfileNo) (s : State) : State :=
  (outputNos.filter (fun o => getAt s.parental.binding o == some p)).foldl (fun s o => rejudgePairs o s) s

/-- SET_PROFILE (R146). -/
def takeSetProfile (profile : Byte) (limits : Vector Byte 8) (unrated adult timeUnknown : Byte)
    (windows : List (Word16 × Word16)) (pin : Option Pin) (s : State) : Reply × State :=
  match place 4 profile.toNat with
  | none => (refuse .badParam, s)
  | some p =>
    if limits.toList.all (fun l => decide (l.toNat ≤ 15)) && decide (unrated.toNat ≤ 1) && decide (adult.toNat ≤ 1) &&
        decide (timeUnknown.toNat ≤ 1) && decide (windows.length ≤ 4) && windows.all windowOk then
      gated (gateProfile s p) pin
        (fun s =>
          (done [],
            rejudgeProfile p
              (s.setProfile p
                { s.profile p with
                  limits := limits.map BitVec.toNat
                  unratedHold := unrated.toNat == 1
                  adultHold := adult.toNat == 1
                  timeUnknownHold := timeUnknown.toNat == 1
                  windows := windows.map (fun w => ⟨w.1.toNat, w.2.toNat⟩) }))) s
    else (refuse .badParam, s)

/-- SET_PIN (R147). The refusals stand before the authorisation: an authorising PIN with a digit above 9 is refused also where
no PIN is asked for (log 50). -/
def takeSetPin (profile : Byte) (pin newPin : Option Pin) (s : State) : Reply × State :=
  match place 4 profile.toNat with
  | none => (refuse .badParam, s)
  | some p =>
    let effect := fun (s : State) => (done [], s.setProfile p { s.profile p with pin := newPin })
    if !(pin.all digitsOk && newPin.all digitsOk) || (newPin.isNone && p == 0 && s.parental.lock) then
      (refuse .badParam, s)
    else if (s.profile p).pin.isSome then afterCheck p pin effect s
    else if s.parental.lock then afterCheck 0 pin effect s
    else effect s

/-- The profile a BIND_PROFILE names: 0..3, or 0xFF for none; the outer option is a value out of range (R185). -/
def profileParam (b : Byte) : Option (Option ProfileNo) :=
  if b.toNat = 255 then some none else (place 4 b.toNat).map some

/-- A changed profile binding ends the grants of its output and computes both pairs (R148). -/
def bindProfileTo (o : OutputNo) (p : Option ProfileNo) (s : State) : State :=
  let s := { s with parental := { s.parental with binding := setAt s.parental.binding o p } }
  rejudgePairs o (endGrants (fun g => g.output == o) .profile s)

/-- BIND_PROFILE (R148). -/
def takeBindProfile (output profile : Byte) (pin : Option Pin) (s : State) : Reply × State :=
  match place 2 output.toNat, profileParam profile with
  | some o, some p =>
    gated ((p.map (gateProfile s)).getD 0) pin
      (fun s => (done [], if getAt s.parental.binding o = p then s else bindProfileTo o p s)) s
  | _, _ => (refuse .badParam, s)

/-! ### The locked-service list -/

def State.setLocked (s : State) (l : List LockedService) : State :=
  { s with parental := { s.parental with locked := l } }

/-- A changed locked-service list computes the pairs on the service again (R149, R150). -/
def rejudgeService (service : Nat) (s : State) : State :=
  rejudgeVerdicts (onService s service) s

/-- LOCK_SERVICE (R149). -/
def takeLockService (service : Word16) (mask : Byte) (pin : Option Pin) (s : State) : Reply × State :=
  if mask.toNat = 0 || 15 < mask.toNat then (refuse .badParam, s)
  else
    gated 0 pin
      (fun s =>
        let n := service.toNat
        let new : LockedService := ⟨n, mask.setWidth 4⟩
        if s.parental.locked.any (fun l => l.service == n) then
          (done [], rejudgeService n
            (s.setLocked (s.parental.locked.map (fun l => if l.service == n then new else l))))
        else if s.parental.locked.length < 32 then
          (done [], rejudgeService n (s.setLocked (s.parental.locked ++ [new])))
        else (refuse .noRoom, s)) s

/-- UNLOCK_SERVICE (R150). -/
def takeUnlockService (service : Word16) (pin : Option Pin) (s : State) : Reply × State :=
  gated 0 pin
    (fun s =>
      let n := service.toNat
      if s.parental.locked.any (fun l => l.service == n) then
        (done [], rejudgeService n (s.setLocked (s.parental.locked.filter (fun l => l.service != n))))
      else (refuse .notFound, s)) s

/-! ### Unlock grants -/

/-- The current event id an EVENT grant takes: the one tracked for a tuner context's service, none for playback
(R140). -/
def grantEvent (s : State) (x : Context) : Option Nat :=
  if x.input = pb then none else (trackedRec s x.service).bind Tracked.id

def State.setGrants (s : State) (l : List Grant) : State :=
  { s with parental := { s.parental with grants := l } }

/-- A grant is placed in the list: it replaces one for the same (output, key, profile), or displaces the oldest of a
full list; then both pairs of its output are computed again (R140). -/
def placeGrant (g : Grant) (s : State) : State :=
  let same := fun (x : Grant) => x.serves g.output g.key g.profile
  let s :=
    if s.parental.grants.any same then s.setGrants (s.parental.grants.filter (fun x => !same x))
    else if 8 ≤ s.parental.grants.length then
      match s.parental.grants with
      | [] => s
      | old :: rest =>
        rejudgePairs old.output
          (offer (.grantEnd old.output old.key old.profile .displaced) (s.setGrants rest))
    else s
  rejudgePairs g.output (s.setGrants (s.parental.grants ++ [g]))

/-- The scope of a grant in an answer: 0 EVENT or 1 MINUTES, presence, event id, end (R139; log 14). -/
def encScope (x : GrantScope) : List Byte :=
  match x with
  | .event id => enc8 0 ++ presence [id.isSome, false] ++ encOpt 2 enc16 id ++ enc32 0
  | .minutes e => enc8 1 ++ presence [false, true] ++ enc16 0 ++ enc32 e

/-- The grant an UNLOCK makes on an output with current context c and profile p (R140). -/
def grantFor (s : State) (o : OutputNo) (c : CtxNo) (p : ProfileNo) (minutes : Option Nat) : Grant :=
  { output := o, key := grantKey (s.context c), profile := p,
    scope := match minutes with
      | none => .event (grantEvent s (s.context c))
      | some n => .minutes (s.clock.uptime + 60 * n) }

/-- The PIN check and the grant of an UNLOCK; the adjusted mark stands on every answer after the clamp (R139, R172). -/
def unlockWith (o : OutputNo) (pin : Pin) (minutes : Option Nat) (adjusted : Bool) (s : State) : Reply × State :=
  match (s.binding o).current, getAt s.parental.binding o with
  | some b, some p =>
    match pinCheck p pin s with
    | (.right, s) =>
      let g := grantFor s o b.ctx p minutes
      ({ outcome := .done, adjusted := adjusted, results := encGrantKey g.key ++ enc8 p.val ++ encScope g.scope },
        placeGrant g s)
    | (r, s) => ({ pinReply r with adjusted := adjusted }, s)
  | _, _ => ({ refuse .notBound with adjusted := adjusted }, s)

/-- UNLOCK (R139). -/
def takeUnlock (output : Byte) (pin : Pin) (scope : Byte) (minutes : Word16) (s : State) : Reply × State :=
  match place 2 output.toNat with
  | none => (refuse .badParam, s)
  | some o =>
    if !digitsOk pin then (refuse .badParam, s)
    else if scope.toNat = 0 then unlockWith o pin none false s
    else if scope.toNat = 1 then
      let n := clamp 1 720 minutes.toNat
      unlockWith o pin (some n) (n != minutes.toNat) s
    else (refuse .badParam, s)

/-- REVOKE_GRANTS (R142). -/
def takeRevokeGrants (output : Byte) (s : State) : Reply × State :=
  if output.toNat = 255 || output.toNat < 2 then
    let hit := fun (g : Grant) => output.toNat == 255 || g.output.val == output.toNat
    (done (enc8 (s.parental.grants.filter hit).length), endGrantsAndJudge hit .revoked s)
  else (refuse .badParam, s)

/-- LOCK_PARENTAL (R143). -/
def takeLockParental (s : State) : Reply × State :=
  if (s.profile 0).pin.isNone then (refuse .noPin, s)
  else if s.parental.lock then (refuse .already, s)
  else (done [], { s with parental := { s.parental with lock := true } })

/-! ### The commands -/

/-- LOAD_RATING_ROW (R145). -/
def execLoadRatingRow (tag system : Byte) (levels : Vector Byte 64) (pin : Option Pin) (s : State) :
    Host.Outcome State Fault Refusal :=
  .next (handOver 0x40 tag (takeLoadRatingRow system levels pin) s)

/-- SET_PROFILE (R146). -/
def execSetProfile (tag profile : Byte) (limits : Vector Byte 8) (unrated adult timeUnknown : Byte)
    (windows : List (Word16 × Word16)) (pin : Option Pin) (s : State) : Host.Outcome State Fault Refusal :=
  .next (handOver 0x41 tag (takeSetProfile profile limits unrated adult timeUnknown windows pin) s)

/-- SET_PIN (R147). -/
def execSetPin (tag profile : Byte) (pin newPin : Option Pin) (s : State) : Host.Outcome State Fault Refusal :=
  .next (handOver 0x42 tag (takeSetPin profile pin newPin) s)

/-- BIND_PROFILE (R148). -/
def execBindProfile (tag output profile : Byte) (pin : Option Pin) (s : State) : Host.Outcome State Fault Refusal :=
  .next (handOver 0x43 tag (takeBindProfile output profile pin) s)

/-- LOCK_SERVICE (R149). -/
def execLockService (tag : Byte) (service : Word16) (mask : Byte) (pin : Option Pin) (s : State) :
    Host.Outcome State Fault Refusal :=
  .next (handOver 0x44 tag (takeLockService service mask pin) s)

/-- UNLOCK_SERVICE (R150). -/
def execUnlockService (tag : Byte) (service : Word16) (pin : Option Pin) (s : State) :
    Host.Outcome State Fault Refusal :=
  .next (handOver 0x45 tag (takeUnlockService service pin) s)

/-- UNLOCK (R139). -/
def execUnlock (tag output : Byte) (pin : Pin) (scope : Byte) (minutes : Word16) (s : State) :
    Host.Outcome State Fault Refusal :=
  .next (handOver 0x46 tag (takeUnlock output pin scope minutes) s)

/-- REVOKE_GRANTS (R142). -/
def execRevokeGrants (tag output : Byte) (s : State) : Host.Outcome State Fault Refusal :=
  .next (handOver 0x47 tag (takeRevokeGrants output) s)

/-- LOCK_PARENTAL (R143). -/
def execLockParental (tag : Byte) (s : State) : Host.Outcome State Fault Refusal :=
  .next (handOver 0x48 tag takeLockParental s)

end Sys2Proof.Machine
end

