-- ==== Sys2Proof/Machine/OutputOrders.lean ====
section
/-! DEFINITION. The orders of the output unit (R164 to R166) and of the management unit (R175, R176), and the decoding of
the order packets, DECODE_ORDER (R170, R171). -/

namespace Sys2Proof.Machine

/-! ### The output unit's orders -/

/-- A new rate begins the pacing anew; the same rate leaves it (R164). -/
def setRate (o : OutputNo) (rate : Nat) (s : State) : State :=
  if (s.output o).rate = rate then s
  else s.setOutput o { s.output o with rate := rate, paceStart := s.time.cycles, paceIndex := 0 }

/-- SET_OUTPUT_RATE (R164); the rate is answered in two bytes (log 14). -/
def takeSetOutputRate (output : Byte) (rate : Word16) (s : State) : Reply × State :=
  match place 2 output.toNat with
  | none => (refuse .badParam, s)
  | some o =>
    let r := clamp 1000 60000 rate.toNat
    ({ outcome := .done, adjusted := r != rate.toNat, results := enc16 r }, setRate o r s)

/-- The results of QUERY_OUTPUT (R165; log 14). -/
def outputResults (s : State) (o : OutputNo) : List Byte :=
  let x := s.output o
  let b := s.binding o
  let p := getAt s.parental.binding o
  presence [x.marker.isSome, b.current.isSome, b.pending.isSome, p.isSome] ++ enc16 x.rate ++ enc8 x.queue.length ++
    encOpt 2 (fun (m : Marker) => enc8 m.ctx.val ++ enc8 m.ahead) x.marker ++ enc32 x.packetsSent ++
    enc32 x.markersSent ++ enc32 x.fillerSent ++ enc32 x.overflowDiscards ++ enc32 x.stampsCorrected ++
    enc32 x.stampFaults ++ encBool x.overflowMark ++ encOpt 1 (fun (y : Binding) => enc8 y.ctx.val) b.current ++
    encOpt 1 (fun (y : PendingBinding) => enc8 y.ctx.val) b.pending ++ encOpt 1 (fun (y : ProfileNo) => enc8 y.val) p

/-- QUERY_OUTPUT (R165). -/
def takeQueryOutput (output : Byte) (s : State) : Reply × State :=
  match place 2 output.toNat with
  | none => (refuse .badParam, s)
  | some o => (done (outputResults s o), s.setOutput o { s.output o with overflowMark := false })

/-- The context of a tag record. -/
def TagRec.ctx? (t : TagRec) : Option CtxNo :=
  match t with
  | .idle => none
  | .bound c _ _ => some c
  | .draining c => some c

/-- The results of QUERY_CAPTURE (R166; log 14). An IDLE tag has no context: the count of its packets is given as 0,
with no presence bit of its own. -/
def captureResults (s : State) (t : TagNo) : List Byte :=
  let r := s.captureRec t
  let n := s.out.sent
  enc8 s.out.capture.length ++ encTagRec (s.tag t) ++
    enc8 (((s.tag t).ctx?.map (getAt s.out.captureCount)).getD 0) ++ enc32 r.captured ++ enc32 r.lost ++ enc32 r.sent ++
    encBool r.lossMark ++ enc32 n.answers ++ enc32 n.notices ++ enc32 n.capture ++ enc32 n.delivery ++ enc32 n.filler ++
    enc8 s.out.run

/-- QUERY_CAPTURE (R166). -/
def takeQueryCapture (captureTag : Byte) (s : State) : Reply × State :=
  match place 8 captureTag.toNat with
  | none => (refuse .badParam, s)
  | some t => (done (captureResults s t), s.setCaptureRec t { s.captureRec t with lossMark := false })

/-! ### The management unit's orders -/

/-- The results of IDENTIFY (R175; log 14). -/
def identifyResults (s : State) : List Byte :=
  presence [s.access.fuses.isSome, s.access.fuses.isSome, s.access.home.isSome] ++
    encOpt 1 (fun (f : Fuses) => enc8 f.revision.toNat) s.access.fuses ++
    encOpt 4 (fun (f : Fuses) => enc32 f.unitAddress.toNat) s.access.fuses ++ encOpt 2 enc16 s.access.home ++
    enc32 s.mgmt.overrun ++ encBool s.accessEnabled

/-- IDENTIFY (R175). -/
def takeIdentify (s : State) : Reply × State :=
  (done (identifyResults s), s)

/-- RESTART: its answer DONE, and decoding stops (R176, stage 1). -/
def takeRestart (s : State) : Reply × State :=
  (done [], { s with mgmt := { s.mgmt with restarting := true } })

/-! ### Decoding -/

/-- The owner of an order takes it (R171); a command that is no order is never read from an order packet. -/
def takeOrder (i : Instr) (s : State) : Reply × State :=
  match i with
  | .setFilter _ f p st pat m o => takeSetFilter f p st pat m o s
  | .clearFilter _ f => takeClearFilter f s
  | .setDelivery _ t ms => takeSetDelivery t ms s
  | .setSourceGuide _ src => takeSetSourceGuide src s
  | .setSourceTime _ src => takeSetSourceTime src s
  | .setSourceAccess _ k src => takeSetSourceAccess k src s
  | .queryClock _ => takeQueryClock s
  | .queryGuideService _ p sv => takeQueryGuideService p sv s
  | .setHomeNetwork _ n => takeSetHomeNetwork n s
  | .readExceptions _ f => takeReadExceptions f s
  | .clearExceptions _ n => takeClearExceptions n s
  | .querySlotSlot _ k => takeQuerySlotSlot k s
  | .querySlotInput _ k => takeQuerySlotInput k s
  | .tune _ o p sv => takeTune o p sv s
  | .capture _ t p sv => takeCapture t p sv s
  | .play _ o t a rs => takePlay o t a rs s
  | .releaseOutput _ o => takeReleaseOutput o s
  | .releaseTag _ t => takeReleaseTag t s
  | .setAcquisitionLimit _ ms => takeSetAcquisitionLimit ms s
  | .queryContext _ c => takeQueryContext c s
  | .queryPort _ p => takeQueryPort p s
  | .queryEntry _ p st => takeQueryEntry p st s
  | .loadRatingRow _ sy lv pin => takeLoadRatingRow sy lv pin s
  | .setProfile _ p lim u a tu ws pin => takeSetProfile p lim u a tu ws pin s
  | .setPin _ p pin new => takeSetPin p pin new s
  | .bindProfile _ o p pin => takeBindProfile o p pin s
  | .lockService _ sv m pin => takeLockService sv m pin s
  | .unlockService _ sv pin => takeUnlockService sv pin s
  | .unlock _ o pin sc ms => takeUnlock o pin sc ms s
  | .revokeGrants _ o => takeRevokeGrants o s
  | .lockParental _ => takeLockParental s
  | .setOutputRate _ o r => takeSetOutputRate o r s
  | .queryOutput _ o => takeQueryOutput o s
  | .queryCapture _ t => takeQueryCapture t s
  | .identify _ => takeIdentify s
  | .restart _ => takeRestart s
  | .pinReset .. | .fuseReadEnd .. | .lockLineFalls .. | .lockLineRises .. | .unitTaken .. | .hlInUnitTaken ..
  | .deliveryTimeout | .uptimeSecond | .expiry | .waitDeadline .. | .acquisitionDeadline .. | .lockoutEnd
  | .grantMinutesEnd | .poSendOpportunity .. | .hlOutOpportunity | .decodeOrder | .restartEffect =>
    (refuse .unknownOrder, s)

/-- What a framed order comes to: the owner's answer, or one of the management unit's own (R170, R171). -/
def takeFramed (code tag : Byte) (params : List Byte) (s : State) : Reply × State :=
  match readOrder code tag params with
  | .order i => takeOrder i s
  | .malformed => (refuse .malformed, s)
  | .unknown => (refuse .unknownOrder, s)
  | .badForm => (refuse .badParam, s)

/-- The next order of the packet p at the head of the buffer is decoded (R170). -/
def decodeHead (p : OrderPacket) (rest : List OrderPacket) (s : State) : State :=
  match frameOrder p.rest with
  | .ended => s.setBuffer rest
  | .headerOverrun code tag => handOver code tag (fun s => (refuse .malformed, s.setBuffer rest)) s
  | .paramOverrun code tag => handOver code tag (fun s => (refuse .malformed, s.setBuffer rest)) s
  | .framed code tag params =>
    handOver code tag
      (fun s => takeFramed code tag params
        (s.setBuffer ({ p with position := p.position + 4 + params.length } :: rest))) s

/-- DECODE_ORDER: packets whose list has ended leave the buffer, and the next order is handed on once the answer queue
has room (R170, R171). A STARTING unit holds no order packet (R167). -/
def decodeNext (s : State) : State :=
  if s.mgmt.ready && !s.mgmt.restarting then
    let s := pruneBuffer s
    match s.mgmt.buffer with
    | [] => s
    | p :: rest => pruneBuffer (decodeHead p rest s)
  else s

/-! ### The commands -/

/-- SET_OUTPUT_RATE (R164). -/
def execSetOutputRate (tag output : Byte) (rate : Word16) (s : State) : Host.Outcome State Fault Refusal :=
  .next (handOver 0x50 tag (takeSetOutputRate output rate) s)

/-- QUERY_OUTPUT (R165). -/
def execQueryOutput (tag output : Byte) (s : State) : Host.Outcome State Fault Refusal :=
  .next (handOver 0x51 tag (takeQueryOutput output) s)

/-- QUERY_CAPTURE (R166). -/
def execQueryCapture (tag captureTag : Byte) (s : State) : Host.Outcome State Fault Refusal :=
  .next (handOver 0x52 tag (takeQueryCapture captureTag) s)

/-- IDENTIFY (R175). -/
def execIdentify (tag : Byte) (s : State) : Host.Outcome State Fault Refusal :=
  .next (handOver 0x60 tag takeIdentify s)

/-- RESTART (R176). -/
def execRestart (tag : Byte) (s : State) : Host.Outcome State Fault Refusal :=
  .next (handOver 0x61 tag takeRestart s)

/-- DECODE_ORDER (R170). -/
def execDecodeOrder (s : State) : Host.Outcome State Fault Refusal :=
  .next (decodeNext s)

end Sys2Proof.Machine
end

