-- ==== Sys2Proof/Machine/Dispatch.lean ====
section
/-! DEFINITION. One arm for each command: its meaning. -/

namespace Sys2Proof.Machine

def exec (i : Instr) (s : State) : Host.Outcome State Fault Refusal :=
  match i with
  | .pinReset locks => Sys2Proof.Machine.execPinReset locks s
  | .fuseReadEnd fuses => Sys2Proof.Machine.execFuseReadEnd fuses s
  | .lockLineFalls port => Sys2Proof.Machine.execLockLineFalls port s
  | .lockLineRises port => Sys2Proof.Machine.execLockLineRises port s
  | .unitTaken port bytes => Sys2Proof.Machine.execUnitTaken port bytes s
  | .hlInUnitTaken bytes => Sys2Proof.Machine.execHlInUnitTaken bytes s
  | .deliveryTimeout => Sys2Proof.Machine.execDeliveryTimeout s
  | .uptimeSecond => Sys2Proof.Machine.execUptimeSecond s
  | .expiry => Sys2Proof.Machine.execExpiry s
  | .waitDeadline dest => Sys2Proof.Machine.execWaitDeadline dest s
  | .acquisitionDeadline ctx => Sys2Proof.Machine.execAcquisitionDeadline ctx s
  | .lockoutEnd => Sys2Proof.Machine.execLockoutEnd s
  | .grantMinutesEnd => Sys2Proof.Machine.execGrantMinutesEnd s
  | .poSendOpportunity output => Sys2Proof.Machine.execPoSendOpportunity output s
  | .hlOutOpportunity => Sys2Proof.Machine.execHlOutOpportunity s
  | .decodeOrder => Sys2Proof.Machine.execDecodeOrder s
  | .setFilter tag filter port stream pattern mask options => Sys2Proof.Machine.execSetFilter tag filter port stream pattern mask options s
  | .clearFilter tag filter => Sys2Proof.Machine.execClearFilter tag filter s
  | .setDelivery tag trigger timeout => Sys2Proof.Machine.execSetDelivery tag trigger timeout s
  | .setSourceGuide tag source => Sys2Proof.Machine.execSetSourceGuide tag source s
  | .setSourceTime tag source => Sys2Proof.Machine.execSetSourceTime tag source s
  | .setSourceAccess tag place source => Sys2Proof.Machine.execSetSourceAccess tag place source s
  | .queryClock tag => Sys2Proof.Machine.execQueryClock tag s
  | .queryGuideService tag port service => Sys2Proof.Machine.execQueryGuideService tag port service s
  | .setHomeNetwork tag network => Sys2Proof.Machine.execSetHomeNetwork tag network s
  | .readExceptions tag first => Sys2Proof.Machine.execReadExceptions tag first s
  | .clearExceptions tag count => Sys2Proof.Machine.execClearExceptions tag count s
  | .querySlotSlot tag slot => Sys2Proof.Machine.execQuerySlotSlot tag slot s
  | .querySlotInput tag input => Sys2Proof.Machine.execQuerySlotInput tag input s
  | .tune tag output port service => Sys2Proof.Machine.execTune tag output port service s
  | .capture tag captureTag port service => Sys2Proof.Machine.execCapture tag captureTag port service s
  | .play tag output captureTag adult ratings => Sys2Proof.Machine.execPlay tag output captureTag adult ratings s
  | .releaseOutput tag output => Sys2Proof.Machine.execReleaseOutput tag output s
  | .releaseTag tag captureTag => Sys2Proof.Machine.execReleaseTag tag captureTag s
  | .setAcquisitionLimit tag ms => Sys2Proof.Machine.execSetAcquisitionLimit tag ms s
  | .queryContext tag ctx => Sys2Proof.Machine.execQueryContext tag ctx s
  | .queryPort tag input => Sys2Proof.Machine.execQueryPort tag input s
  | .queryEntry tag port stream => Sys2Proof.Machine.execQueryEntry tag port stream s
  | .loadRatingRow tag system levels pin => Sys2Proof.Machine.execLoadRatingRow tag system levels pin s
  | .setProfile tag profile limits unrated adult timeUnknown windows pin => Sys2Proof.Machine.execSetProfile tag profile limits unrated adult timeUnknown windows pin s
  | .setPin tag profile pin newPin => Sys2Proof.Machine.execSetPin tag profile pin newPin s
  | .bindProfile tag output profile pin => Sys2Proof.Machine.execBindProfile tag output profile pin s
  | .lockService tag service mask pin => Sys2Proof.Machine.execLockService tag service mask pin s
  | .unlockService tag service pin => Sys2Proof.Machine.execUnlockService tag service pin s
  | .unlock tag output pin scope minutes => Sys2Proof.Machine.execUnlock tag output pin scope minutes s
  | .revokeGrants tag output => Sys2Proof.Machine.execRevokeGrants tag output s
  | .lockParental tag => Sys2Proof.Machine.execLockParental tag s
  | .setOutputRate tag output rate => Sys2Proof.Machine.execSetOutputRate tag output rate s
  | .queryOutput tag output => Sys2Proof.Machine.execQueryOutput tag output s
  | .queryCapture tag captureTag => Sys2Proof.Machine.execQueryCapture tag captureTag s
  | .identify tag => Sys2Proof.Machine.execIdentify tag s
  | .restart tag => Sys2Proof.Machine.execRestart tag s
  | .restartEffect => Sys2Proof.Machine.execRestartEffect s

end Sys2Proof.Machine
end

