-- ==== Sys2Proof/Safety.lean ====
section
/-! DEFINITION. What it means that a step is safe, and the invariants of the part that the data book states: the blocks of
the section store (R27), the stream table (R15, R16, R19), the sizes of its lists and queues, drain counts (R161), the
identities of contexts (R99) and the keys of slots (R76). With them the words the statements use: what stands while packets
are taken, hold sets and notices alone, and the sources by kind. -/

namespace Sys2Proof.Machine

/-- A step is safe when it answers a next state; no rule of the data book stops the part. -/
def Safe (o : Host.Outcome State Fault Refusal) : Prop :=
  ∃ t, o = .next t

/-! ### The section store (R27) -/

/-- Blocks held by the sections of a delivery queue. -/
def queueBlocks (q : List Delivery) : Nat :=
  (q.map Delivery.blocks).sum

/-- Free blocks, blocks held by assemblies in progress, and blocks held by the delivery queue. -/
def State.blocksTotal (s : State) : Nat :=
  s.sections.freeBlocks + blocksOf s.table + queueBlocks s.sections.queue

/-! ### The stream table -/

/-- The stream table: at most 192 entries; each (input, stream number) pair in at most one of them, and admissible on
its input; every entry's user set non-empty (R15, R16); the fixed entry of each tuner port present (R19). -/
structure TableSound (t : List Entry) : Prop where
  size : t.length ≤ 192
  pairs : (t.map (fun e => (e.input, e.stream))).Nodup
  numbers : ∀ e ∈ t, admissible e.input e.stream = true
  used : ∀ e ∈ t, e.unused = false
  fixed : ∀ p : PortNo, ∃ e ∈ t,
    e.input = inputOf p ∧ e.stream = 0x0010 ∧ e.role = .sections ∧ e.pins.index = true

/-! ### Sizes -/

/-- A host filter holds at most 8 seen sets (Table 2-5). -/
def FiltersSmall (fs : Vector (Option Filter) 24) : Prop :=
  ∀ f x, getAt fs f = some x → x.seen.length ≤ 8

/-- A port's index in use and its collection hold at most 64 entries each (Table 3-4). -/
def PortIndex.small (x : PortIndex) : Prop :=
  (∀ r, x.inUse = some r → r.entries.length ≤ 64) ∧ ∀ r, x.collection = some r → r.entries.length ≤ 64

def IndexSmall (v : Vector PortIndex 4) : Prop :=
  ∀ p, (getAt v p).small

/-- A presentation queue holds at most 64 packets (R151). -/
def QueuesSmall (v : Vector Output 2) : Prop :=
  ∀ o, (getAt v o).queue.length ≤ 64

/-- The context users of an entry stand in ascending context number (R15, log 10), so there are at most 16. -/
def Entry.ordered (e : Entry) : Prop :=
  (e.users.map CtxUser.ctx).Pairwise (· < ·)

def UsersOrdered (t : List Entry) : Prop :=
  ∀ e ∈ t, e.ordered

/-- A context lists at most 8 components, 3 map ratings and 3 play ratings (Table 6-2, R102, R104). -/
structure Context.small (x : Context) : Prop where
  components : x.components.length ≤ 8
  ratings : x.mapRatings.length ≤ 3
  play : ∀ y, x.play = some y → y.ratings.length ≤ 3

def ContextsSmall (v : Vector Context 16) : Prop :=
  ∀ c, (getAt v c).small

/-- An event lists at most 3 ratings (Table 3-6, R59). -/
def EventsSmall (l : List Event) : Prop :=
  ∀ e ∈ l, e.ratings.length ≤ 3

/-- A profile holds at most 4 quiet windows (Table 7-1). -/
def WindowsSmall (v : Vector Profile 4) : Prop :=
  ∀ p, (getAt v p).windows.length ≤ 4

/-- A context has at most 64 packets in the capture queue (R158). -/
def SharesSmall (v : Vector Nat 16) : Prop :=
  ∀ c, getAt v c ≤ 64

/-- A unit in progress holds 1 to 187 bytes (R1). -/
def FormingSmall (v : Vector (Option (List Byte)) 5) : Prop :=
  ∀ i u, getAt v i = some u → 1 ≤ u.length ∧ u.length ≤ 187

/-- A section in progress (Table 2-2, R24, R27): one block for each 64 bytes begun, and a length that is absent below three
bytes and from then on 12 to 1024, more than the bytes received. -/
structure ChainSound (blocks : Nat) (bytes : List Byte) (expected : Option Nat) : Prop where
  chain : blocks = (bytes.length + 63) / 64
  unknown : expected = none → bytes.length < 3
  known : ∀ n, expected = some n → 12 ≤ n ∧ n ≤ 1024 ∧ 3 ≤ bytes.length ∧ bytes.length < n

/-- An assembly record holds what Table 2-2 gives for its state: while COLLECTING, 1 to 1024 bytes in a chain of 1 to 16
blocks. -/
def Assembly.small (x : Assembly) : Prop :=
  match x with
  | .collecting blocks bytes expected => 1 ≤ bytes.length ∧ ChainSound blocks bytes expected
  | .idle | .skipping => True

def AssembliesSmall (t : List Entry) : Prop :=
  ∀ e ∈ t, e.assembly.small

/-- A section in the delivery queue has 12 to 1024 bytes (R24, R35); the queue has no limit of its own (R36). -/
def DeliveriesSmall (q : List Delivery) : Prop :=
  ∀ d ∈ q, 12 ≤ d.bytes.length ∧ d.bytes.length ≤ 1024

/-- A placed switch marker lists at most 8 components (R153, Table 6-2). -/
def MarkersSmall (v : Vector Output 2) : Prop :=
  ∀ o m, (getAt v o).marker = some m → m.components.length ≤ 8

/-- The tracked services are distinct, and each is that of a RUNNING tuner context (R63). -/
structure TracksRunning (ctxs : Vector Context 16) (l : List Tracked) : Prop where
  distinct : (l.map Tracked.service).Nodup
  running : ∀ t ∈ l, ∃ c, (getAt ctxs c).state = .running ∧ (getAt ctxs c).input ≠ pb ∧
    (getAt ctxs c).service = t.service

/-- The lists and queues of the part, less those of the management unit's orders, stay within their sizes: those the book
gives, and for the tracked services the number of contexts. -/
structure ListsBounded (s : State) : Prop where
  forming : FormingSmall s.intake.forming
  table : TableSound s.table
  assemblies : AssembliesSmall s.table
  deliveries : DeliveriesSmall s.sections.queue
  markers : MarkersSmall s.out.outputs
  tracking : TracksRunning s.ctl.contexts s.guide.tracked
  tracked : s.guide.tracked.length ≤ 16
  order : UsersOrdered s.table
  users : ∀ e ∈ s.table, e.users.length ≤ 16
  contexts : ContextsSmall s.ctl.contexts
  ratings : EventsSmall s.guide.events
  windows : WindowsSmall s.parental.profiles
  share : SharesSmall s.out.captureCount
  seen : FiltersSmall s.sections.filters
  index : IndexSmall s.guide.index
  services : s.guide.list.length ≤ 256
  events : s.guide.events.length ≤ 2048
  entitlements : s.access.entitlements.length ≤ 64
  groups : s.access.groups.length ≤ 4
  log : s.access.log.length ≤ 16
  locked : s.parental.locked.length ≤ 32
  grants : s.parental.grants.length ≤ 8
  presentation : QueuesSmall s.out.outputs
  capture : s.out.capture.length ≤ 128
  notices : s.notices.queue.length ≤ 32

/-- The answer queue and the management buffer stay within their sizes (Table 9-1). -/
structure LinkQueuesBounded (s : State) : Prop where
  answers : s.mgmt.answers.length ≤ 16
  buffer : s.mgmt.buffer.length ≤ 4

/-! ### Drain counts (R158, R161) -/

/-- The packets of a context in the capture queue. -/
def captured (l : List CapturePacket) (c : CtxNo) : Nat :=
  l.countP (fun q => q.ctx == c)

/-- The packets of a context in a presentation queue. -/
def presented (x : Output) (c : CtxNo) : Nat :=
  x.queue.countP (fun q => q.ctx == c)

/-- The packets of a context in the PO0, PO1 and capture queues. -/
def packetsOf (v : Vector Output 2) (l : List CapturePacket) (c : CtxNo) : Nat :=
  presented (getAt v 0) c + presented (getAt v 1) c + captured l c

/-- A context's drain count equals the number of its packets in the queues, its capture count the number in the capture
queue, and a FREE context has none. -/
structure DrainsAgree (ctxs : Vector Context 16) (v : Vector Output 2) (l : List CapturePacket)
    (counts : Vector Nat 16) : Prop where
  drain : ∀ c, (getAt ctxs c).drain = packetsOf v l c
  capture : ∀ c, getAt counts c = captured l c
  free : ∀ c, (getAt ctxs c).state = .free → (getAt ctxs c).drain = 0

def DrainsCounted (s : State) : Prop :=
  DrainsAgree s.ctl.contexts s.out.outputs s.out.capture s.out.captureCount

/-! ### Identities (R99) -/

/-- A context that is neither FREE nor RETIRING. -/
def Context.live (x : Context) : Prop :=
  x.state ≠ .free ∧ x.state ≠ .retiring

/-- Among the contexts that are neither FREE nor RETIRING, no two have the same port and service. -/
def IdentitiesDistinct (ctxs : Vector Context 16) : Prop :=
  ∀ c d, (getAt ctxs c).live → (getAt ctxs d).live → (getAt ctxs c).input = (getAt ctxs d).input →
    (getAt ctxs c).service = (getAt ctxs d).service → c = d

/-! ### Keys (R76) -/

/-- A record for a tier is in an entitlement list. -/
def holdsTier (l : List Entitlement) (tier : Nat) : Bool :=
  l.any (fun r => r.tier == tier)

/-- A slot holds a key only while its tier is held. -/
def Slot.keysBacked (l : List Entitlement) (x : Slot) : Prop :=
  x.even.isSome ∨ x.odd.isSome → ∃ t, x.tier = some t ∧ holdsTier l t = true

/-- A key slot holds a key only while the entitlement list holds a record whose tier equals the slot's tier. -/
def KeysHeld (slots : Vector (Option Slot) 16) (l : List Entitlement) : Prop :=
  ∀ k x, getAt slots k = some x → x.keysBacked l

/-! ### What stands while packets and sections are taken -/

/-- The settings and measures that no packet, section or grant changes: time, links, lock lines and sync, the delivery
settings and the section number, uptime and sources, the fuses and the home network, the acquisition limit, the settings
of the parental unit with its profiles, and the pacing of the outputs. -/
structure Standing where
  time : TimeBase
  link : Link
  lock : Vector Bool 4
  sync : Vector SyncRec 5
  trigger : Nat
  timeout : Nat
  nextNumber : Nat
  uptime : Nat
  timeSource : Option (PortNo × Nat)
  guideSource : Option (PortNo × Nat)
  accessSources : Vector (Option (PortNo × Nat)) 2
  reading : Bool
  fuses : Option Fuses
  home : Option Nat
  limit : Nat
  ratings : Vector (Vector Nat 64) 8
  profiles : Vector Profile 4
  bound : Vector (Option ProfileNo) 2
  locked : List LockedService
  parentalLock : Bool
  pacing : Vector (Nat × Nat × Nat) 2

/-- Rate and pacing of an output (R154). -/
def Output.pacing (x : Output) : Nat × Nat × Nat :=
  (x.rate, x.paceStart, x.paceIndex)

def State.standing (s : State) : Standing where
  time := s.time
  link := s.link
  lock := s.intake.lock
  sync := s.intake.sync
  trigger := s.sections.trigger
  timeout := s.sections.timeout
  nextNumber := s.sections.nextNumber
  uptime := s.clock.uptime
  timeSource := s.clock.source
  guideSource := s.guide.source
  accessSources := s.access.sources
  reading := s.access.reading
  fuses := s.access.fuses
  home := s.access.home
  limit := s.ctl.limit
  ratings := s.parental.table
  profiles := s.parental.profiles
  bound := s.parental.binding
  locked := s.parental.locked
  parentalLock := s.parental.lock
  pacing := s.out.outputs.map Output.pacing

/-! ### Notices and hold sets -/

/-- A notice joins a notice queue, or is discarded and sets the missed flag (R173). -/
def NoticeQueue.join (q : NoticeQueue) (n : Notice) : NoticeQueue :=
  if q.queue.length < 32 then { q with queue := q.queue ++ [n] } else { q with missed := true }

def NoticeQueue.joinAll (q : NoticeQueue) (l : List Notice) : NoticeQueue :=
  l.foldl NoticeQueue.join q

def Notice.isHold (n : Notice) : Bool :=
  n.kind == 6

/-- The bindings of an output, less their hold sets. -/
def OutBind.bare (b : OutBind) : OutBind :=
  { current := b.current.map (fun x => { x with hold := .none })
    pending := b.pending.map (fun x => { x with hold := .none }) }

/-- A tag record, less its hold set. -/
def TagRec.bare (t : TagRec) : TagRec :=
  match t with
  | .idle => .idle
  | .bound c wait _ => .bound c wait .none
  | .draining c => .draining c

/-- The part less the hold sets of its destinations and less its notices. -/
def State.bare (s : State) : State :=
  { s with
    ctl := { s.ctl with outputs := s.ctl.outputs.map OutBind.bare, tags := s.ctl.tags.map TagRec.bare }
    notices := ⟨[], false⟩ }

/-- From `s` to `t` only hold sets change, and only HOLD notices are offered. -/
structure HoldsOnly (s t : State) : Prop where
  bare : t.bare = s.bare
  notices : ∃ l : List Notice, (∀ n ∈ l, n.isHold = true) ∧ t.notices = s.notices.joinAll l

/-- Every destination of every context on an input has SIGNAL as `v` says (R4, R5). -/
structure SignalOn (s : State) (i : Input) (v : Bool) : Prop where
  current : ∀ o b, (s.binding o).current = some b → (s.context b.ctx).input = i → b.hold.signal = v
  pending : ∀ o b, (s.binding o).pending = some b → (s.context b.ctx).input = i → b.hold.signal = v
  tag : ∀ t c w h, s.tag t = .bound c w h → (s.context c).input = i → h.signal = v

/-- The command that brings bytes on an input: UNIT_TAKEN on a tuner port, HL_IN_UNIT_TAKEN on HL-in. -/
def takenOn (i : Input) (bytes : List LinkByte) : Instr :=
  match place 4 i.val with
  | some p => .unitTaken p bytes
  | none => .hlInUnitTaken bytes

/-- The bytes of one packet on its link: the first is marked as a packet start. -/
def marked (unit : List Byte) : List LinkByte :=
  match unit with
  | [] => []
  | b :: l => ⟨b, true⟩ :: l.map (fun b => ⟨b, false⟩)

/-- The part as the intake examines a good-sync packet of an input that is UP: the bad-sync run count is 0, the packet is
counted, and an errored one as errored (R3, R10, R11 step 1). -/
def State.counted (s : State) (i : Input) (q : List Byte) : State :=
  { s with intake :=
    { s.intake with
      sync := setAt s.intake.sync i { getAt s.intake.sync i with badRun := 0 }
      stats := setAt s.intake.stats i
        { getAt s.intake.stats i with
          packets := bump top32 (getAt s.intake.stats i).packets
          errored :=
            if errorFlag q then bump top32 (getAt s.intake.stats i).errored else (getAt s.intake.stats i).errored } } }

/-- A stream number the intake looks up on an input: not filler and not stray (R11, Table 1-2). -/
def lookedUp (i : Input) (n : Nat) : Prop :=
  if i = pb then 0x1000 ≤ n ∧ n ≤ 0x11FF else n < 0x1FF0

/-! ### The three sources that SET_SOURCE names -/

inductive SourceKind where
  | guide | time
  | access (place : Fin 2)
  deriving DecidableEq, Repr

def SourceKind.order (k : SourceKind) (tag : Byte) (param : SourceParam) : Instr :=
  match k with
  | .guide => .setSourceGuide tag param
  | .time => .setSourceTime tag param
  | .access p => .setSourceAccess tag (BitVec.ofNat 8 p.val) param

def SourceKind.pin (k : SourceKind) : PinConsumer :=
  match k with
  | .guide => .guide
  | .time => .time
  | .access _ => .access

/-- The pair a source holds. -/
def SourceKind.held (k : SourceKind) (s : State) : Option (PortNo × Nat) :=
  match k with
  | .guide => s.guide.source
  | .time => s.clock.source
  | .access p => getAt s.access.sources p

/-- The pair that the other access place holds, which an access source may not name (R67). -/
def SourceKind.barred (k : SourceKind) (s : State) : Option (PortNo × Nat) :=
  match k with
  | .guide | .time => none
  | .access p => getAt s.access.sources (if p = 0 then 1 else 0)

/-- The part with a source's pair replaced. -/
def SourceKind.put (k : SourceKind) (v : Option (PortNo × Nat)) (s : State) : State :=
  match k with
  | .guide => { s with guide := { s.guide with source := v } }
  | .time => { s with clock := { s.clock with source := v } }
  | .access p => { s with access := { s.access with sources := setAt s.access.sources p v } }

/-! ### Reports of slots and tiers (R76, R85) -/

/-- From `s` to `t` only hold sets change and contexts in KEY go on to ENTRY, and only HOLD notices are offered. -/
structure ReportsOnly (s t : State) : Prop where
  bare : t.bare = { s.bare with ctl := { s.bare.ctl with contexts := t.ctl.contexts } }
  contexts : ∀ c : CtxNo, t.context c = s.context c ∨
    (s.context c).state = .key ∧ t.context c = { s.context c with state := .entry }
  notices : ∃ l : List Notice, (∀ n ∈ l, n.isHold = true) ∧ t.notices = s.notices.joinAll l

/-- Every destination of the named contexts holds the named reasons as the state gives them (R115, R116). -/
structure JudgedOn (t : State) (w : Which) (hit : CtxNo → Prop) : Prop where
  current : ∀ o b, (t.binding o).current = some b → hit b.ctx → b.hold = judged t w b.ctx (.output o) b.hold
  pending : ∀ o b, (t.binding o).pending = some b → hit b.ctx → b.hold = judged t w b.ctx (.output o) b.hold
  tag : ∀ k c wait h, t.tag k = .bound c wait h → hit c → h = judged t w c (.tag k) h

/-- The key slot of a context, as it stands, lets it leave KEY (R105). -/
def opensFor (s : State) (x : Context) : Prop :=
  ∃ k y, x.slot = some k ∧ s.slot k = some y ∧ (y.even.isSome ∨ y.odd.isSome) ∧ y.refused = false

/-- From `s` to `t` the conditions of slots are reported to their users (R85): ENTITLEMENT and KEY_LAPSE are judged on the
users' destinations (R115, R116), and the users in KEY whose slot opens enter ENTRY (R105). -/
structure SlotsReported (user : CtxNo → Prop) (s t : State) : Prop where
  only : ReportsOnly s t
  reasons : JudgedOn t judgeSlot user
  opened : ∀ c, user c → (s.context c).state = .key → opensFor s (s.context c) →
    t.context c = { s.context c with state := .entry }
  stays : ∀ c, ¬(user c ∧ (s.context c).state = .key ∧ opensFor s (s.context c)) → t.context c = s.context c

/-- The report of one slot's condition to its users (R85). -/
abbrev SlotReported (users : BitVec 16) (s t : State) : Prop :=
  SlotsReported (fun c => hasBit users c = true) s t

/-- The part with the entitlement records that meet a test removed, and with the slots `v`. -/
def State.without (s : State) (gone : Entitlement → Bool) (v : Vector (Option Slot) 16) : State :=
  { s with access :=
    { s.access with entitlements := s.access.entitlements.filter (fun r => !gone r), slots := v } }

/-- A slot whose tier has a record that meets a test (R76). -/
def Slot.losesTier (x : Slot) (gone : Entitlement → Bool) (s : State) : Prop :=
  ∃ r ∈ s.access.entitlements, gone r = true ∧ x.tier = some r.tier

/-- From `s` to `t` the entitlement records that meet a test are removed and their tiers lost (R76): the slots of those tiers
lose their keys and become LAPSED, their new conditions are reported to their users (R85), KEY_LAPSE among what is judged, and
ENTITLEMENT is judged on every destination. -/
structure TiersLost (gone : Entitlement → Bool) (s t : State) : Prop where
  only : ReportsOnly (s.without gone t.access.slots) t
  erased : ∀ k x, s.slot k = some x → x.losesTier gone s →
    t.slot k = some { x with even := none, odd := none, lapsed := true }
  kept : ∀ k, (∀ x, s.slot k = some x → ¬x.losesTier gone s) → t.slot k = s.slot k
  none : (∀ r ∈ s.access.entitlements, gone r = false) → t = s
  reported : (∃ r ∈ s.access.entitlements, gone r = true) →
    SlotsReported (fun c => ∃ k x, s.slot k = some x ∧ x.losesTier gone s ∧ hasBit x.users c = true)
      (s.without gone t.access.slots) t
  reasons : (∃ r ∈ s.access.entitlements, gone r = true) → JudgedOn t judgeEntitlement (fun _ => True)

/-! ### Verdicts and the gate of the parental lock -/

/-- The named pairs of an output, current and pending, hold the verdict that the state gives (R130, R136). -/
def VerdictsOn (t : State) (hit : CtxNo → OutputNo → Prop) : Prop :=
  (∀ o b, (t.binding o).current = some b → hit b.ctx o → b.hold.parental = verdict t b.ctx o) ∧
    ∀ o b, (t.binding o).pending = some b → hit b.ctx o → b.hold.parental = verdict t b.ctx o

/-- A gated order goes on to its effect in `u`: no digit of a PIN it carries is above 9 (R137, R185), and the lock is clear, or
the PIN passes the check against `q` (R144). -/
def PassesGate (q : ProfileNo) (pin : Option Pin) (s u : State) : Prop :=
  (∀ d, pin = some d → digitsOk d = true) ∧
    (s.parental.lock = false ∧ u = s ∨ s.parental.lock = true ∧ ∃ d, pin = some d ∧ pinCheck q d s = (.right, u))

/-- A gated order is answered `r` and leaves `u`, its effect not made: it carries a PIN with a digit above 9 (R137, R185), or
the lock is set and it carries no PIN, or one that fails the check against `q` (R144). -/
def FailsGate (q : ProfileNo) (pin : Option Pin) (s : State) (r : Reply) (u : State) : Prop :=
  ((∃ d, pin = some d ∧ digitsOk d = false) ∨ s.parental.lock = true ∧ pin = none) ∧ r = refuse .badParam ∧ u = s ∨
    s.parental.lock = true ∧
      ∃ d x, pin = some d ∧ digitsOk d = true ∧ pinCheck q d s = (x, u) ∧ x ≠ .right ∧ r = pinReply x

end Sys2Proof.Machine
end

