-- ==== Sys2Proof/Certificates/Slice0/Obligations.lean ====
section
/-! DEFINITION. The statements for the provers. -/

section

open Sys2Proof Sys2Proof.Machine

/-! ### The queue of commands and the hand-over of orders -/

/-- A step takes the command at the front of the queue and runs it on the part with the queue's rest. -/
def Obligations.StepTakesTheFrontCommand : Prop :=
  ∀ (c : Instr) (rest : List Instr) (s : State), step { s with pending := c :: rest } = exec c { s with pending := rest }

/-- On an empty queue one reference cycle passes and nothing else happens (the model's choice, log 2). -/
def Obligations.EmptyQueuePassesOneCycle : Prop :=
  ∀ s : State, s.pending = [] →
    step s = .next { s with time := { cycles := s.time.cycles + 1, counter := s.time.counter + 1 } }

/-- Every command answers a next state in every state: no rule of the book stops the part. -/
def Obligations.EveryCommandAnswersANextState : Prop :=
  ∀ (i : Instr) (s : State), Safe (exec i s)

/-- The hand-over of an order. While the unit is STARTING (R167), while a RESTART waits (R176), or while the answer queue holds
16 answers (R171) an order is not taken and the part stays as it is (log 1). An order that is handed on gets one answer, with
its code and tag, at the tail of the answer queue (R171, R172), and changes nothing else of the management unit, but that
RESTART marks the unit as waiting for it (R176). -/
def Obligations.OrdersAreHandedOnAndAnswered : Prop :=
  (∀ (i : Instr) (s : State), (orderParts i).isSome →
    s.mgmt.ready = false ∨ s.mgmt.restarting = true ∨ 16 ≤ s.mgmt.answers.length → exec i s = .next s) ∧
  (∀ (i : Instr) (s : State) (code tag : Byte) (params : List Byte), orderParts i = some (code, tag, params) →
    s.mgmt.ready = true → s.mgmt.restarting = false → s.mgmt.answers.length < 16 →
    ∃ (t : State) (r : Reply), exec i s = .next t ∧ t.pending = s.pending ∧
      t.mgmt =
        { s.mgmt with
          answers := s.mgmt.answers ++ [⟨code, tag, r.outcome, r.adjusted, r.results⟩]
          restarting := code == 0x61 })

/-! ### Resets -/

/-- The values the book gives for the release of RESETN, block by block: of State.reset, with every lock line low (log 4), and of
the part after PIN_RESET in any state, whose queue of commands stays (log 31). Each tuner port is SEEKING where its lock line is
high and DOWN where it is low (R7), HL-in is SEEKING (R8). The run counts of HL-in (log 4), the 27 MHz counter (log 3), the
absent units in progress (log 6), the fuse read in progress (log 5) and the absent last packet of each link (log 30) are the
model's. -/
def Obligations.ResetValues : Prop :=
  State.reset.pending = [] ∧
  (∀ (locks : Vector Bool 4) (s : State), ∃ t : State, exec (.pinReset locks) s = .next t ∧ t.pending = s.pending) ∧
  ∀ (t : State) (locks : Vector Bool 4),
    t = State.reset ∧ locks = Vector.replicate 4 false ∨ (∃ s : State, exec (.pinReset locks) s = .next t) →
    t.time = ⟨0, 0⟩ ∧
    t.intake.lock = locks ∧
    (∀ p : PortNo, getAt t.intake.sync (inputOf p) = ⟨if getAt locks p then .seeking else .down, 0, 0⟩) ∧
    getAt t.intake.sync pb = ⟨.seeking, 0, 0⟩ ∧
    (∀ i : Input, t.forming i = none ∧ getAt t.intake.stats i = ⟨0, 0, 0, 0, 0⟩) ∧
    t.table =
      ([0, 1, 2, 3] : List PortNo).map (fun p =>
        { input := inputOf p, stream := 0x0010, role := .sections, users := [], pins := ⟨true, false, false, false, 0⟩,
          lastCount := none, duplicate := false, gaps := 0, assembly := .idle, starve := 0 }) ∧
    t.sections =
      { freeBlocks := 512, filters := Vector.replicate 24 none, queue := [], released := false, trigger := 1,
        timeout := 20, nextNumber := 0, stats := Vector.replicate 5 ⟨0, 0, 0, 0, 0⟩ } ∧
    t.clock =
      { uptime := 0, net := none, minute := none, change := none, candidate := none, source := none, malformed := 0,
        steps := 0, jumps := 0 } ∧
    t.guide =
      { index := Vector.replicate 4 ⟨none, none, 0, 0⟩, list := [], listVersion := none, listOverflow := 0,
        listMalformed := 0, events := [], droppedFull := 0, evicted := 0, outside := 0, malformed := 0, tracked := [],
        source := none } ∧
    t.access =
      { reading := true, fuses := none, home := none, sources := Vector.replicate 2 none, unreadable := 0,
        notAddressed := 0, accepted := 0, applied := 0, unitSeq := none, groups := [], entitlements := [], log := [],
        overflow := false, slots := Vector.replicate 16 none, stats := Vector.replicate 5 ⟨0, 0, 0, 0, 0⟩ } ∧
    (∀ c : CtxNo, (t.context c).state = .free ∧ (t.context c).lastFailure = none ∧ (t.context c).drain = 0) ∧
    (∀ o : OutputNo, t.binding o = ⟨none, none⟩) ∧ (∀ k : TagNo, t.tag k = .idle) ∧ t.ctl.limit = 3000 ∧
    t.parental =
      { table := Vector.replicate 8 (Vector.replicate 64 15),
        profiles := Vector.replicate 4
          { limits := Vector.replicate 8 15, unratedHold := false, adultHold := true, windows := [],
            timeUnknownHold := false, pin := none, failures := 0, lockoutEnd := none },
        binding := Vector.replicate 2 none, locked := [], grants := [], lock := false } ∧
    (∀ o : OutputNo,
      t.output o =
        { queue := [], marker := none, overflowMark := false, markerCount := 0, packetsSent := 0, markersSent := 0,
          fillerSent := 0, overflowDiscards := 0, stampsCorrected := 0, stampFaults := 0, rate := 20000, paceStart := 0,
          paceIndex := 0 }) ∧
    t.out.capture = [] ∧ (∀ c : CtxNo, getAt t.out.captureCount c = 0) ∧
    (∀ k : TagNo, getAt t.out.records k = ⟨0, 0, 0, false⟩) ∧ t.out.sent = ⟨0, 0, 0, 0, 0⟩ ∧ t.out.run = 0 ∧
    t.notices = ⟨[], false⟩ ∧ t.mgmt = ⟨false, [], [], 0, .pinReset, false⟩ ∧
    t.link = ⟨0, 0, 0, none, Vector.replicate 2 none⟩

/-- The end of the fuse read fixes the access state and what was read (R65), and places READY at the head of the notice
queue; a queue that holds 32 notices loses its newest and the missed flag is set (R168). Where no read is in progress the
command has no effect (log 34); that a read is in progress until this command is log 5.
RESTART is answered DONE and decoding stops; until its answer has been sent the part goes on as before (R176, stages 1 and 2;
log 17). It takes effect once its answer has been sent: what each block clears and what it keeps (R176, stage 3), with READY at
the head of the emptied notice queue; at any other time the command that brings its effect has none (log 34). HL-in keeps its
sync (R8, R9), run counts included (log 4), the units in progress stay (log 6), the packet last sent on each link stays (log 30),
and a FREE context holds the model's defaults (log 32). -/
def Obligations.FuseReadEndsAndRestartTakesEffect : Prop :=
  (∀ (fuses : Option Fuses) (s : State),
    (s.access.reading = false → exec (.fuseReadEnd fuses) s = .next s) ∧
    (s.access.reading = true → s.notices.queue.length < 32 →
      exec (.fuseReadEnd fuses) s =
        .next { s with
          access := { s.access with reading := false, fuses := fuses }
          notices := { s.notices with queue := .ready s.mgmt.cause fuses :: s.notices.queue } }) ∧
    (s.access.reading = true → 32 ≤ s.notices.queue.length →
      exec (.fuseReadEnd fuses) s =
        .next { s with
          access := { s.access with reading := false, fuses := fuses }
          notices := { queue := .ready s.mgmt.cause fuses :: s.notices.queue.take 31, missed := true } })) ∧
  (∀ (tag : Byte) (s : State), s.handsOn = true →
    exec (.restart tag) s =
      .next { s with
        mgmt := { s.mgmt with answers := s.mgmt.answers ++ [⟨0x61, tag, .done, false, []⟩], restarting := true } }) ∧
  (∀ s : State,
    (s.mgmt.restarting = false ∨ s.mgmt.answers ≠ [] → exec .restartEffect s = .next s) ∧
    (s.mgmt.restarting = true → s.mgmt.answers = [] →
      ∃ t : State, exec .restartEffect s = .next t ∧
        t.pending = s.pending ∧ t.time = s.time ∧ t.link = s.link ∧
        t.intake.lock = s.intake.lock ∧ t.intake.forming = s.intake.forming ∧
        getAt t.intake.sync pb = getAt s.intake.sync pb ∧
        (∀ p : PortNo, getAt t.intake.sync (inputOf p) = ⟨if getAt s.intake.lock p then .seeking else .down, 0, 0⟩) ∧
        (∀ i : Input, getAt t.intake.stats i = ⟨0, 0, 0, 0, 0⟩) ∧
        t.table = [Entry.fixed 0, Entry.fixed 1, Entry.fixed 2, Entry.fixed 3] ∧
        t.sections =
          { s.sections with
            freeBlocks := 512, filters := Vector.replicate 24 none, queue := [], released := false,
            stats := Vector.replicate 5 ⟨0, 0, 0, 0, 0⟩ } ∧
        t.clock = { s.clock with candidate := none, source := none } ∧
        t.guide = { s.guide with index := Vector.replicate 4 ⟨none, none, 0, 0⟩, tracked := [], source := none } ∧
        t.access =
          { s.access with
            sources := Vector.replicate 2 none, slots := Vector.replicate 16 none,
            stats := Vector.replicate 5 ⟨0, 0, 0, 0, 0⟩ } ∧
        (∀ c : CtxNo, t.context c = Context.empty) ∧ (∀ o : OutputNo, t.binding o = ⟨none, none⟩) ∧
        (∀ k : TagNo, t.tag k = .idle) ∧ t.ctl.limit = s.ctl.limit ∧
        t.parental = { s.parental with grants := [] } ∧
        (∀ o : OutputNo,
          t.output o =
            { queue := [], marker := none, overflowMark := false, markerCount := 0, packetsSent := 0, markersSent := 0,
              fillerSent := 0, overflowDiscards := 0, stampsCorrected := 0, stampFaults := 0,
              rate := (s.output o).rate, paceStart := (s.output o).paceStart, paceIndex := (s.output o).paceIndex }) ∧
        t.out.capture = [] ∧ (∀ c : CtxNo, getAt t.out.captureCount c = 0) ∧
        (∀ k : TagNo, getAt t.out.records k = ⟨0, 0, 0, false⟩) ∧ t.out.sent = ⟨0, 0, 0, 0, 0⟩ ∧ t.out.run = 0 ∧
        t.notices = ⟨[.ready .restart s.access.fuses], false⟩ ∧ t.mgmt = ⟨false, [], [], 0, .restart, false⟩))

/-! ### Lock lines and units -/

/-- A falling lock line puts a tuner port in DOWN (R2), and its unit in progress is discarded (R1). A SEEKING port clears its
service index and sends no notice (R5, R6). A port that was UP sends a PORT notice, its entries lose their last count and
duplicate mark, their assemblies in progress are abandoned and the blocks freed (an IDLE assembly stays IDLE, log 21), SIGNAL
joins the holds of its contexts, and its service index is cleared; only HOLD notices are sent beside, after the PORT notice
(log 49). A port that is DOWN stays so. A rising lock line puts a DOWN port in SEEKING with its good-sync run count at 0
(R2), and moves no other. -/
def Obligations.LockLinesMoveThePort : Prop :=
  (∀ (p : PortNo) (s : State) (x : SyncRec) (v : Intake), getAt s.intake.sync (inputOf p) = x →
    v = { s.intake with
      lock := setAt s.intake.lock p false, forming := setAt s.intake.forming (inputOf p) none } →
    (x.state = .down → exec (.lockLineFalls p) s = .next { s with intake := v }) ∧
    (x.state = .seeking →
      exec (.lockLineFalls p) s =
        .next { s with
          intake := { v with sync := setAt s.intake.sync (inputOf p) { x with state := .down } }
          guide :=
            { s.guide with
              index := setAt s.guide.index p { getAt s.guide.index p with inUse := none, collection := none } } }) ∧
    (x.state = .up →
      ∃ t : State, exec (.lockLineFalls p) s = .next t ∧ SignalOn t (inputOf p) true ∧
        HoldsOnly
          { s with
            intake := { v with sync := setAt s.intake.sync (inputOf p) { x with state := .down } }
            table := s.table.map fun e =>
              if e.input = inputOf p then
                { e with
                  lastCount := none, duplicate := false,
                  assembly := match e.assembly with
                    | .collecting _ _ _ => .skipping
                    | .idle => .idle
                    | .skipping => .skipping }
              else e
            sections :=
              { s.sections with
                freeBlocks := s.sections.freeBlocks + blocksOf (s.table.filter (fun e => e.input == inputOf p)) }
            guide :=
              { s.guide with
                index := setAt s.guide.index p { getAt s.guide.index p with inUse := none, collection := none } }
            notices := s.notices.join (.port (inputOf p) .down) }
          t)) ∧
  (∀ (p : PortNo) (s : State) (x : SyncRec), getAt s.intake.sync (inputOf p) = x →
    exec (.lockLineRises p) s =
      .next { s with
        intake :=
          { s.intake with
            lock := setAt s.intake.lock p true
            sync := if x.state = .down then setAt s.intake.sync (inputOf p) { x with state := .seeking, goodRun := 0 }
              else s.intake.sync } })

/-- Bytes arrive on an input one after another (R1, R8; how many a command carries, and that a byte outside a unit is
ignored, is log 6). On an input that is DOWN they are ignored. A packet start cuts the unit in progress short, which is then
taken, and begins a unit; the 188th byte of a unit ends it, and it is taken; a whole unit on an input without one in progress
is taken as it is. A unit taken by an input that is not UP (R1, R3, R4, R8, R9): a SEEKING one counts its run of good-sync
units, which a bad-sync unit ends, and enters UP at the third, with a PORT notice and without the SIGNAL hold (the PORT
notice before the HOLD notices, log 49); the unit itself is discarded. Bad-sync units on an input that is UP (R3, R5, R8,
R9): the first is lost and counted in the run; the second puts the input in SEEKING with both run counts 0, counts a sync
loss and sends a PORT notice, its entries lose their last count and duplicate mark, their assemblies in progress are
abandoned and the blocks freed (an IDLE assembly stays IDLE, log 21), and SIGNAL joins the holds of its contexts, their HOLD
notices after the PORT notice (log 49). -/
def Obligations.UnitsMoveTheSync : Prop :=
  (∀ (i : Input) (s : State),
    (∀ bytes : List LinkByte, exec (takenOn i bytes) s = .next (bytes.foldl (takeLinkByte i) s)) ∧
    (∀ b : LinkByte, (getAt s.intake.sync i).state = .down → takeLinkByte i s b = s) ∧
    (∀ b : Byte, (getAt s.intake.sync i).state ≠ .down →
      (s.forming i = none →
        takeLinkByte i s ⟨b, true⟩ = s.setForming i (some [b]) ∧ takeLinkByte i s ⟨b, false⟩ = s) ∧
      ∀ unit : List Byte, s.forming i = some unit →
        takeLinkByte i s ⟨b, true⟩ = (takeUnit i unit (s.setForming i none)).setForming i (some [b]) ∧
        (unit.length + 1 ≠ 188 → takeLinkByte i s ⟨b, false⟩ = s.setForming i (some (unit ++ [b]))) ∧
        (unit.length + 1 = 188 → takeLinkByte i s ⟨b, false⟩ = takeUnit i (unit ++ [b]) (s.setForming i none))) ∧
    ∀ unit : List Byte, unit.length = 188 → s.forming i = none →
      exec (takenOn i (marked unit)) s = .next (takeUnit i unit s)) ∧
  (∀ (i : Input) (unit : List Byte) (s : State) (x : SyncRec), getAt s.intake.sync i = x →
    (goodSync unit = true ↔ unit.length = 188 ∧ unit.head? = some 0x47) ∧
    (x.state = .down → takeUnit i unit s = s) ∧
    (x.state = .seeking → goodSync unit = false →
      takeUnit i unit s =
        { s with intake := { s.intake with sync := setAt s.intake.sync i { x with goodRun := 0 } } }) ∧
    (x.state = .seeking → goodSync unit = true → x.goodRun < 2 →
      takeUnit i unit s =
        { s with intake := { s.intake with sync := setAt s.intake.sync i { x with goodRun := x.goodRun + 1 } } }) ∧
    (x.state = .seeking → goodSync unit = true → 2 ≤ x.goodRun →
      SignalOn (takeUnit i unit s) i false ∧
        HoldsOnly
          { s with
            intake :=
              { s.intake with
                sync := setAt s.intake.sync i { state := .up, goodRun := x.goodRun + 1, badRun := 0 } }
            notices := s.notices.join (.port i .up) }
          (takeUnit i unit s))) ∧
  (∀ (i : Input) (unit : List Byte) (s : State) (x : SyncRec), getAt s.intake.sync i = x → x.state = .up →
    goodSync unit = false →
    (x.badRun = 0 →
      takeUnit i unit s =
        { s with intake := { s.intake with sync := setAt s.intake.sync i { x with badRun := 1 } } }) ∧
    (1 ≤ x.badRun →
      SignalOn (takeUnit i unit s) i true ∧
        HoldsOnly
          { s with
            intake :=
              { s.intake with
                sync := setAt s.intake.sync i { state := .seeking, goodRun := 0, badRun := 0 }
                stats := setAt s.intake.stats i
                  { getAt s.intake.stats i with syncLosses := bump top32 (getAt s.intake.stats i).syncLosses } }
            table := s.table.map fun e =>
              if e.input = i then
                { e with
                  lastCount := none, duplicate := false,
                  assembly := match e.assembly with
                    | .collecting _ _ _ => .skipping
                    | .idle => .idle
                    | .skipping => .skipping }
              else e
            sections :=
              { s.sections with
                freeBlocks := s.sections.freeBlocks + blocksOf (s.table.filter (fun e => e.input == i)) }
            notices := s.notices.join (.port i .seeking) }
          (takeUnit i unit s)))

/-- A good-sync unit on a tuner port that is UP, whose packet is filler, is stray, or finds no entry (R10, R11): it is
counted, stray ones as stray too, and goes no further. The packet is the unit with its error flag set where its adaptation
area does not fit (R179). A good-sync unit on HL-in in sync is sorted by its stream number (Table 1-2): order packets go to the
management unit, which discards them while STARTING (R167), buffers them, or counts an overrun (R169), and an errored one is
counted and discarded; filler is counted; a packet outside 0x1000..0x11FF is counted and stray, and a playback packet that finds
no entry is counted. An order packet whose order list ends where it begins does not wait in the buffer (log 18), so the buffered
case is a packet with an order. -/
def Obligations.PacketsAreSorted : Prop :=
  (∀ (p : PortNo) (unit : List Byte) (s : State) (x : SyncRec) (q : List Byte) (n : Nat) (r : PortStats),
    getAt s.intake.sync (inputOf p) = x → x.state = .up → s.forming (inputOf p) = none → goodSync unit = true →
    q = asTaken unit → n = streamNumber q →
    r = getAt s.intake.stats (inputOf p) → 0x1FF0 ≤ n ∨ findEntry (inputOf p) n s = none →
    exec (.unitTaken p (marked unit)) s =
      .next { s with
        intake :=
          { s.intake with
            sync := setAt s.intake.sync (inputOf p) { x with badRun := 0 }
            stats := setAt s.intake.stats (inputOf p)
              { r with
                packets := bump top32 r.packets
                errored := if errorFlag q then bump top32 r.errored else r.errored
                stray := if 0x1FF0 ≤ n ∧ n ≠ 0x1FFF then bump top32 r.stray else r.stray } } }) ∧
  ∀ (unit : List Byte) (s : State) (x : SyncRec) (q : List Byte) (n : Nat) (r : PortStats) (u : Vector SyncRec 5),
    getAt s.intake.sync pb = x → x.state = .up → s.forming pb = none → goodSync unit = true → q = asTaken unit →
    n = streamNumber q → r = getAt s.intake.stats pb → u = setAt s.intake.sync pb { x with badRun := 0 } →
    (n = 0x1FF0 → errorFlag q = true →
      exec (.hlInUnitTaken (marked unit)) s =
        .next { s with intake :=
          { s.intake with
            sync := u, stats := setAt s.intake.stats pb { r with errored := bump top32 r.errored } } }) ∧
    (n = 0x1FF0 → errorFlag q = false → s.mgmt.ready = false →
      exec (.hlInUnitTaken (marked unit)) s = .next { s with intake := { s.intake with sync := u } }) ∧
    (n = 0x1FF0 → errorFlag q = false → s.mgmt.ready = true → 4 ≤ s.mgmt.buffer.length →
      exec (.hlInUnitTaken (marked unit)) s =
        .next { s with
          intake := { s.intake with sync := u }
          mgmt := { s.mgmt with overrun := bump top32 s.mgmt.overrun } }) ∧
    (n = 0x1FF0 → errorFlag q = false → s.mgmt.ready = true → s.mgmt.buffer.length < 4 →
      (∀ y ∈ s.mgmt.buffer, y.listEnded = false) → byteAt (payload q) 0 ≠ 0 →
      exec (.hlInUnitTaken (marked unit)) s =
        .next { s with
          intake := { s.intake with sync := u }
          mgmt := { s.mgmt with buffer := s.mgmt.buffer ++ [⟨payload q, 0⟩] } }) ∧
    (n ≠ 0x1FF0 → n < 0x1000 ∨ 0x11FF < n ∨ findEntry pb n s = none →
      exec (.hlInUnitTaken (marked unit)) s =
        .next { s with intake :=
          { s.intake with
            sync := u
            stats := setAt s.intake.stats pb
              { r with
                packets := bump top32 r.packets
                errored := if errorFlag q then bump top32 r.errored else r.errored
                stray := if n = 0x1FFF ∨ 0x1000 ≤ n ∧ n ≤ 0x11FF then r.stray else bump top32 r.stray } } })

/-! ### Continuity -/

/-- The continuity check (R12) of a packet without error flag that finds its entry `e`: what becomes of the entry's last
count, duplicate mark and gap count and of the input's gaps count in each case, and whether the packet goes on to the
hand-off of R14. -/
def Obligations.ContinuityCheck : Prop :=
  ∀ (i : Input) (unit : List Byte) (s : State) (e : Entry) (q : List Byte) (n k : Nat) (u : State)
    (record : (Entry → Entry) → State),
    (getAt s.intake.sync i).state = .up → s.forming i = none → goodSync unit = true → q = asTaken unit →
    n = streamNumber q → k = continuityCount q → lookedUp i n → findEntry i n s = some e → errorFlag q = false →
    u = s.counted i q →
    record = (fun f => { u with table := updateFirst (isAt i n) f u.table }) →
    (payloadPresent q = false → exec (takenOn i (marked unit)) s = .next (handOff i e q s.time.counter u)) ∧
    (payloadPresent q = true → e.lastCount = none →
      exec (takenOn i (marked unit)) s =
        .next (handOff i e q s.time.counter (record fun e => { e with lastCount := some k, duplicate := false }))) ∧
    (∀ last : Nat, payloadPresent q = true → e.lastCount = some last → k = (last + 1) % 16 →
      exec (takenOn i (marked unit)) s =
        .next (handOff i e q s.time.counter (record fun e => { e with lastCount := some k, duplicate := false }))) ∧
    (payloadPresent q = true → e.lastCount = some k → e.duplicate = false →
      exec (takenOn i (marked unit)) s = .next (record fun e => { e with duplicate := true })) ∧
    (∀ (last : Nat) (g : State), payloadPresent q = true → e.lastCount = some last → k ≠ (last + 1) % 16 →
      k ≠ last ∨ e.duplicate = true →
      g = countPort i (fun r => { r with gaps := bump top32 r.gaps })
        (record fun e => { e with lastCount := some k, duplicate := false, gaps := bump top16 e.gaps }) →
      exec (takenOn i (marked unit)) s =
        .next (handOff i e q s.time.counter
          (match e.role with
            | .component => g
            | .sections => abandon i n g)))

/-- A packet with its error flag set that finds an entry (R13): a COMPONENT packet is handed on without a continuity check;
on a SECTIONS entry the assembly is abandoned, the last count becomes absent and the packet is only offered raw to captures.
The hand-off (R14). A packet of a COMPONENT entry that carries payload is classified once for each slot of the contexts it is
shown to, in ascending number, and then once for each of them without a slot (the order is log 11, the count of slotless
contexts log 37); then, as without payload, it is shown to each context under its first component index, in ascending context
number (log 10). Of a SECTIONS entry the payload goes to the section engine, and then (log 26) the packet is offered raw, as
slot 0 for MAP and slot 1 for KEYS, to the tags of the RUNNING contexts that hold them, to a context that holds both first as
slot 0 and then as slot 1 (log 46). -/
def Obligations.PacketsAreHandedOn : Prop :=
  (∀ (i : Input) (unit : List Byte) (s : State) (e : Entry) (q : List Byte) (n : Nat) (u : State),
    (getAt s.intake.sync i).state = .up → s.forming i = none → goodSync unit = true → q = asTaken unit →
    n = streamNumber q → lookedUp i n → findEntry i n s = some e → errorFlag q = true → u = s.counted i q →
    (e.role = .component → exec (takenOn i (marked unit)) s = .next (handOff i e q s.time.counter u)) ∧
    (e.role = .sections →
      exec (takenOn i (marked unit)) s =
        .next (offerRaw e q
          (modifyEntry i n (fun e => { e with lastCount := none }) (abandon i n u))))) ∧
  (∀ (i : Input) (e : Entry) (q : List Byte) (arrival : BitVec 32) (s : State) (shown : List (CtxNo × Fin 8))
      (show1 : State → CtxNo × Fin 8 → State),
    shown = e.users.filterMap (fun u =>
      (u.purposes.findSome? (fun p => match p with
        | .component k => some k
        | .map => none
        | .keys _ => none)).map (fun k => (u.ctx, k))) →
    show1 = (fun s u => takeComponent q arrival u.1 u.2 s) →
    (e.role = .component → payloadPresent q = false → handOff i e q arrival s = shown.foldl show1 s) ∧
    (∀ slots : List SlotNo, e.role = .component → payloadPresent q = true → slots.Pairwise (· < ·) →
      (∀ k, k ∈ slots ↔ ∃ u ∈ shown, (s.context u.1).slot = some k) →
      handOff i e q arrival s =
        shown.foldl show1
          ((shown.filter (fun u => (s.context u.1).slot.isNone)).foldl (fun s _ => classifySlotless i q s)
            (slots.foldl (fun s k => classifySlot i q k s) s))) ∧
    (e.role = .sections → payloadPresent q = false → handOff i e q arrival s = offerRaw e q s) ∧
    (e.role = .sections → payloadPresent q = true →
      handOff i e q arrival s = offerRaw e q (handPayload i e.stream (startFlag q) (payload q) s))) ∧
  ∀ (e : Entry) (q : List Byte) (s : State) (raw : CtxNo → Nat → State → State),
    raw = (fun c slot s =>
      if (s.context c).state = .running then tagNos.foldl (fun s t => admitTag c slot q t s) s else s) →
    offerRaw e q s =
      e.users.foldl
        (fun s u =>
          let v := if .map ∈ u.purposes then raw u.ctx 0 s else s
          if ∃ k, .keys k ∈ u.purposes then raw u.ctx 1 v else v) s

/-! ### Clock, expiry and deadlines -/

/-- UPTIME_SECOND (R42, R47, R138, R141): time moves on to the second (log 2), uptime rises by 1 and stays at its top (log
19), lockout ends at or below it become absent, MINUTES grants at or below it end (the order is log 12, that of their notices
log 47); then, while the clock is SET and N is below its top, N rises by 1, the pending change is tested (R48), the minute of
week is computed (R50) and the time update is announced (R49). Of everything that stands, only time, uptime and the lockout
ends change, whatever the announcements reach: links, sync, sources, settings, fuses, home network, the profiles' other
fields and pacing stay. -/
def Obligations.UptimeSecond : Prop :=
  (∀ (s u : State),
    u = endGrantsAndJudge
      (fun g => match g.scope with
        | .minutes e => decide (e ≤ bump top32 s.clock.uptime)
        | .event _ => false) .minutes
      { s with
        time := (advanceTo ((s.clock.uptime + 1) * cyclesPerSecond) s).time
        clock := { s.clock with uptime := bump top32 s.clock.uptime }
        parental := { s.parental with profiles := s.parental.profiles.map fun p =>
          { p with lockoutEnd := p.lockoutEnd.filter (fun e => decide (bump top32 s.clock.uptime < e)) } } } →
    (s.clock.net = none → exec .uptimeSecond s = .next u) ∧
    (∀ (n : Nat) (l : Int), s.clock.net = some ⟨n, l⟩ → top32 ≤ n → exec .uptimeSecond s = .next u) ∧
    (∀ (n : Nat) (l : Int), s.clock.net = some ⟨n, l⟩ → n < top32 →
      (∀ c, s.clock.change = some c → n + 1 < c.n2) →
      exec .uptimeSecond s =
        .next (announceTime s.clock.minute
          { u with clock :=
            { u.clock with net := some ⟨n + 1, l⟩, minute := some (minuteOfWeek (n + 1) l) } })) ∧
    (∀ (n : Nat) (l : Int) (c : OffsetChange), s.clock.net = some ⟨n, l⟩ → n < top32 → s.clock.change = some c →
      c.n2 ≤ n + 1 →
      exec .uptimeSecond s =
        .next (announceTime s.clock.minute
          { u with clock :=
            { u.clock with
              net := some ⟨n + 1, c.l2⟩, change := none, minute := some (minuteOfWeek (n + 1) c.l2) } }))) ∧
  (∀ s : State, ∃ t : State, exec .uptimeSecond s = .next t ∧ t.pending = s.pending ∧ t.mgmt = s.mgmt ∧
    t.standing =
      { s.standing with
        time := (advanceTo ((s.clock.uptime + 1) * cyclesPerSecond) s).time
        uptime := bump top32 s.clock.uptime
        profiles := s.parental.profiles.map fun p =>
          { p with lockoutEnd := p.lockoutEnd.filter (fun e => decide (bump top32 s.clock.uptime < e)) } })

/-- A time update is announced (R49) in this order: events whose end N has reached leave the store (R62), each tracked
service is judged, in the order their tracking began (log 43), entitlement records whose expiry N has reached are lost (R75),
and a minute event follows (R50); the order is log 12. The current event of a service is the stored event whose interval
contains N (R63). A service is tracked from its first RUNNING tuner context, with the current event at that moment, to its
last. When the current event of a tracked service is judged and its id differs from the recorded one, the new id is recorded,
an EVENT notice is sent, ENTITLEMENT is judged for the RUNNING contexts on the service, the grants that the change outlives
end with cause EVENT, the oldest first (R141, log 47), and the verdicts of those contexts, and of the outputs that lost a
grant, are computed again (R136). A change of content is reported in the same way without the EVENT notice and without an end
of grants; nothing else happens. -/
def Obligations.CurrentEventsAreJudged : Prop :=
  (∀ (old : Option Nat) (s v : State) (n : Nat) (l : Int), s.clock.net = some ⟨n, l⟩ →
    v = (s.guide.tracked.map Tracked.service).foldl (fun s service => judgeService false service s)
      { s with guide := { s.guide with events := s.guide.events.filter (fun e => decide (n < e.stop)) } } →
    ∃ w : State,
      TiersLost (fun r => match r.expiry with
        | some e => decide (e ≤ n)
        | none => false) v w ∧
      announceTime old s = minuteEvent old w) ∧
  (∀ s : State,
    judgeTracked s = (s.guide.tracked.map Tracked.service).foldl (fun s service => judgeService false service s) s) ∧
  (∀ (s : State) (service : Nat),
    (s.clock.net = none → currentEvent s service = none) ∧
    ∀ (n : Nat) (l : Int), s.clock.net = some ⟨n, l⟩ →
      (∀ e, currentEvent s service = some e →
        e ∈ s.guide.events ∧ e.service = service ∧ e.start ≤ n ∧ n < e.start + 60 * e.duration) ∧
      (currentEvent s service = none →
        ∀ e ∈ s.guide.events, e.service = service → n < e.start ∨ e.start + 60 * e.duration ≤ n)) ∧
  (∀ (s : State) (service : Nat),
    ((∃ t ∈ s.guide.tracked, t.service = service) → startTracking service s = s) ∧
    ((∀ t ∈ s.guide.tracked, t.service ≠ service) →
      startTracking service s =
        { s with guide :=
          { s.guide with tracked := s.guide.tracked ++ [⟨service, (currentEvent s service).map Event.id⟩] } }) ∧
    ((∃ c, (s.context c).input ≠ pb ∧ (s.context c).service = service ∧ (s.context c).state = .running) →
      endTracking service s = s) ∧
    ((∀ c, ¬((s.context c).input ≠ pb ∧ (s.context c).service = service ∧ (s.context c).state = .running)) →
      endTracking service s =
        { s with guide := { s.guide with tracked := s.guide.tracked.filter (fun t => t.service != service) } })) ∧
  ∀ (content : Bool) (service : Nat) (s : State) (on : CtxNo → Prop),
    on = (fun c => (s.context c).input ≠ pb ∧ (s.context c).service = service ∧ (s.context c).state = .running) →
    ((∀ t ∈ s.guide.tracked, t.service ≠ service) → judgeService content service s = s) ∧
    ∀ (t : Tracked) (new : Option Nat), s.guide.tracked.find? (fun t => t.service == service) = some t →
      new = (currentEvent s service).map Event.id →
      (new = t.id → content = false → judgeService content service s = s) ∧
      (new = t.id → content = true →
        HoldsOnly s (judgeService content service s) ∧
          JudgedOn (judgeService content service s) judgeEntitlement on ∧
          VerdictsOn (judgeService content service s) (fun c _ => on c)) ∧
      ∀ ended : Grant → Bool, new ≠ t.id →
        (∀ g, ended g = true ↔ g.key = .tuner service ∧ ∃ id, g.scope = .event (some id) ∧ new ≠ some id) →
        ∃ v : State,
          HoldsOnly
            { s with
              guide :=
                { s.guide with
                  tracked := s.guide.tracked.map (fun r => if r.service = service then ⟨service, new⟩ else r) }
              notices := s.notices.join (.event service t.id new) } v ∧
          JudgedOn v judgeEntitlement on ∧
          HoldsOnly
            { v with
              parental := { v.parental with grants := v.parental.grants.filter (fun g => !ended g) }
              notices := v.notices.joinAll
                ((v.parental.grants.filter ended).map (fun g => .grantEnd g.output g.key g.profile .event)) }
            (judgeService content service s) ∧
          VerdictsOn (judgeService content service s)
            (fun c o => on c ∨ ∃ g ∈ s.parental.grants, ended g = true ∧ g.output = o)

/-- EXPIRY (R75, R76): while the clock is UNSET nothing happens; else every record whose expiry is at or below N is removed,
the slots of the lost tiers lose their keys and become LAPSED, their conditions are reported to their users, which judges
ENTITLEMENT and KEY_LAPSE on the users' destinations and lets those in KEY whose slot opens enter ENTRY (R85), and
ENTITLEMENT is judged on every destination; hold sets, the stage of contexts in KEY and HOLD notices change, and nothing
more. -/
def Obligations.ExpiryRemovesRecords : Prop :=
  ∀ s : State,
    (s.clock.net = none → exec .expiry s = .next s) ∧
    (∀ (n : Nat) (l : Int) (gone : Entitlement → Bool), s.clock.net = some ⟨n, l⟩ →
      gone = (fun r => match r.expiry with
        | some e => decide (e ≤ n)
        | none => false) →
      ∃ t : State, exec .expiry s = .next t ∧ TiersLost gone s t)

/-- LOCKOUT_END: each lockout end that is present and at or below uptime becomes absent, and no notice is sent (R138).
GRANT_MINUTES_END: each MINUTES grant whose end is at or below uptime is removed with a GRANT_END notice, then both pairs of
its output are computed again (R141): beside the grant list only hold sets change, and only HOLD notices follow. The
GRANT_END notices stand in the order of the list, before the HOLD notices (log 47). -/
def Obligations.LockoutsAndMinuteGrantsEnd : Prop :=
  (∀ s : State,
    exec .lockoutEnd s =
      .next { s with
        parental := { s.parental with
          profiles := s.parental.profiles.map fun p =>
            { p with lockoutEnd := match p.lockoutEnd with
              | some e => if e ≤ s.clock.uptime then none else some e
              | none => none } } }) ∧
  (∀ (s : State) (ended : Grant → Bool),
    ended = (fun g => match g.scope with
      | .minutes e => decide (e ≤ s.clock.uptime)
      | .event _ => false) →
    ∃ t : State, exec .grantMinutesEnd s = .next t ∧
      HoldsOnly
        { s with
          parental := { s.parental with grants := s.parental.grants.filter (fun g => !ended g) }
          notices := s.notices.joinAll
            ((s.parental.grants.filter ended).map (fun g => .grantEnd g.output g.key g.profile .minutes)) }
        t ∧
      (∀ (o : OutputNo) (b : Binding), (∃ g ∈ s.parental.grants, ended g = true ∧ g.output = o) →
        (t.binding o).current = some b → b.hold.parental = verdict t b.ctx o) ∧
      ∀ (o : OutputNo) (b : PendingBinding), (∃ g ∈ s.parental.grants, ended g = true ∧ g.output = o) →
        (t.binding o).pending = some b → b.hold.parental = verdict t b.ctx o)

/-- Time moves on to the deadline (log 2). WAIT_DEADLINE (R109): while the context of an output's pending binding is RUNNING, the
binding becomes absent and TUNE_FAILED is sent with NO_ENTRY; while the context that a tag is BOUND to and not started for is
RUNNING, the tag becomes IDLE with the same notice. The context keeps its other destinations, and with none left it retires
(R114). Otherwise the command has no effect (log 34). ACQUISITION_DEADLINE (R110, R111): a context in acquisition with a deadline
fails with the reason of its stage: its last failure is recorded, each output pending on it and each tag BOUND to it is freed with
a TUNE_FAILED notice, outputs 0 and 1 before tags 0 to 7 (log 41), and it retires. A context that is not in acquisition is left as
it is (log 34). -/
def Obligations.DeadlinesAreReached : Prop :=
  ((∀ (o : OutputNo) (s : State),
    ((∀ b, (s.binding o).pending = some b → (s.context b.ctx).state ≠ .running) →
      exec (.waitDeadline (.output o)) s = .next s) ∧
    (∀ (b : PendingBinding) (x : Context) (u : State), (s.binding o).pending = some b → x = s.context b.ctx →
      x.state = .running →
      u =
        { s with
          time := (advanceTo (b.wait * cyclesPerMs) s).time
          ctl := { s.ctl with outputs := setAt s.ctl.outputs o { s.binding o with pending := none } }
          notices := s.notices.join (.tuneFailed (.output o) b.ctx x.input x.service .noEntry) } →
      (hasDestination u b.ctx = true → exec (.waitDeadline (.output o)) s = .next u) ∧
      (hasDestination u b.ctx = false → exec (.waitDeadline (.output o)) s = .next (retire b.ctx u)))) ∧
  (∀ (k : TagNo) (s : State),
    ((∀ c w h, s.tag k = .bound c (some w) h → (s.context c).state ≠ .running) →
      exec (.waitDeadline (.tag k)) s = .next s) ∧
    (∀ (c : CtxNo) (w : Nat) (h : HoldSet) (x : Context) (u : State), s.tag k = .bound c (some w) h → x = s.context c →
      x.state = .running →
      u =
        { s with
          time := (advanceTo (w * cyclesPerMs) s).time
          ctl := { s.ctl with tags := setAt s.ctl.tags k .idle }
          notices := s.notices.join (.tuneFailed (.tag k) c x.input x.service .noEntry) } →
      (hasDestination u c = true → exec (.waitDeadline (.tag k)) s = .next u) ∧
      (hasDestination u c = false → exec (.waitDeadline (.tag k)) s = .next (retire c u))))) ∧
  (∀ (c : CtxNo) (s : State),
    ((s.context c).state = .free ∨ (s.context c).state = .running ∨ (s.context c).state = .retiring ∨
        (s.context c).deadline = none → exec (.acquisitionDeadline c) s = .next s) ∧
    (∀ (d : Nat) (reason : FailReason) (x : Context), x = s.context c → x.deadline = some d →
      (x.state, reason) ∈ [(CtxState.locate, FailReason.noIndex), (.map, .noMap), (.key, .noKey), (.entry, .noEntry)] →
      exec (.acquisitionDeadline c) s =
        .next (retire c
          { s with
            time := (advanceTo (d * cyclesPerMs) s).time
            ctl :=
              { s.ctl with
                contexts := setAt s.ctl.contexts c { x with lastFailure := some reason }
                outputs := s.ctl.outputs.map (fun b =>
                  if b.pending.any (fun p => p.ctx == c) then { b with pending := none } else b)
                tags := s.ctl.tags.map (fun r =>
                  match r with
                  | .bound c' w h => if c' = c then .idle else .bound c' w h
                  | .idle => .idle
                  | .draining c' => .draining c') }
            notices := s.notices.joinAll
              ((outputNos.filter (fun o => (s.binding o).pending.any (fun p => p.ctx == c))).map
                  (fun o => .tuneFailed (.output o) c x.input x.service reason) ++
                (tagNos.filter (fun k => (s.tag k).boundTo c)).map
                  (fun k => .tuneFailed (.tag k) c x.input x.service reason)) })))

/-- A context that loses its last destination (R114). FREE and RETIRING contexts stay as they are. Any other leaves every
stream table entry, is told to the guide store where it was a RUNNING tuner context, and is RETIRING without a deadline;
where its drain count is 0 it is freed at once: it leaves its slot, the tags DRAINING from it become IDLE with TAG_FREE
notices, tag 0 first (log 41), and it is FREE with its last failure kept (R99) and the defaults of log 32 in its other
fields. A departure lowers the drain count by 1 (R161), and one that brings it to 0 frees a RETIRING context in the same way.
-/
def Obligations.ContextsRetireAndAreFreed : Prop :=
  (∀ (c : CtxNo) (s : State) (x : Context) (u : State), x = s.context c →
    u = (if x.state = .running ∧ x.input ≠ pb then
          endTracking x.service ((removeContext c s).setContext c { x with state := .retiring, deadline := none })
        else (removeContext c s).setContext c { x with state := .retiring, deadline := none }) →
    (x.state = .free ∨ x.state = .retiring → retire c s = s) ∧
    (x.state ≠ .free → x.state ≠ .retiring → x.drain ≠ 0 → retire c s = u) ∧
    (x.state ≠ .free → x.state ≠ .retiring → x.drain = 0 →
      retire c s =
        { u with
          access := { u.access with
            slots := match x.slot with
              | some k => (leaveSlot c k u).access.slots
              | none => u.access.slots }
          ctl :=
            { u.ctl with
              contexts := setAt u.ctl.contexts c { Context.empty with lastFailure := x.lastFailure }
              tags := u.ctl.tags.map (fun r =>
                match r with
                | .draining c' => if c' = c then .idle else .draining c'
                | .idle => .idle
                | .bound c' w h => .bound c' w h) }
          notices := u.notices.joinAll
            ((tagNos.filter (fun k => (u.tag k).drainingFrom c)).map (fun k => .tagFree k)) })) ∧
  (∀ (c : CtxNo) (s : State) (x : Context), x = s.context c →
    (x.state ≠ .retiring ∨ 2 ≤ x.drain →
      lowerDrain c s =
        { s with ctl := { s.ctl with contexts := setAt s.ctl.contexts c { x with drain := x.drain - 1 } } }) ∧
    (x.state = .retiring → x.drain ≤ 1 →
      lowerDrain c s =
        { s with
          access := { s.access with
            slots := match x.slot with
              | some k => (leaveSlot c k s).access.slots
              | none => s.access.slots }
          ctl :=
            { s.ctl with
              contexts := setAt s.ctl.contexts c { Context.empty with lastFailure := x.lastFailure }
              tags := s.ctl.tags.map (fun r =>
                match r with
                | .draining c' => if c' = c then .idle else .draining c'
                | .idle => .idle
                | .bound c' w h => .bound c' w h) }
          notices := s.notices.joinAll
            ((tagNos.filter (fun k => (s.tag k).drainingFrom c)).map (fun k => .tagFree k)) }))

/-! ### Presentation outputs and HL-out -/

/-- PO_SEND_OPPORTUNITY (R154, R155): time moves on to the output's next opportunity (log 2), the pacing goes one on, and one
packet is sent: the marker when its ahead count is 0; else the head of the queue, its stamp treated by `stampResult`, with
the ahead count, the counts and the context's drain count; else filler; the start and error flags of markers and filler are
free (log 8). A departing packet's clock stamp (R156, R157): an extension below 300 gives E′ = (E + t) mod 300 and B′ = (B +
floor((E + t) ÷ 300)) mod 2^33, and the packet that is sent carries B′ and E′ and differs in the stamp's six bytes only; an
extension of 300 or more is a fault, and a packet without a stamp has none. -/
def Obligations.PresentationOpportunity : Prop :=
  (∀ (o : OutputNo) (s : State) (x : Output) (tm : TimeBase), x = s.output o →
    tm = (advanceTo (x.paceStart + (x.paceIndex + 1) * cyclesPerSecond / x.rate) s).time →
    (∀ m, x.marker = some m → m.ahead = 0 →
      exec (.poSendOpportunity o) s =
        .next { s with
          time := tm
          out :=
            { s.out with
              outputs := setAt s.out.outputs o
                { x with
                  paceIndex := x.paceIndex + 1, marker := none, markerCount := (x.markerCount + 1) % 16,
                  markersSent := bump top32 x.markersSent } }
          link :=
            { s.link with po := setAt s.link.po o (some (ownPacket 0x1FF8 x.markerCount (markerPayload m))) } }) ∧
    ((∀ m, x.marker = some m → m.ahead ≠ 0) → x.queue = [] →
      exec (.poSendOpportunity o) s =
        .next { s with
          time := tm
          out :=
            { s.out with
              outputs := setAt s.out.outputs o
                { x with paceIndex := x.paceIndex + 1, fillerSent := bump top32 x.fillerSent } }
          link := { s.link with po := setAt s.link.po o (some fillerPacket) } }) ∧
    (∀ (q : QueuedPacket) (rest : List QueuedPacket) (r : StampResult) (p : List Byte),
      (∀ m, x.marker = some m → m.ahead ≠ 0) → x.queue = q :: rest →
      r = stampResult q.packet (tm.counter - q.arrival).toNat →
      p = (match r with
        | .corrected b e => withStamp q.packet b e
        | .none => q.packet
        | .fault => q.packet) →
      exec (.poSendOpportunity o) s =
        .next (lowerDrain q.ctx { s with
          time := tm
          out :=
            { s.out with
              outputs := setAt s.out.outputs o
                { x with
                  paceIndex := x.paceIndex + 1
                  queue := rest
                  marker := x.marker.map (fun m => { m with ahead := m.ahead - 1 })
                  packetsSent := bump top32 x.packetsSent
                  stampsCorrected := match r with
                    | .corrected _ _ => bump top32 x.stampsCorrected
                    | .none => x.stampsCorrected
                    | .fault => x.stampsCorrected
                  stampFaults := match r with
                    | .fault => bump top32 x.stampFaults
                    | .none => x.stampFaults
                    | .corrected _ _ => x.stampFaults } }
          link := { s.link with po := setAt s.link.po o (some (asSent p)) } }))) ∧
  (∀ (p : List Byte) (t : Nat), p.length = 188 →
    (clockStamp p = none → stampResult p t = .none) ∧
    (∀ b e : Nat, clockStamp p = some (b, e) → 300 ≤ e → stampResult p t = .fault) ∧
    (∀ b e : Nat, clockStamp p = some (b, e) → e < 300 →
      ∃ b' e' : Nat, stampResult p t = .corrected b' e' ∧ e' = (e + t) % 300 ∧ b' = (b + (e + t) / 300) % 2 ^ 33 ∧
        clockStamp (withStamp p b' e') = some (b', e') ∧ (withStamp p b' e').length = 188 ∧
        ∀ i : Nat, i < 6 ∨ 12 ≤ i → (withStamp p b' e').getD i 0 = p.getD i 0))

/-- HL_OUT_OPPORTUNITY sends the head answer, else the head notice with the missed flag, which it clears (R162, R173); before
the unit is READY only the READY notice goes (log 16), and sending it makes the unit READY (R168). Own packets carry the
continuity count of their stream, which goes one on modulo 16 (R180); their start and error flags are free (log 8), and bits
1 to 7 of the flags byte of their payload are 0 (log 51). -/
def Obligations.AnswersAndNoticesAreSent : Prop :=
  ∀ s : State,
    (∀ (a : Answer) (rest : List Answer), s.mgmt.answers = a :: rest →
      exec .hlOutOpportunity s =
        .next { s with
          mgmt := { s.mgmt with answers := rest }
          out := { s.out with sent := { s.out.sent with answers := bump top32 s.out.sent.answers } }
          link :=
            { s.link with
              answerCount := (s.link.answerCount + 1) % 16
              hlOut := some (ownPacket 0x1FF1 s.link.answerCount (answerPayload a)) } }) ∧
    (∀ (n : Notice) (rest : List Notice), s.mgmt.answers = [] → s.notices.queue = n :: rest →
      s.mgmt.ready = true ∨ n.isReady = true →
      exec .hlOutOpportunity s =
        .next { s with
          mgmt := { s.mgmt with ready := true }
          notices := { queue := rest, missed := false }
          out := { s.out with sent := { s.out.sent with notices := bump top32 s.out.sent.notices } }
          link :=
            { s.link with
              noticeCount := (s.link.noticeCount + 1) % 16
              hlOut := some (ownPacket 0x1FF2 s.link.noticeCount (noticePayload n s.notices.missed)) } })

/-- HL_OUT_OPPORTUNITY with no answer to send and no notice that may go (before the unit is READY only READY may, log 16)
(R160, R162, R163, R36, R37, R188): capture or delivery sends where one of them waits; where both wait, delivery sends when
the capture run count is 3, else capture; filler goes where neither waits. The head section's next packet carries its
delivery number; the start and error flags of delivery packets and filler are free (log 8); with its last packet the section
leaves the queue, its blocks are freed, and an empty queue is waiting again. DELIVERY_TIMEOUT: a waiting queue whose oldest
section has waited the delivery timeout since it joined becomes released (R36); the timeout counts in reference cycles (log
25), and time moves on to that moment (log 2). On an empty or a released queue the command has no effect (log 34). -/
def Obligations.CaptureAndDeliveryAreSent : Prop :=
  (∀ s : State, s.mgmt.answers = [] →
    (∀ (n : Notice) (rest : List Notice), s.notices.queue = n :: rest → s.mgmt.ready = false ∧ n.isReady = false) →
    (s.out.capture = [] → s.sections.released = false ∨ s.sections.queue = [] →
      exec .hlOutOpportunity s =
        .next { s with
          out := { s.out with sent := { s.out.sent with filler := bump top32 s.out.sent.filler } }
          link := { s.link with hlOut := some fillerPacket } }) ∧
    (∀ (q : CapturePacket) (rest : List CapturePacket) (r : CaptureRec), s.out.capture = q :: rest →
      s.sections.released = false ∨ s.sections.queue = [] ∨ s.out.run < 3 → r = getAt s.out.records q.tag →
      exec .hlOutOpportunity s =
        .next (lowerDrain q.ctx { s with
          out :=
            { s.out with
              capture := rest
              captureCount := setAt s.out.captureCount q.ctx (getAt s.out.captureCount q.ctx - 1)
              records := setAt s.out.records q.tag { r with sent := bump top32 r.sent }
              sent := { s.out.sent with capture := bump top32 s.out.sent.capture }
              run := if s.out.run < 3 then s.out.run + 1 else s.out.run }
          link := { s.link with hlOut := some (asSent q.packet) } })) ∧
    (∀ (d : Delivery) (rest : List Delivery) (k : Nat), s.sections.released = true → s.sections.queue = d :: rest →
      s.out.capture = [] ∨ 3 ≤ s.out.run → k = d.number.getD s.sections.nextNumber →
      ∃ t : State, exec .hlOutOpportunity s = .next t ∧
        t.sections.nextNumber =
          (if d.number.isSome then s.sections.nextNumber else (s.sections.nextNumber + 1) % 256) ∧
        ((d.bytes.length + 175) / 176 ≤ d.sentPackets + 1 →
          t.sections.queue = rest ∧ t.sections.freeBlocks = s.sections.freeBlocks + d.blocks ∧
          t.sections.released = !rest.isEmpty) ∧
        (d.sentPackets + 1 < (d.bytes.length + 175) / 176 →
          t.sections.queue = { d with number := some k, sentPackets := d.sentPackets + 1 } :: rest ∧
          t.sections.freeBlocks = s.sections.freeBlocks ∧ t.sections.released = true) ∧
        t = { s with
          sections :=
            { s.sections with
              queue := t.sections.queue, nextNumber := t.sections.nextNumber, freeBlocks := t.sections.freeBlocks,
              released := t.sections.released }
          out := { s.out with sent := { s.out.sent with delivery := bump top32 s.out.sent.delivery }, run := 0 }
          link :=
            { s.link with
              deliveryCount := (s.link.deliveryCount + 1) % 16
              hlOut := some (ownPacket 0x1FF3 s.link.deliveryCount (deliveryPayload d k)) } })) ∧
  ∀ s : State,
    (s.sections.queue = [] ∨ s.sections.released = true → exec .deliveryTimeout s = .next s) ∧
    ∀ (d : Delivery) (rest : List Delivery), s.sections.queue = d :: rest → s.sections.released = false →
      exec .deliveryTimeout s =
        .next { s with
          time := (advanceTo (d.joined + s.sections.timeout * cyclesPerMs) s).time
          sections := { s.sections with released := true } }

/-! ### Orders: decoding -/

/-- DECODE_ORDER (R170, R171, R176): nothing while the unit is STARTING or a RESTART waits. Else packets at the head whose
list has ended leave; an order waits while the answer queue is full; with room the next order is handed on as its own
command would be, or the unit answers MALFORMED, UNKNOWN_ORDER or BAD_PARAM for it, and a list that runs over its packet is
answered MALFORMED and leaves with its packet. Ended packets leave again afterwards (log 18), unless a RESTART was decoded. -/
def Obligations.OrdersAreDecoded : Prop :=
  ∀ s : State,
    (s.mgmt.ready = false ∨ s.mgmt.restarting = true → exec .decodeOrder s = .next s) ∧
    (s.mgmt.ready = true → s.mgmt.restarting = false → dropEnded s.mgmt.buffer = [] →
      exec .decodeOrder s = .next (s.setBuffer [])) ∧
    (∀ (p : OrderPacket) (rest : List OrderPacket), s.mgmt.ready = true → s.mgmt.restarting = false →
      dropEnded s.mgmt.buffer = p :: rest →
      (16 ≤ s.mgmt.answers.length → exec .decodeOrder s = .next (s.setBuffer (p :: rest))) ∧
      (∀ code tag : Byte, s.mgmt.answers.length < 16 →
        frameOrder p.rest = .headerOverrun code tag ∨ frameOrder p.rest = .paramOverrun code tag →
        exec .decodeOrder s =
          .next (pushAnswer code tag (refuse .malformed) (s.setBuffer (dropEnded rest)))) ∧
      (∀ (code tag : Byte) (params : List Byte) (q : OrderPacket), s.mgmt.answers.length < 16 →
        frameOrder p.rest = .framed code tag params → q = { p with position := p.position + 4 + params.length } →
        (readOrder code tag params = .malformed →
          exec .decodeOrder s =
            .next (pushAnswer code tag (refuse .malformed) (s.setBuffer (dropEnded (q :: rest))))) ∧
        (readOrder code tag params = .unknown →
          exec .decodeOrder s =
            .next (pushAnswer code tag (refuse .unknownOrder) (s.setBuffer (dropEnded (q :: rest))))) ∧
        (readOrder code tag params = .badForm →
          exec .decodeOrder s =
            .next (pushAnswer code tag (refuse .badParam) (s.setBuffer (dropEnded (q :: rest))))) ∧
        (∀ i : Instr, readOrder code tag params = .order i →
          ∃ t : State, exec i (s.setBuffer (q :: rest)) = .next t ∧
            exec .decodeOrder s =
              .next (if t.mgmt.restarting then t else t.setBuffer (dropEnded t.mgmt.buffer)))))

/-! ### Orders: section engine and sources -/

/-- SET_FILTER and CLEAR_FILTER (R39, R40): the refusals change nothing. A filter whose pins are all granted holds its new
fields without a seen set, and leaves the entries of its old setting that the new one does not name; a refused pin takes back
the pins this order added. The additions of one order go input by input, TP0 to TP3 and then PB, and stop at the first refusal,
which is the answer (log 42). Clearing removes the pins and the filter. -/
def Obligations.FiltersAreSetAndCleared : Prop :=
  (∀ (f : FilterNo) (stream : Nat) (i : Input) (l : List Input) (s : State),
    filterInputs (some i) stream = [i] ∧
    filterInputs none stream = ([0, 1, 2, 3, 4] : List Input).filter (fun i => admissible i stream) ∧
    addFilterPins f stream [] s = (.granted, [], s) ∧
    (∀ r v, addUser i stream .sections (.pin (.filter f)) s = (r, v) →
      (r ≠ .granted → addFilterPins f stream (i :: l) s = (r, [], v)) ∧
      ∀ a added w, r = .granted → addFilterPins f stream l v = (a, added, w) →
        addFilterPins f stream (i :: l) s = (a, if holdsPin i stream (.filter f) s then added else i :: added, w)) ∧
    removeFilterPins f stream l s = l.foldl (fun s i => removePin i stream (.filter f) s) s) ∧
  ∀ (tag filter port : Byte) (stream : Word16) (pattern mask : Vector Byte 6) (options : Byte) (s : State),
    s.handsOn = true →
    (24 ≤ filter.toNat ∨ (5 ≤ port.toNat ∧ port.toNat ≠ 255) ∨
        (∀ i, filterPort port = some i → filterStreamOk i stream.toNat = false) →
      exec (.setFilter tag filter port stream pattern mask options) s =
        .next (pushAnswer 0x01 tag (refuse .badParam) s)) ∧
    (∀ (f : FilterNo) (i : Option Input) (x : Filter) (r : AddResult) (added : List Input) (u : State),
      f.val = filter.toNat → filterPort port = some i → filterStreamOk i stream.toNat = true →
      x = ⟨i, stream.toNat, pattern, mask, options.getLsbD 0, options.getLsbD 1, []⟩ →
      addFilterPins f stream.toNat (filterInputs i stream.toNat) s = (r, added, u) →
      (r = .granted → getAt s.sections.filters f = none →
        exec (.setFilter tag filter port stream pattern mask options) s =
          .next (pushAnswer 0x01 tag (done []) (u.setFilter f (some x)))) ∧
      (∀ old, r = .granted → getAt s.sections.filters f = some old →
        exec (.setFilter tag filter port stream pattern mask options) s =
          .next (pushAnswer 0x01 tag (done [])
            ((removeFilterPins f old.stream (staleInputs old x) u).setFilter f (some x)))) ∧
      (r ≠ .granted →
        exec (.setFilter tag filter port stream pattern mask options) s =
          .next (pushAnswer 0x01 tag (refuse r.outcome) (removeFilterPins f stream.toNat added u)))) ∧
    (24 ≤ filter.toNat → exec (.clearFilter tag filter) s = .next (pushAnswer 0x02 tag (refuse .badParam) s)) ∧
    (∀ f : FilterNo, f.val = filter.toNat → getAt s.sections.filters f = none →
      exec (.clearFilter tag filter) s = .next (pushAnswer 0x02 tag (refuse .notFound) s)) ∧
    (∀ (f : FilterNo) (x : Filter), f.val = filter.toNat → getAt s.sections.filters f = some x →
      exec (.clearFilter tag filter) s =
        .next (pushAnswer 0x02 tag (done [])
          ((removeFilterPins f x.stream (filterInputs x.port x.stream) s).setFilter f none)))

/-- How the stream table takes a new user (R17): an entry of the same role gains it, an entry of the other role refuses it,
and so does an entry whose KEYS purposes name another slot; a stream number that is not admissible and a full table refuse a
new entry; else a new entry with this one user joins the table. A refused addition changes nothing.
How it loses one (R18): a purpose leaves the context's record, and the record goes with its last purpose; a whole context leaves
every entry it uses; a pin consumer leaves its entry, but that INDEX stays (R19). An entry left with no context user and no pin
consumer is removed, and the blocks of its assembly are freed; every other entry stays as it is. -/
def Obligations.UsersAreAddedAndRemoved : Prop :=
  (∀ (i : Input) (stream : Nat) (role : Role) (r : UserReq) (s : State),
    (∀ e, findEntry i stream s = some e → e.role = role → e.slotConflict r = false →
      addUser i stream role r s = (.granted, { s with table := updateFirst (isAt i stream) (Entry.add r) s.table })) ∧
    (∀ e, findEntry i stream s = some e → e.role ≠ role ∨ e.slotConflict r = true →
      addUser i stream role r s = (.conflict, s)) ∧
    (findEntry i stream s = none → admissible i stream = false → addUser i stream role r s = (.inadmissible, s)) ∧
    (findEntry i stream s = none → admissible i stream = true → 192 ≤ s.table.length →
      addUser i stream role r s = (.tableFull, s)) ∧
    (findEntry i stream s = none → admissible i stream = true → s.table.length < 192 →
      addUser i stream role r s = (.granted, { s with table := s.table ++ [newEntry i stream role r] }))) ∧
  (∀ (e : Entry) (r : UserReq),
    (e.slotConflict r = true ↔ ∃ c k k', r = .ctx c (.keys k) ∧ e.keysSlot = some k' ∧ k' ≠ k) ∧
    (∀ k, e.keysSlot = some k → ∃ u ∈ e.users, .keys k ∈ u.purposes) ∧
    (e.keysSlot = none → ∀ u ∈ e.users, ∀ k, .keys k ∉ u.purposes)) ∧
  ∀ (s t : State) (hit gone : Entry → Bool) (left : Entry → Entry),
    (∃ i stream c q, t = removePurpose i stream c q s ∧ hit = (fun e => e.input == i && e.stream == stream) ∧
        left = (fun e => { e with users := e.users.filterMap (fun u =>
          if u.ctx = c then
            if u.purposes.filter (· != q) = [] then none else some ⟨c, u.purposes.filter (· != q)⟩
          else some u) })) ∨
      (∃ c, t = removeContext c s ∧ hit = (fun e => e.users.any (fun u => u.ctx == c)) ∧
        left = (fun e => { e with users := e.users.filter (fun u => u.ctx != c) })) ∨
      (∃ i stream q, t = removePin i stream q s ∧ hit = (fun e => e.input == i && e.stream == stream) ∧
        left = (fun e => { e with pins :=
          match q with
          | .index => e.pins
          | .access => { e.pins with access := false }
          | .time => { e.pins with time := false }
          | .guide => { e.pins with guide := false }
          | .filter f => { e.pins with filters := dropBit e.pins.filters f } })) →
    (∀ e, gone e = true ↔ hit e = true ∧ (left e).users = [] ∧ (left e).pins = ⟨false, false, false, false, 0⟩) →
    t =
      { s with
        table := (s.table.filter (fun e => !gone e)).map (fun e => if hit e then left e else e)
        sections := { s.sections with freeBlocks := s.sections.freeBlocks + blocksOf (s.table.filter gone) } }

/-- The three SET_SOURCE orders (R43, R54, R67): BAD_PARAM for a place other than 0 or 1, a pair out of range, and a pair the
other access place holds; DONE without change for the pair already held; else the new pair is pinned first, and the old one
loses its pin only then. Removal is always DONE. -/
def Obligations.SourcesAreSet : Prop :=
  ∀ (k : SourceKind) (tag : Byte) (s : State) (freed : State → State), s.handsOn = true →
    freed = (fun u => match k.held s with
      | some p => removePin (inputOf p.1) p.2 k.pin u
      | none => u) →
    exec (k.order tag none) s = .next (pushAnswer 0x10 tag (done []) (k.put none (freed s))) ∧
    (∀ raw : Byte × Word16, 4 ≤ raw.1.toNat ∨ 0x1FEF < raw.2.toNat →
      exec (k.order tag (some raw)) s = .next (pushAnswer 0x10 tag (refuse .badParam) s)) ∧
    (∀ (raw : Byte × Word16) (p : PortNo × Nat), p.1.val = raw.1.toNat → p.2 = raw.2.toNat → p.2 ≤ 0x1FEF →
      (k.barred s = some p → exec (k.order tag (some raw)) s = .next (pushAnswer 0x10 tag (refuse .badParam) s)) ∧
      (k.barred s ≠ some p → k.held s = some p →
        exec (k.order tag (some raw)) s = .next (pushAnswer 0x10 tag (done []) s)) ∧
      (∀ (r : AddResult) (u : State), k.barred s ≠ some p → k.held s ≠ some p →
        addUser (inputOf p.1) p.2 .sections (.pin k.pin) s = (r, u) →
        (r = .granted →
          exec (k.order tag (some raw)) s = .next (pushAnswer 0x10 tag (done []) (k.put (some p) (freed u)))) ∧
        (r = .tableFull → exec (k.order tag (some raw)) s = .next (pushAnswer 0x10 tag (refuse .tableFull) s)) ∧
        (r = .conflict → exec (k.order tag (some raw)) s = .next (pushAnswer 0x10 tag (refuse .badParam) s)))) ∧
    ∀ (place : Byte) (source : SourceParam), 2 ≤ place.toNat →
      exec (.setSourceAccess tag place source) s = .next (pushAnswer 0x10 tag (refuse .badParam) s)

/-! ### Orders: settings with a range -/

/-- SET_DELIVERY, SET_ACQUISITION_LIMIT and SET_OUTPUT_RATE (R41, R122, R164): the value brought into range takes effect and
is answered, with the adjusted mark where it differs from the one carried (the SET_DELIVERY timeout in one byte, the
acquisition limit and the rate in two, log 14); a waiting delivery queue is judged with the new values, the timeout in
reference cycles (log 25), and a new rate begins the pacing anew. Another trigger count or output is answered BAD_PARAM.
SET_HOME_NETWORK (R66): an unset home network id takes the given value; once set it stays, and the order is answered
WRITE_ONCE, even with the value held. -/
def Obligations.SettingsAreTaken : Prop :=
  (∀ (tag : Byte) (s : State), s.handsOn = true →
    (∀ (trigger : Byte) (ms : Word16), trigger.toNat ∉ [1, 4, 8, 16] →
      exec (.setDelivery tag trigger ms) s = .next (pushAnswer 0x03 tag (refuse .badParam) s)) ∧
    (∀ (trigger : Byte) (ms : Word16) (t : Nat), trigger.toNat ∈ [1, 4, 8, 16] → t = max 1 (min 100 ms.toNat) →
      exec (.setDelivery tag trigger ms) s =
        .next (pushAnswer 0x03 tag ⟨.done, decide (t ≠ ms.toNat), [trigger, BitVec.ofNat 8 t]⟩
          { s with sections :=
            { s.sections with
              trigger := trigger.toNat, timeout := t
              released :=
                match s.sections.queue with
                | [] => s.sections.released
                | d :: rest =>
                  s.sections.released ||
                    decide (trigger.toNat ≤ rest.length + 1 ∨ d.joined + t * cyclesPerMs ≤ s.time.cycles) } })) ∧
    (∀ (ms : Word16) (t : Nat), t = max 500 (min 10000 ms.toNat) / 100 * 100 →
      exec (.setAcquisitionLimit tag ms) s =
        .next (pushAnswer 0x34 tag ⟨.done, decide (t ≠ ms.toNat), enc16 t⟩
          { s with ctl := { s.ctl with limit := t } })) ∧
    (∀ (output : Byte) (rate : Word16), 2 ≤ output.toNat →
      exec (.setOutputRate tag output rate) s = .next (pushAnswer 0x50 tag (refuse .badParam) s)) ∧
    (∀ (o : OutputNo) (output : Byte) (rate : Word16) (r : Nat) (x : Output), o.val = output.toNat →
      r = max 1000 (min 60000 rate.toNat) → x = s.output o →
      (x.rate = r →
        exec (.setOutputRate tag output rate) s =
          .next (pushAnswer 0x50 tag ⟨.done, decide (r ≠ rate.toNat), enc16 r⟩ s)) ∧
      (x.rate ≠ r →
        exec (.setOutputRate tag output rate) s =
          .next (pushAnswer 0x50 tag ⟨.done, decide (r ≠ rate.toNat), enc16 r⟩
            { s with out := { s.out with
              outputs := setAt s.out.outputs o
                { x with rate := r, paceStart := s.time.cycles, paceIndex := 0 } } })))) ∧
  (∀ (tag : Byte) (network : Word16) (s : State), s.handsOn = true →
    (s.access.home = none →
      exec (.setHomeNetwork tag network) s =
        .next (pushAnswer 0x20 tag (done []) { s with access := { s.access with home := some network.toNat } })) ∧
    (∀ n : Nat, s.access.home = some n →
      exec (.setHomeNetwork tag network) s = .next (pushAnswer 0x20 tag (refuse .writeOnce) s)))

/-! ### Orders: queries and the access engine -/

/-- The query orders change nothing but the answer queue (R20, R51, R64, R80, R98, R123, R124, R175), but that QUERY_OUTPUT and
QUERY_CAPTURE clear the overflow-since-query mark of the output and the loss-since-query mark of the tag, whose answer carries
it as it stood (R165, R166). The layouts of their results are the model's where the book gives none (logs 14 and 15). -/
def Obligations.Queries : Prop :=
  (∀ (tag : Byte) (s : State), s.handsOn = true →
    exec (.queryClock tag) s = .next (pushAnswer 0x11 tag (done (clockResults s.clock)) s) ∧
    exec (.identify tag) s = .next (pushAnswer 0x60 tag (done (identifyResults s)) s) ∧
    (∀ first : Byte,
      exec (.readExceptions tag first) s =
        .next (pushAnswer 0x21 tag
          (if first.toNat ≤ 15 then done (exceptionResults first.toNat s.access) else refuse .badParam) s)) ∧
    (∀ (port : Byte) (service : Word16), 4 ≤ port.toNat →
      exec (.queryGuideService tag port service) s = .next (pushAnswer 0x12 tag (refuse .badParam) s)) ∧
    (∀ (p : PortNo) (port : Byte) (service : Word16), p.val = port.toNat →
      exec (.queryGuideService tag port service) s =
        .next (pushAnswer 0x12 tag
          (if guideKnows s p service.toNat then done (guideResults s p service.toNat) else refuse .notFound) s)) ∧
    (∀ slot : Byte, 16 ≤ slot.toNat →
      exec (.querySlotSlot tag slot) s = .next (pushAnswer 0x28 tag (refuse .badParam) s)) ∧
    (∀ (k : SlotNo) (slot : Byte), k.val = slot.toNat →
      exec (.querySlotSlot tag slot) s =
        .next (pushAnswer 0x28 tag
          (match s.slot k with
            | none => refuse .notFound
            | some x => done (slotResults s x)) s)) ∧
    (∀ input : Byte, 5 ≤ input.toNat →
      exec (.querySlotInput tag input) s = .next (pushAnswer 0x28 tag (refuse .badParam) s) ∧
      exec (.queryPort tag input) s = .next (pushAnswer 0x36 tag (refuse .badParam) s)) ∧
    (∀ (i : Input) (input : Byte), i.val = input.toNat →
      exec (.querySlotInput tag input) s = .next (pushAnswer 0x28 tag (done (slotInputResults s i)) s) ∧
      exec (.queryPort tag input) s = .next (pushAnswer 0x36 tag (done (portResults s i)) s)) ∧
    (∀ ctx : Byte, 16 ≤ ctx.toNat →
      exec (.queryContext tag ctx) s = .next (pushAnswer 0x35 tag (refuse .badParam) s)) ∧
    (∀ (c : CtxNo) (ctx : Byte) (head : List Byte), c.val = ctx.toNat →
      head = presence [(s.context c).lastFailure.isSome] ++ enc8 (s.context c).state.code ++
        encOpt 1 (fun (r : FailReason) => enc8 r.code) (s.context c).lastFailure →
      exec (.queryContext tag ctx) s =
        .next (pushAnswer 0x35 tag
          (done (if (s.context c).state = .free then head else head ++ contextResults s c (s.context c))) s)) ∧
    (∀ (port : Byte) (stream : Word16), 5 ≤ port.toNat ∨ 0x1FFF < stream.toNat →
      exec (.queryEntry tag port stream) s = .next (pushAnswer 0x37 tag (refuse .badParam) s)) ∧
    ∀ (i : Input) (port : Byte) (stream : Word16), i.val = port.toNat → stream.toNat ≤ 0x1FFF →
      exec (.queryEntry tag port stream) s =
        .next (pushAnswer 0x37 tag
          (match findEntry i stream.toNat s with
            | none => refuse .notFound
            | some e => done (entryResults e)) s)) ∧
  (∀ (tag b : Byte) (s : State), s.handsOn = true →
    (2 ≤ b.toNat → exec (.queryOutput tag b) s = .next (pushAnswer 0x51 tag (refuse .badParam) s)) ∧
    (∀ o : OutputNo, o.val = b.toNat →
      exec (.queryOutput tag b) s =
        .next (pushAnswer 0x51 tag (done (outputResults s o))
          { s with out := { s.out with
            outputs := setAt s.out.outputs o { s.output o with overflowMark := false } } })) ∧
    (8 ≤ b.toNat → exec (.queryCapture tag b) s = .next (pushAnswer 0x52 tag (refuse .badParam) s)) ∧
    (∀ t : TagNo, t.val = b.toNat →
      exec (.queryCapture tag b) s =
        .next (pushAnswer 0x52 tag (done (captureResults s t))
          { s with out := { s.out with
            records := setAt s.out.records t { getAt s.out.records t with lossMark := false } } })))

/-- The exception log (R78). An exception that has the kind, port, stream number and tier of the newest record is merged into
it: the repeat count rises to at most 255 and the rest takes the new values. Else it is appended to a log of fewer than 16
records, with an EXCEPTION notice where the log was empty (R79); a full log sets its overflow mark, with an OVERFLOW notice
where the mark was clear. A log of at most 16 records, no two consecutive ones of the same kind, port, stream number and
tier, stays such a log when an exception is logged and when records are cleared. After pin reset the log is empty and the
mark clear, and RESTART keeps both. CLEAR_EXCEPTIONS(n) (R81), n being 0..16 or ALL, which is 0xFF (Table 9-3). -/
def Obligations.ExceptionsAreLoggedAndCleared : Prop :=
  (∀ (kind : ExceptionKind) (i : Input) (stream : Nat) (tier : Option Nat) (seq : Nat) (s : State) (r : ExceptionRec)
      (same : ExceptionRec → Prop) (logged : List ExceptionRec → State),
    r =
      { kind := kind, input := i, stream := stream, tier := tier, seq := some seq, netTime := s.clock.net.map NetTime.n,
        uptime := s.clock.uptime, repeats := 1 } →
    same = (fun x => x.kind = kind ∧ x.input = i ∧ x.stream = stream ∧ x.tier = tier) →
    logged = (fun l => { s with access := { s.access with log := l } }) →
    (∀ l x, s.access.log = l ++ [x] → same x →
      logException kind i stream tier seq s = logged (l ++ [{ r with repeats := bump 255 x.repeats }])) ∧
    (s.access.log = [] →
      logException kind i stream tier seq s =
        { logged [r] with notices := s.notices.join (.exception kind i stream tier) }) ∧
    ∀ l x, s.access.log = l ++ [x] → ¬same x →
      (s.access.log.length < 16 → logException kind i stream tier seq s = logged (s.access.log ++ [r])) ∧
      (16 ≤ s.access.log.length → s.access.overflow = true → logException kind i stream tier seq s = s) ∧
      (16 ≤ s.access.log.length → s.access.overflow = false →
        logException kind i stream tier seq s =
          { s with
            access := { s.access with overflow := true }
            notices := s.notices.join .overflow })) ∧
  (∀ (s t : State) (sound : State → Prop),
    sound = (fun u => u.access.log.length ≤ 16 ∧
      ∀ a x y b, u.access.log = a ++ x :: y :: b →
        ¬(x.kind = y.kind ∧ x.input = y.input ∧ x.stream = y.stream ∧ x.tier = y.tier)) →
    sound s →
    (∀ kind i stream tier seq, t = logException kind i stream tier seq s → sound t) ∧
      ∀ tag n, exec (.clearExceptions tag n) s = .next t → sound t) ∧
  (∀ s t : State,
    (∀ locks, exec (.pinReset locks) s = .next t → t.access.log = [] ∧ t.access.overflow = false) ∧
    (exec .restartEffect s = .next t → t.access.log = s.access.log ∧ t.access.overflow = s.access.overflow)) ∧
  ∀ (tag n : Byte) (s : State), s.handsOn = true →
    (16 < n.toNat → n.toNat ≠ 255 →
      exec (.clearExceptions tag n) s = .next (pushAnswer 0x22 tag (refuse .badParam) s)) ∧
    (∀ k : Nat, n.toNat ≤ 16 ∨ n.toNat = 255 →
      k = (if n.toNat = 255 ∨ s.access.log.length ≤ n.toNat then s.access.log.length else n.toNat) →
      exec (.clearExceptions tag n) s =
        .next (pushAnswer 0x22 tag (done [BitVec.ofNat 8 k, BitVec.ofNat 8 (s.access.log.length - k)])
          { s with access :=
            { s.access with
              log := s.access.log.drop k
              overflow := if k = s.access.log.length then false else s.access.overflow } }))

/-! ### Orders: contexts -/

/-- TUNE (R101, R112): BAD_PARAM; ALREADY for the current context, with the pending binding superseded; ACCEPTED without change
for the pending one, with its context number (log 40); else a context of the identity that is neither FREE nor RETIRING, or the
lowest-numbered FREE one, becomes the pending binding, an allocated one then judging its port's index; NO_ROOM where none is FREE.
-/
def Obligations.TuneBindsAContext : Prop :=
  ∀ (tag output port : Byte) (service : Word16) (s : State), s.handsOn = true →
    (2 ≤ output.toNat ∨ 4 ≤ port.toNat →
      exec (.tune tag output port service) s = .next (pushAnswer 0x30 tag (refuse .badParam) s)) ∧
    (∀ (o : OutputNo) (p : PortNo) (sv : Nat), o.val = output.toNat → p.val = port.toNat → sv = service.toNat →
      (currentIs s o (inputOf p) sv = true →
        exec (.tune tag output port service) s = .next (pushAnswer 0x30 tag (refuse .already) (dropSuperseded o s))) ∧
      (∀ c, currentIs s o (inputOf p) sv = false → pendingOf s o (inputOf p) sv = some c →
        exec (.tune tag output port service) s = .next (pushAnswer 0x30 tag (acceptedFor c) s)) ∧
      (∀ c, currentIs s o (inputOf p) sv = false → pendingOf s o (inputOf p) sv = none →
        findContext (inputOf p) sv s = some c →
        exec (.tune tag output port service) s = .next (pushAnswer 0x30 tag (acceptedFor c) (bindPending o c s))) ∧
      (∀ c, currentIs s o (inputOf p) sv = false → pendingOf s o (inputOf p) sv = none →
        findContext (inputOf p) sv s = none → freeCtx s = some c →
        exec (.tune tag output port service) s =
          .next (pushAnswer 0x30 tag (acceptedFor c)
            (locate c (bindPending o c (s.setContext c (allocated s c (inputOf p) sv .locate)))))) ∧
      (currentIs s o (inputOf p) sv = false → pendingOf s o (inputOf p) sv = none →
        findContext (inputOf p) sv s = none → freeCtx s = none →
        exec (.tune tag output port service) s = .next (pushAnswer 0x30 tag (refuse .noRoom) s)))

/-- CAPTURE and PLAY (R102): their refusals, the contexts they take or allocate, and what they bind. A CAPTURE with a port out
of range is answered BAD_PARAM also where its tag is BOUND or DRAINING, which is the model's choice (log 54). PLAY of a context
that is already current keeps its play ratings; of another it replaces them, and a context allocated for it begins in MAP on
the tag's slot 0 stream. -/
def Obligations.CaptureAndPlayBindContexts : Prop :=
  ∀ (tag t : Byte) (s : State), s.handsOn = true →
    (∀ (port : Byte) (service : Word16), 8 ≤ t.toNat ∨ 4 ≤ port.toNat →
      exec (.capture tag t port service) s = .next (pushAnswer 0x31 tag (refuse .badParam) s)) ∧
    (∀ (k : TagNo) (p : PortNo) (port : Byte) (service : Word16) (sv : Nat), k.val = t.toNat → p.val = port.toNat →
      sv = service.toNat →
      (s.tag k ≠ .idle → exec (.capture tag t port service) s = .next (pushAnswer 0x31 tag (refuse .tagBusy) s)) ∧
      (∀ c, s.tag k = .idle → findContext (inputOf p) sv s = some c →
        exec (.capture tag t port service) s = .next (pushAnswer 0x31 tag (acceptedFor c) (bindTag k c s))) ∧
      (∀ c, s.tag k = .idle → findContext (inputOf p) sv s = none → freeCtx s = some c →
        exec (.capture tag t port service) s =
          .next (pushAnswer 0x31 tag (acceptedFor c)
            (locate c (bindTag k c (s.setContext c (allocated s c (inputOf p) sv .locate)))))) ∧
      (s.tag k = .idle → findContext (inputOf p) sv s = none → freeCtx s = none →
        exec (.capture tag t port service) s = .next (pushAnswer 0x31 tag (refuse .noRoom) s))) ∧
    (∀ (output adult : Byte) (ratings : List (Byte × Byte)),
      2 ≤ output.toNat ∨ 8 ≤ t.toNat ∨ 3 < ratings.length ∨ 1 < adult.toNat →
      exec (.play tag output t adult ratings) s = .next (pushAnswer 0x32 tag (refuse .badParam) s)) ∧
    ∀ (o : OutputNo) (k : TagNo) (output adult : Byte) (ratings : List (Byte × Byte)) (info : PlayInfo),
      o.val = output.toNat → k.val = t.toNat → ratings.length ≤ 3 → adult.toNat ≤ 1 →
      info = ⟨ratings.map (fun r => ⟨r.1.toNat, r.2.toNat⟩), adult.toNat == 1⟩ →
      (currentIs s o pb k.val = true →
        exec (.play tag output t adult ratings) s =
          .next (pushAnswer 0x32 tag (refuse .already) (dropSuperseded o s))) ∧
      (∀ (c : CtxNo) (u : State), currentIs s o pb k.val = false → findContext pb k.val s = some c →
        u = rejudgeVerdicts (· == c) (s.setContext c { s.context c with play := some info }) →
        exec (.play tag output t adult ratings) s =
          .next (pushAnswer 0x32 tag (acceptedFor c) (if u.isPending o c then u else bindPending o c u))) ∧
      (∀ c, currentIs s o pb k.val = false → findContext pb k.val s = none → freeCtx s = some c →
        exec (.play tag output t adult ratings) s =
          .next (pushAnswer 0x32 tag (acceptedFor c)
            (enterMap c (0x1000 + k.val * 64)
              (bindPending o c (s.setContext c
                { allocated s c pb k.val .map with
                  play := some info, mapStream := some (0x1000 + k.val * 64) }))))) ∧
      (currentIs s o pb k.val = false → findContext pb k.val s = none → freeCtx s = none →
        exec (.play tag output t adult ratings) s = .next (pushAnswer 0x32 tag (refuse .noRoom) s))

/-- What the binding of a context does (R101, R102, R112, R115, R116, R159): the pending binding of an output with its wait
deadline and hold set; the binding of a tag, which clears the tag's capture record. ENTITLEMENT is then judged again on every
destination of the context (R116), which changes hold sets and sends HOLD notices and nothing more. After that the earlier
pending binding of the output is dropped with a SUPERSEDED notice, and its context retired when no destination is left to it;
that the HOLD notices come before the SUPERSEDED notice is the model's choice (log 53). The wait deadline is the acquisition
deadline of a context in acquisition, else part time plus the acquisition limit. Which contexts are found: the current and
the pending one of an output by identity; the context of an identity that is neither FREE nor RETIRING; the lowest-numbered
FREE one (R99). What allocation sets: identity, first stage and acquisition deadline, the last failure kept. -/
def Obligations.BindingsAreMade : Prop :=
  (∀ (c : CtxNo) (s : State) (w : Nat),
    w = (match (s.context c).deadline with
      | some d => if (s.context c).state ∈ [.locate, .map, .key, .entry] then d else s.time.cycles / cyclesPerMs + s.ctl.limit
      | none => s.time.cycles / cyclesPerMs + s.ctl.limit) →
    (∀ (o : OutputNo) (u made : State),
      u = { s with ctl := { s.ctl with
        outputs := setAt s.ctl.outputs o
          { s.binding o with
            pending := some
              ⟨c, w, ⟨!s.up (s.context c).input, entitlementReason s (s.context c), keyLapseReason s (s.context c),
                verdict s c o⟩⟩ } } } →
      made = rejudge judgeEntitlement (· == c) u →
      ((s.binding o).pending = none → bindPending o c s = made) ∧
      (∀ (b : PendingBinding) (v : State), (s.binding o).pending = some b →
        v = { made with
          notices := made.notices.join (.superseded o b.ctx (s.context b.ctx).input (s.context b.ctx).service) } →
        bindPending o c s = if hasDestination v b.ctx then v else retire b.ctx v)) ∧
    ∀ (k : TagNo) (u : State),
      u = { s with
        ctl := { s.ctl with
          tags := setAt s.ctl.tags k
            (.bound c (some w)
              ⟨!s.up (s.context c).input, entitlementReason s (s.context c), false, .none⟩) }
        out := { s.out with records := setAt s.out.records k ⟨0, 0, 0, false⟩ } } →
      bindTag k c s = rejudge judgeEntitlement (· == c) u) ∧
  (∀ (c : CtxNo) (s : State),
    HoldsOnly s (rejudge judgeEntitlement (· == c) s) ∧
      JudgedOn (rejudge judgeEntitlement (· == c) s) judgeEntitlement (· = c)) ∧
  (∀ (o : OutputNo) (s : State),
    ((s.binding o).pending = none → dropSuperseded o s = s) ∧
    ∀ (b : PendingBinding) (v : State), (s.binding o).pending = some b →
      v = { s with
        ctl := { s.ctl with outputs := setAt s.ctl.outputs o { s.binding o with pending := none } }
        notices := s.notices.join (.superseded o b.ctx (s.context b.ctx).input (s.context b.ctx).service) } →
      dropSuperseded o s = if hasDestination v b.ctx then v else retire b.ctx v) ∧
  (∀ (s : State) (c : CtxNo),
    hasDestination s c = true ↔
      (∃ o b, (s.binding o).current = some b ∧ b.ctx = c) ∨ (∃ o b, (s.binding o).pending = some b ∧ b.ctx = c) ∨
        ∃ k w h, s.tag k = .bound c w h) ∧
  (∀ (s : State) (i : Input) (sv : Nat) (named reusable : CtxNo → Prop),
    named = (fun c => (s.context c).input = i ∧ (s.context c).service = sv) →
    reusable = (fun c => (s.context c).state ≠ .free ∧ (s.context c).state ≠ .retiring ∧ named c) →
    (∀ o, currentIs s o i sv = true ↔ ∃ b, (s.binding o).current = some b ∧ named b.ctx) ∧
    (∀ o c, pendingOf s o i sv = some c ↔ ∃ b, (s.binding o).pending = some b ∧ b.ctx = c ∧ named c) ∧
    (∀ c, findContext i sv s = some c ↔ reusable c ∧ ∀ d < c, ¬reusable d) ∧
    (findContext i sv s = none ↔ ∀ c, ¬reusable c)) ∧
  (∀ s : State,
    (∀ c, freeCtx s = some c ↔ (s.context c).state = .free ∧ ∀ d < c, (s.context d).state ≠ .free) ∧
    (freeCtx s = none ↔ ∀ c, (s.context c).state ≠ .free)) ∧
  ∀ (s : State) (c : CtxNo) (i : Input) (sv : Nat) (stage : CtxState),
    allocated s c i sv stage =
      { state := stage, input := i, service := sv, mapStream := none, mapVersion := none, components := [],
        entryComponent := none, mapRatings := [], keyStream := none, slot := none, play := none,
        deadline := some (s.time.cycles / cyclesPerMs + s.ctl.limit), drain := 0, malformed := 0, overflow := 0, refused := 0,
        lastFailure := (s.context c).lastFailure }

/-- The stages of acquisition. LOCATE judges the index in use of the port (R103): it waits while the index is absent, enters
MAP on the stream the index lists for the service, and fails with NOT_IN_INDEX where the index does not list it. Entry to
MAP, on a tuner port or on PB, records the map stream and joins its entry, or fails with NO_ROOM (R102, R104). The first
usable map adds the COMPONENT purposes in index order, or fails with NO_ROOM; it records version, components, entry component
(the first VIDEO one, else component 0, Table 6-2), ratings and key stream, the verdicts are computed again, and the context
enters KEY where the map names a key stream, else ENTRY (R104). Entry to KEY (R105) judges ENTITLEMENT, fails with
NOT_ENTITLED where a required tier is not held, joins a slot and adds the KEYS purpose, or fails with NO_ROOM, judges the
reasons of the slot, and goes on to ENTRY where the slot holds a key and is not refused. -/
def Obligations.AcquisitionStages : Prop :=
  (∀ (c : CtxNo) (p : PortNo) (s : State) (x : Context), x = s.context c → x.state = .locate → x.input = inputOf p →
    ((getAt s.guide.index p).inUse = none → locate c s = s) ∧
    (∀ r, (getAt s.guide.index p).inUse = some r → (∀ e ∈ r.entries, e.1 ≠ x.service) →
      locate c s = failContext c .notInIndex s) ∧
    (∀ (r : IndexRec) (stream : Nat), (getAt s.guide.index p).inUse = some r → r.lists x.service = some stream →
      locate c s = enterMap c stream s)) ∧
  (∀ (c : CtxNo) (stream : Nat) (s : State) (x : Context) (u : State), x = s.context c →
    u = s.setContext c { x with state := .map, mapStream := some stream } →
    (∀ v, addUser x.input stream .sections (.ctx c .map) u = (.granted, v) → enterMap c stream s = v) ∧
    ∀ a v, a ≠ .granted → addUser x.input stream .sections (.ctx c .map) u = (a, v) →
      enterMap c stream s = failContext c .noRoom u) ∧
  (∀ cs : List Component,
    (cs = [] → entryComponentOf cs = none) ∧
    (∀ (before after : List Component) (k : Component), cs = before ++ k :: after → k.kind = .video →
      (∀ j ∈ before, j.kind ≠ .video) → entryComponentOf cs = some before.length) ∧
    (cs ≠ [] → (∀ k ∈ cs, k.kind ≠ .video) → entryComponentOf cs = some 0)) ∧
  (∀ (c : CtxNo) (version : Nat) (m : MapBody) (s u : State) (x y : Context),
    x = { s.context c with overflow :=
      if 8 < m.components.length then bump top16 (s.context c).overflow else (s.context c).overflow } →
    u = s.setContext c x →
    y =
      { x with
        mapVersion := some version, components := usedComponents x m
        entryComponent := entryComponentOf (usedComponents x m), mapRatings := m.ratings
        keyStream := usedKeyStream x m } →
    (∀ added v, addComponents x.input c (componentStreams (usedComponents x m)) u = (false, added, v) →
      takeMap c version m s = failContext c .noRoom v) ∧
    ∀ added v, addComponents x.input c (componentStreams (usedComponents x m)) u = (true, added, v) →
      ∃ w : State, HoldsOnly (v.setContext c y) w ∧ VerdictsOn w (fun d _ => d = c) ∧
        (usedKeyStream x m = none → takeMap c version m s = w.setContext c { y with state := .entry }) ∧
        ∀ stream, usedKeyStream x m = some stream → takeMap c version m s = enterKey c stream w) ∧
  (∀ (c : CtxNo) (stream : Nat) (s : State) (x : Context) (required held : Nat → Prop),
    x = { s.context c with state := .key } →
    required = (fun t => x.input ≠ pb ∧
      ((∃ r, s.guide.list.find? (fun r => r.service == x.service) = some r ∧ r.tier = some t) ∨
        ∃ e, currentEvent s x.service = some e ∧ e.tier = some t)) →
    held = (fun t => ∃ r ∈ s.access.entitlements, r.tier = t) →
    ∃ v : State, HoldsOnly (s.setContext c x) v ∧ JudgedOn v judgeEntitlement (· = c) ∧
      ((∃ t, required t ∧ ¬held t) → enterKey c stream s = failContext c .notEntitled v) ∧
      ((∀ t, required t → held t) →
        (∀ w, joinSlot c x.input stream v = (none, w) → enterKey c stream s = failContext c .noRoom w) ∧
        ∀ k w r y, joinSlot c x.input stream v = (some k, w) →
          addUser x.input stream .sections (.ctx c (.keys k)) (w.setContext c { x with slot := some k }) = (r, y) →
          (r ≠ .granted → enterKey c stream s = failContext c .noRoom y) ∧
          (r = .granted → ∃ z : State, HoldsOnly y z ∧ JudgedOn z judgeSlot (· = c) ∧
            enterKey c stream s = judgeKey c z))) ∧
  ∀ (c : CtxNo) (s : State) (x : Context), x = s.context c →
    (x.state = .key → opensFor s x → judgeKey c s = s.setContext c { x with state := .entry }) ∧
    (x.state ≠ .key ∨ ¬opensFor s x → judgeKey c s = s)

/-- Key slots: a join takes the slot of the pair, or the lowest-numbered FREE one with empty contents, or is refused (R83); a
leave takes the context from the users, and a slot without users becomes FREE (R84). Map sections: which are usable, and which
components and key stream a context takes from one (R104). A usable map of another version offered in KEY, ENTRY or RUNNING (R119)
adds the new purposes first; a refusal takes back those it added and counts, keeping the rest; a granted change removes the
purposes of the old list alone, records the map, computes the verdicts again and moves the key stream where it differs (R120). The
overflow count rises at each repeat that is tried (log 45). A change of the index that lists another map stream moves the MAP
purpose, or counts a refused change (R121). -/
def Obligations.KeySlotsAndMapChanges : Prop :=
  (∀ (c : CtxNo) (i : Input) (stream : Nat) (s : State) (mine : SlotNo → Prop),
    mine = (fun k => ∃ y, s.slot k = some y ∧ y.input = i ∧ y.stream = stream) →
    (∀ k y, mine k → (∀ j < k, ¬mine j) → s.slot k = some y →
      joinSlot c i stream s = (some k, s.setSlot k (some { y with users := addBit y.users c }))) ∧
    (∀ k, (∀ j, ¬mine j) → s.slot k = none → (∀ j < k, s.slot j ≠ none) →
      joinSlot c i stream s =
        (some k, s.setSlot k (some
          { input := i, stream := stream, tier := none, even := none, odd := none, lastSeq := none, lapsed := false,
            run := 0, refused := false, users := addBit 0 c, installs := 0, lapses := 0, keyed := 0, unkeyed := 0,
            badPhase := 0, duplicates := 0, malformed := 0 }))) ∧
    ((∀ j, ¬mine j) → (∀ j, s.slot j ≠ none) → joinSlot c i stream s = (none, s))) ∧
  (∀ (c : CtxNo) (k : SlotNo) (s : State),
    (s.slot k = none → leaveSlot c k s = s) ∧
    ∀ y, s.slot k = some y →
      (hasBit y.users c = false → leaveSlot c k s = s) ∧
      (hasBit y.users c = true → dropBit y.users c = 0 → leaveSlot c k s = s.setSlot k none) ∧
      (hasBit y.users c = true → dropBit y.users c ≠ 0 →
        leaveSlot c k s = s.setSlot k (some { y with users := dropBit y.users c }))) ∧
  (∀ (x : Context) (body : List Byte) (m : MapBody),
    (usableMap x body = some m ↔
      readMap body = some m ∧ m.components ≠ [] ∧ (m.components.map Component.stream).Nodup ∧
        (x.input ≠ pb → (∀ k ∈ m.components, admissible x.input k.stream = true) ∧
          ∀ k, m.keyStream = some k → admissible x.input k = true)) ∧
    (usedComponents x m).length = min 8 m.components.length ∧
    (∀ (j : Nat) (k : Component), j < 8 → m.components[j]? = some k →
      (usedComponents x m)[j]? =
        some (if x.input = pb then { k with stream := 0x1000 + x.service * 64 + (2 + j) } else k)) ∧
    usedKeyStream x m = (if x.input = pb then m.keyStream.map (fun _ => 0x1000 + x.service * 64 + 1) else m.keyStream)) ∧
  (∀ (c : CtxNo) (h : SectionHeader) (body : List Byte) (s : State) (x : Context), x = s.context c →
    (x.state = .free ∨ x.state = .locate ∨ x.state = .retiring ∨ x.input ≠ pb ∧ h.extension ≠ x.service →
      mapSection c h body s = s) ∧
    (x.state ∈ [.map, .key, .entry, .running] → x.input = pb ∨ h.extension = x.service →
      (usableMap x body = none →
        mapSection c h body s = s.setContext c { x with malformed := bump top16 x.malformed }) ∧
      ∀ m, usableMap x body = some m →
        (x.state = .map → mapSection c h body s = takeMap c h.version m s) ∧
        (x.state ≠ .map → x.mapVersion = some h.version → mapSection c h body s = s) ∧
        (x.state ≠ .map → x.mapVersion ≠ some h.version → mapSection c h body s = changeMap c h.version m s))) ∧
  (∀ (i : Input) (c : CtxNo) (stream : Nat) (k : Fin 8) (l : List (Nat × Fin 8)) (s : State),
    addComponents i c [] s = (true, [], s) ∧
    (∀ r v, addUser i stream .component (.ctx c (.component k)) s = (r, v) →
      (r ≠ .granted → addComponents i c ((stream, k) :: l) s = (false, [], s)) ∧
      ∀ a w added, r = .granted → addComponents i c l v = (a, added, w) →
        addComponents i c ((stream, k) :: l) s =
          (a, if holdsPurpose i stream c (.component k) s then added else (stream, k) :: added, w)) ∧
    removeComponents i c l s = l.foldl (fun s r => removePurpose i r.1 c (.component r.2) s) s) ∧
  (∀ (c : CtxNo) (version : Nat) (m : MapBody) (s : State) (x : Context) (new : List (Nat × Fin 8)) (ok : Bool)
      (added : List (Nat × Fin 8)) (v : State),
    x = { s.context c with overflow :=
      if 8 < m.components.length then bump top16 (s.context c).overflow else (s.context c).overflow } →
    new = componentStreams (usedComponents x m) → addComponents x.input c new (s.setContext c x) = (ok, added, v) →
    (ok = false →
      changeMap c version m s =
        (removeComponents x.input c added v).setContext c { x with refused := bump top16 x.refused }) ∧
    (ok = true →
      ∃ w : State,
        HoldsOnly
          ((removeComponents x.input c ((componentStreams x.components).filter (fun r => !new.contains r)) v).setContext c
            { x with
              mapVersion := some version, components := usedComponents x m
              entryComponent := entryComponentOf (usedComponents x m), mapRatings := m.ratings }) w ∧
        VerdictsOn w (fun d _ => d = c) ∧
        (usedKeyStream x m = x.keyStream → changeMap c version m s = w) ∧
        (usedKeyStream x m ≠ x.keyStream → changeMap c version m s = moveKeyStream c (usedKeyStream x m) w))) ∧
  (∀ (c : CtxNo) (s : State) (x : Context) (left : State → State), x = s.context c →
    left = (fun u => match x.keyStream, x.slot with
      | some st, some k => leaveSlot c k (removePurpose x.input st c (.keys k) u)
      | none, _ => u
      | some _, none => u) →
    (∃ t : State,
      HoldsOnly
        ((left s).setContext c
          { x with keyStream := none, slot := none, state := if x.state = .key then .entry else x.state }) t ∧
      JudgedOn t judgeSlot (· = c) ∧ moveKeyStream c none s = t) ∧
    ∀ stream : Nat,
      (∀ v, joinSlot c x.input stream s = (none, v) → moveKeyStream c (some stream) s = v) ∧
      ∀ k v r w, joinSlot c x.input stream s = (some k, v) →
        addUser x.input stream .sections (.ctx c (.keys k)) v = (r, w) →
        (r ≠ .granted → moveKeyStream c (some stream) s = leaveSlot c k w) ∧
        (r = .granted → ∃ t : State,
          HoldsOnly
            ((left w).setContext c
              { x with
                keyStream := some stream, slot := some k
                state := if x.state = .entry ∧ x.keyStream = none then .key else x.state }) t ∧
          JudgedOn t judgeSlot (· = c) ∧ moveKeyStream c (some stream) s = judgeKey c t)) ∧
  ∀ (c : CtxNo) (p : PortNo) (s : State) (x : Context), x = s.context c → x.input = inputOf p →
    ((getAt s.guide.index p).inUse.bind (fun r => r.lists x.service) = none ∨
        (getAt s.guide.index p).inUse.bind (fun r => r.lists x.service) = x.mapStream →
      moveMapStream c s = s) ∧
    ∀ stream r v, (getAt s.guide.index p).inUse.bind (fun r => r.lists x.service) = some stream →
      x.mapStream ≠ some stream → addUser x.input stream .sections (.ctx c .map) s = (r, v) →
      (r ≠ .granted → moveMapStream c s = v.setContext c { x with refused := bump top16 x.refused }) ∧
      (r = .granted → x.mapStream = none → moveMapStream c s = v.setContext c { x with mapStream := some stream }) ∧
      ∀ old, r = .granted → x.mapStream = some old →
        moveMapStream c s = (removePurpose x.input old c .map v).setContext c { x with mapStream := some stream }

/-- RELEASE (R113): both bindings of an output become absent, the grants of the output end with cause BINDING, the oldest
first (log 47), when the current one goes, and each context left without a destination retires; the current one's context
comes first, in the answer and in retirement (log 44). A BOUND tag becomes DRAINING. -/
def Obligations.ReleaseFreesDestinations : Prop :=
  ∀ (tag b : Byte) (s : State), s.handsOn = true →
    (2 ≤ b.toNat → exec (.releaseOutput tag b) s = .next (pushAnswer 0x33 tag (refuse .badParam) s)) ∧
    (∀ (o : OutputNo) (u g : State), o.val = b.toNat → u = s.setBinding o ⟨none, none⟩ →
      g = { u with
        parental := { s.parental with grants := s.parental.grants.filter (fun x => !(x.output == o)) }
        notices := s.notices.joinAll
          ((s.parental.grants.filter (fun x => x.output == o)).map
            (fun x => .grantEnd x.output x.key x.profile .binding)) } →
      (s.binding o = ⟨none, none⟩ →
        exec (.releaseOutput tag b) s = .next (pushAnswer 0x33 tag (refuse .notFound) s)) ∧
      (∀ p, s.binding o = ⟨none, some p⟩ →
        exec (.releaseOutput tag b) s =
          .next (pushAnswer 0x33 tag (done [1, BitVec.ofNat 8 p.ctx.val]) (retireIfUnbound p.ctx u))) ∧
      (∀ a, s.binding o = ⟨some a, none⟩ →
        exec (.releaseOutput tag b) s =
          .next (pushAnswer 0x33 tag (done [1, BitVec.ofNat 8 a.ctx.val]) (retireIfUnbound a.ctx g))) ∧
      (∀ a p, s.binding o = ⟨some a, some p⟩ →
        exec (.releaseOutput tag b) s =
          .next (pushAnswer 0x33 tag (done [2, BitVec.ofNat 8 a.ctx.val, BitVec.ofNat 8 p.ctx.val])
            (retireIfUnbound p.ctx (retireIfUnbound a.ctx g))))) ∧
    (8 ≤ b.toNat → exec (.releaseTag tag b) s = .next (pushAnswer 0x33 tag (refuse .badParam) s)) ∧
    ∀ k : TagNo, k.val = b.toNat →
      (s.tag k = .idle → exec (.releaseTag tag b) s = .next (pushAnswer 0x33 tag (refuse .notFound) s)) ∧
      (∀ c, s.tag k = .draining c → exec (.releaseTag tag b) s = .next (pushAnswer 0x33 tag (refuse .already) s)) ∧
      (∀ c w h, s.tag k = .bound c w h →
        exec (.releaseTag tag b) s =
          .next (pushAnswer 0x33 tag (done []) (retireIfUnbound c (s.setTag k (.draining c)))))

/-! ### The viewing verdict -/

/-- RATING and UNRATED (R132), from the entry set that stage 2 of R131 gathers: map ratings, then those of PLAY for a
playback context and those of the current event for a tuner context, less the systems from 8 up. The event is the one tracked
for its service while the context is RUNNING, and in acquisition the current event of the store; without an event there are
no ratings of one. A code beyond the table has level 15. ADULT and LOCKED (R133), from the service list or the play adult
flag, and from the locked-service list. QUIET (R134): by the minute of week while the clock is SET, by the time-unknown
choice while it is UNSET. -/
def Obligations.ReasonsOfAProfile : Prop :=
  ((∀ (s : State) (x : Context) (p : ProfileNo) (more entries : List Rating),
    (x.input = pb → more = match x.play with
      | some i => i.ratings
      | none => []) →
    (x.input ≠ pb → more = match verdictEvent s x with
      | some e => e.ratings
      | none => []) →
    entries = (x.mapRatings ++ more).filter (fun r => decide (r.system < 8)) →
    ((profileReasons s x p).rating = true ↔
      ∃ r ∈ entries, ∃ k : Fin 8, k.val = r.system ∧
        getAt (s.profile p).limits k <
          (if h : r.code < 64 then getAt (getAt s.parental.table k) (⟨r.code, h⟩ : Fin 64) else 15)) ∧
    ((profileReasons s x p).unrated = true ↔ entries = [] ∧ (s.profile p).unratedHold = true)) ∧
  (∀ (s : State) (x : Context),
    (x.state = .running →
      (∀ t id, s.guide.tracked.find? (fun t => t.service == x.service) = some t → t.id = some id →
        verdictEvent s x = s.guide.events.find? (fun e => e.service == x.service && e.id == id)) ∧
      ((∀ t, s.guide.tracked.find? (fun t => t.service == x.service) = some t → t.id = none) →
        verdictEvent s x = none)) ∧
    (x.state ≠ .running → verdictEvent s x = currentEvent s x.service)) ∧
  (∀ (s : State) (x : Context) (p : ProfileNo),
    ((profileReasons s x p).adult = true ↔
      (s.profile p).adultHold = true ∧
        (x.input = pb ∧ (∃ i, x.play = some i ∧ i.adult = true) ∨
          x.input ≠ pb ∧
            ∃ r, s.guide.list.find? (fun r => r.service == x.service) = some r ∧ r.adult = true)) ∧
    ((profileReasons s x p).locked = true ↔
      x.input ≠ pb ∧ ∃ l ∈ s.parental.locked, l.service = x.service ∧ l.mask.getLsbD p.val = true))) ∧
  (∀ (s : State) (x : Context) (p : ProfileNo),
    (∀ (t : NetTime) (m : Nat), s.clock.net = some t → s.clock.minute = some m →
      ((profileReasons s x p).quiet = true ↔
        ∃ w ∈ (s.profile p).windows, ((m : Int) - (w.start : Int)) % 10080 < (w.length : Int))) ∧
    (s.clock.net = none →
      ((profileReasons s x p).quiet = true ↔
        (s.profile p).timeUnknownHold = true ∧ (s.profile p).windows ≠ [])))

/-- Hold sets and verdicts judged again. When a reason holds (R115, R116): ENTITLEMENT where a required tier of a tuner context,
that of its service or of its current event, is not held, where the slot of the context is refused, and where the slot's tier is
not held; KEY_LAPSE where the slot is LAPSED. Judging takes the named reasons from the state and leaves the others; a tag keeps
SIGNAL and ENTITLEMENT only. When a hold set is judged again (R118): a changed set of a current binding, or of a tag that has
started, is stored and sends exactly one HOLD notice with the new set; an unchanged one, and one of a context that is not
concerned, leaves everything as it was; a pending binding, and a tag that has not started, send no notice. Outputs are judged
before tags, each current binding before the pending one (log 41). The verdict of a pair (R131 stage 1, R135): PASS on an output
bound to no profile, and where a grant for the output, the context's key and the profile is held; else the reasons of the
profile. When the pairs of an output are computed again (R136), with or without a current one, nothing else changes. -/
def Obligations.VerdictsAreComputedAgain : Prop :=
  (∀ (s : State) (x : Context) (required held : Nat → Prop),
    required = (fun t => x.input ≠ pb ∧
      ((∃ r, s.guide.list.find? (fun r => r.service == x.service) = some r ∧ r.tier = some t) ∨
        ∃ e, currentEvent s x.service = some e ∧ e.tier = some t)) →
    held = (fun t => ∃ r ∈ s.access.entitlements, r.tier = t) →
    (entitlementReason s x = true ↔
      (∃ t, required t ∧ ¬held t) ∨
        ∃ k y, x.slot = some k ∧ s.slot k = some y ∧ (y.refused = true ∨ ∃ t, y.tier = some t ∧ ¬held t)) ∧
    (keyLapseReason s x = true ↔ ∃ k y, x.slot = some k ∧ s.slot k = some y ∧ y.lapsed = true)) ∧
  (∀ (s : State) (w : Which) (c : CtxNo) (old : HoldSet) (signal entitlement : Bool),
    signal = (if w.signal then decide ((getAt s.intake.sync (s.context c).input).state ≠ .up) else old.signal) →
    entitlement = (if w.entitlement then entitlementReason s (s.context c) else old.entitlement) →
    (∀ o : OutputNo,
      judged s w c (.output o) old =
        ⟨signal, entitlement, if w.keyLapse then keyLapseReason s (s.context c) else old.keyLapse,
          if w.parental then verdict s c o else old.parental⟩) ∧
    ∀ k : TagNo, judged s w c (.tag k) old = ⟨signal, entitlement, false, .none⟩) ∧
  (judgeAll = ⟨true, true, true, true⟩ ∧ judgeSignal = ⟨true, false, false, false⟩ ∧
    judgeEntitlement = ⟨false, true, false, false⟩ ∧ judgeSlot = ⟨false, true, true, false⟩ ∧
    judgeVerdict = ⟨false, false, false, true⟩) ∧
  (∀ (w : Which) (p : CtxNo → Bool) (s : State),
    (∀ o : OutputNo,
      ((s.binding o).current = none → rejudgeCurrent w p o s = s) ∧
      (∀ (b : Binding) (h : HoldSet), (s.binding o).current = some b → h = judged s w b.ctx (.output o) b.hold →
        (p b.ctx = false ∨ h = b.hold → rejudgeCurrent w p o s = s) ∧
        (p b.ctx = true → h ≠ b.hold →
          rejudgeCurrent w p o s =
            { s with
              ctl := { s.ctl with
                outputs := setAt s.ctl.outputs o { s.binding o with current := some { b with hold := h } } }
              notices := s.notices.join (.hold (.output o) b.ctx h) })) ∧
      ((s.binding o).pending = none → rejudgePending w p o s = s) ∧
      (∀ (b : PendingBinding) (h : HoldSet), (s.binding o).pending = some b →
        h = judged s w b.ctx (.output o) b.hold →
        (p b.ctx = false ∨ h = b.hold → rejudgePending w p o s = s) ∧
        (p b.ctx = true →
          rejudgePending w p o s =
            { s with ctl := { s.ctl with
              outputs := setAt s.ctl.outputs o { s.binding o with pending := some { b with hold := h } } } })) ∧
      rejudgeOutput w p o s = rejudgePending w p o (rejudgeCurrent w p o s)) ∧
    (∀ k : TagNo,
      (s.tag k = .idle ∨ (∃ c, s.tag k = .draining c) → rejudgeTag w p k s = s) ∧
      ∀ (c : CtxNo) (wait : Option Nat) (old h : HoldSet), s.tag k = .bound c wait old →
        h = judged s w c (.tag k) old →
        (p c = false ∨ h = old → rejudgeTag w p k s = s) ∧
        (p c = true → h ≠ old →
          rejudgeTag w p k s =
            { s with
              ctl := { s.ctl with tags := setAt s.ctl.tags k (.bound c wait h) }
              notices := if wait = none then s.notices.join (.hold (.tag k) c h) else s.notices })) ∧
    rejudgeVerdicts p s = rejudgeOutput judgeVerdict p 1 (rejudgeOutput judgeVerdict p 0 s) ∧
    rejudge w p s =
      ([0, 1, 2, 3, 4, 5, 6, 7] : List TagNo).foldl (fun s k => rejudgeTag w p k s)
        (rejudgeOutput w p 1 (rejudgeOutput w p 0 s))) ∧
  ∀ (s : State) (c : CtxNo) (o : OutputNo),
    (getAt s.parental.binding o = none → verdict s c o = .none) ∧
    (∀ p : ProfileNo, getAt s.parental.binding o = some p →
      ((∃ g ∈ s.parental.grants, g.output = o ∧ g.key = grantKey (s.context c) ∧ g.profile = p) →
        verdict s c o = .none) ∧
      ((∀ g ∈ s.parental.grants, g.output = o → g.key = grantKey (s.context c) → g.profile ≠ p) →
        verdict s c o = profileReasons s (s.context c) p)) ∧
    (∀ (b : Binding) (pend : Option PendingBinding), s.binding o = ⟨some b, pend⟩ →
      rejudgePairs o s =
        { s with
          ctl := { s.ctl with
            outputs := setAt s.ctl.outputs o
              ⟨some { b with hold := { b.hold with parental := verdict s b.ctx o } },
                pend.map (fun x => { x with hold := { x.hold with parental := verdict s x.ctx o } })⟩ }
          notices :=
            if b.hold.parental = verdict s b.ctx o then s.notices
            else s.notices.join (.hold (.output o) b.ctx { b.hold with parental := verdict s b.ctx o }) }) ∧
    (∀ b : PendingBinding, s.binding o = ⟨none, some b⟩ →
      rejudgePairs o s =
        { s with ctl := { s.ctl with
          outputs := setAt s.ctl.outputs o
            ⟨none, some { b with hold := { b.hold with parental := verdict s b.ctx o } }⟩ } }) ∧
    (s.binding o = ⟨none, none⟩ → rejudgePairs o s = s)

/-! ### PIN checks and the orders of the parental unit -/

/-- The digits of a PIN are each 0 to 9 (R185). A PIN check against a profile (R137): no PIN; locked out, with the seconds
that remain; right, which clears the failure count; wrong, which raises it, the third failure in a row beginning a lockout of
600 s with a LOCKOUT notice. -/
def Obligations.PinChecks : Prop :=
  (∀ pin : Pin, digitsOk pin = true ↔ ∀ d ∈ pin.toList, d.toNat ≤ 9) ∧
  ∀ (q : ProfileNo) (pin : Pin) (s : State) (x : Profile), x = s.profile q →
    (x.pin = none → pinCheck q pin s = (.noPin, s)) ∧
    (∀ right : Pin, x.pin = some right →
      (∀ e : Nat, x.lockoutEnd = some e → s.clock.uptime < e →
        pinCheck q pin s = (.lockedOut (e - s.clock.uptime), s)) ∧
      ((∀ e : Nat, x.lockoutEnd = some e → e ≤ s.clock.uptime) →
        (pin = right → pinCheck q pin s = (.right, s.setProfile q { x with failures := 0 })) ∧
        (pin ≠ right → x.failures < 2 →
          pinCheck q pin s = (.wrong (x.failures + 1) false, s.setProfile q { x with failures := x.failures + 1 })) ∧
        (pin ≠ right → 2 ≤ x.failures →
          pinCheck q pin s =
            (.wrong 0 true,
              { s with
                parental := { s.parental with
                  profiles := setAt s.parental.profiles q
                    { x with failures := 0, lockoutEnd := some (s.clock.uptime + 600) } }
                notices := s.notices.join (.lockout q (s.clock.uptime + 600)) }))))

/-- LOAD_RATING_ROW and SET_PROFILE (R144, R145, R146): parameters out of range are answered BAD_PARAM, a digit above 9 of a
carried PIN too, also while the parental lock is clear (log 23); past the gate of the parental lock the row, or the profile's
limits, policies and windows, are replaced and the pairs concerned computed again. BIND_PROFILE (R144, R148): past the gate,
the same binding changes nothing; a new one is taken, every grant of the output ends with cause PROFILE, the oldest first
(log 47), and both pairs of the output are computed again. -/
def Obligations.RatingRowsAndProfilesAreSet : Prop :=
  (∀ (tag : Byte) (pin : Option Pin) (s : State), s.handsOn = true →
    (∀ (system : Byte) (levels : Vector Byte 64), 8 ≤ system.toNat ∨ (∃ l ∈ levels.toList, 15 < l.toNat) →
      exec (.loadRatingRow tag system levels pin) s = .next (pushAnswer 0x40 tag (refuse .badParam) s)) ∧
    (∀ (k : Fin 8) (system : Byte) (levels : Vector Byte 64), k.val = system.toNat →
      (∀ l ∈ levels.toList, l.toNat ≤ 15) →
      (∀ r u, FailsGate 0 pin s r u →
        exec (.loadRatingRow tag system levels pin) s = .next (pushAnswer 0x40 tag r u)) ∧
      ∀ u, PassesGate 0 pin s u → ∃ t : State,
        exec (.loadRatingRow tag system levels pin) s = .next (pushAnswer 0x40 tag (done []) t) ∧
        HoldsOnly
          { u with parental :=
            { u.parental with table := setAt u.parental.table k (levels.map BitVec.toNat) } } t ∧
        VerdictsOn t (fun _ _ => True)) ∧
    (∀ (profile : Byte) (limits : Vector Byte 8) (unrated adult unknown : Byte) (windows : List (Word16 × Word16)),
      4 ≤ profile.toNat ∨ (∃ l ∈ limits.toList, 15 < l.toNat) ∨ 1 < unrated.toNat ∨ 1 < adult.toNat ∨
          1 < unknown.toNat ∨ 4 < windows.length ∨
          (∃ w ∈ windows, 10079 < w.1.toNat ∨ w.2.toNat = 0 ∨ 10080 < w.2.toNat) →
      exec (.setProfile tag profile limits unrated adult unknown windows pin) s =
        .next (pushAnswer 0x41 tag (refuse .badParam) s)) ∧
    ∀ (p q : ProfileNo) (profile : Byte) (limits : Vector Byte 8) (unrated adult unknown : Byte)
        (windows : List (Word16 × Word16)),
      p.val = profile.toNat → (∀ l ∈ limits.toList, l.toNat ≤ 15) → unrated.toNat ≤ 1 → adult.toNat ≤ 1 →
      unknown.toNat ≤ 1 → windows.length ≤ 4 →
      (∀ w ∈ windows, w.1.toNat ≤ 10079 ∧ 1 ≤ w.2.toNat ∧ w.2.toNat ≤ 10080) →
      q = (if (s.profile p).pin.isSome then p else 0) →
      (∀ r u, FailsGate q pin s r u →
        exec (.setProfile tag profile limits unrated adult unknown windows pin) s =
          .next (pushAnswer 0x41 tag r u)) ∧
      ∀ u, PassesGate q pin s u → ∃ t : State,
        exec (.setProfile tag profile limits unrated adult unknown windows pin) s =
          .next (pushAnswer 0x41 tag (done []) t) ∧
        HoldsOnly
          (u.setProfile p
            { u.profile p with
              limits := limits.map BitVec.toNat, unratedHold := unrated.toNat == 1, adultHold := adult.toNat == 1,
              timeUnknownHold := unknown.toNat == 1, windows := windows.map (fun w => ⟨w.1.toNat, w.2.toNat⟩) }) t ∧
        VerdictsOn t (fun _ o => getAt t.parental.binding o = some p)) ∧
  (∀ (tag output profile : Byte) (pin : Option Pin) (s : State), s.handsOn = true →
    (2 ≤ output.toNat ∨ (4 ≤ profile.toNat ∧ profile.toNat ≠ 255) →
      exec (.bindProfile tag output profile pin) s = .next (pushAnswer 0x43 tag (refuse .badParam) s)) ∧
    ∀ (o : OutputNo) (p : Option ProfileNo) (q : ProfileNo), o.val = output.toNat →
      (p = none ∧ profile.toNat = 255 ∨ ∃ k : ProfileNo, p = some k ∧ k.val = profile.toNat) →
      q = (match p with
        | none => 0
        | some k => if (s.profile k).pin.isSome then k else 0) →
      (∀ r u, FailsGate q pin s r u →
        exec (.bindProfile tag output profile pin) s = .next (pushAnswer 0x43 tag r u)) ∧
      (∀ u, PassesGate q pin s u → getAt u.parental.binding o = p →
        exec (.bindProfile tag output profile pin) s = .next (pushAnswer 0x43 tag (done []) u)) ∧
      ∀ u, PassesGate q pin s u → getAt u.parental.binding o ≠ p → ∃ t : State,
        exec (.bindProfile tag output profile pin) s = .next (pushAnswer 0x43 tag (done []) t) ∧
        HoldsOnly
          { u with
            parental :=
              { u.parental with
                binding := setAt u.parental.binding o p
                grants := u.parental.grants.filter (fun g => !(g.output == o)) }
            notices := u.notices.joinAll
              ((u.parental.grants.filter (fun g => g.output == o)).map
                (fun g => .grantEnd g.output g.key g.profile .profile)) } t ∧
        VerdictsOn t (fun _ o' => o' = o))

/-- LOCK_SERVICE and UNLOCK_SERVICE (R144, R149, R150): past the gate against profile 0, where a carried PIN with a digit
above 9 is answered BAD_PARAM, also while the lock is clear (log 23), a listed service takes the mask, a new one joins a list
of fewer than 32 entries, a full list answers NO_ROOM; a listed service is removed, another is answered NOT_FOUND. The pairs
whose tuner context is on the service are computed again. -/
def Obligations.ServicesAreLockedAndUnlocked : Prop :=
  ∀ (tag : Byte) (service : Word16) (pin : Option Pin) (s : State) (n : Nat), s.handsOn = true → n = service.toNat →
    (∀ mask : Byte, mask.toNat = 0 ∨ 15 < mask.toNat →
      exec (.lockService tag service mask pin) s = .next (pushAnswer 0x44 tag (refuse .badParam) s)) ∧
    (∀ mask : Byte, mask.toNat ≠ 0 → mask.toNat ≤ 15 →
      (∀ r u, FailsGate 0 pin s r u →
        exec (.lockService tag service mask pin) s = .next (pushAnswer 0x44 tag r u)) ∧
      (∀ u, PassesGate 0 pin s u → (∃ l ∈ u.parental.locked, l.service = n) → ∃ t : State,
        exec (.lockService tag service mask pin) s = .next (pushAnswer 0x44 tag (done []) t) ∧
        HoldsOnly
          { u with parental := { u.parental with
            locked := u.parental.locked.map (fun l => if l.service = n then ⟨n, mask.setWidth 4⟩ else l) } } t ∧
        VerdictsOn t (fun c _ => (t.context c).input ≠ pb ∧ (t.context c).service = n)) ∧
      (∀ u, PassesGate 0 pin s u → (∀ l ∈ u.parental.locked, l.service ≠ n) → u.parental.locked.length < 32 →
        ∃ t : State,
          exec (.lockService tag service mask pin) s = .next (pushAnswer 0x44 tag (done []) t) ∧
          HoldsOnly
            { u with parental := { u.parental with locked := u.parental.locked ++ [⟨n, mask.setWidth 4⟩] } } t ∧
          VerdictsOn t (fun c _ => (t.context c).input ≠ pb ∧ (t.context c).service = n)) ∧
      ∀ u, PassesGate 0 pin s u → (∀ l ∈ u.parental.locked, l.service ≠ n) → 32 ≤ u.parental.locked.length →
        exec (.lockService tag service mask pin) s = .next (pushAnswer 0x44 tag (refuse .noRoom) u)) ∧
    (∀ r u, FailsGate 0 pin s r u →
      exec (.unlockService tag service pin) s = .next (pushAnswer 0x45 tag r u)) ∧
    (∀ u, PassesGate 0 pin s u → (∀ l ∈ u.parental.locked, l.service ≠ n) →
      exec (.unlockService tag service pin) s = .next (pushAnswer 0x45 tag (refuse .notFound) u)) ∧
    ∀ u, PassesGate 0 pin s u → (∃ l ∈ u.parental.locked, l.service = n) → ∃ t : State,
      exec (.unlockService tag service pin) s = .next (pushAnswer 0x45 tag (done []) t) ∧
      HoldsOnly
        { u with parental := { u.parental with
          locked := u.parental.locked.filter (fun l => l.service != n) } } t ∧
      VerdictsOn t (fun c _ => (t.context c).input ≠ pb ∧ (t.context c).service = n)

/-- SET_PIN and LOCK_PARENTAL (R143, R147): a profile with a PIN gives it up only to that PIN; without one the check is made
against profile 0 while the lock is set, and none is made while it is clear. A digit above 9 in either PIN is refused, also
in an authorising PIN that no check would read (the model's choice, log 50). The lock is set once, and only while profile 0
has a PIN, which it then keeps. -/
def Obligations.PinsAndTheParentalLock : Prop :=
  ∀ (tag : Byte) (s : State), s.handsOn = true →
    (∀ (profile : Byte) (pin new : Option Pin),
      4 ≤ profile.toNat ∨ (∃ d, pin = some d ∧ digitsOk d = false) ∨ (∃ d, new = some d ∧ digitsOk d = false) ∨
          (new = none ∧ profile.toNat = 0 ∧ s.parental.lock = true) →
      exec (.setPin tag profile pin new) s = .next (pushAnswer 0x42 tag (refuse .badParam) s)) ∧
    (∀ (p q : ProfileNo) (profile : Byte) (pin new : Option Pin), p.val = profile.toNat →
      (∀ d, pin = some d → digitsOk d = true) → (∀ d, new = some d → digitsOk d = true) →
      ¬(new = none ∧ p = 0 ∧ s.parental.lock = true) → q = (if (s.profile p).pin.isSome then p else 0) →
      ((s.profile p).pin = none → s.parental.lock = false →
        exec (.setPin tag profile pin new) s =
          .next (pushAnswer 0x42 tag (done []) (s.setProfile p { s.profile p with pin := new }))) ∧
      ((s.profile p).pin.isSome = true ∨ s.parental.lock = true →
        (pin = none → exec (.setPin tag profile pin new) s = .next (pushAnswer 0x42 tag (refuse .badParam) s)) ∧
        (∀ d r u, pin = some d → pinCheck q d s = (r, u) → r ≠ .right →
          exec (.setPin tag profile pin new) s = .next (pushAnswer 0x42 tag (pinReply r) u)) ∧
        ∀ d u, pin = some d → pinCheck q d s = (.right, u) →
          exec (.setPin tag profile pin new) s =
            .next (pushAnswer 0x42 tag (done []) (u.setProfile p { u.profile p with pin := new })))) ∧
    ((s.profile 0).pin = none → exec (.lockParental tag) s = .next (pushAnswer 0x48 tag (refuse .noPin) s)) ∧
    ((s.profile 0).pin.isSome = true → s.parental.lock = true →
      exec (.lockParental tag) s = .next (pushAnswer 0x48 tag (refuse .already) s)) ∧
    ((s.profile 0).pin.isSome = true → s.parental.lock = false →
      exec (.lockParental tag) s =
        .next (pushAnswer 0x48 tag (done []) { s with parental := { s.parental with lock := true } }))

/-- UNLOCK (R139, R140): its refusals in their order, the PIN check against the output's profile, and the grant, which takes
the place of one for the same output, key and profile, or of the oldest of eight, which ends with cause DISPLACED; then the
pairs of the output are computed again. The layout of its results is the model's (log 14). -/
def Obligations.UnlockMakesAGrant : Prop :=
  ∀ (tag output scope : Byte) (pin : Pin) (ms : Word16) (s : State), s.handsOn = true →
    (2 ≤ output.toNat ∨ digitsOk pin = false ∨ 1 < scope.toNat →
      exec (.unlock tag output pin scope ms) s = .next (pushAnswer 0x46 tag (refuse .badParam) s)) ∧
    ∀ (o : OutputNo) (n : Option Nat) (adj : Bool), o.val = output.toNat → digitsOk pin = true →
      (scope.toNat = 0 ∧ n = none ∧ adj = false ∨
        scope.toNat = 1 ∧ n = some (max 1 (min 720 ms.toNat)) ∧
          adj = decide (ms.toNat < 1 ∨ 720 < ms.toNat)) →
      ((s.binding o).current = none ∨ getAt s.parental.binding o = none →
        exec (.unlock tag output pin scope ms) s = .next (pushAnswer 0x46 tag ⟨.notBound, adj, []⟩ s)) ∧
      ∀ (b : Binding) (p : ProfileNo) (r : PinResult) (u : State), (s.binding o).current = some b →
        getAt s.parental.binding o = some p → pinCheck p pin s = (r, u) →
        (r ≠ .right →
          exec (.unlock tag output pin scope ms) s =
            .next (pushAnswer 0x46 tag ⟨(pinReply r).outcome, adj, (pinReply r).results⟩ u)) ∧
        ∀ (g : Grant) (x : Context), r = .right → x = s.context b.ctx →
          g = ⟨o, if x.input = pb then .pb x.service else .tuner x.service, p,
            match n with
            | some k => .minutes (s.clock.uptime + 60 * k)
            | none =>
              .event (if x.input = pb then none
                else (s.guide.tracked.find? (fun t => t.service == x.service)).bind Tracked.id)⟩ →
          ∃ t : State,
            exec (.unlock tag output pin scope ms) s =
              .next (pushAnswer 0x46 tag ⟨.done, adj, encGrantKey g.key ++ enc8 p.val ++ encScope g.scope⟩ t) ∧
            VerdictsOn t (fun _ o' => o' = o) ∧
            ((∃ y ∈ s.parental.grants, y.output = o ∧ y.key = g.key ∧ y.profile = p) →
              HoldsOnly
                { u with parental := { u.parental with
                  grants :=
                    s.parental.grants.filter (fun y => !(y.output == o && y.key == g.key && y.profile == p)) ++
                      [g] } } t) ∧
            ((∀ y ∈ s.parental.grants, ¬(y.output = o ∧ y.key = g.key ∧ y.profile = p)) →
              (s.parental.grants.length < 8 →
                HoldsOnly { u with parental := { u.parental with grants := s.parental.grants ++ [g] } } t) ∧
              (∀ old rest, 8 ≤ s.parental.grants.length → s.parental.grants = old :: rest →
                HoldsOnly
                  { u with
                    parental := { u.parental with grants := rest ++ [g] }
                    notices := u.notices.join (.grantEnd old.output old.key old.profile .displaced) } t ∧
                VerdictsOn t (fun _ o' => o' = old.output)))

/-- REVOKE_GRANTS(output or ALL) (R142, with R141's end of a grant), ALL being 0xFF (Table 9-3). The GRANT_END notices stand
in the order of the list, before the HOLD notices of the pairs that are computed again (log 47). -/
def Obligations.GrantsAreRevoked : Prop :=
  ∀ (tag output : Byte) (s : State), s.handsOn = true →
    (2 ≤ output.toNat → output.toNat ≠ 255 →
      exec (.revokeGrants tag output) s = .next (pushAnswer 0x47 tag (refuse .badParam) s)) ∧
    ∀ ended : Grant → Bool, output.toNat < 2 ∨ output.toNat = 255 →
      ended = (fun g => decide (output.toNat = 255 ∨ g.output.val = output.toNat)) →
      ∃ t : State,
        exec (.revokeGrants tag output) s =
          .next (pushAnswer 0x47 tag (done [BitVec.ofNat 8 (s.parental.grants.filter ended).length]) t) ∧
        HoldsOnly
          { s with
            parental := { s.parental with grants := s.parental.grants.filter (fun g => !ended g) }
            notices := s.notices.joinAll
              ((s.parental.grants.filter ended).map (fun g => .grantEnd g.output g.key g.profile .revoked)) } t ∧
        VerdictsOn t (fun _ o => ∃ g ∈ s.parental.grants, ended g = true ∧ g.output = o)

/-! ### Packets, key messages, filters and events -/

/-- A presentation copy joins its output's queue of fewer than 64 packets and raises its context's drain count, or is discarded,
with a notice for the first discard since the query (R152). A raw packet, renumbered with its other fields kept, joins the
capture queue while that holds fewer than 128 packets and fewer than 64 of its context, or is counted as lost, with a notice for
the first loss (R158, R159). -/
def Obligations.PacketsJoinTheQueues : Prop :=
  (∀ (o : OutputNo) (c : CtxNo) (packet : List Byte) (arrival : BitVec 32) (s : State) (x : Output), x = s.output o →
    (x.queue.length < 64 →
      handToOutput o c packet arrival s =
        { s with
          out := { s.out with outputs := setAt s.out.outputs o { x with queue := x.queue ++ [⟨packet, arrival, c⟩] } }
          ctl := { s.ctl with
            contexts := setAt s.ctl.contexts c { s.context c with drain := (s.context c).drain + 1 } } }) ∧
    (64 ≤ x.queue.length →
      handToOutput o c packet arrival s =
        { s with
          out :=
            { s.out with
              outputs := setAt s.out.outputs o
                { x with overflowDiscards := bump top32 x.overflowDiscards, overflowMark := true } }
          notices :=
            if x.overflowMark then s.notices else s.notices.join (.outputOverflow o (bump top32 x.overflowDiscards)) })) ∧
  (∀ (t : TagNo) (c : CtxNo) (slot : Fin 64) (packet : List Byte) (s : State) (r : CaptureRec) (n : Nat),
    r = getAt s.out.records t → n = getAt s.out.captureCount c →
    (s.out.capture.length < 128 → n < 64 →
      handToCapture t c slot.val packet s =
        { s with
          out :=
            { s.out with
              capture := s.out.capture ++ [⟨withStream packet (0x1000 + t.val * 64 + slot.val), t, c⟩]
              captureCount := setAt s.out.captureCount c (n + 1)
              records := setAt s.out.records t { r with captured := bump top32 r.captured } }
          ctl := { s.ctl with
            contexts := setAt s.ctl.contexts c { s.context c with drain := (s.context c).drain + 1 } } }) ∧
    (128 ≤ s.out.capture.length ∨ 64 ≤ n →
      handToCapture t c slot.val packet s =
        { s with
          out := { s.out with records := setAt s.out.records t { r with lost := bump top32 r.lost, lossMark := true } }
          notices := if r.lossMark then s.notices else s.notices.join (.captureLoss t (bump top32 r.lost)) })) ∧
  ∀ (p : List Byte) (n : Nat), 3 ≤ p.length → n < 8192 →
    streamNumber (withStream p n) = n ∧ (withStream p n).length = p.length ∧
      byteAt (withStream p n) 1 / 32 = byteAt p 1 / 32 ∧
      ∀ k, k ≠ 1 → k ≠ 2 → (withStream p n)[k]? = p[k]?

/-- A key message of a slot (R86): ignored while the access state is DISABLED or the home network id is absent, and where the
slot is FREE or another pair's; one that cannot be read, or whose tier is not its extension, raises the malformed count and
does nothing else. Then the tests for network, tier and check value (R87, R88), the sequence test, skipped on PB (R89), and
the install (R90). A message for a tier that is not held sets the refused flag and is logged; an accepted one gives the slot
its tier, its keys and its sequence. Where either changes the condition of the slot (keyed, refused, tier and whether it is
held), the change is reported to the slot's users (R85), which judges ENTITLEMENT and KEY_LAPSE on their destinations and
lets those in KEY go on to ENTRY, and nothing more; where it does not, only the slot changes. -/
def Obligations.KeyMessages : Prop :=
  (∀ (k : SlotNo) (i : Input) (stream : Nat) (h : SectionHeader) (body : List Byte) (s : State),
    (s.access.fuses = none ∨ s.access.home = none ∨ s.slot k = none ∨
        (∃ x, s.slot k = some x ∧ (x.input ≠ i ∨ x.stream ≠ stream)) →
      keySection k i stream h body s = s) ∧
    ∀ (x : Slot) (home : Nat), s.access.fuses ≠ none → s.access.home = some home → s.slot k = some x → x.input = i →
      x.stream = stream →
      (readKeyMessage body = none ∨ (∃ m, readKeyMessage body = some m ∧ m.tier ≠ h.extension) →
        keySection k i stream h body s =
          { s with access :=
            { s.access with slots := setAt s.access.slots k (some { x with malformed := bump top16 x.malformed }) } }) ∧
      ∀ m, readKeyMessage body = some m → m.tier = h.extension →
        keySection k i stream h body s = takeKeyMessage k x home m s) ∧
  ∀ (k : SlotNo) (x : Slot) (home : Nat) (m : KeyBody) (s : State), s.slot k = some x →
    (m.network ≠ home →
      takeKeyMessage k x home m s = logException .wrongNetwork x.input x.stream (some m.tier) m.seq s) ∧
    (∀ v : State, m.network = home → (∀ r ∈ s.access.entitlements, r.tier ≠ m.tier) →
      v = (logException .notEntitled x.input x.stream (some m.tier) m.seq s).setSlot k (some { x with refused := true }) →
      (x.refused = true → takeKeyMessage k x home m s = v) ∧
      (x.refused = false → SlotReported x.users v (takeKeyMessage k x home m s))) ∧
    ∀ r : Entitlement, m.network = home → s.access.entitlements.find? (fun r => r.tier == m.tier) = some r →
      (Config.checkValue r.key m.plain ≠ m.check →
        takeKeyMessage k x home m s = logException .integrity x.input x.stream (some m.tier) m.seq s) ∧
      (Config.checkValue r.key m.plain = m.check →
        (∀ last : Nat, x.input ≠ pb → x.lastSeq = some last →
          (m.seq % 65536 = last % 65536 →
            takeKeyMessage k x home m s =
              s.setSlot k (some { x with duplicates := bump top16 x.duplicates })) ∧
          (32768 ≤ (m.seq + 65536 - last % 65536) % 65536 →
            takeKeyMessage k x home m s = logException .stale x.input x.stream (some m.tier) m.seq s)) ∧
        ∀ y : Slot,
          (x.input = pb ∨ x.lastSeq = none ∨
            (∃ last, x.lastSeq = some last ∧ 1 ≤ (m.seq + 65536 - last % 65536) % 65536 ∧
              (m.seq + 65536 - last % 65536) % 65536 ≤ 32767)) →
          y =
            { x with
              tier := some m.tier
              even := match m.even with
                | some e => some (Config.decipher r.key e)
                | none => x.even
              odd := match m.odd with
                | some e => some (Config.decipher r.key e)
                | none => x.odd
              lastSeq := some m.seq
              refused := false
              installs := bump top16 x.installs } →
          ((x.even.isSome || x.odd.isSome) = (y.even.isSome || y.odd.isSome) → x.refused = false → x.tier = some m.tier →
            takeKeyMessage k x home m s = s.setSlot k (some y)) ∧
          ((x.even.isSome || x.odd.isSome) ≠ (y.even.isSome || y.odd.isSome) ∨ x.refused = true ∨ x.tier ≠ some m.tier →
            SlotReported x.users (s.setSlot k (some y)) (takeKeyMessage k x home m s)))

/-- The completion of a section. A section whose CRC does not check is counted as bad and offered to nobody; a good one is
counted (R29), one whose index is beyond its last index is counted as a header fault, whatever its current flag (for a next
version the model's reading, log 24), and neither that nor a next version is offered; any other is offered to the consumer of
its kind on the entry, a map to each context that holds MAP, in ascending context number (log 10) (R30, Table 2-4). Then it
is matched against the filters present on the entry, and moved on (R29, R35). A completed section against a host filter of
its entry: the masked comparison of the six header bytes (R33), bad sections for the filters that take them (R31), and repeat
suppression by seen sets, of which a filter keeps 8 in creation order (R34). -/
def Obligations.CompletedSectionsAreOfferedAndMatched : Prop :=
  (∀ (e : Entry) (bytes : List Byte) (s good u : State) (h : SectionHeader) (present : BitVec 24) (r : BitVec 24 × State),
    h = sectionHeader bytes →
    good = countSection e.input (fun r => { r with good := bump top32 r.good }) s →
    (crc32 bytes ≠ 0 ∧ u = countSection e.input (fun r => { r with badCrc := bump top32 r.badCrc }) s ∨
      crc32 bytes = 0 ∧ h.lastIndex < h.index ∧
        u = countSection e.input (fun r => { r with header := bump top32 r.header }) good ∨
      crc32 bytes = 0 ∧ h.index ≤ h.lastIndex ∧ h.current = false ∧ u = good ∨
      crc32 bytes = 0 ∧ h.index ≤ h.lastIndex ∧ h.current = true ∧ u = offerSection e h (sectionBody bytes) good) →
    ((∃ e', findEntry e.input e.stream u = some e' ∧ present = e'.pins.filters) ∨
      findEntry e.input e.stream u = none ∧ present = 0) →
    r = filterNos.foldl (fun a f => matchFilter present (crc32 bytes != 0) bytes f a) (0, u) →
    completeSection e bytes s = moveSection e.input e.stream (crc32 bytes != 0) bytes r.1 r.2) ∧
  (∀ (e : Entry) (h : SectionHeader) (body : List Byte) (s : State),
    (∀ p, h.kind = 0x10 → e.pins.index = true → e.input = inputOf p →
      offerSection e h body s = indexSection p h body s) ∧
    (h.kind = 0x30 → e.pins.guide = true → offerSection e h body s = serviceListSection h body s) ∧
    (h.kind = 0x31 → e.pins.guide = true → offerSection e h body s = eventSection h body s) ∧
    (h.kind = 0x32 → e.pins.time = true → offerSection e h body s = timeSection h body s) ∧
    (h.kind = 0x94 → e.pins.access = true → offerSection e h body s = entitlementSection e.input e.stream h body s) ∧
    (∀ k, h.kind = 0x90 → e.keysSlot = some k → offerSection e h body s = keySection k e.input e.stream h body s) ∧
    (h.kind = 0x12 →
      offerSection e h body s =
        ((e.users.filter (fun u => u.purposes.contains .map)).map CtxUser.ctx).foldl (fun s c => mapSection c h body s) s) ∧
    (h.kind = 0x10 ∧ (e.pins.index = false ∨ e.input = pb) ∨
        (h.kind = 0x30 ∨ h.kind = 0x31) ∧ e.pins.guide = false ∨ h.kind = 0x32 ∧ e.pins.time = false ∨
        h.kind = 0x94 ∧ e.pins.access = false ∨ h.kind = 0x90 ∧ e.keysSlot = none ∨
        h.kind ∉ [0x10, 0x12, 0x30, 0x31, 0x32, 0x90, 0x94] →
      offerSection e h body s = s)) ∧
  (∀ (present : BitVec 24) (bad : Bool) (bytes : List Byte) (f : FilterNo) (a : BitVec 24) (s : State),
    (hasBit present f = false ∨ getAt s.sections.filters f = none →
      matchFilter present bad bytes f (a, s) = (a, s)) ∧
    ∀ x, hasBit present f = true → getAt s.sections.filters f = some x →
      (x.matchSection bad bytes = none → matchFilter present bad bytes f (a, s) = (a, s)) ∧
      ∀ y, x.matchSection bad bytes = some y →
        matchFilter present bad bytes f (a, s) =
          (addBit a f, { s with sections :=
            { s.sections with filters := setAt s.sections.filters f (some y) } })) ∧
  (∀ (x : Filter) (l : List Byte), x.agrees l = true ↔
    ∀ (j : Fin 6) (b : Byte), (matchedBytes l)[j.val]? = some b →
      ∀ k < 8, (getAt x.mask j).getLsbD k = true → (getAt x.pattern j).getLsbD k = b.getLsbD k) ∧
  (∀ (x : Filter) (bad : Bool) (l : List Byte),
    (x.agrees l = false → x.matchSection bad l = none) ∧
    (x.agrees l = true → bad = true → x.matchSection bad l = if x.deliverBad then some x else none) ∧
    (x.agrees l = true → bad = false → x.suppress = false → x.matchSection bad l = some x) ∧
    (x.agrees l = true → bad = false → x.suppress = true →
      x.matchSection bad l =
        match seenAfter (sectionHeader l) x.seen with
        | some seen => some { x with seen := seen }
        | none => none)) ∧
  ∀ (h : SectionHeader) (l a b : List SeenSet) (ours : SeenSet → Prop),
    ours = (fun y => y.kind = h.kind ∧ y.extension = h.extension) →
    (∀ y : SeenSet, l = a ++ y :: b → ours y → (∀ z ∈ a, ¬ours z) → (∀ z ∈ b, ¬ours z) →
      (y.version = h.version → hasIndex y.indices h.index = true → seenAfter h l = none) ∧
      (y.version = h.version → hasIndex y.indices h.index = false →
        seenAfter h l = some (a ++ { y with indices := addIndex y.indices h.index } :: b)) ∧
      (y.version ≠ h.version →
        seenAfter h l = some (a ++ { y with version := h.version, indices := addIndex 0 h.index } :: b))) ∧
    ((∀ y ∈ l, ¬ours y) → l.length < 8 →
      seenAfter h l = some (l ++ [⟨h.kind, h.extension, h.version, addIndex 0 h.index⟩])) ∧
    ∀ y : SeenSet, l = y :: b → (∀ y ∈ l, ¬ours y) → 8 ≤ l.length →
      seenAfter h l = some (b ++ [⟨h.kind, h.extension, h.version, addIndex 0 h.index⟩])

/-- An event section (R59): one that cannot be read is counted, its events are taken in turn, and a malformed one is dropped and
counted. An event is inserted (R60): outside the window it is counted and its stored copy removed; else the events of its service
that overlap it are removed, and it takes the place of its stored copy, or a free place, or that of the latest-starting event of a
full store, or is dropped (R61). Each removal, insertion and update is followed by the judging of its service (R63); the removals
stand in the order of the store (log 13). Within the store events stand by service and start (R58). -/
def Obligations.EventsArePlaced : Prop :=
  (∀ (h : SectionHeader) (body : List Byte) (s : State),
    (eventBodies body.length body = none →
      eventSection h body s = { s with guide := { s.guide with malformed := bump top16 s.guide.malformed } }) ∧
    (∀ l, eventBodies body.length body = some l → eventSection h body s = l.foldl (takeEvent h.extension) s) ∧
    ∀ b : EventBody,
      (b.duration = 0 ∨ 1440 < b.duration ∨ 3 < b.ratings.length →
        takeEvent h.extension s b = { s with guide := { s.guide with malformed := bump top16 s.guide.malformed } }) ∧
      (b.duration ≠ 0 → b.duration ≤ 1440 → b.ratings.length ≤ 3 →
        takeEvent h.extension s b = insertEvent ⟨h.extension, b.id, b.start, b.duration, b.tier, b.ratings⟩ s)) ∧
  (∀ (e : Event) (s v : State) (out : Prop) (copy : Event → Prop) (stored : List Event → State → State),
    out = (∃ n l, s.clock.net = some ⟨n, l⟩ ∧ (e.start + 60 * e.duration ≤ n ∨ n + 172800 < e.start)) →
    copy = (fun x => x.service = e.service ∧ x.id = e.id) →
    v = removeEvents
      (s.guide.events.filter (fun x => decide (x.service = e.service ∧ x.id ≠ e.id ∧
        x.start < e.start + 60 * e.duration ∧ e.start < x.start + 60 * x.duration))) s →
    stored = (fun l u => { u with guide := { u.guide with events := l } }) →
    (out →
      insertEvent e s =
        removeEvents (s.guide.events.filter (fun x => decide (x.service = e.service ∧ x.id = e.id)))
          { s with guide := { s.guide with outside := bump top16 s.guide.outside } }) ∧
    (∀ (u : State) (content : Bool), ¬out → (∃ x ∈ v.guide.events, copy x) →
      u = stored (insertOrdered e
        (v.guide.events.filter (fun x => !decide (x.service = e.service ∧ x.id = e.id)))) v →
      (content = true ↔ ∃ a b, currentEvent v e.service = some a ∧ currentEvent u e.service = some b ∧ a.id = b.id ∧
        (a.tier ≠ b.tier ∨ a.ratings ≠ b.ratings)) →
      insertEvent e s = judgeService content e.service u) ∧
    (¬out → (∀ x ∈ v.guide.events, ¬copy x) → v.guide.events.length < 2048 →
      insertEvent e s = judgeService false e.service (stored (insertOrdered e v.guide.events) v)) ∧
    (¬out → (∀ x ∈ v.guide.events, ¬copy x) → 2048 ≤ v.guide.events.length →
      ∃ last ∈ v.guide.events,
        (∀ x ∈ v.guide.events, x.start < last.start ∨ x.start = last.start ∧
          (x.service < last.service ∨ x.service = last.service ∧ x.id ≤ last.id)) ∧
        (∀ w, e.start < last.start →
          w = removeEvents [last] { v with guide := { v.guide with evicted := bump top16 v.guide.evicted } } →
          insertEvent e s = judgeService false e.service (stored (insertOrdered e w.guide.events) w)) ∧
        (last.start ≤ e.start →
          insertEvent e s = { v with guide := { v.guide with droppedFull := bump top16 v.guide.droppedFull } }))) ∧
  (∀ (x : Event) (l : List Event) (s : State),
    removeEvents [] s = s ∧
    removeEvents (x :: l) s =
      removeEvents l (judgeService false x.service
        { s with guide :=
          { s.guide with
            events := s.guide.events.filter (fun y => !decide (y.service = x.service ∧ y.id = x.id)) } })) ∧
  ∀ (e : Event) (l : List Event), ∃ a b : List Event, l = a ++ b ∧ insertOrdered e l = a ++ e :: b ∧
    (∀ x ∈ a, x.service < e.service ∨ x.service = e.service ∧ x.start ≤ e.start) ∧
    ∀ x ∈ b.head?, e.service < x.service ∨ x.service = e.service ∧ e.start < x.start

/-- Service index sections (R53). One that cannot be read is counted; pairs whose stream is not admissible are dropped and
counted. What belongs to the index in use joins it, if its index is new there, and a change is reported; else it joins the
collection it belongs to, or begins a new one, and with its last index the collection becomes the index in use, which is
reported. A report reaches the contexts on the port in ascending context number (log 10): in LOCATE they judge the index,
from MAP to RUNNING they compare their map stream (R103, R121). Service list sections (R56). One that cannot be read is
counted. A new version begins its received set anew and clears the seen marks; the records are merged in turn; with every
index received, the records not seen are swept. What changed a record's tier or adult flag, inserted it or removed it is
reported (R57) after the merge, the swept ones last (log 27): ENTITLEMENT of the contexts on the service is judged again and
then their verdicts (the model's choice of order, log 52). -/
def Obligations.IndexAndListSectionsAreTaken : Prop :=
  (∀ (p : PortNo) (h : SectionHeader) (body : List Byte) (s : State) (x : PortIndex), x = getAt s.guide.index p →
    (indexPairs body = none →
      indexSection p h body s = s.setPortIndex p { x with malformed := bump top16 x.malformed }) ∧
    ∀ (pairs usable : List (Nat × Nat)) (bad : Nat) (mine : IndexRec → Prop) (taken : IndexRec → PairsAcc)
        (next : IndexRec → IndexRec),
      indexPairs body = some pairs → usable = pairs.filter (fun e => decide (e.2 ≤ 0x1FEF)) →
      bad = bumpBy top16 x.malformed (pairs.length - usable.length) →
      mine = (fun r => r.version = h.version ∧ r.multiplex = h.extension) →
      taken = (fun r => usable.foldl addPair ⟨r.entries, x.overflow, false⟩) →
      next = (fun r => { r with received := addIndex r.received h.index, entries := (taken r).entries }) →
      (∀ r, x.inUse = some r → mine r →
        (hasIndex r.received h.index = true → indexSection p h body s = s.setPortIndex p { x with malformed := bad }) ∧
        ∀ u, hasIndex r.received h.index = false →
          u = s.setPortIndex p
            { x with inUse := some (next r), malformed := bad, overflow := (taken r).overflow } →
          indexSection p h body s = if (taken r).changed then indexChanged p u else u) ∧
      ((∀ r, x.inUse = some r → ¬mine r) →
        (∀ r, x.collection = some r → mine r → hasIndex r.received h.index = true →
          indexSection p h body s = s.setPortIndex p { x with malformed := bad }) ∧
        ∀ r,
          (x.collection = some r ∧ mine r ∧ hasIndex r.received h.index = false ∨
            (∀ c, x.collection = some c → ¬mine c) ∧
              r = { multiplex := h.extension, version := h.version, received := 0, entries := [] }) →
          (h.index = h.lastIndex →
            indexSection p h body s =
              indexChanged p (s.setPortIndex p
                { x with
                  inUse := some (next r), collection := none, malformed := bad, overflow := (taken r).overflow })) ∧
          (h.index ≠ h.lastIndex →
            indexSection p h body s =
              s.setPortIndex p
                { x with collection := some (next r), malformed := bad, overflow := (taken r).overflow }))) ∧
  (∀ (a : PairsAcc) (e : Nat × Nat),
    (∀ old, a.entries.find? (fun y => y.1 == e.1) = some old →
      (old.2 = e.2 → addPair a e = a) ∧
      (old.2 ≠ e.2 →
        addPair a e = { a with entries := a.entries.map (fun y => if y.1 = e.1 then e else y), changed := true })) ∧
    ((∀ y ∈ a.entries, y.1 ≠ e.1) →
      (a.entries.length < 64 → addPair a e = { a with entries := a.entries ++ [e], changed := true }) ∧
      (64 ≤ a.entries.length → addPair a e = { a with overflow := bump top16 a.overflow }))) ∧
  (∀ (p : PortNo) (s : State),
    indexChanged p s = ctxNos.foldl (fun s c => indexReport p c s) s ∧
    ∀ c : CtxNo,
      ((s.context c).input ≠ inputOf p ∨ (s.context c).state = .free ∨ (s.context c).state = .retiring →
        indexReport p c s = s) ∧
      ((s.context c).input = inputOf p → (s.context c).state = .locate → indexReport p c s = locate c s) ∧
      ((s.context c).input = inputOf p → (s.context c).state ∈ [.map, .key, .entry, .running] →
        indexReport p c s = moveMapStream c s)) ∧
  (∀ (h : SectionHeader) (body : List Byte) (s : State),
    (serviceRecords body = none →
      serviceListSection h body s =
        { s with guide := { s.guide with listMalformed := bump top16 s.guide.listMalformed } }) ∧
    ∀ (records held kept swept : List ServiceRec) (same : ListVersion → Prop) (v : ListVersion) (a : ListAcc),
      serviceRecords body = some records → same = (fun v => v.network = h.extension ∧ v.version = h.version) →
      ((∃ w, s.guide.listVersion = some w ∧ same w ∧ held = s.guide.list ∧
          v = { w with received := addIndex w.received h.index, lastIndex := h.lastIndex }) ∨
        (∀ w, s.guide.listVersion = some w → ¬same w) ∧ held = s.guide.list.map (fun r => { r with seen := false }) ∧
          v = { network := h.extension, version := h.version, received := addIndex 0 h.index, lastIndex := h.lastIndex }) →
      a = records.foldl mergeRecord ⟨held, s.guide.listOverflow, []⟩ →
      ((∀ k ≤ h.lastIndex, hasIndex v.received k = true) ∧ kept = a.list.filter (fun r => r.seen) ∧
          swept = a.list.filter (fun r => !r.seen) ∨
        (∃ k ≤ h.lastIndex, hasIndex v.received k = false) ∧ kept = a.list ∧ swept = []) →
      serviceListSection h body s =
        (a.reports ++ swept.map ServiceRec.service).foldl (fun s n => serviceReport n s)
          { s with guide := { s.guide with list := kept, listVersion := some v, listOverflow := a.overflow } }) ∧
  (∀ (a : ListAcc) (r : ServiceRec),
    (∀ old, a.list.find? (fun x => x.service == r.service) = some old →
      mergeRecord a r =
        { a with
          list := a.list.map (fun x => if x.service = r.service then r else x)
          reports := if old.tier = r.tier ∧ old.adult = r.adult then a.reports else a.reports ++ [r.service] }) ∧
    ((∀ x ∈ a.list, x.service ≠ r.service) →
      (a.list.length < 256 →
        mergeRecord a r = { a with list := a.list ++ [r], reports := a.reports ++ [r.service] }) ∧
      (256 ≤ a.list.length → mergeRecord a r = { a with overflow := bump top16 a.overflow }))) ∧
  ∀ (n : Nat) (s : State) (on : CtxNo → Prop),
    on = (fun c => (s.context c).input ≠ pb ∧ (s.context c).service = n) →
    (∀ concerned : CtxNo → Bool, (∀ c, concerned c = true ↔ on c) →
      serviceReport n s = rejudgeVerdicts concerned (rejudge judgeEntitlement concerned s)) ∧
    HoldsOnly s (serviceReport n s) ∧ JudgedOn (serviceReport n s) judgeEntitlement on ∧
      VerdictsOn (serviceReport n s) (fun c _ => on c)

/-! ### Invariants -/

/-- Every step keeps the number of section blocks, free or held by assemblies or by the delivery queue, at 512 (R27). -/
def Obligations.StepsKeepTheSectionBlocks : Prop :=
  ∀ s t : State, s.blocksTotal = 512 → step s = .next t → t.blocksTotal = 512

/-- Every step keeps the stream table sound (R15, R16, R18, R19): at most 192 entries, no two for one pair, each stream number
admissible on its input, no entry without users, and the index entry of each tuner port there. -/
def Obligations.StepsKeepTheStreamTable : Prop :=
  ∀ s t : State, TableSound s.table → step s = .next t → TableSound t.table

/-- Every step keeps the lists, stores and queues named here within their sizes: the unit in progress of an input, 1 to 187
bytes (R1); the stream table, 192 entries, and sound as in StepsKeepTheStreamTable (R15 to R17, R19); the context users of an
entry, 16, in ascending number (R15, log 10); a section in progress, 1 to 1024 bytes in one block for each 64 bytes begun, so 1
to 16 blocks, its length absent below three bytes and then 12 to 1024 and not yet reached (Table 2-2, R21, R24, R27); a section
in the delivery queue, 12 to 1024 bytes (R24, R35; the queue has no limit of its own, R36); 8 seen sets of a filter (R34); 64
entries of an index and of a collection (R52); 256 service records (R55); 2048 events (R58), each with 3 ratings (R59); the
tracked services, which are distinct and each that of a RUNNING tuner context, so 16 (R63, R99); 4 group memberships (R74), 64
entitlements (R71), 16 exception records (R78); 8 components, 3 map ratings and 3 play ratings of a context (Table 6-2, R102,
R104), and 8 components of a placed switch marker (R153); 4 quiet windows of a profile (R126), 32 locked services (R128), 8
grants (R129); 64 packets of a presentation queue (R151), 128 of the capture queue, 64 of one context (R158); 4 order packets
(R169), 16 answers (R171), 32 notices (R168, R173). Not named: the commands that wait, the purposes of a user, and the bytes of
packets and answers. -/
def Obligations.StepsKeepTheListsBounded : Prop :=
  ∀ s t : State, ListsBounded s ∧ LinkQueuesBounded s → step s = .next t → ListsBounded t ∧ LinkQueuesBounded t

/-- Every step keeps each context's drain count equal to the number of its packets in the presentation and capture queues, its
capture count to those in the capture queue, and the drain count of a FREE context at 0 (R158, R161, R114). -/
def Obligations.StepsKeepTheDrainCounts : Prop :=
  ∀ s t : State, DrainsCounted s → step s = .next t → DrainsCounted t

/-- Every step keeps the identities of the contexts that are neither FREE nor RETIRING distinct (R99). -/
def Obligations.StepsKeepIdentitiesDistinct : Prop :=
  ∀ s t : State, IdentitiesDistinct s.ctl.contexts → step s = .next t → IdentitiesDistinct t.ctl.contexts

/-- Every step keeps it so that a key slot holds a key only while its tier is held (R76, R90). -/
def Obligations.StepsKeepKeysBehindTheirTier : Prop :=
  ∀ s t : State, KeysHeld s.access.slots s.access.entitlements → step s = .next t →
    KeysHeld t.access.slots t.access.entitlements

/-- The part right after reset meets every one of these invariants. -/
def Obligations.ResetMeetsTheInvariants : Prop :=
  State.reset.blocksTotal = 512 ∧ TableSound State.reset.table ∧ ListsBounded State.reset ∧ LinkQueuesBounded State.reset ∧
    DrainsCounted State.reset ∧ IdentitiesDistinct State.reset.ctl.contexts ∧
    KeysHeld State.reset.access.slots State.reset.access.entitlements

/-- An order written as the bytes of an order packet is read back as itself, with whatever follows it left to read (R170,
R171): its code, tag and parameters are framed by its length, and every field of the order is among them. -/
def Obligations.OrdersWrittenAreReadBack : Prop :=
  ∀ (i : Instr) (l : List Byte), i.wellFormed = true → orderBytes i = some l →
    ∀ rest : List Byte, ∃ (code tag : Byte) (params : List Byte),
      frameOrder (l ++ rest) = .framed code tag params ∧ l.length = params.length + 4 ∧ readOrder code tag params = .order i

/-- Time sections. A malformed one is ignored and counted (R44). A well-formed one sets an UNSET clock (R45): the tracked
services are judged, all verdicts computed, and then the time update announced (the order is log 12, that of the services log
43). While the clock is SET (R46): a value within 4 s is taken, a step where N changes; one that agrees within 2 s with a
candidate of at most 60 s is a confirmed jump; any other becomes the candidate and leaves N. The L of a CLOCK notice is log
29. In each case the pending change is replaced and tested (R48), and M is floor((N + 60 L) ÷ 60) mod 10080 (R50); a minute
event computes every pair again where M has changed (R136). -/
def Obligations.TimeSections : Prop :=
  (∀ (h : SectionHeader) (body : List Byte) (s : State) (good : Int → Prop),
    good = (fun z => -720 ≤ z ∧ z ≤ 840 ∧ z % 15 = 0) →
    ((h.extension ≠ 0 ∨ readTime body = none ∨ (∃ t, readTime body = some t ∧ ¬ good t.offset) ∨
        ∃ t c, readTime body = some t ∧ t.change = some c ∧ ¬ good c.l2) →
      timeSection h body s = { s with clock := { s.clock with malformed := bump top32 s.clock.malformed } }) ∧
    ∀ t : TimeBody, h.extension = 0 → readTime body = some t → good t.offset → (∀ c, t.change = some c → good c.l2) →
      (∀ (l : Int) (change : Option OffsetChange),
        ((∃ c, t.change = some c ∧ c.n2 ≤ t.n ∧ l = c.l2 ∧ change = none) ∨
          (∀ c, t.change = some c → t.n < c.n2) ∧ l = t.offset ∧ change = t.change) →
        (s.clock.net = none →
          timeSection h body s =
            announceTime s.clock.minute (rejudgeVerdicts (fun _ => true) (judgeTracked
              { s with
                clock :=
                  { s.clock with net := some ⟨t.n, l⟩, change := change, minute := some (minuteOfWeek t.n l) }
                notices := s.notices.join (.clockSet t.n l) }))) ∧
        (∀ now, s.clock.net = some now → t.n ≤ now.n + 4 → now.n ≤ t.n + 4 →
          (t.n = now.n →
            timeSection h body s =
              minuteEvent s.clock.minute
                { s with clock :=
                  { s.clock with
                    net := some ⟨t.n, l⟩, change := change, minute := some (minuteOfWeek t.n l), candidate := none } }) ∧
          (t.n ≠ now.n →
            timeSection h body s =
              announceTime s.clock.minute
                { s with clock :=
                  { s.clock with
                    net := some ⟨t.n, l⟩, change := change, minute := some (minuteOfWeek t.n l), candidate := none,
                    steps := bump top32 s.clock.steps } })) ∧
        (∀ now k, s.clock.net = some now → now.n + 4 < t.n ∨ t.n + 4 < now.n → s.clock.candidate = some k →
          s.clock.uptime ≤ k.uptime + 60 → t.n ≤ k.value + (s.clock.uptime - k.uptime) + 2 →
          k.value + (s.clock.uptime - k.uptime) ≤ t.n + 2 →
          timeSection h body s =
            announceTime s.clock.minute
              { s with
                clock :=
                  { s.clock with
                    net := some ⟨t.n, l⟩, change := change, minute := some (minuteOfWeek t.n l), candidate := none,
                    jumps := bump top32 s.clock.jumps }
                notices := s.notices.join (.clockJump t.n l now.n) })) ∧
      ∀ (now : NetTime) (l : Int) (change : Option OffsetChange), s.clock.net = some now →
        now.n + 4 < t.n ∨ t.n + 4 < now.n →
        (∀ k, s.clock.candidate = some k → k.uptime + 60 < s.clock.uptime ∨
          k.value + (s.clock.uptime - k.uptime) + 2 < t.n ∨ t.n + 2 < k.value + (s.clock.uptime - k.uptime)) →
        ((∃ c, t.change = some c ∧ c.n2 ≤ now.n ∧ l = c.l2 ∧ change = none) ∨
          (∀ c, t.change = some c → now.n < c.n2) ∧ l = now.offset ∧ change = t.change) →
        timeSection h body s =
          minuteEvent s.clock.minute
            { s with clock :=
              { s.clock with
                net := some ⟨now.n, l⟩, change := change, minute := some (minuteOfWeek now.n l),
                candidate := some ⟨t.n, s.clock.uptime⟩ } }) ∧
  (∀ (n : Nat) (l : Int), (minuteOfWeek n l : Int) = (((n : Int) + 60 * l) / 60) % 10080) ∧
  ∀ (old : Option Nat) (s : State),
    (s.clock.minute = old → minuteEvent old s = s) ∧
    (s.clock.minute ≠ old → HoldsOnly s (minuteEvent old s) ∧ VerdictsOn (minuteEvent old s) (fun _ _ => True))

/-- An entitlement message is ignored while the access state is DISABLED or the home network id is absent (R65, R66), is counted
where it is unreadable or not addressed to this unit (R68), and then meets the tests for network, check value and sequence
(R69, R70); what fails one is logged, and of what is accepted the sequence number is recorded before the instruction is
applied. -/
def Obligations.EntitlementMessagesAreOpened : Prop :=
  ∀ (i : Input) (stream : Nat) (h : SectionHeader) (body : List Byte) (s : State),
    (s.access.fuses = none ∨ s.access.home = none → entitlementSection i stream h body s = s) ∧
    ∀ (f : Fuses) (home : Nat), s.access.fuses = some f → s.access.home = some home →
      (h.extension ≠ 0 ∨ readAccess body = none →
        entitlementSection i stream h body s =
          { s with access := { s.access with unreadable := bump top32 s.access.unreadable } }) ∧
      ∀ m : AccessBody, h.extension = 0 → readAccess body = some m →
        ((∀ a, m.address = .unit a → a ≠ f.unitAddress.toNat) →
          (∀ g, m.address = .group g → ∀ x ∈ s.access.groups, x.id ≠ g) →
          entitlementSection i stream h body s =
            { s with access := { s.access with notAddressed := bump top32 s.access.notAddressed } }) ∧
        ∀ (key : Key) (record source tier : Option Nat) (u : State),
          (m.address = .unit f.unitAddress.toNat ∧ key = f.unitKey ∧ record = s.access.unitSeq ∧ source = none ∧
              u = { s with access :=
                { s.access with unitSeq := some m.seq, accepted := bump top32 s.access.accepted } } ∨
            ∃ g x, m.address = .group g ∧ s.access.groups.find? (fun x => x.id == g) = some x ∧ key = x.key ∧
              record = x.seq ∧ source = some g ∧
              u = { s with access :=
                { s.access with
                  groups := s.access.groups.map (fun y => if y.id = g then { y with seq := some m.seq } else y)
                  accepted := bump top32 s.access.accepted } }) →
          tier = (match m.instr with
            | .grant t _ _ => some t
            | .revoke t => some t
            | .groups _ => none
            | .purge => none) →
          (m.network ≠ home →
            entitlementSection i stream h body s = logException .wrongNetwork i stream tier m.seq s) ∧
          (m.network = home → Config.checkValue key m.plain ≠ m.check →
            entitlementSection i stream h body s = logException .integrity i stream tier m.seq s) ∧
          (m.network = home → Config.checkValue key m.plain = m.check → (∃ r, record = some r ∧ m.seq ≤ r) →
            entitlementSection i stream h body s = logException .stale i stream tier m.seq s) ∧
          (m.network = home → Config.checkValue key m.plain = m.check → (∀ r, record = some r → r < m.seq) →
            entitlementSection i stream h body s = applyInstr i stream source m.seq key m.instr u)

/-- The instructions of accepted entitlement messages. GRANT (R72) replaces the record of a held tier, adds one while fewer
than 64 are held, upon which ENTITLEMENT is judged again on every destination (R77), or is logged as LIST_FULL; a record
whose expiry is already reached is lost at once. REVOKE and PURGE (R73) lose tiers: the slots of a lost tier are erased,
ENTITLEMENT and KEY_LAPSE are judged for their users, and ENTITLEMENT for every destination (R76); GROUPS (R74) replaces the
memberships and loses what came from dropped groups. PURGE and GROUPS in a GROUP message, more than 4 pairs and repeated
group ids are logged as MALFORMED. Each that is not logged is counted as applied. -/
def Obligations.InstructionsAreApplied : Prop :=
  ∀ (i : Input) (stream : Nat) (source : Option Nat) (seq : Nat) (key : Key) (s u : State),
    u = { s with access := { s.access with applied := bump top32 s.access.applied } } →
    (∀ (tier : Nat) (expiry : Option Nat) (k : Key) (r : Entitlement) (t : State),
      r = { tier := tier, key := Config.decipher key k, expiry := expiry, source := source } →
      t = applyInstr i stream source seq key (.grant tier expiry k) s →
      ((∀ x ∈ s.access.entitlements, x.tier ≠ tier) → 64 ≤ s.access.entitlements.length →
        t = logException .listFull i stream (some tier) seq s) ∧
      ((∀ n e, s.clock.net = some n → expiry = some e → n.n < e) →
        ((∃ x ∈ s.access.entitlements, x.tier = tier) →
          t = { u with access :=
            { u.access with
              entitlements := s.access.entitlements.map (fun x => if x.tier = tier then r else x) } }) ∧
        ((∀ x ∈ s.access.entitlements, x.tier ≠ tier) → s.access.entitlements.length < 64 →
          HoldsOnly { u with access := { u.access with entitlements := s.access.entitlements ++ [r] } } t ∧
            JudgedOn t judgeEntitlement (fun _ => True))) ∧
      ((∃ n e, s.clock.net = some n ∧ expiry = some e ∧ e ≤ n.n) →
        ((∃ x ∈ s.access.entitlements, x.tier = tier) → TiersLost (fun x => x.tier == tier) u t) ∧
        ((∀ x ∈ s.access.entitlements, x.tier ≠ tier) → s.access.entitlements.length < 64 →
          TiersLost (fun x => x.tier == tier)
            { u with access := { u.access with entitlements := s.access.entitlements ++ [r] } } t))) ∧
    (∀ tier : Nat,
      TiersLost (fun x => x.tier == tier) u (applyInstr i stream source seq key (.revoke tier) s)) ∧
    (source = none → TiersLost (fun _ => true) u (applyInstr i stream source seq key .purge s)) ∧
    (source ≠ none → applyInstr i stream source seq key .purge s = logException .malformed i stream none seq s) ∧
    ∀ pairs : List (Nat × Key),
      (source ≠ none ∨ 4 < pairs.length ∨ ¬ (pairs.map Prod.fst).Nodup →
        applyInstr i stream source seq key (.groups pairs) s = logException .malformed i stream none seq s) ∧
      (source = none → pairs.length ≤ 4 → (pairs.map Prod.fst).Nodup →
        TiersLost
          (fun r => match r.source with
            | some g => s.access.groups.any (fun x => x.id == g) && !pairs.any (fun p => p.1 == g)
            | none => false)
          { u with access :=
            { u.access with
              groups := pairs.map (fun p =>
                { id := p.1, key := Config.decipher key p.2,
                  seq := (s.access.groups.find? (fun g => g.id == p.1)).bind Group.seq }) } }
          (applyInstr i stream source seq key (.groups pairs) s))

/-- The descrambler. A presentation copy (R92 to R95) is the packet with its key phase clear where it carries no payload, the
packet as it arrived where its phase is clear, and the descrambled packet where the context's slot holds the key of its phase;
else there is none. Every copy has its key phase clear. A classified packet is counted by its phase on the input, and on the slot
where the context has one: a keyed packet ends the run and a lapse, an unkeyed one lengthens the run, and at 64 a KEYED slot
becomes LAPSED. The end and the beginning of a lapse are reported to the slot's users (R85); else only the counts change. -/
def Obligations.DescramblerClassifies : Prop :=
  (∀ (s : State) (x : Context) (p : List Byte),
    (payloadPresent p = false → presentationCopy s x p = some (withClearPhase p)) ∧
    (payloadPresent p = true → keyPhase p = 0 → presentationCopy s x p = some p) ∧
    (payloadPresent p = true → keyPhase p = 1 → presentationCopy s x p = none) ∧
    (payloadPresent p = true → keyPhase p ≠ 0 → x.slot = none → presentationCopy s x p = none) ∧
    (∀ (k : SlotNo) (y : Slot) (key : Option Key), payloadPresent p = true → x.slot = some k → s.slot k = some y →
      keyPhase p = 2 ∧ key = y.even ∨ keyPhase p = 3 ∧ key = y.odd →
      presentationCopy s x p = key.map (fun key => descrambled key p)) ∧
    ∀ q, 4 ≤ p.length → presentationCopy s x p = some q → keyPhase q = 0) ∧
  (∀ (i : Input) (p : List Byte) (k : SlotNo) (s : State) (x : Slot) (r : DescramblerStats)
      (after : DescramblerStats → Slot → State), s.slot k = some x →
    r = getAt s.access.stats i →
    after = (fun r x =>
      { s with access :=
        { s.access with stats := setAt s.access.stats i r, slots := setAt s.access.slots k (some x) } }) →
    (keyPhase p = 0 →
      classifySlot i p k s =
        { s with access :=
          { s.access with stats := setAt s.access.stats i { r with clear := bump top32 r.clear } } }) ∧
    (keyPhase p = 1 →
      classifySlot i p k s =
        after { r with badPhase := bump top32 r.badPhase } { x with badPhase := bump top32 x.badPhase }) ∧
    ∀ (key : Option Key) (v : State), keyPhase p = 2 ∧ key = x.even ∨ keyPhase p = 3 ∧ key = x.odd →
      (key ≠ none →
        v = after { r with keyed := bump top32 r.keyed }
          { x with run := 0, keyed := bump top32 x.keyed, lapsed := false } →
        (x.lapsed = false → classifySlot i p k s = v) ∧
        (x.lapsed = true → SlotReported x.users v (classifySlot i p k s))) ∧
      (key = none → x.lapsed = true ∨ bump 64 x.run < 64 →
        classifySlot i p k s =
          after { r with unkeyed := bump top32 r.unkeyed }
            { x with run := bump 64 x.run, unkeyed := bump top32 x.unkeyed }) ∧
      (key = none → x.lapsed = false → 64 ≤ bump 64 x.run →
        SlotReported x.users
          (after { r with unkeyed := bump top32 r.unkeyed }
            { x with
              run := bump 64 x.run, unkeyed := bump top32 x.unkeyed, lapsed := true, lapses := bump top16 x.lapses })
          (classifySlot i p k s))) ∧
  ∀ (i : Input) (p : List Byte) (s : State) (r r' : DescramblerStats), r = getAt s.access.stats i →
    (keyPhase p = 0 ∧ r' = { r with clear := bump top32 r.clear } ∨
      keyPhase p = 1 ∧ r' = { r with badPhase := bump top32 r.badPhase } ∨
      (keyPhase p = 2 ∨ keyPhase p = 3) ∧ r' = { r with withoutSlot := bump top32 r.withoutSlot }) →
    classifySlotless i p s = { s with access := { s.access with stats := setAt s.access.stats i r' } }

/-- What an entry packet of a context does. It makes a context in ENTRY RUNNING (R106). Each output whose pending binding is
the context and whose marker place is empty switches (R107): the marker with its ahead count, the binding with the output's
grants ended, the oldest first (log 47), the packet where the hold set is empty, the old context, which retires where it has
no destination left, and TUNE_DONE. Each tag BOUND and not started begins capture (R108). Then, as for every packet of a
RUNNING context, copies go to the outputs whose current binding is the context and to its started tags, where the hold set is
empty (R117). The order output 0, output 1, tags 0 to 7 is log 41; all four reasons are judged again where a destination
becomes active (log 20), and the entry packet is admitted to each destination once (log 39). -/
def Obligations.EntryPacketsSwitchAndStart : Prop :=
  (∀ (c : CtxNo) (s : State) (x : Context), x = s.context c →
    (x.state ≠ .entry → becomeRunning c s = s) ∧
    (∀ u, u = s.setContext c { x with state := .running, deadline := none } → x.state = .entry →
      (x.input = pb → becomeRunning c s = u) ∧ (x.input ≠ pb → becomeRunning c s = startTracking x.service u)) ∧
    ∀ o : OutputNo, canSwitch s c o = true ↔
      (∃ b, (s.binding o).pending = some b ∧ b.ctx = c) ∧ (s.output o).marker = none) ∧
  (∀ (o : OutputNo) (c : CtxNo) (copy : Option (List Byte)) (arrival : BitVec 32) (s u v : State) (x : Context)
      (kept : List Grant) (hold : HoldSet),
    x = s.context c → kept = s.parental.grants.filter (fun g => g.output != o) →
    hold =
      { signal := !s.up x.input, entitlement := entitlementReason s x, keyLapse := keyLapseReason s x,
        parental := verdict { s with parental := { s.parental with grants := kept } } c o } →
    u =
      { s with
        out :=
          { s.out with
            outputs := setAt s.out.outputs o
              { s.output o with
                marker := some
                  { ctx := c, input := x.input, service := x.service, components := x.components,
                    ahead := (s.output o).queue.length } } }
        ctl := { s.ctl with outputs := setAt s.ctl.outputs o { current := some ⟨c, hold⟩, pending := none } }
        parental := { s.parental with grants := kept }
        notices := s.notices.joinAll ((s.parental.grants.filter (fun g => g.output == o)).map
          (fun g => .grantEnd g.output g.key g.profile .binding)) } →
    (∃ p, copy = some p ∧ hold = .none ∧ v = handToOutput o c p arrival u) ∨ (copy = none ∨ hold ≠ .none) ∧ v = u →
    ((∀ b, (s.binding o).current = some b → hasDestination v b.ctx = true) →
      switchOutput o c copy arrival s =
        { v with notices := v.notices.join (.tuneDone (.output o) c x.input x.service hold) }) ∧
    ∀ (b : Binding) (w : State), (s.binding o).current = some b → hasDestination v b.ctx = false →
      w = retire b.ctx v →
      switchOutput o c copy arrival s =
        { w with notices := w.notices.join (.tuneDone (.output o) c x.input x.service hold) }) ∧
  (∀ (k : TagNo) (c : CtxNo) (s : State) (x : Context) (hold : HoldSet), x = s.context c →
    hold =
      { signal := !s.up x.input, entitlement := entitlementReason s x, keyLapse := false, parental := .none } →
    (∀ w old, s.tag k = .bound c (some w) old →
      startTag c k s =
        { s with
          ctl := { s.ctl with tags := setAt s.ctl.tags k (.bound c none hold) }
          notices := s.notices.join (.tuneDone (.tag k) c x.input x.service hold) }) ∧
    ((∀ w old, s.tag k ≠ .bound c (some w) old) → startTag c k s = s)) ∧
  (∀ (o : OutputNo) (c : CtxNo) (copy : Option (List Byte)) (arrival : BitVec 32) (s : State),
    (∀ p, (s.binding o).current = some ⟨c, .none⟩ → copy = some p →
      admitOutput c copy arrival o s = handToOutput o c p arrival s) ∧
    ((s.binding o).current ≠ some ⟨c, .none⟩ ∨ copy = none → admitOutput c copy arrival o s = s)) ∧
  (∀ (k : TagNo) (c : CtxNo) (slot : Nat) (p : List Byte) (s : State),
    (s.tag k = .bound c none .none → admitTag c slot p k s = handToCapture k c slot p s) ∧
    (s.tag k ≠ .bound c none .none → admitTag c slot p k s = s)) ∧
  ∀ (p : List Byte) (arrival : BitVec 32) (c : CtxNo) (k : Fin 8) (s : State) (x : Context), x = s.context c →
    (x.state ≠ .entry → x.state ≠ .running → takeComponent p arrival c k s = s) ∧
    (x.state = .entry → (entryMark p = false ∨ x.entryComponent ≠ some k.val) → takeComponent p arrival c k s = s) ∧
    (x.state = .running → (entryMark p = false ∨ x.entryComponent ≠ some k.val) →
      takeComponent p arrival c k s = admitPacket c k p (presentationCopy s x p) arrival [] s) ∧
    (∀ (u : State) (copy : Option (List Byte)) (switching : List OutputNo), x.state = .entry ∨ x.state = .running →
      entryMark p = true → x.entryComponent = some k.val → u = becomeRunning c s →
      copy = presentationCopy u (u.context c) p → switching = outputNos.filter (canSwitch u c) →
      takeComponent p arrival c k s =
        admitPacket c k p copy arrival switching
          (tagNos.foldl (fun s t => startTag c t s)
            (switching.foldl (fun s o => switchOutput o c copy arrival s) u))) ∧
    ∀ (copy : Option (List Byte)) (except : List OutputNo), x.state = .running →
      admitPacket c k p copy arrival except s =
        tagNos.foldl (fun s t => admitTag c (2 + k.val) p t s)
          ((outputNos.filter (fun o => !except.contains o)).foldl (fun s o => admitOutput c copy arrival o s) s)

/-- How sections are assembled. A byte on a 64-byte boundary claims a block (R28): a claim of an entry whose consumers are only
GUIDE and host filters is granted while more than 64 blocks are free, any other while one is free; a refused claim abandons the
section and counts the starvation. A byte that has its block joins the section; the third one gives the length, and a length
outside 9..1021 abandons the section as a framing fault (R24); the last one completes it (R29). A payload without a lead byte is
discarded unless the entry is COLLECTING (R22). A lead run past its payload is a framing fault (R23); on a COLLECTING entry the
lead run's bytes are appended: one that ends before the section does cuts it short, one that runs over it is a framing fault, and
an abandoned section discards its rest. After the lead run, and after a section, a byte 0xFF is stuffing and leaves the entry
IDLE, and any other begins a section (R25). The blocks of a completed section go to the delivery queue where a filter matched,
else back to the free blocks (R35). -/
def Obligations.SectionsAreAssembled : Prop :=
  (∀ (i : Input) (stream : Nat) (b : Byte) (s : State) (e : Entry) (blocks claimed : Nat) (bytes : List Byte)
      (expected : Option Nat) (restricted granted : Prop) (after : Assembly → Nat → State),
    findEntry i stream s = some e →
    e.assembly = .collecting blocks bytes expected ∨
      (e.assembly = .idle ∨ e.assembly = .skipping) ∧ blocks = 0 ∧ bytes = [] ∧ expected = none →
    (restricted ↔ (∀ x ∈ e.users, Purpose.map ∉ x.purposes ∧ ∀ k, Purpose.keys k ∉ x.purposes) ∧
      e.pins.index = false ∧ e.pins.access = false ∧ e.pins.time = false) →
    (granted ↔ restricted ∧ 64 < s.sections.freeBlocks ∨ ¬ restricted ∧ 1 ≤ s.sections.freeBlocks) →
    (bytes.length % 64 = 0 → ¬ granted →
      appendByte i stream b s =
        (.abandoned,
          { s with
            table := updateFirst (isAt i stream)
              (fun e => { e with assembly := .skipping, starve := bump top16 e.starve }) s.table
            sections :=
              { s.sections with
                freeBlocks := s.sections.freeBlocks + blocks
                stats := setAt s.sections.stats i
                  { getAt s.sections.stats i with starved := bump top32 (getAt s.sections.stats i).starved } } })) ∧
    (claimed = (if bytes.length % 64 = 0 then 1 else 0) → (bytes.length % 64 = 0 → granted) →
      after = (fun a n =>
        { s with
          table := updateFirst (isAt i stream) (fun e => { e with assembly := a }) s.table
          sections := { s.sections with freeBlocks := n } }) →
      (bytes.length = 2 →
        (9 ≤ sectionLength (bytes ++ [b]) → sectionLength (bytes ++ [b]) ≤ 1021 →
          appendByte i stream b s =
            (.inProgress,
              after (.collecting (blocks + claimed) (bytes ++ [b]) (some (sectionLength (bytes ++ [b]) + 3)))
                (s.sections.freeBlocks - claimed))) ∧
        (sectionLength (bytes ++ [b]) < 9 ∨ 1021 < sectionLength (bytes ++ [b]) →
          appendByte i stream b s =
            (.abandoned, countFraming i (after .skipping (s.sections.freeBlocks + blocks))))) ∧
      (bytes.length ≠ 2 → expected ≠ some (bytes.length + 1) →
        appendByte i stream b s =
          (.inProgress,
            after (.collecting (blocks + claimed) (bytes ++ [b]) expected) (s.sections.freeBlocks - claimed))) ∧
      (bytes.length ≠ 2 → expected = some (bytes.length + 1) →
        appendByte i stream b s =
          (.completed, completeSection e (bytes ++ [b])
            (after (.collecting (blocks + claimed) (bytes ++ [b]) expected) (s.sections.freeBlocks - claimed)))))) ∧
  (∀ (i : Input) (stream : Nat) (s : State) (e : Entry) (l : List Byte), findEntry i stream s = some e →
    ((e.assembly = .idle ∨ e.assembly = .skipping) → handPayload i stream false l s = s) ∧
    (∀ blocks bytes expected, e.assembly = .collecting blocks bytes expected →
      handPayload i stream false l s = takeBytes i stream false l s) ∧
    (∀ p : Byte, l.length < p.toNat →
      handPayload i stream true (p :: l) s = countFraming i (abandon i stream s)) ∧
    handPayload i stream true [] s = countFraming i (abandon i stream s) ∧
    (∀ p : Byte, p.toNat ≤ l.length → (e.assembly = .idle ∨ e.assembly = .skipping) →
      handPayload i stream true (p :: l) s = takeBytes i stream true (l.drop p.toNat) s) ∧
    ∀ (p : Byte) (blocks : Nat) (bytes : List Byte) (expected : Option Nat), p.toNat ≤ l.length →
      e.assembly = .collecting blocks bytes expected →
      handPayload i stream true (p :: l) s =
        takeBytes i stream true (l.drop p.toNat) (leadBytes i stream (l.take p.toNat) s)) ∧
  (∀ (i : Input) (stream : Nat) (b : Byte) (l : List Byte) (s t : State),
    leadBytes i stream [] s = countFraming i (abandon i stream s) ∧
    (appendByte i stream b s = (.inProgress, t) → leadBytes i stream (b :: l) s = leadBytes i stream l t) ∧
    (appendByte i stream b s = (.completed, t) →
      leadBytes i stream (b :: l) s = if l = [] then t else countFraming i t) ∧
    (appendByte i stream b s = (.abandoned, t) → leadBytes i stream (b :: l) s = t) ∧
    takeBytes i stream true [] s = setAssembly i stream .idle s ∧ takeBytes i stream false [] s = s ∧
    takeBytes i stream true (0xFF :: l) s = setAssembly i stream .idle s ∧
    ∀ between : Bool, between = false ∨ b ≠ 0xFF →
      (appendByte i stream b s = (.inProgress, t) → takeBytes i stream between (b :: l) s = takeBytes i stream false l t) ∧
      (appendByte i stream b s = (.completed, t) → takeBytes i stream between (b :: l) s = takeBytes i stream true l t) ∧
      (appendByte i stream b s = (.abandoned, t) → takeBytes i stream between (b :: l) s = t)) ∧
  ∀ (i : Input) (stream : Nat) (bad : Bool) (bytes taken : List Byte) (matched : BitVec 24) (s u : State) (e : Entry)
      (blocks : Nat) (expected : Option Nat),
    findEntry i stream s = some e → e.assembly = .collecting blocks taken expected →
    u = { s with table := updateFirst (isAt i stream) (fun e => { e with assembly := .idle }) s.table } →
    (matched = 0 →
      moveSection i stream bad bytes matched s =
        { u with sections := { u.sections with freeBlocks := s.sections.freeBlocks + blocks } }) ∧
    ∀ queue : List Delivery,
      queue = s.sections.queue ++
        [{ filters := matched, input := i, stream := stream, bad := bad, bytes := bytes, blocks := blocks,
           joined := s.time.cycles, number := none, sentPackets := 0 }] →
      matched ≠ 0 →
      ((s.sections.trigger ≤ queue.length ∨
          ∃ d, queue.head? = some d ∧ d.joined + s.sections.timeout * cyclesPerMs ≤ s.time.cycles) →
        moveSection i stream bad bytes matched s =
          { u with sections := { u.sections with queue := queue, released := true } }) ∧
      (queue.length < s.sections.trigger →
        (∀ d, queue.head? = some d → s.time.cycles < d.joined + s.sections.timeout * cyclesPerMs) →
        moveSection i stream bad bytes matched s = { u with sections := { u.sections with queue := queue } })

end
end

