-- ==== Sys2Proof/Laws/State.lean ====
section
/-! SUPPORT. One lemma for each field of each update of the state, and for each place of a vector. -/

namespace Sys2Proof.Machine

/-! ### Places -/

@[simp] theorem getAt_setAt {α : Type} {n : Nat} (v : Vector α n) (i j : Fin n) (x : α) :
    getAt (setAt v i x) j = if i = j then x else getAt v j := by
  simp only [getAt, setAt, Vector.get_eq_getElem, Vector.getElem_set, Fin.ext_iff]

theorem getAt_setAt_self {α : Type} {n : Nat} (v : Vector α n) (i : Fin n) (x : α) : getAt (setAt v i x) i = x := by
  simp

theorem getAt_setAt_ne {α : Type} {n : Nat} (v : Vector α n) {i j : Fin n} (x : α) (h : i ≠ j) :
    getAt (setAt v i x) j = getAt v j := by
  simp [h]

@[simp] theorem getAt_modAt {α : Type} {n : Nat} (v : Vector α n) (i j : Fin n) (f : α → α) :
    getAt (modAt v i f) j = if i = j then f (getAt v i) else getAt v j := by
  simp [modAt]

@[simp] theorem getAt_replicate {α : Type} {n : Nat} (x : α) (i : Fin n) : getAt (Vector.replicate n x) i = x := by
  simp [getAt, Vector.get_eq_getElem]

/-! ### setContext -/

@[simp] theorem setContext_pending (s : State) (c : CtxNo) (x : Context) : (s.setContext c x).pending = s.pending := rfl
@[simp] theorem setContext_time (s : State) (c : CtxNo) (x : Context) : (s.setContext c x).time = s.time := rfl
@[simp] theorem setContext_intake (s : State) (c : CtxNo) (x : Context) : (s.setContext c x).intake = s.intake := rfl
@[simp] theorem setContext_table (s : State) (c : CtxNo) (x : Context) : (s.setContext c x).table = s.table := rfl
@[simp] theorem setContext_sections (s : State) (c : CtxNo) (x : Context) : (s.setContext c x).sections = s.sections := rfl
@[simp] theorem setContext_clock (s : State) (c : CtxNo) (x : Context) : (s.setContext c x).clock = s.clock := rfl
@[simp] theorem setContext_guide (s : State) (c : CtxNo) (x : Context) : (s.setContext c x).guide = s.guide := rfl
@[simp] theorem setContext_access (s : State) (c : CtxNo) (x : Context) : (s.setContext c x).access = s.access := rfl
@[simp] theorem setContext_parental (s : State) (c : CtxNo) (x : Context) : (s.setContext c x).parental = s.parental := rfl
@[simp] theorem setContext_out (s : State) (c : CtxNo) (x : Context) : (s.setContext c x).out = s.out := rfl
@[simp] theorem setContext_notices (s : State) (c : CtxNo) (x : Context) : (s.setContext c x).notices = s.notices := rfl
@[simp] theorem setContext_mgmt (s : State) (c : CtxNo) (x : Context) : (s.setContext c x).mgmt = s.mgmt := rfl
@[simp] theorem setContext_link (s : State) (c : CtxNo) (x : Context) : (s.setContext c x).link = s.link := rfl

/-! ### setSlot -/

@[simp] theorem setSlot_pending (s : State) (k : SlotNo) (x : Option Slot) : (s.setSlot k x).pending = s.pending := rfl
@[simp] theorem setSlot_time (s : State) (k : SlotNo) (x : Option Slot) : (s.setSlot k x).time = s.time := rfl
@[simp] theorem setSlot_intake (s : State) (k : SlotNo) (x : Option Slot) : (s.setSlot k x).intake = s.intake := rfl
@[simp] theorem setSlot_table (s : State) (k : SlotNo) (x : Option Slot) : (s.setSlot k x).table = s.table := rfl
@[simp] theorem setSlot_sections (s : State) (k : SlotNo) (x : Option Slot) : (s.setSlot k x).sections = s.sections := rfl
@[simp] theorem setSlot_clock (s : State) (k : SlotNo) (x : Option Slot) : (s.setSlot k x).clock = s.clock := rfl
@[simp] theorem setSlot_guide (s : State) (k : SlotNo) (x : Option Slot) : (s.setSlot k x).guide = s.guide := rfl
@[simp] theorem setSlot_ctl (s : State) (k : SlotNo) (x : Option Slot) : (s.setSlot k x).ctl = s.ctl := rfl
@[simp] theorem setSlot_parental (s : State) (k : SlotNo) (x : Option Slot) : (s.setSlot k x).parental = s.parental := rfl
@[simp] theorem setSlot_out (s : State) (k : SlotNo) (x : Option Slot) : (s.setSlot k x).out = s.out := rfl
@[simp] theorem setSlot_notices (s : State) (k : SlotNo) (x : Option Slot) : (s.setSlot k x).notices = s.notices := rfl
@[simp] theorem setSlot_mgmt (s : State) (k : SlotNo) (x : Option Slot) : (s.setSlot k x).mgmt = s.mgmt := rfl
@[simp] theorem setSlot_link (s : State) (k : SlotNo) (x : Option Slot) : (s.setSlot k x).link = s.link := rfl

/-! ### setProfile -/

@[simp] theorem setProfile_pending (s : State) (p : ProfileNo) (x : Profile) : (s.setProfile p x).pending = s.pending := rfl
@[simp] theorem setProfile_time (s : State) (p : ProfileNo) (x : Profile) : (s.setProfile p x).time = s.time := rfl
@[simp] theorem setProfile_intake (s : State) (p : ProfileNo) (x : Profile) : (s.setProfile p x).intake = s.intake := rfl
@[simp] theorem setProfile_table (s : State) (p : ProfileNo) (x : Profile) : (s.setProfile p x).table = s.table := rfl
@[simp] theorem setProfile_sections (s : State) (p : ProfileNo) (x : Profile) : (s.setProfile p x).sections = s.sections := rfl
@[simp] theorem setProfile_clock (s : State) (p : ProfileNo) (x : Profile) : (s.setProfile p x).clock = s.clock := rfl
@[simp] theorem setProfile_guide (s : State) (p : ProfileNo) (x : Profile) : (s.setProfile p x).guide = s.guide := rfl
@[simp] theorem setProfile_access (s : State) (p : ProfileNo) (x : Profile) : (s.setProfile p x).access = s.access := rfl
@[simp] theorem setProfile_ctl (s : State) (p : ProfileNo) (x : Profile) : (s.setProfile p x).ctl = s.ctl := rfl
@[simp] theorem setProfile_out (s : State) (p : ProfileNo) (x : Profile) : (s.setProfile p x).out = s.out := rfl
@[simp] theorem setProfile_notices (s : State) (p : ProfileNo) (x : Profile) : (s.setProfile p x).notices = s.notices := rfl
@[simp] theorem setProfile_mgmt (s : State) (p : ProfileNo) (x : Profile) : (s.setProfile p x).mgmt = s.mgmt := rfl
@[simp] theorem setProfile_link (s : State) (p : ProfileNo) (x : Profile) : (s.setProfile p x).link = s.link := rfl

/-! ### setBinding -/

@[simp] theorem setBinding_pending (s : State) (o : OutputNo) (x : OutBind) : (s.setBinding o x).pending = s.pending := rfl
@[simp] theorem setBinding_time (s : State) (o : OutputNo) (x : OutBind) : (s.setBinding o x).time = s.time := rfl
@[simp] theorem setBinding_intake (s : State) (o : OutputNo) (x : OutBind) : (s.setBinding o x).intake = s.intake := rfl
@[simp] theorem setBinding_table (s : State) (o : OutputNo) (x : OutBind) : (s.setBinding o x).table = s.table := rfl
@[simp] theorem setBinding_sections (s : State) (o : OutputNo) (x : OutBind) : (s.setBinding o x).sections = s.sections := rfl
@[simp] theorem setBinding_clock (s : State) (o : OutputNo) (x : OutBind) : (s.setBinding o x).clock = s.clock := rfl
@[simp] theorem setBinding_guide (s : State) (o : OutputNo) (x : OutBind) : (s.setBinding o x).guide = s.guide := rfl
@[simp] theorem setBinding_access (s : State) (o : OutputNo) (x : OutBind) : (s.setBinding o x).access = s.access := rfl
@[simp] theorem setBinding_parental (s : State) (o : OutputNo) (x : OutBind) : (s.setBinding o x).parental = s.parental := rfl
@[simp] theorem setBinding_out (s : State) (o : OutputNo) (x : OutBind) : (s.setBinding o x).out = s.out := rfl
@[simp] theorem setBinding_notices (s : State) (o : OutputNo) (x : OutBind) : (s.setBinding o x).notices = s.notices := rfl
@[simp] theorem setBinding_mgmt (s : State) (o : OutputNo) (x : OutBind) : (s.setBinding o x).mgmt = s.mgmt := rfl
@[simp] theorem setBinding_link (s : State) (o : OutputNo) (x : OutBind) : (s.setBinding o x).link = s.link := rfl

/-! ### setTag -/

@[simp] theorem setTag_pending (s : State) (t : TagNo) (x : TagRec) : (s.setTag t x).pending = s.pending := rfl
@[simp] theorem setTag_time (s : State) (t : TagNo) (x : TagRec) : (s.setTag t x).time = s.time := rfl
@[simp] theorem setTag_intake (s : State) (t : TagNo) (x : TagRec) : (s.setTag t x).intake = s.intake := rfl
@[simp] theorem setTag_table (s : State) (t : TagNo) (x : TagRec) : (s.setTag t x).table = s.table := rfl
@[simp] theorem setTag_sections (s : State) (t : TagNo) (x : TagRec) : (s.setTag t x).sections = s.sections := rfl
@[simp] theorem setTag_clock (s : State) (t : TagNo) (x : TagRec) : (s.setTag t x).clock = s.clock := rfl
@[simp] theorem setTag_guide (s : State) (t : TagNo) (x : TagRec) : (s.setTag t x).guide = s.guide := rfl
@[simp] theorem setTag_access (s : State) (t : TagNo) (x : TagRec) : (s.setTag t x).access = s.access := rfl
@[simp] theorem setTag_parental (s : State) (t : TagNo) (x : TagRec) : (s.setTag t x).parental = s.parental := rfl
@[simp] theorem setTag_out (s : State) (t : TagNo) (x : TagRec) : (s.setTag t x).out = s.out := rfl
@[simp] theorem setTag_notices (s : State) (t : TagNo) (x : TagRec) : (s.setTag t x).notices = s.notices := rfl
@[simp] theorem setTag_mgmt (s : State) (t : TagNo) (x : TagRec) : (s.setTag t x).mgmt = s.mgmt := rfl
@[simp] theorem setTag_link (s : State) (t : TagNo) (x : TagRec) : (s.setTag t x).link = s.link := rfl

/-! ### setOutput -/

@[simp] theorem setOutput_pending (s : State) (o : OutputNo) (x : Output) : (s.setOutput o x).pending = s.pending := rfl
@[simp] theorem setOutput_time (s : State) (o : OutputNo) (x : Output) : (s.setOutput o x).time = s.time := rfl
@[simp] theorem setOutput_intake (s : State) (o : OutputNo) (x : Output) : (s.setOutput o x).intake = s.intake := rfl
@[simp] theorem setOutput_table (s : State) (o : OutputNo) (x : Output) : (s.setOutput o x).table = s.table := rfl
@[simp] theorem setOutput_sections (s : State) (o : OutputNo) (x : Output) : (s.setOutput o x).sections = s.sections := rfl
@[simp] theorem setOutput_clock (s : State) (o : OutputNo) (x : Output) : (s.setOutput o x).clock = s.clock := rfl
@[simp] theorem setOutput_guide (s : State) (o : OutputNo) (x : Output) : (s.setOutput o x).guide = s.guide := rfl
@[simp] theorem setOutput_access (s : State) (o : OutputNo) (x : Output) : (s.setOutput o x).access = s.access := rfl
@[simp] theorem setOutput_ctl (s : State) (o : OutputNo) (x : Output) : (s.setOutput o x).ctl = s.ctl := rfl
@[simp] theorem setOutput_parental (s : State) (o : OutputNo) (x : Output) : (s.setOutput o x).parental = s.parental := rfl
@[simp] theorem setOutput_notices (s : State) (o : OutputNo) (x : Output) : (s.setOutput o x).notices = s.notices := rfl
@[simp] theorem setOutput_mgmt (s : State) (o : OutputNo) (x : Output) : (s.setOutput o x).mgmt = s.mgmt := rfl
@[simp] theorem setOutput_link (s : State) (o : OutputNo) (x : Output) : (s.setOutput o x).link = s.link := rfl

/-! ### setSync -/

@[simp] theorem setSync_pending (s : State) (i : Input) (x : SyncRec) : (s.setSync i x).pending = s.pending := rfl
@[simp] theorem setSync_time (s : State) (i : Input) (x : SyncRec) : (s.setSync i x).time = s.time := rfl
@[simp] theorem setSync_table (s : State) (i : Input) (x : SyncRec) : (s.setSync i x).table = s.table := rfl
@[simp] theorem setSync_sections (s : State) (i : Input) (x : SyncRec) : (s.setSync i x).sections = s.sections := rfl
@[simp] theorem setSync_clock (s : State) (i : Input) (x : SyncRec) : (s.setSync i x).clock = s.clock := rfl
@[simp] theorem setSync_guide (s : State) (i : Input) (x : SyncRec) : (s.setSync i x).guide = s.guide := rfl
@[simp] theorem setSync_access (s : State) (i : Input) (x : SyncRec) : (s.setSync i x).access = s.access := rfl
@[simp] theorem setSync_ctl (s : State) (i : Input) (x : SyncRec) : (s.setSync i x).ctl = s.ctl := rfl
@[simp] theorem setSync_parental (s : State) (i : Input) (x : SyncRec) : (s.setSync i x).parental = s.parental := rfl
@[simp] theorem setSync_out (s : State) (i : Input) (x : SyncRec) : (s.setSync i x).out = s.out := rfl
@[simp] theorem setSync_notices (s : State) (i : Input) (x : SyncRec) : (s.setSync i x).notices = s.notices := rfl
@[simp] theorem setSync_mgmt (s : State) (i : Input) (x : SyncRec) : (s.setSync i x).mgmt = s.mgmt := rfl
@[simp] theorem setSync_link (s : State) (i : Input) (x : SyncRec) : (s.setSync i x).link = s.link := rfl

/-! ### setLock -/

@[simp] theorem setLock_pending (s : State) (p : PortNo) (b : Bool) : (s.setLock p b).pending = s.pending := rfl
@[simp] theorem setLock_time (s : State) (p : PortNo) (b : Bool) : (s.setLock p b).time = s.time := rfl
@[simp] theorem setLock_table (s : State) (p : PortNo) (b : Bool) : (s.setLock p b).table = s.table := rfl
@[simp] theorem setLock_sections (s : State) (p : PortNo) (b : Bool) : (s.setLock p b).sections = s.sections := rfl
@[simp] theorem setLock_clock (s : State) (p : PortNo) (b : Bool) : (s.setLock p b).clock = s.clock := rfl
@[simp] theorem setLock_guide (s : State) (p : PortNo) (b : Bool) : (s.setLock p b).guide = s.guide := rfl
@[simp] theorem setLock_access (s : State) (p : PortNo) (b : Bool) : (s.setLock p b).access = s.access := rfl
@[simp] theorem setLock_ctl (s : State) (p : PortNo) (b : Bool) : (s.setLock p b).ctl = s.ctl := rfl
@[simp] theorem setLock_parental (s : State) (p : PortNo) (b : Bool) : (s.setLock p b).parental = s.parental := rfl
@[simp] theorem setLock_out (s : State) (p : PortNo) (b : Bool) : (s.setLock p b).out = s.out := rfl
@[simp] theorem setLock_notices (s : State) (p : PortNo) (b : Bool) : (s.setLock p b).notices = s.notices := rfl
@[simp] theorem setLock_mgmt (s : State) (p : PortNo) (b : Bool) : (s.setLock p b).mgmt = s.mgmt := rfl
@[simp] theorem setLock_link (s : State) (p : PortNo) (b : Bool) : (s.setLock p b).link = s.link := rfl

/-! ### setCaptureRec -/

@[simp] theorem setCaptureRec_pending (s : State) (t : TagNo) (r : CaptureRec) : (s.setCaptureRec t r).pending = s.pending := rfl
@[simp] theorem setCaptureRec_time (s : State) (t : TagNo) (r : CaptureRec) : (s.setCaptureRec t r).time = s.time := rfl
@[simp] theorem setCaptureRec_intake (s : State) (t : TagNo) (r : CaptureRec) : (s.setCaptureRec t r).intake = s.intake := rfl
@[simp] theorem setCaptureRec_table (s : State) (t : TagNo) (r : CaptureRec) : (s.setCaptureRec t r).table = s.table := rfl
@[simp] theorem setCaptureRec_sections (s : State) (t : TagNo) (r : CaptureRec) : (s.setCaptureRec t r).sections = s.sections := rfl
@[simp] theorem setCaptureRec_clock (s : State) (t : TagNo) (r : CaptureRec) : (s.setCaptureRec t r).clock = s.clock := rfl
@[simp] theorem setCaptureRec_guide (s : State) (t : TagNo) (r : CaptureRec) : (s.setCaptureRec t r).guide = s.guide := rfl
@[simp] theorem setCaptureRec_access (s : State) (t : TagNo) (r : CaptureRec) : (s.setCaptureRec t r).access = s.access := rfl
@[simp] theorem setCaptureRec_ctl (s : State) (t : TagNo) (r : CaptureRec) : (s.setCaptureRec t r).ctl = s.ctl := rfl
@[simp] theorem setCaptureRec_parental (s : State) (t : TagNo) (r : CaptureRec) : (s.setCaptureRec t r).parental = s.parental := rfl
@[simp] theorem setCaptureRec_notices (s : State) (t : TagNo) (r : CaptureRec) : (s.setCaptureRec t r).notices = s.notices := rfl
@[simp] theorem setCaptureRec_mgmt (s : State) (t : TagNo) (r : CaptureRec) : (s.setCaptureRec t r).mgmt = s.mgmt := rfl
@[simp] theorem setCaptureRec_link (s : State) (t : TagNo) (r : CaptureRec) : (s.setCaptureRec t r).link = s.link := rfl

/-! ### setPortIndex -/

@[simp] theorem setPortIndex_pending (s : State) (p : PortNo) (x : PortIndex) : (s.setPortIndex p x).pending = s.pending := rfl
@[simp] theorem setPortIndex_time (s : State) (p : PortNo) (x : PortIndex) : (s.setPortIndex p x).time = s.time := rfl
@[simp] theorem setPortIndex_intake (s : State) (p : PortNo) (x : PortIndex) : (s.setPortIndex p x).intake = s.intake := rfl
@[simp] theorem setPortIndex_table (s : State) (p : PortNo) (x : PortIndex) : (s.setPortIndex p x).table = s.table := rfl
@[simp] theorem setPortIndex_sections (s : State) (p : PortNo) (x : PortIndex) : (s.setPortIndex p x).sections = s.sections := rfl
@[simp] theorem setPortIndex_clock (s : State) (p : PortNo) (x : PortIndex) : (s.setPortIndex p x).clock = s.clock := rfl
@[simp] theorem setPortIndex_access (s : State) (p : PortNo) (x : PortIndex) : (s.setPortIndex p x).access = s.access := rfl
@[simp] theorem setPortIndex_ctl (s : State) (p : PortNo) (x : PortIndex) : (s.setPortIndex p x).ctl = s.ctl := rfl
@[simp] theorem setPortIndex_parental (s : State) (p : PortNo) (x : PortIndex) : (s.setPortIndex p x).parental = s.parental := rfl
@[simp] theorem setPortIndex_out (s : State) (p : PortNo) (x : PortIndex) : (s.setPortIndex p x).out = s.out := rfl
@[simp] theorem setPortIndex_notices (s : State) (p : PortNo) (x : PortIndex) : (s.setPortIndex p x).notices = s.notices := rfl
@[simp] theorem setPortIndex_mgmt (s : State) (p : PortNo) (x : PortIndex) : (s.setPortIndex p x).mgmt = s.mgmt := rfl
@[simp] theorem setPortIndex_link (s : State) (p : PortNo) (x : PortIndex) : (s.setPortIndex p x).link = s.link := rfl

/-! ### setForming -/

@[simp] theorem setForming_pending (s : State) (i : Input) (v : Option (List Byte)) : (s.setForming i v).pending = s.pending := rfl
@[simp] theorem setForming_time (s : State) (i : Input) (v : Option (List Byte)) : (s.setForming i v).time = s.time := rfl
@[simp] theorem setForming_table (s : State) (i : Input) (v : Option (List Byte)) : (s.setForming i v).table = s.table := rfl
@[simp] theorem setForming_sections (s : State) (i : Input) (v : Option (List Byte)) : (s.setForming i v).sections = s.sections := rfl
@[simp] theorem setForming_clock (s : State) (i : Input) (v : Option (List Byte)) : (s.setForming i v).clock = s.clock := rfl
@[simp] theorem setForming_guide (s : State) (i : Input) (v : Option (List Byte)) : (s.setForming i v).guide = s.guide := rfl
@[simp] theorem setForming_access (s : State) (i : Input) (v : Option (List Byte)) : (s.setForming i v).access = s.access := rfl
@[simp] theorem setForming_ctl (s : State) (i : Input) (v : Option (List Byte)) : (s.setForming i v).ctl = s.ctl := rfl
@[simp] theorem setForming_parental (s : State) (i : Input) (v : Option (List Byte)) : (s.setForming i v).parental = s.parental := rfl
@[simp] theorem setForming_out (s : State) (i : Input) (v : Option (List Byte)) : (s.setForming i v).out = s.out := rfl
@[simp] theorem setForming_notices (s : State) (i : Input) (v : Option (List Byte)) : (s.setForming i v).notices = s.notices := rfl
@[simp] theorem setForming_mgmt (s : State) (i : Input) (v : Option (List Byte)) : (s.setForming i v).mgmt = s.mgmt := rfl
@[simp] theorem setForming_link (s : State) (i : Input) (v : Option (List Byte)) : (s.setForming i v).link = s.link := rfl
@[simp] theorem setForming_intake_lock (s : State) (i : Input) (v : Option (List Byte)) : (s.setForming i v).intake.lock = s.intake.lock := rfl
@[simp] theorem setForming_intake_sync (s : State) (i : Input) (v : Option (List Byte)) : (s.setForming i v).intake.sync = s.intake.sync := rfl
@[simp] theorem setForming_intake_stats (s : State) (i : Input) (v : Option (List Byte)) : (s.setForming i v).intake.stats = s.intake.stats := rfl
@[simp] theorem setForming_intake_forming (s : State) (i : Input) (v : Option (List Byte)) :
    (s.setForming i v).intake.forming = setAt s.intake.forming i v := rfl
@[simp] theorem setForming_forming_at (s : State) (i j : Input) (v : Option (List Byte)) :
    (s.setForming i v).forming j = if i = j then v else s.forming j := getAt_setAt ..

/-! ### setEvents -/

@[simp] theorem setEvents_pending (s : State) (l : List Event) : (s.setEvents l).pending = s.pending := rfl
@[simp] theorem setEvents_time (s : State) (l : List Event) : (s.setEvents l).time = s.time := rfl
@[simp] theorem setEvents_intake (s : State) (l : List Event) : (s.setEvents l).intake = s.intake := rfl
@[simp] theorem setEvents_table (s : State) (l : List Event) : (s.setEvents l).table = s.table := rfl
@[simp] theorem setEvents_sections (s : State) (l : List Event) : (s.setEvents l).sections = s.sections := rfl
@[simp] theorem setEvents_clock (s : State) (l : List Event) : (s.setEvents l).clock = s.clock := rfl
@[simp] theorem setEvents_access (s : State) (l : List Event) : (s.setEvents l).access = s.access := rfl
@[simp] theorem setEvents_ctl (s : State) (l : List Event) : (s.setEvents l).ctl = s.ctl := rfl
@[simp] theorem setEvents_parental (s : State) (l : List Event) : (s.setEvents l).parental = s.parental := rfl
@[simp] theorem setEvents_out (s : State) (l : List Event) : (s.setEvents l).out = s.out := rfl
@[simp] theorem setEvents_notices (s : State) (l : List Event) : (s.setEvents l).notices = s.notices := rfl
@[simp] theorem setEvents_mgmt (s : State) (l : List Event) : (s.setEvents l).mgmt = s.mgmt := rfl
@[simp] theorem setEvents_link (s : State) (l : List Event) : (s.setEvents l).link = s.link := rfl

/-! ### setClock -/

@[simp] theorem setClock_pending (s : State) (c : Clock) : (s.setClock c).pending = s.pending := rfl
@[simp] theorem setClock_time (s : State) (c : Clock) : (s.setClock c).time = s.time := rfl
@[simp] theorem setClock_intake (s : State) (c : Clock) : (s.setClock c).intake = s.intake := rfl
@[simp] theorem setClock_table (s : State) (c : Clock) : (s.setClock c).table = s.table := rfl
@[simp] theorem setClock_sections (s : State) (c : Clock) : (s.setClock c).sections = s.sections := rfl
@[simp] theorem setClock_guide (s : State) (c : Clock) : (s.setClock c).guide = s.guide := rfl
@[simp] theorem setClock_access (s : State) (c : Clock) : (s.setClock c).access = s.access := rfl
@[simp] theorem setClock_ctl (s : State) (c : Clock) : (s.setClock c).ctl = s.ctl := rfl
@[simp] theorem setClock_parental (s : State) (c : Clock) : (s.setClock c).parental = s.parental := rfl
@[simp] theorem setClock_out (s : State) (c : Clock) : (s.setClock c).out = s.out := rfl
@[simp] theorem setClock_notices (s : State) (c : Clock) : (s.setClock c).notices = s.notices := rfl
@[simp] theorem setClock_mgmt (s : State) (c : Clock) : (s.setClock c).mgmt = s.mgmt := rfl
@[simp] theorem setClock_link (s : State) (c : Clock) : (s.setClock c).link = s.link := rfl

/-! ### setFilter -/

@[simp] theorem setFilter_pending (s : State) (f : FilterNo) (x : Option Filter) : (s.setFilter f x).pending = s.pending := rfl
@[simp] theorem setFilter_time (s : State) (f : FilterNo) (x : Option Filter) : (s.setFilter f x).time = s.time := rfl
@[simp] theorem setFilter_intake (s : State) (f : FilterNo) (x : Option Filter) : (s.setFilter f x).intake = s.intake := rfl
@[simp] theorem setFilter_table (s : State) (f : FilterNo) (x : Option Filter) : (s.setFilter f x).table = s.table := rfl
@[simp] theorem setFilter_clock (s : State) (f : FilterNo) (x : Option Filter) : (s.setFilter f x).clock = s.clock := rfl
@[simp] theorem setFilter_guide (s : State) (f : FilterNo) (x : Option Filter) : (s.setFilter f x).guide = s.guide := rfl
@[simp] theorem setFilter_access (s : State) (f : FilterNo) (x : Option Filter) : (s.setFilter f x).access = s.access := rfl
@[simp] theorem setFilter_ctl (s : State) (f : FilterNo) (x : Option Filter) : (s.setFilter f x).ctl = s.ctl := rfl
@[simp] theorem setFilter_parental (s : State) (f : FilterNo) (x : Option Filter) : (s.setFilter f x).parental = s.parental := rfl
@[simp] theorem setFilter_out (s : State) (f : FilterNo) (x : Option Filter) : (s.setFilter f x).out = s.out := rfl
@[simp] theorem setFilter_notices (s : State) (f : FilterNo) (x : Option Filter) : (s.setFilter f x).notices = s.notices := rfl
@[simp] theorem setFilter_mgmt (s : State) (f : FilterNo) (x : Option Filter) : (s.setFilter f x).mgmt = s.mgmt := rfl
@[simp] theorem setFilter_link (s : State) (f : FilterNo) (x : Option Filter) : (s.setFilter f x).link = s.link := rfl

/-! ### setLocked -/

@[simp] theorem setLocked_pending (s : State) (l : List LockedService) : (s.setLocked l).pending = s.pending := rfl
@[simp] theorem setLocked_time (s : State) (l : List LockedService) : (s.setLocked l).time = s.time := rfl
@[simp] theorem setLocked_intake (s : State) (l : List LockedService) : (s.setLocked l).intake = s.intake := rfl
@[simp] theorem setLocked_table (s : State) (l : List LockedService) : (s.setLocked l).table = s.table := rfl
@[simp] theorem setLocked_sections (s : State) (l : List LockedService) : (s.setLocked l).sections = s.sections := rfl
@[simp] theorem setLocked_clock (s : State) (l : List LockedService) : (s.setLocked l).clock = s.clock := rfl
@[simp] theorem setLocked_guide (s : State) (l : List LockedService) : (s.setLocked l).guide = s.guide := rfl
@[simp] theorem setLocked_access (s : State) (l : List LockedService) : (s.setLocked l).access = s.access := rfl
@[simp] theorem setLocked_ctl (s : State) (l : List LockedService) : (s.setLocked l).ctl = s.ctl := rfl
@[simp] theorem setLocked_out (s : State) (l : List LockedService) : (s.setLocked l).out = s.out := rfl
@[simp] theorem setLocked_notices (s : State) (l : List LockedService) : (s.setLocked l).notices = s.notices := rfl
@[simp] theorem setLocked_mgmt (s : State) (l : List LockedService) : (s.setLocked l).mgmt = s.mgmt := rfl
@[simp] theorem setLocked_link (s : State) (l : List LockedService) : (s.setLocked l).link = s.link := rfl

/-! ### setGrants -/

@[simp] theorem setGrants_pending (s : State) (l : List Grant) : (s.setGrants l).pending = s.pending := rfl
@[simp] theorem setGrants_time (s : State) (l : List Grant) : (s.setGrants l).time = s.time := rfl
@[simp] theorem setGrants_intake (s : State) (l : List Grant) : (s.setGrants l).intake = s.intake := rfl
@[simp] theorem setGrants_table (s : State) (l : List Grant) : (s.setGrants l).table = s.table := rfl
@[simp] theorem setGrants_sections (s : State) (l : List Grant) : (s.setGrants l).sections = s.sections := rfl
@[simp] theorem setGrants_clock (s : State) (l : List Grant) : (s.setGrants l).clock = s.clock := rfl
@[simp] theorem setGrants_guide (s : State) (l : List Grant) : (s.setGrants l).guide = s.guide := rfl
@[simp] theorem setGrants_access (s : State) (l : List Grant) : (s.setGrants l).access = s.access := rfl
@[simp] theorem setGrants_ctl (s : State) (l : List Grant) : (s.setGrants l).ctl = s.ctl := rfl
@[simp] theorem setGrants_out (s : State) (l : List Grant) : (s.setGrants l).out = s.out := rfl
@[simp] theorem setGrants_notices (s : State) (l : List Grant) : (s.setGrants l).notices = s.notices := rfl
@[simp] theorem setGrants_mgmt (s : State) (l : List Grant) : (s.setGrants l).mgmt = s.mgmt := rfl
@[simp] theorem setGrants_link (s : State) (l : List Grant) : (s.setGrants l).link = s.link := rfl

/-! ### setBuffer -/

@[simp] theorem setBuffer_pending (s : State) (l : List OrderPacket) : (s.setBuffer l).pending = s.pending := rfl
@[simp] theorem setBuffer_time (s : State) (l : List OrderPacket) : (s.setBuffer l).time = s.time := rfl
@[simp] theorem setBuffer_intake (s : State) (l : List OrderPacket) : (s.setBuffer l).intake = s.intake := rfl
@[simp] theorem setBuffer_table (s : State) (l : List OrderPacket) : (s.setBuffer l).table = s.table := rfl
@[simp] theorem setBuffer_sections (s : State) (l : List OrderPacket) : (s.setBuffer l).sections = s.sections := rfl
@[simp] theorem setBuffer_clock (s : State) (l : List OrderPacket) : (s.setBuffer l).clock = s.clock := rfl
@[simp] theorem setBuffer_guide (s : State) (l : List OrderPacket) : (s.setBuffer l).guide = s.guide := rfl
@[simp] theorem setBuffer_access (s : State) (l : List OrderPacket) : (s.setBuffer l).access = s.access := rfl
@[simp] theorem setBuffer_ctl (s : State) (l : List OrderPacket) : (s.setBuffer l).ctl = s.ctl := rfl
@[simp] theorem setBuffer_parental (s : State) (l : List OrderPacket) : (s.setBuffer l).parental = s.parental := rfl
@[simp] theorem setBuffer_out (s : State) (l : List OrderPacket) : (s.setBuffer l).out = s.out := rfl
@[simp] theorem setBuffer_notices (s : State) (l : List OrderPacket) : (s.setBuffer l).notices = s.notices := rfl
@[simp] theorem setBuffer_link (s : State) (l : List OrderPacket) : (s.setBuffer l).link = s.link := rfl

/-! ### countPort -/

@[simp] theorem countPort_pending (s : State) (i : Input) (f : PortStats → PortStats) : (countPort i f s).pending = s.pending := rfl
@[simp] theorem countPort_time (s : State) (i : Input) (f : PortStats → PortStats) : (countPort i f s).time = s.time := rfl
@[simp] theorem countPort_table (s : State) (i : Input) (f : PortStats → PortStats) : (countPort i f s).table = s.table := rfl
@[simp] theorem countPort_sections (s : State) (i : Input) (f : PortStats → PortStats) : (countPort i f s).sections = s.sections := rfl
@[simp] theorem countPort_clock (s : State) (i : Input) (f : PortStats → PortStats) : (countPort i f s).clock = s.clock := rfl
@[simp] theorem countPort_guide (s : State) (i : Input) (f : PortStats → PortStats) : (countPort i f s).guide = s.guide := rfl
@[simp] theorem countPort_access (s : State) (i : Input) (f : PortStats → PortStats) : (countPort i f s).access = s.access := rfl
@[simp] theorem countPort_ctl (s : State) (i : Input) (f : PortStats → PortStats) : (countPort i f s).ctl = s.ctl := rfl
@[simp] theorem countPort_parental (s : State) (i : Input) (f : PortStats → PortStats) : (countPort i f s).parental = s.parental := rfl
@[simp] theorem countPort_out (s : State) (i : Input) (f : PortStats → PortStats) : (countPort i f s).out = s.out := rfl
@[simp] theorem countPort_notices (s : State) (i : Input) (f : PortStats → PortStats) : (countPort i f s).notices = s.notices := rfl
@[simp] theorem countPort_mgmt (s : State) (i : Input) (f : PortStats → PortStats) : (countPort i f s).mgmt = s.mgmt := rfl
@[simp] theorem countPort_link (s : State) (i : Input) (f : PortStats → PortStats) : (countPort i f s).link = s.link := rfl

/-! ### countSection -/

@[simp] theorem countSection_pending (s : State) (i : Input) (f : SectionStats → SectionStats) : (countSection i f s).pending = s.pending := rfl
@[simp] theorem countSection_time (s : State) (i : Input) (f : SectionStats → SectionStats) : (countSection i f s).time = s.time := rfl
@[simp] theorem countSection_intake (s : State) (i : Input) (f : SectionStats → SectionStats) : (countSection i f s).intake = s.intake := rfl
@[simp] theorem countSection_table (s : State) (i : Input) (f : SectionStats → SectionStats) : (countSection i f s).table = s.table := rfl
@[simp] theorem countSection_clock (s : State) (i : Input) (f : SectionStats → SectionStats) : (countSection i f s).clock = s.clock := rfl
@[simp] theorem countSection_guide (s : State) (i : Input) (f : SectionStats → SectionStats) : (countSection i f s).guide = s.guide := rfl
@[simp] theorem countSection_access (s : State) (i : Input) (f : SectionStats → SectionStats) : (countSection i f s).access = s.access := rfl
@[simp] theorem countSection_ctl (s : State) (i : Input) (f : SectionStats → SectionStats) : (countSection i f s).ctl = s.ctl := rfl
@[simp] theorem countSection_parental (s : State) (i : Input) (f : SectionStats → SectionStats) : (countSection i f s).parental = s.parental := rfl
@[simp] theorem countSection_out (s : State) (i : Input) (f : SectionStats → SectionStats) : (countSection i f s).out = s.out := rfl
@[simp] theorem countSection_notices (s : State) (i : Input) (f : SectionStats → SectionStats) : (countSection i f s).notices = s.notices := rfl
@[simp] theorem countSection_mgmt (s : State) (i : Input) (f : SectionStats → SectionStats) : (countSection i f s).mgmt = s.mgmt := rfl
@[simp] theorem countSection_link (s : State) (i : Input) (f : SectionStats → SectionStats) : (countSection i f s).link = s.link := rfl

/-! ### countDescrambler -/

@[simp] theorem countDescrambler_pending (s : State) (i : Input) (f : DescramblerStats → DescramblerStats) : (countDescrambler i f s).pending = s.pending := rfl
@[simp] theorem countDescrambler_time (s : State) (i : Input) (f : DescramblerStats → DescramblerStats) : (countDescrambler i f s).time = s.time := rfl
@[simp] theorem countDescrambler_intake (s : State) (i : Input) (f : DescramblerStats → DescramblerStats) : (countDescrambler i f s).intake = s.intake := rfl
@[simp] theorem countDescrambler_table (s : State) (i : Input) (f : DescramblerStats → DescramblerStats) : (countDescrambler i f s).table = s.table := rfl
@[simp] theorem countDescrambler_sections (s : State) (i : Input) (f : DescramblerStats → DescramblerStats) : (countDescrambler i f s).sections = s.sections := rfl
@[simp] theorem countDescrambler_clock (s : State) (i : Input) (f : DescramblerStats → DescramblerStats) : (countDescrambler i f s).clock = s.clock := rfl
@[simp] theorem countDescrambler_guide (s : State) (i : Input) (f : DescramblerStats → DescramblerStats) : (countDescrambler i f s).guide = s.guide := rfl
@[simp] theorem countDescrambler_ctl (s : State) (i : Input) (f : DescramblerStats → DescramblerStats) : (countDescrambler i f s).ctl = s.ctl := rfl
@[simp] theorem countDescrambler_parental (s : State) (i : Input) (f : DescramblerStats → DescramblerStats) : (countDescrambler i f s).parental = s.parental := rfl
@[simp] theorem countDescrambler_out (s : State) (i : Input) (f : DescramblerStats → DescramblerStats) : (countDescrambler i f s).out = s.out := rfl
@[simp] theorem countDescrambler_notices (s : State) (i : Input) (f : DescramblerStats → DescramblerStats) : (countDescrambler i f s).notices = s.notices := rfl
@[simp] theorem countDescrambler_mgmt (s : State) (i : Input) (f : DescramblerStats → DescramblerStats) : (countDescrambler i f s).mgmt = s.mgmt := rfl
@[simp] theorem countDescrambler_link (s : State) (i : Input) (f : DescramblerStats → DescramblerStats) : (countDescrambler i f s).link = s.link := rfl

/-! ### passCycles -/

@[simp] theorem passCycles_pending (s : State) (k : Nat) : (passCycles k s).pending = s.pending := rfl
@[simp] theorem passCycles_intake (s : State) (k : Nat) : (passCycles k s).intake = s.intake := rfl
@[simp] theorem passCycles_table (s : State) (k : Nat) : (passCycles k s).table = s.table := rfl
@[simp] theorem passCycles_sections (s : State) (k : Nat) : (passCycles k s).sections = s.sections := rfl
@[simp] theorem passCycles_clock (s : State) (k : Nat) : (passCycles k s).clock = s.clock := rfl
@[simp] theorem passCycles_guide (s : State) (k : Nat) : (passCycles k s).guide = s.guide := rfl
@[simp] theorem passCycles_access (s : State) (k : Nat) : (passCycles k s).access = s.access := rfl
@[simp] theorem passCycles_ctl (s : State) (k : Nat) : (passCycles k s).ctl = s.ctl := rfl
@[simp] theorem passCycles_parental (s : State) (k : Nat) : (passCycles k s).parental = s.parental := rfl
@[simp] theorem passCycles_out (s : State) (k : Nat) : (passCycles k s).out = s.out := rfl
@[simp] theorem passCycles_notices (s : State) (k : Nat) : (passCycles k s).notices = s.notices := rfl
@[simp] theorem passCycles_mgmt (s : State) (k : Nat) : (passCycles k s).mgmt = s.mgmt := rfl
@[simp] theorem passCycles_link (s : State) (k : Nat) : (passCycles k s).link = s.link := rfl

/-! ### advanceTo -/

@[simp] theorem advanceTo_pending (s : State) (k : Nat) : (advanceTo k s).pending = s.pending := rfl
@[simp] theorem advanceTo_intake (s : State) (k : Nat) : (advanceTo k s).intake = s.intake := rfl
@[simp] theorem advanceTo_table (s : State) (k : Nat) : (advanceTo k s).table = s.table := rfl
@[simp] theorem advanceTo_sections (s : State) (k : Nat) : (advanceTo k s).sections = s.sections := rfl
@[simp] theorem advanceTo_clock (s : State) (k : Nat) : (advanceTo k s).clock = s.clock := rfl
@[simp] theorem advanceTo_guide (s : State) (k : Nat) : (advanceTo k s).guide = s.guide := rfl
@[simp] theorem advanceTo_access (s : State) (k : Nat) : (advanceTo k s).access = s.access := rfl
@[simp] theorem advanceTo_ctl (s : State) (k : Nat) : (advanceTo k s).ctl = s.ctl := rfl
@[simp] theorem advanceTo_parental (s : State) (k : Nat) : (advanceTo k s).parental = s.parental := rfl
@[simp] theorem advanceTo_out (s : State) (k : Nat) : (advanceTo k s).out = s.out := rfl
@[simp] theorem advanceTo_notices (s : State) (k : Nat) : (advanceTo k s).notices = s.notices := rfl
@[simp] theorem advanceTo_mgmt (s : State) (k : Nat) : (advanceTo k s).mgmt = s.mgmt := rfl
@[simp] theorem advanceTo_link (s : State) (k : Nat) : (advanceTo k s).link = s.link := rfl

/-! ### pushAnswer -/

@[simp] theorem pushAnswer_pending (s : State) (code tag : Byte) (r : Reply) : (pushAnswer code tag r s).pending = s.pending := rfl
@[simp] theorem pushAnswer_time (s : State) (code tag : Byte) (r : Reply) : (pushAnswer code tag r s).time = s.time := rfl
@[simp] theorem pushAnswer_intake (s : State) (code tag : Byte) (r : Reply) : (pushAnswer code tag r s).intake = s.intake := rfl
@[simp] theorem pushAnswer_table (s : State) (code tag : Byte) (r : Reply) : (pushAnswer code tag r s).table = s.table := rfl
@[simp] theorem pushAnswer_sections (s : State) (code tag : Byte) (r : Reply) : (pushAnswer code tag r s).sections = s.sections := rfl
@[simp] theorem pushAnswer_clock (s : State) (code tag : Byte) (r : Reply) : (pushAnswer code tag r s).clock = s.clock := rfl
@[simp] theorem pushAnswer_guide (s : State) (code tag : Byte) (r : Reply) : (pushAnswer code tag r s).guide = s.guide := rfl
@[simp] theorem pushAnswer_access (s : State) (code tag : Byte) (r : Reply) : (pushAnswer code tag r s).access = s.access := rfl
@[simp] theorem pushAnswer_ctl (s : State) (code tag : Byte) (r : Reply) : (pushAnswer code tag r s).ctl = s.ctl := rfl
@[simp] theorem pushAnswer_parental (s : State) (code tag : Byte) (r : Reply) : (pushAnswer code tag r s).parental = s.parental := rfl
@[simp] theorem pushAnswer_out (s : State) (code tag : Byte) (r : Reply) : (pushAnswer code tag r s).out = s.out := rfl
@[simp] theorem pushAnswer_notices (s : State) (code tag : Byte) (r : Reply) : (pushAnswer code tag r s).notices = s.notices := rfl
@[simp] theorem pushAnswer_link (s : State) (code tag : Byte) (r : Reply) : (pushAnswer code tag r s).link = s.link := rfl

/-! ### sendHlOut -/

@[simp] theorem sendHlOut_pending (s : State) (p : List Byte) : (sendHlOut p s).pending = s.pending := rfl
@[simp] theorem sendHlOut_time (s : State) (p : List Byte) : (sendHlOut p s).time = s.time := rfl
@[simp] theorem sendHlOut_intake (s : State) (p : List Byte) : (sendHlOut p s).intake = s.intake := rfl
@[simp] theorem sendHlOut_table (s : State) (p : List Byte) : (sendHlOut p s).table = s.table := rfl
@[simp] theorem sendHlOut_sections (s : State) (p : List Byte) : (sendHlOut p s).sections = s.sections := rfl
@[simp] theorem sendHlOut_clock (s : State) (p : List Byte) : (sendHlOut p s).clock = s.clock := rfl
@[simp] theorem sendHlOut_guide (s : State) (p : List Byte) : (sendHlOut p s).guide = s.guide := rfl
@[simp] theorem sendHlOut_access (s : State) (p : List Byte) : (sendHlOut p s).access = s.access := rfl
@[simp] theorem sendHlOut_ctl (s : State) (p : List Byte) : (sendHlOut p s).ctl = s.ctl := rfl
@[simp] theorem sendHlOut_parental (s : State) (p : List Byte) : (sendHlOut p s).parental = s.parental := rfl
@[simp] theorem sendHlOut_out (s : State) (p : List Byte) : (sendHlOut p s).out = s.out := rfl
@[simp] theorem sendHlOut_notices (s : State) (p : List Byte) : (sendHlOut p s).notices = s.notices := rfl
@[simp] theorem sendHlOut_mgmt (s : State) (p : List Byte) : (sendHlOut p s).mgmt = s.mgmt := rfl

/-! ### sendPo -/

@[simp] theorem sendPo_pending (s : State) (o : OutputNo) (p : List Byte) : (sendPo o p s).pending = s.pending := rfl
@[simp] theorem sendPo_time (s : State) (o : OutputNo) (p : List Byte) : (sendPo o p s).time = s.time := rfl
@[simp] theorem sendPo_intake (s : State) (o : OutputNo) (p : List Byte) : (sendPo o p s).intake = s.intake := rfl
@[simp] theorem sendPo_table (s : State) (o : OutputNo) (p : List Byte) : (sendPo o p s).table = s.table := rfl
@[simp] theorem sendPo_sections (s : State) (o : OutputNo) (p : List Byte) : (sendPo o p s).sections = s.sections := rfl
@[simp] theorem sendPo_clock (s : State) (o : OutputNo) (p : List Byte) : (sendPo o p s).clock = s.clock := rfl
@[simp] theorem sendPo_guide (s : State) (o : OutputNo) (p : List Byte) : (sendPo o p s).guide = s.guide := rfl
@[simp] theorem sendPo_access (s : State) (o : OutputNo) (p : List Byte) : (sendPo o p s).access = s.access := rfl
@[simp] theorem sendPo_ctl (s : State) (o : OutputNo) (p : List Byte) : (sendPo o p s).ctl = s.ctl := rfl
@[simp] theorem sendPo_parental (s : State) (o : OutputNo) (p : List Byte) : (sendPo o p s).parental = s.parental := rfl
@[simp] theorem sendPo_out (s : State) (o : OutputNo) (p : List Byte) : (sendPo o p s).out = s.out := rfl
@[simp] theorem sendPo_notices (s : State) (o : OutputNo) (p : List Byte) : (sendPo o p s).notices = s.notices := rfl
@[simp] theorem sendPo_mgmt (s : State) (o : OutputNo) (p : List Byte) : (sendPo o p s).mgmt = s.mgmt := rfl

/-! ### modifyEntry -/

@[simp] theorem modifyEntry_pending (s : State) (i : Input) (st : Nat) (f : Entry → Entry) : (modifyEntry i st f s).pending = s.pending := rfl
@[simp] theorem modifyEntry_time (s : State) (i : Input) (st : Nat) (f : Entry → Entry) : (modifyEntry i st f s).time = s.time := rfl
@[simp] theorem modifyEntry_intake (s : State) (i : Input) (st : Nat) (f : Entry → Entry) : (modifyEntry i st f s).intake = s.intake := rfl
@[simp] theorem modifyEntry_sections (s : State) (i : Input) (st : Nat) (f : Entry → Entry) : (modifyEntry i st f s).sections = s.sections := rfl
@[simp] theorem modifyEntry_clock (s : State) (i : Input) (st : Nat) (f : Entry → Entry) : (modifyEntry i st f s).clock = s.clock := rfl
@[simp] theorem modifyEntry_guide (s : State) (i : Input) (st : Nat) (f : Entry → Entry) : (modifyEntry i st f s).guide = s.guide := rfl
@[simp] theorem modifyEntry_access (s : State) (i : Input) (st : Nat) (f : Entry → Entry) : (modifyEntry i st f s).access = s.access := rfl
@[simp] theorem modifyEntry_ctl (s : State) (i : Input) (st : Nat) (f : Entry → Entry) : (modifyEntry i st f s).ctl = s.ctl := rfl
@[simp] theorem modifyEntry_parental (s : State) (i : Input) (st : Nat) (f : Entry → Entry) : (modifyEntry i st f s).parental = s.parental := rfl
@[simp] theorem modifyEntry_out (s : State) (i : Input) (st : Nat) (f : Entry → Entry) : (modifyEntry i st f s).out = s.out := rfl
@[simp] theorem modifyEntry_notices (s : State) (i : Input) (st : Nat) (f : Entry → Entry) : (modifyEntry i st f s).notices = s.notices := rfl
@[simp] theorem modifyEntry_mgmt (s : State) (i : Input) (st : Nat) (f : Entry → Entry) : (modifyEntry i st f s).mgmt = s.mgmt := rfl
@[simp] theorem modifyEntry_link (s : State) (i : Input) (st : Nat) (f : Entry → Entry) : (modifyEntry i st f s).link = s.link := rfl

/-! ### Fields of the block an update writes -/

@[simp] theorem setContext_ctl_outputs (s : State) (c : CtxNo) (x : Context) : (s.setContext c x).ctl.outputs = s.ctl.outputs := rfl
@[simp] theorem setContext_ctl_tags (s : State) (c : CtxNo) (x : Context) : (s.setContext c x).ctl.tags = s.ctl.tags := rfl
@[simp] theorem setContext_ctl_limit (s : State) (c : CtxNo) (x : Context) : (s.setContext c x).ctl.limit = s.ctl.limit := rfl
@[simp] theorem setBinding_ctl_contexts (s : State) (o : OutputNo) (x : OutBind) : (s.setBinding o x).ctl.contexts = s.ctl.contexts := rfl
@[simp] theorem setBinding_ctl_tags (s : State) (o : OutputNo) (x : OutBind) : (s.setBinding o x).ctl.tags = s.ctl.tags := rfl
@[simp] theorem setBinding_ctl_limit (s : State) (o : OutputNo) (x : OutBind) : (s.setBinding o x).ctl.limit = s.ctl.limit := rfl
@[simp] theorem setTag_ctl_contexts (s : State) (t : TagNo) (x : TagRec) : (s.setTag t x).ctl.contexts = s.ctl.contexts := rfl
@[simp] theorem setTag_ctl_outputs (s : State) (t : TagNo) (x : TagRec) : (s.setTag t x).ctl.outputs = s.ctl.outputs := rfl
@[simp] theorem setTag_ctl_limit (s : State) (t : TagNo) (x : TagRec) : (s.setTag t x).ctl.limit = s.ctl.limit := rfl
@[simp] theorem setSlot_access_reading (s : State) (k : SlotNo) (x : Option Slot) : (s.setSlot k x).access.reading = s.access.reading := rfl
@[simp] theorem setSlot_access_fuses (s : State) (k : SlotNo) (x : Option Slot) : (s.setSlot k x).access.fuses = s.access.fuses := rfl
@[simp] theorem setSlot_access_home (s : State) (k : SlotNo) (x : Option Slot) : (s.setSlot k x).access.home = s.access.home := rfl
@[simp] theorem setSlot_access_sources (s : State) (k : SlotNo) (x : Option Slot) : (s.setSlot k x).access.sources = s.access.sources := rfl
@[simp] theorem setSlot_access_entitlements (s : State) (k : SlotNo) (x : Option Slot) : (s.setSlot k x).access.entitlements = s.access.entitlements := rfl
@[simp] theorem setSlot_access_groups (s : State) (k : SlotNo) (x : Option Slot) : (s.setSlot k x).access.groups = s.access.groups := rfl
@[simp] theorem setSlot_access_log (s : State) (k : SlotNo) (x : Option Slot) : (s.setSlot k x).access.log = s.access.log := rfl
@[simp] theorem setSlot_access_overflow (s : State) (k : SlotNo) (x : Option Slot) : (s.setSlot k x).access.overflow = s.access.overflow := rfl
@[simp] theorem setSlot_access_stats (s : State) (k : SlotNo) (x : Option Slot) : (s.setSlot k x).access.stats = s.access.stats := rfl
@[simp] theorem setSlot_access_unitSeq (s : State) (k : SlotNo) (x : Option Slot) : (s.setSlot k x).access.unitSeq = s.access.unitSeq := rfl
@[simp] theorem setSlot_access_accepted (s : State) (k : SlotNo) (x : Option Slot) : (s.setSlot k x).access.accepted = s.access.accepted := rfl
@[simp] theorem setSlot_access_applied (s : State) (k : SlotNo) (x : Option Slot) : (s.setSlot k x).access.applied = s.access.applied := rfl
@[simp] theorem setSlot_access_unreadable (s : State) (k : SlotNo) (x : Option Slot) : (s.setSlot k x).access.unreadable = s.access.unreadable := rfl
@[simp] theorem setSlot_access_notAddressed (s : State) (k : SlotNo) (x : Option Slot) : (s.setSlot k x).access.notAddressed = s.access.notAddressed := rfl
@[simp] theorem countDescrambler_access_reading (s : State) (i : Input) (f : DescramblerStats → DescramblerStats) : (countDescrambler i f s).access.reading = s.access.reading := rfl
@[simp] theorem countDescrambler_access_fuses (s : State) (i : Input) (f : DescramblerStats → DescramblerStats) : (countDescrambler i f s).access.fuses = s.access.fuses := rfl
@[simp] theorem countDescrambler_access_home (s : State) (i : Input) (f : DescramblerStats → DescramblerStats) : (countDescrambler i f s).access.home = s.access.home := rfl
@[simp] theorem countDescrambler_access_sources (s : State) (i : Input) (f : DescramblerStats → DescramblerStats) : (countDescrambler i f s).access.sources = s.access.sources := rfl
@[simp] theorem countDescrambler_access_entitlements (s : State) (i : Input) (f : DescramblerStats → DescramblerStats) : (countDescrambler i f s).access.entitlements = s.access.entitlements := rfl
@[simp] theorem countDescrambler_access_groups (s : State) (i : Input) (f : DescramblerStats → DescramblerStats) : (countDescrambler i f s).access.groups = s.access.groups := rfl
@[simp] theorem countDescrambler_access_log (s : State) (i : Input) (f : DescramblerStats → DescramblerStats) : (countDescrambler i f s).access.log = s.access.log := rfl
@[simp] theorem countDescrambler_access_overflow (s : State) (i : Input) (f : DescramblerStats → DescramblerStats) : (countDescrambler i f s).access.overflow = s.access.overflow := rfl
@[simp] theorem countDescrambler_access_slots (s : State) (i : Input) (f : DescramblerStats → DescramblerStats) : (countDescrambler i f s).access.slots = s.access.slots := rfl
@[simp] theorem setProfile_parental_table (s : State) (p : ProfileNo) (x : Profile) : (s.setProfile p x).parental.table = s.parental.table := rfl
@[simp] theorem setProfile_parental_binding (s : State) (p : ProfileNo) (x : Profile) : (s.setProfile p x).parental.binding = s.parental.binding := rfl
@[simp] theorem setProfile_parental_locked (s : State) (p : ProfileNo) (x : Profile) : (s.setProfile p x).parental.locked = s.parental.locked := rfl
@[simp] theorem setProfile_parental_grants (s : State) (p : ProfileNo) (x : Profile) : (s.setProfile p x).parental.grants = s.parental.grants := rfl
@[simp] theorem setProfile_parental_lock (s : State) (p : ProfileNo) (x : Profile) : (s.setProfile p x).parental.lock = s.parental.lock := rfl
@[simp] theorem setLocked_parental_table (s : State) (l : List LockedService) : (s.setLocked l).parental.table = s.parental.table := rfl
@[simp] theorem setLocked_parental_profiles (s : State) (l : List LockedService) : (s.setLocked l).parental.profiles = s.parental.profiles := rfl
@[simp] theorem setLocked_parental_binding (s : State) (l : List LockedService) : (s.setLocked l).parental.binding = s.parental.binding := rfl
@[simp] theorem setLocked_parental_grants (s : State) (l : List LockedService) : (s.setLocked l).parental.grants = s.parental.grants := rfl
@[simp] theorem setLocked_parental_lock (s : State) (l : List LockedService) : (s.setLocked l).parental.lock = s.parental.lock := rfl
@[simp] theorem setGrants_parental_table (s : State) (l : List Grant) : (s.setGrants l).parental.table = s.parental.table := rfl
@[simp] theorem setGrants_parental_profiles (s : State) (l : List Grant) : (s.setGrants l).parental.profiles = s.parental.profiles := rfl
@[simp] theorem setGrants_parental_binding (s : State) (l : List Grant) : (s.setGrants l).parental.binding = s.parental.binding := rfl
@[simp] theorem setGrants_parental_locked (s : State) (l : List Grant) : (s.setGrants l).parental.locked = s.parental.locked := rfl
@[simp] theorem setGrants_parental_lock (s : State) (l : List Grant) : (s.setGrants l).parental.lock = s.parental.lock := rfl
@[simp] theorem setOutput_out_capture (s : State) (o : OutputNo) (x : Output) : (s.setOutput o x).out.capture = s.out.capture := rfl
@[simp] theorem setOutput_out_captureCount (s : State) (o : OutputNo) (x : Output) : (s.setOutput o x).out.captureCount = s.out.captureCount := rfl
@[simp] theorem setOutput_out_records (s : State) (o : OutputNo) (x : Output) : (s.setOutput o x).out.records = s.out.records := rfl
@[simp] theorem setOutput_out_sent (s : State) (o : OutputNo) (x : Output) : (s.setOutput o x).out.sent = s.out.sent := rfl
@[simp] theorem setOutput_out_run (s : State) (o : OutputNo) (x : Output) : (s.setOutput o x).out.run = s.out.run := rfl
@[simp] theorem setCaptureRec_out_outputs (s : State) (t : TagNo) (r : CaptureRec) : (s.setCaptureRec t r).out.outputs = s.out.outputs := rfl
@[simp] theorem setCaptureRec_out_capture (s : State) (t : TagNo) (r : CaptureRec) : (s.setCaptureRec t r).out.capture = s.out.capture := rfl
@[simp] theorem setCaptureRec_out_captureCount (s : State) (t : TagNo) (r : CaptureRec) : (s.setCaptureRec t r).out.captureCount = s.out.captureCount := rfl
@[simp] theorem setCaptureRec_out_sent (s : State) (t : TagNo) (r : CaptureRec) : (s.setCaptureRec t r).out.sent = s.out.sent := rfl
@[simp] theorem setCaptureRec_out_run (s : State) (t : TagNo) (r : CaptureRec) : (s.setCaptureRec t r).out.run = s.out.run := rfl
@[simp] theorem setFilter_sections_freeBlocks (s : State) (f : FilterNo) (x : Option Filter) : (s.setFilter f x).sections.freeBlocks = s.sections.freeBlocks := rfl
@[simp] theorem setFilter_sections_queue (s : State) (f : FilterNo) (x : Option Filter) : (s.setFilter f x).sections.queue = s.sections.queue := rfl
@[simp] theorem setFilter_sections_released (s : State) (f : FilterNo) (x : Option Filter) : (s.setFilter f x).sections.released = s.sections.released := rfl
@[simp] theorem setFilter_sections_trigger (s : State) (f : FilterNo) (x : Option Filter) : (s.setFilter f x).sections.trigger = s.sections.trigger := rfl
@[simp] theorem setFilter_sections_timeout (s : State) (f : FilterNo) (x : Option Filter) : (s.setFilter f x).sections.timeout = s.sections.timeout := rfl
@[simp] theorem setFilter_sections_nextNumber (s : State) (f : FilterNo) (x : Option Filter) : (s.setFilter f x).sections.nextNumber = s.sections.nextNumber := rfl
@[simp] theorem setFilter_sections_stats (s : State) (f : FilterNo) (x : Option Filter) : (s.setFilter f x).sections.stats = s.sections.stats := rfl
@[simp] theorem countSection_sections_freeBlocks (s : State) (i : Input) (f : SectionStats → SectionStats) : (countSection i f s).sections.freeBlocks = s.sections.freeBlocks := rfl
@[simp] theorem countSection_sections_filters (s : State) (i : Input) (f : SectionStats → SectionStats) : (countSection i f s).sections.filters = s.sections.filters := rfl
@[simp] theorem countSection_sections_queue (s : State) (i : Input) (f : SectionStats → SectionStats) : (countSection i f s).sections.queue = s.sections.queue := rfl
@[simp] theorem countSection_sections_released (s : State) (i : Input) (f : SectionStats → SectionStats) : (countSection i f s).sections.released = s.sections.released := rfl
@[simp] theorem countSection_sections_trigger (s : State) (i : Input) (f : SectionStats → SectionStats) : (countSection i f s).sections.trigger = s.sections.trigger := rfl
@[simp] theorem countSection_sections_timeout (s : State) (i : Input) (f : SectionStats → SectionStats) : (countSection i f s).sections.timeout = s.sections.timeout := rfl
@[simp] theorem countSection_sections_nextNumber (s : State) (i : Input) (f : SectionStats → SectionStats) : (countSection i f s).sections.nextNumber = s.sections.nextNumber := rfl
@[simp] theorem setEvents_guide_index (s : State) (l : List Event) : (s.setEvents l).guide.index = s.guide.index := rfl
@[simp] theorem setEvents_guide_list (s : State) (l : List Event) : (s.setEvents l).guide.list = s.guide.list := rfl
@[simp] theorem setEvents_guide_listVersion (s : State) (l : List Event) : (s.setEvents l).guide.listVersion = s.guide.listVersion := rfl
@[simp] theorem setEvents_guide_tracked (s : State) (l : List Event) : (s.setEvents l).guide.tracked = s.guide.tracked := rfl
@[simp] theorem setEvents_guide_source (s : State) (l : List Event) : (s.setEvents l).guide.source = s.guide.source := rfl
@[simp] theorem setPortIndex_guide_list (s : State) (p : PortNo) (x : PortIndex) : (s.setPortIndex p x).guide.list = s.guide.list := rfl
@[simp] theorem setPortIndex_guide_listVersion (s : State) (p : PortNo) (x : PortIndex) : (s.setPortIndex p x).guide.listVersion = s.guide.listVersion := rfl
@[simp] theorem setPortIndex_guide_events (s : State) (p : PortNo) (x : PortIndex) : (s.setPortIndex p x).guide.events = s.guide.events := rfl
@[simp] theorem setPortIndex_guide_tracked (s : State) (p : PortNo) (x : PortIndex) : (s.setPortIndex p x).guide.tracked = s.guide.tracked := rfl
@[simp] theorem setPortIndex_guide_source (s : State) (p : PortNo) (x : PortIndex) : (s.setPortIndex p x).guide.source = s.guide.source := rfl
@[simp] theorem setSync_intake_lock (s : State) (i : Input) (x : SyncRec) : (s.setSync i x).intake.lock = s.intake.lock := rfl
@[simp] theorem setSync_intake_forming (s : State) (i : Input) (x : SyncRec) : (s.setSync i x).intake.forming = s.intake.forming := rfl
@[simp] theorem setSync_intake_stats (s : State) (i : Input) (x : SyncRec) : (s.setSync i x).intake.stats = s.intake.stats := rfl
@[simp] theorem setBuffer_mgmt_ready (s : State) (l : List OrderPacket) : (s.setBuffer l).mgmt.ready = s.mgmt.ready := rfl
@[simp] theorem setBuffer_mgmt_answers (s : State) (l : List OrderPacket) : (s.setBuffer l).mgmt.answers = s.mgmt.answers := rfl
@[simp] theorem setBuffer_mgmt_overrun (s : State) (l : List OrderPacket) : (s.setBuffer l).mgmt.overrun = s.mgmt.overrun := rfl
@[simp] theorem setBuffer_mgmt_cause (s : State) (l : List OrderPacket) : (s.setBuffer l).mgmt.cause = s.mgmt.cause := rfl
@[simp] theorem setBuffer_mgmt_restarting (s : State) (l : List OrderPacket) : (s.setBuffer l).mgmt.restarting = s.mgmt.restarting := rfl
@[simp] theorem pushAnswer_mgmt_ready (s : State) (code tag : Byte) (r : Reply) : (pushAnswer code tag r s).mgmt.ready = s.mgmt.ready := rfl
@[simp] theorem pushAnswer_mgmt_buffer (s : State) (code tag : Byte) (r : Reply) : (pushAnswer code tag r s).mgmt.buffer = s.mgmt.buffer := rfl
@[simp] theorem pushAnswer_mgmt_overrun (s : State) (code tag : Byte) (r : Reply) : (pushAnswer code tag r s).mgmt.overrun = s.mgmt.overrun := rfl
@[simp] theorem pushAnswer_mgmt_cause (s : State) (code tag : Byte) (r : Reply) : (pushAnswer code tag r s).mgmt.cause = s.mgmt.cause := rfl
@[simp] theorem pushAnswer_mgmt_restarting (s : State) (code tag : Byte) (r : Reply) : (pushAnswer code tag r s).mgmt.restarting = s.mgmt.restarting := rfl

/-! ### What the updates write -/

@[simp] theorem setContext_ctl_contexts (s : State) (c : CtxNo) (x : Context) :
    (s.setContext c x).ctl.contexts = setAt s.ctl.contexts c x := rfl
@[simp] theorem setBinding_ctl_outputs (s : State) (o : OutputNo) (x : OutBind) :
    (s.setBinding o x).ctl.outputs = setAt s.ctl.outputs o x := rfl
@[simp] theorem setTag_ctl_tags (s : State) (t : TagNo) (x : TagRec) :
    (s.setTag t x).ctl.tags = setAt s.ctl.tags t x := rfl
@[simp] theorem setSlot_access_slots (s : State) (k : SlotNo) (x : Option Slot) :
    (s.setSlot k x).access.slots = setAt s.access.slots k x := rfl
@[simp] theorem setProfile_parental_profiles (s : State) (p : ProfileNo) (x : Profile) :
    (s.setProfile p x).parental.profiles = setAt s.parental.profiles p x := rfl
@[simp] theorem setLocked_parental_locked (s : State) (l : List LockedService) :
    (s.setLocked l).parental.locked = l := rfl
@[simp] theorem setGrants_parental_grants (s : State) (l : List Grant) : (s.setGrants l).parental.grants = l := rfl
@[simp] theorem setOutput_out_outputs (s : State) (o : OutputNo) (x : Output) :
    (s.setOutput o x).out.outputs = setAt s.out.outputs o x := rfl
@[simp] theorem setCaptureRec_out_records (s : State) (t : TagNo) (r : CaptureRec) :
    (s.setCaptureRec t r).out.records = setAt s.out.records t r := rfl
@[simp] theorem setFilter_sections_filters (s : State) (f : FilterNo) (x : Option Filter) :
    (s.setFilter f x).sections.filters = setAt s.sections.filters f x := rfl
@[simp] theorem setEvents_guide_events (s : State) (l : List Event) : (s.setEvents l).guide.events = l := rfl
@[simp] theorem setPortIndex_guide_index (s : State) (p : PortNo) (x : PortIndex) :
    (s.setPortIndex p x).guide.index = setAt s.guide.index p x := rfl
@[simp] theorem setSync_intake_sync (s : State) (i : Input) (x : SyncRec) :
    (s.setSync i x).intake.sync = setAt s.intake.sync i x := rfl
@[simp] theorem setClock_clock (s : State) (c : Clock) : (s.setClock c).clock = c := rfl
@[simp] theorem setBuffer_mgmt_buffer (s : State) (l : List OrderPacket) : (s.setBuffer l).mgmt.buffer = l := rfl
@[simp] theorem pushAnswer_mgmt_answers (s : State) (code tag : Byte) (r : Reply) :
    (pushAnswer code tag r s).mgmt.answers =
      s.mgmt.answers ++ [⟨code, tag, r.outcome, r.adjusted, r.results⟩] := rfl

/-! ### Reading after writing -/

@[simp] theorem context_setContext (s : State) (c d : CtxNo) (x : Context) :
    (s.setContext c x).context d = if c = d then x else s.context d := getAt_setAt ..
@[simp] theorem slot_setSlot (s : State) (k j : SlotNo) (x : Option Slot) :
    (s.setSlot k x).slot j = if k = j then x else s.slot j := getAt_setAt ..
@[simp] theorem profile_setProfile (s : State) (p q : ProfileNo) (x : Profile) :
    (s.setProfile p x).profile q = if p = q then x else s.profile q := getAt_setAt ..
@[simp] theorem binding_setBinding (s : State) (o o' : OutputNo) (x : OutBind) :
    (s.setBinding o x).binding o' = if o = o' then x else s.binding o' := getAt_setAt ..
@[simp] theorem tag_setTag (s : State) (t t' : TagNo) (x : TagRec) :
    (s.setTag t x).tag t' = if t = t' then x else s.tag t' := getAt_setAt ..
@[simp] theorem output_setOutput (s : State) (o o' : OutputNo) (x : Output) :
    (s.setOutput o x).output o' = if o = o' then x else s.output o' := getAt_setAt ..
@[simp] theorem captureRec_setCaptureRec (s : State) (t t' : TagNo) (r : CaptureRec) :
    (s.setCaptureRec t r).captureRec t' = if t = t' then r else s.captureRec t' := getAt_setAt ..

/-! ### Notices -/

@[simp] theorem offer_pending (s : State) (n : Notice) : (offer n s).pending = s.pending := by unfold offer; split <;> rfl
@[simp] theorem offer_time (s : State) (n : Notice) : (offer n s).time = s.time := by unfold offer; split <;> rfl
@[simp] theorem offer_intake (s : State) (n : Notice) : (offer n s).intake = s.intake := by unfold offer; split <;> rfl
@[simp] theorem offer_table (s : State) (n : Notice) : (offer n s).table = s.table := by unfold offer; split <;> rfl
@[simp] theorem offer_sections (s : State) (n : Notice) : (offer n s).sections = s.sections := by unfold offer; split <;> rfl
@[simp] theorem offer_clock (s : State) (n : Notice) : (offer n s).clock = s.clock := by unfold offer; split <;> rfl
@[simp] theorem offer_guide (s : State) (n : Notice) : (offer n s).guide = s.guide := by unfold offer; split <;> rfl
@[simp] theorem offer_access (s : State) (n : Notice) : (offer n s).access = s.access := by unfold offer; split <;> rfl
@[simp] theorem offer_ctl (s : State) (n : Notice) : (offer n s).ctl = s.ctl := by unfold offer; split <;> rfl
@[simp] theorem offer_parental (s : State) (n : Notice) : (offer n s).parental = s.parental := by unfold offer; split <;> rfl
@[simp] theorem offer_out (s : State) (n : Notice) : (offer n s).out = s.out := by unfold offer; split <;> rfl
@[simp] theorem offer_mgmt (s : State) (n : Notice) : (offer n s).mgmt = s.mgmt := by unfold offer; split <;> rfl
@[simp] theorem offer_link (s : State) (n : Notice) : (offer n s).link = s.link := by unfold offer; split <;> rfl

@[simp] theorem offer_context (s : State) (n : Notice) (c : CtxNo) : (offer n s).context c = s.context c := by
  simp [State.context]
@[simp] theorem offer_binding (s : State) (n : Notice) (o : OutputNo) : (offer n s).binding o = s.binding o := by
  simp [State.binding]
@[simp] theorem offer_tag (s : State) (n : Notice) (t : TagNo) : (offer n s).tag t = s.tag t := by
  simp [State.tag]

/-- A notice that finds room joins the tail (R173). -/
theorem offer_room (s : State) (n : Notice) (h : s.notices.queue.length < 32) :
    (offer n s).notices = { s.notices with queue := s.notices.queue ++ [n] } := by
  simp [offer, h]

/-- A notice that finds the queue full is discarded and sets the missed flag (R173). -/
theorem offer_full (s : State) (n : Notice) (h : ¬ s.notices.queue.length < 32) :
    (offer n s).notices = { s.notices with missed := true } := by
  simp [offer, h]

/-- An order that is handed on: its answer joins the state its owner leaves (R171). -/
theorem handOver_on (code tag : Byte) (take : State → Reply × State) (s : State) (h : s.handsOn = true) :
    handOver code tag take s = pushAnswer code tag (take s).1 (take s).2 := by
  simp [handOver, h]

/-- An order that is not handed on changes nothing (log 1). -/
theorem handOver_off (code tag : Byte) (take : State → Reply × State) (s : State) (h : s.handsOn = false) :
    handOver code tag take s = s := by
  simp [handOver, h]

end Sys2Proof.Machine
end

