-- ==== Sys2Proof/Laws/Keeps.lean ====
section
/-! SUPPORT. What every operation inside a command keeps: the waiting commands and the management unit as they are, the
total of the blocks, each invariant of Safety.lean, and a view `κ` of what stands. An operation that changes something
that stands asks that the view does not look at it. -/

namespace Sys2Proof.Machine

@[simp] theorem getAt_map {α β : Type} {n : Nat} (f : α → β) (v : Vector α n) (i : Fin n) :
    getAt (v.map f) i = f (getAt v i) := by
  simp [getAt, Vector.get]

/-! ### Assemblies -/

/-- The size of the section in progress, where it is known, is one a section can have (R24). -/
def Assembly.sized (x : Assembly) : Prop :=
  ∀ k l n, x = .collecting k l (some n) → 12 ≤ n ∧ n ≤ 1024

theorem Assembly.small.sized {x : Assembly} (h : x.small) : x.sized := by
  rintro k l n rfl
  exact ⟨(h.2.known n rfl).1, (h.2.known n rfl).2.1⟩

/-- A COLLECTING assembly holds 1 to 1024 bytes in 1 to 16 blocks (Table 2-2). -/
theorem Assembly.small.collecting {k : Nat} {l : List Byte} {x : Option Nat} (h : (Assembly.collecting k l x).small) :
    1 ≤ l.length ∧ l.length ≤ 1024 ∧ 1 ≤ k ∧ k ≤ 16 := by
  obtain ⟨h1, hc⟩ := h
  have := hc.chain
  cases x with
  | none =>
    have := hc.unknown rfl
    omega
  | some n =>
    have := hc.known n rfl
    omega

/-- Every assembly of a table is as Table 2-2 has it, but for pairs in `P`: what is known of theirs is the size. -/
def AssembliesBut (P : Input → Nat → Prop) (t : List Entry) : Prop :=
  ∀ e ∈ t, e.assembly.small ∨ P e.input e.stream ∧ e.assembly.sized

theorem AssembliesBut.mono {P Q : Input → Nat → Prop} {t : List Entry} (h : AssembliesBut P t)
    (hpq : ∀ i n, P i n → Q i n) : AssembliesBut Q t :=
  fun e he => (h e he).imp_right fun y => ⟨hpq _ _ y.1, y.2⟩

theorem AssembliesBut.sized {P : Input → Nat → Prop} {t : List Entry} (h : AssembliesBut P t) :
    ∀ e ∈ t, e.assembly.sized :=
  fun e he => (h e he).elim Assembly.small.sized And.right

theorem AssembliesSmall.but {t : List Entry} (h : AssembliesSmall t) (P : Input → Nat → Prop) : AssembliesBut P t :=
  fun e he => Or.inl (h e he)

theorem AssembliesBut.small {t : List Entry} (h : AssembliesBut (fun _ _ => False) t) : AssembliesSmall t :=
  fun e he => (h e he).resolve_right And.left

/-! ### Tracked services -/

/-- Services of distinct RUNNING contexts are at most 16. -/
theorem TracksRunning.length {ctxs : Vector Context 16} {l : List Tracked} (h : TracksRunning ctxs l) :
    l.length ≤ 16 := by
  have hs : l.map Tracked.service ⊆ (List.finRange 16).map (fun c => (getAt ctxs c).service) := by
    intro n hn
    obtain ⟨t, ht, rfl⟩ := List.mem_map.1 hn
    obtain ⟨c, _, _, hc⟩ := h.running t ht
    exact List.mem_map.2 ⟨c, List.mem_finRange c, hc⟩
  simpa using (h.distinct.subperm hs).length_le

/-- The services stay, whatever their recorded events. -/
theorem TracksRunning.services {ctxs : Vector Context 16} {l m : List Tracked} (h : TracksRunning ctxs l)
    (hm : m.map Tracked.service = l.map Tracked.service) : TracksRunning ctxs m := by
  refine ⟨hm ▸ h.distinct, fun t ht => ?_⟩
  have : t.service ∈ l.map Tracked.service := hm ▸ List.mem_map_of_mem ht
  obtain ⟨u, hu, he⟩ := List.mem_map.1 this
  exact he ▸ h.running u hu

theorem TracksRunning.filter {ctxs : Vector Context 16} {l : List Tracked} (h : TracksRunning ctxs l)
    (p : Tracked → Bool) : TracksRunning ctxs (l.filter p) :=
  ⟨h.distinct.sublist (List.filter_sublist.map _), fun t ht => h.running t (List.mem_filter.1 ht).1⟩

/-- Every tracked service keeps a RUNNING context when one context changes and another, or the changed one, still runs for
it. -/
theorem TracksRunning.setAt {ctxs : Vector Context 16} {l : List Tracked} (h : TracksRunning ctxs l) (c : CtxNo) (x : Context)
    (hx : (getAt ctxs c).state = .running → (getAt ctxs c).input ≠ pb →
      ∀ t ∈ l, t.service = (getAt ctxs c).service →
        ∃ d, (getAt (Machine.setAt ctxs c x) d).state = .running ∧ (getAt (Machine.setAt ctxs c x) d).input ≠ pb ∧
          (getAt (Machine.setAt ctxs c x) d).service = t.service) :
    TracksRunning (Machine.setAt ctxs c x) l := by
  refine ⟨h.distinct, fun t ht => ?_⟩
  obtain ⟨d, h1, h2, h3⟩ := h.running t ht
  by_cases hd : c = d
  · subst hd
    exact hx h1 h2 t ht h3.symm
  · refine ⟨d, ?_⟩
    rw [getAt_setAt, if_neg hd]
    exact ⟨h1, h2, h3⟩

/-- A context changes and runs on, where it did, under its identity. -/
theorem TracksRunning.setAt_same {ctxs : Vector Context 16} {l : List Tracked} (h : TracksRunning ctxs l) (c : CtxNo)
    (x : Context) (hx : (getAt ctxs c).state = .running →
      x.state = .running ∧ x.input = (getAt ctxs c).input ∧ x.service = (getAt ctxs c).service) :
    TracksRunning (Machine.setAt ctxs c x) l :=
  h.setAt c x fun hr hi t _ hs => ⟨c, by
    obtain ⟨h1, h2, h3⟩ := hx hr
    rw [getAt_setAt, if_pos rfl, h2, h3]
    exact ⟨h1, hi, hs.symm⟩⟩

/-! ### What is kept -/

/-- From `a` the part has come to `s` by operations inside one command, the view `κ` of what stands unchanged. A section that
is complete stays in its assembly until it moves on (R29): `full` names its pair meanwhile. -/
structure Keeps {σ : Type} (κ : Standing → σ) (a s : State) (full : Option (Input × Nat) := none) : Prop where
  standing : κ s.standing = κ a.standing
  pending : s.pending = a.pending
  mgmt : s.mgmt = a.mgmt
  blocks : s.blocksTotal = a.blocksTotal
  table : TableSound a.table → TableSound s.table
  forming : FormingSmall a.intake.forming → FormingSmall s.intake.forming
  order : UsersOrdered a.table → UsersOrdered s.table
  contexts : ContextsSmall a.ctl.contexts → ContextsSmall s.ctl.contexts
  ratings : EventsSmall a.guide.events → EventsSmall s.guide.events
  windows : WindowsSmall a.parental.profiles → WindowsSmall s.parental.profiles
  share : SharesSmall a.out.captureCount → SharesSmall s.out.captureCount
  seen : FiltersSmall a.sections.filters → FiltersSmall s.sections.filters
  index : IndexSmall a.guide.index → IndexSmall s.guide.index
  services : a.guide.list.length ≤ 256 → s.guide.list.length ≤ 256
  events : a.guide.events.length ≤ 2048 → s.guide.events.length ≤ 2048
  entitlements : a.access.entitlements.length ≤ 64 → s.access.entitlements.length ≤ 64
  groups : a.access.groups.length ≤ 4 → s.access.groups.length ≤ 4
  log : a.access.log.length ≤ 16 → s.access.log.length ≤ 16
  locked : a.parental.locked.length ≤ 32 → s.parental.locked.length ≤ 32
  grants : a.parental.grants.length ≤ 8 → s.parental.grants.length ≤ 8
  presentation : QueuesSmall a.out.outputs → QueuesSmall s.out.outputs
  capture : a.out.capture.length ≤ 128 → s.out.capture.length ≤ 128
  notices : a.notices.queue.length ≤ 32 → s.notices.queue.length ≤ 32
  assemblies : TableSound a.table → ∀ P : Input → Nat → Prop, (∀ i n, full = some (i, n) → P i n) →
    AssembliesBut P a.table → AssembliesBut P s.table
  deliveries : TableSound a.table → AssembliesBut (fun _ _ => True) a.table → DeliveriesSmall a.sections.queue →
    DeliveriesSmall s.sections.queue
  markers : ContextsSmall a.ctl.contexts → MarkersSmall a.out.outputs → MarkersSmall s.out.outputs
  tracking : TracksRunning a.ctl.contexts a.guide.tracked → TracksRunning s.ctl.contexts s.guide.tracked
  drains : DrainsCounted a → DrainsCounted s
  idents : IdentitiesDistinct a.ctl.contexts → IdentitiesDistinct s.ctl.contexts
  keys : KeysHeld a.access.slots a.access.entitlements → KeysHeld s.access.slots s.access.entitlements

/-- An output that keeps its pacing changes nothing that stands. -/
theorem outputs_pacing (v : Vector Output 2) (o : OutputNo) (x : Output) (hp : x.pacing = (getAt v o).pacing) :
    (setAt v o x).map Output.pacing = v.map Output.pacing := by
  refine Vector.ext fun i hi => ?_
  have h1 := getAt_setAt v o ⟨i, hi⟩ x
  simp only [getAt, Vector.get] at h1 hp
  simp only [Vector.getElem_map]
  split at h1
  · next ho =>
    have : (setAt v o x)[i] = x := h1
    rw [this, hp]
    subst ho
    rfl
  · have : (setAt v o x)[i] = v[i] := h1
    rw [this]

theorem setOutput_standing (s : State) (o : OutputNo) (x : Output) (hp : x.pacing = (s.output o).pacing) :
    (s.setOutput o x).standing = s.standing := by
  show { s.standing with pacing := (setAt s.out.outputs o x).map Output.pacing } = s.standing
  rw [outputs_pacing _ _ _ hp]
  rfl

/-- Context numbers that rise are at most 16 (R99). -/
theorem UsersOrdered.length {t : List Entry} (h : UsersOrdered t) : ∀ e ∈ t, e.users.length ≤ 16 := by
  intro e he
  have hn : (e.users.map CtxUser.ctx).Nodup := (h e he).imp fun hab => ne_of_lt hab
  have := hn.length_le_card
  simpa using this

namespace Keeps

variable {σ : Type} {κ : Standing → σ} {a s : State}

theorem refl (s : State) : Keeps κ s s :=
  ⟨rfl, rfl, rfl, rfl, id, id, id, id, id, id, id, id, id, id, id, id, id, id, id, id, id, id, id,
    fun _ _ _ => id, fun _ _ => id, fun _ => id, id, id, id, id⟩

theorem trans {b : State} {full : Option (Input × Nat)} (h : Keeps κ a b full) (h' : Keeps κ b s) : Keeps κ a s full where
  standing := h'.standing.trans h.standing
  pending := h'.pending.trans h.pending
  mgmt := h'.mgmt.trans h.mgmt
  blocks := h'.blocks.trans h.blocks
  table := h'.table ∘ h.table
  forming := h'.forming ∘ h.forming
  order := h'.order ∘ h.order
  contexts := h'.contexts ∘ h.contexts
  ratings := h'.ratings ∘ h.ratings
  windows := h'.windows ∘ h.windows
  share := h'.share ∘ h.share
  seen := h'.seen ∘ h.seen
  index := h'.index ∘ h.index
  services := h'.services ∘ h.services
  events := h'.events ∘ h.events
  entitlements := h'.entitlements ∘ h.entitlements
  groups := h'.groups ∘ h.groups
  log := h'.log ∘ h.log
  locked := h'.locked ∘ h.locked
  grants := h'.grants ∘ h.grants
  presentation := h'.presentation ∘ h.presentation
  capture := h'.capture ∘ h.capture
  notices := h'.notices ∘ h.notices
  assemblies ht P hP := h'.assemblies (h.table ht) P (fun _ _ => nofun) ∘ h.assemblies ht P hP
  deliveries ht ha := h'.deliveries (h.table ht) (h.assemblies ht _ (fun _ _ _ => trivial) ha) ∘ h.deliveries ht ha
  markers hc := h'.markers (h.contexts hc) ∘ h.markers hc
  tracking := h'.tracking ∘ h.tracking
  drains := h'.drains ∘ h.drains
  idents := h'.idents ∘ h.idents
  keys := h'.keys ∘ h.keys

theorem lists (h : Keeps κ a s) (x : ListsBounded a) : ListsBounded s where
  forming := h.forming x.forming
  order := h.order x.order
  users := UsersOrdered.length (h.order x.order)
  contexts := h.contexts x.contexts
  ratings := h.ratings x.ratings
  windows := h.windows x.windows
  share := h.share x.share
  seen := h.seen x.seen
  index := h.index x.index
  services := h.services x.services
  events := h.events x.events
  entitlements := h.entitlements x.entitlements
  groups := h.groups x.groups
  log := h.log x.log
  locked := h.locked x.locked
  grants := h.grants x.grants
  presentation := h.presentation x.presentation
  capture := h.capture x.capture
  notices := h.notices x.notices
  table := h.table x.table
  assemblies := (h.assemblies x.table _ (fun _ _ => nofun) (x.assemblies.but _)).small
  deliveries := h.deliveries x.table (x.assemblies.but _) x.deliveries
  markers := h.markers x.contexts x.markers
  tracking := h.tracking x.tracking
  tracked := (h.tracking x.tracking).length

/-- Operations one after another over a list. -/
theorem foldl {α : Type} {f : State → α → State} (hf : ∀ s x, Keeps κ a s → Keeps κ a (f s x)) (h : Keeps κ a s)
    (l : List α) : Keeps κ a (l.foldl f s) := by
  induction l generalizing s with
  | nil => exact h
  | cons x l ih => exact ih (hf s x h)

/-! ### Updates that touch none of it -/

theorem setTag (h : Keeps κ a s) (t : TagNo) (x : TagRec) : Keeps κ a (s.setTag t x) := { h with }
theorem setBinding (h : Keeps κ a s) (o : OutputNo) (x : OutBind) : Keeps κ a (s.setBinding o x) := { h with }
theorem setCaptureRec (h : Keeps κ a s) (t : TagNo) (r : CaptureRec) : Keeps κ a (s.setCaptureRec t r) := { h with }
theorem countPort (h : Keeps κ a s) (i : Input) (f : PortStats → PortStats) : Keeps κ a (countPort i f s) :=
  { h with }
theorem countSection (h : Keeps κ a s) (i : Input) (f : SectionStats → SectionStats) :
    Keeps κ a (countSection i f s) := { h with }
theorem countDescrambler (h : Keeps κ a s) (i : Input) (f : DescramblerStats → DescramblerStats) :
    Keeps κ a (countDescrambler i f s) := { h with }
theorem countFraming (h : Keeps κ a s) (i : Input) : Keeps κ a (countFraming i s) := h.countSection i _

/-- The clock changes, uptime and source apart. -/
theorem setClock (h : Keeps κ a s) (c : Clock) (hu : c.uptime = s.clock.uptime) (hs : c.source = s.clock.source) :
    Keeps κ a (s.setClock c) :=
  { h with
    standing := by
      rw [← h.standing]
      show κ { s.standing with uptime := c.uptime, timeSource := c.source } = _
      rw [hu, hs]
      rfl }

/-! ### Updates of what stands -/

theorem setProfile (h : Keeps κ a s) (hκ : ∀ t v, κ { t with profiles := v } = κ t) (p : ProfileNo) (x : Profile)
    (hx : (s.profile p).windows.length ≤ 4 → x.windows.length ≤ 4) : Keeps κ a (s.setProfile p x) :=
  { h with
    standing := (hκ s.standing _).trans h.standing
    windows := fun y q => by
      have := h.windows y
      show (getAt (setAt s.parental.profiles p x) q).windows.length ≤ 4
      rw [getAt_setAt]
      split
      · exact hx (this p)
      · exact this q }
theorem setForming (h : Keeps κ a s) (i : Input) (v : Option (List Byte))
    (hv : FormingSmall s.intake.forming → ∀ u, v = some u → 1 ≤ u.length ∧ u.length ≤ 187) : Keeps κ a (s.setForming i v) :=
  { h with
    forming := fun y j u hu => by
      change getAt (setAt s.intake.forming i v) j = some u at hu
      rw [getAt_setAt] at hu
      split at hu
      · exact hv (h.forming y) u hu
      · exact h.forming y j u hu }
theorem setSync (h : Keeps κ a s) (i : Input) (hκ : ∀ t v, κ { t with sync := setAt t.sync i v } = κ t) (x : SyncRec) :
    Keeps κ a (s.setSync i x) := { h with standing := (hκ s.standing _).trans h.standing }
theorem setLock (h : Keeps κ a s) (p : PortNo) (hκ : ∀ t v, κ { t with lock := setAt t.lock p v } = κ t) (b : Bool) :
    Keeps κ a (s.setLock p b) := { h with standing := (hκ s.standing _).trans h.standing }
theorem setUptime (h : Keeps κ a s) (hκ : ∀ t v, κ { t with uptime := v } = κ t) (n : Nat) :
    Keeps κ a (s.setClock { s.clock with uptime := n }) :=
  { h with standing := (hκ s.standing _).trans h.standing }
theorem passCycles (h : Keeps κ a s) (hκ : ∀ t v, κ { t with time := v } = κ t) (k : Nat) :
    Keeps κ a (passCycles k s) := { h with standing := (hκ s.standing _).trans h.standing }
theorem advanceTo (h : Keeps κ a s) (hκ : ∀ t v, κ { t with time := v } = κ t) (n : Nat) : Keeps κ a (advanceTo n s) :=
  h.passCycles hκ _
theorem setLink (h : Keeps κ a s) (hκ : ∀ t v, κ { t with link := v } = κ t) (l : Link) :
    Keeps κ a { s with link := l } := { h with standing := (hκ s.standing _).trans h.standing }
theorem sendHlOut (h : Keeps κ a s) (hκ : ∀ t v, κ { t with link := v } = κ t) (p : List Byte) :
    Keeps κ a (sendHlOut p s) := h.setLink hκ _
theorem sendPo (h : Keeps κ a s) (hκ : ∀ t v, κ { t with link := v } = κ t) (o : OutputNo) (p : List Byte) :
    Keeps κ a (sendPo o p s) := h.setLink hκ _

/-! ### Updates with a condition -/

theorem offer (h : Keeps κ a s) (n : Notice) : Keeps κ a (offer n s) := by
  unfold Machine.offer
  split
  · next hn => exact { h with notices := fun _ => by simp; omega }
  · exact { h with }

theorem setFilter (h : Keeps κ a s) (f : FilterNo) (x : Option Filter) (hx : ∀ y, x = some y → y.seen.length ≤ 8) :
    Keeps κ a (s.setFilter f x) :=
  { h with
    seen := fun y g z hz => by
      have := h.seen y
      simp at hz
      split at hz
      · exact hx z hz
      · exact this g z hz }

theorem setPortIndex (h : Keeps κ a s) (p : PortNo) (x : PortIndex)
    (hx : (getAt s.guide.index p).small → x.small) : Keeps κ a (s.setPortIndex p x) :=
  { h with
    index := fun y q => by
      have := h.index y
      simp
      split
      · exact hx (this p)
      · exact this q }

theorem setEvents (h : Keeps κ a s) (l : List Event) (hl : s.guide.events.length ≤ 2048 → l.length ≤ 2048)
    (hr : EventsSmall s.guide.events → EventsSmall l) : Keeps κ a (s.setEvents l) :=
  { h with events := fun y => hl (h.events y), ratings := fun y => hr (h.ratings y) }

theorem setLocked (h : Keeps κ a s) (hκ : ∀ t v, κ { t with locked := v } = κ t) (l : List LockedService)
    (hl : s.parental.locked.length ≤ 32 → l.length ≤ 32) : Keeps κ a (s.setLocked l) :=
  { h with
    standing := (hκ s.standing _).trans h.standing
    locked := fun y => hl (h.locked y) }

theorem setGrants (h : Keeps κ a s) (l : List Grant) (hl : s.parental.grants.length ≤ 8 → l.length ≤ 8) :
    Keeps κ a (s.setGrants l) :=
  { h with grants := fun y => hl (h.grants y) }

/-- A slot takes contents whose keys are backed. -/
theorem setSlot (h : Keeps κ a s) (k : SlotNo) (x : Option Slot)
    (hx : KeysHeld s.access.slots s.access.entitlements → ∀ y, x = some y → y.keysBacked s.access.entitlements) :
    Keeps κ a (s.setSlot k x) :=
  { h with
    keys := fun y j z hz => by
      have := h.keys y
      simp at hz
      split at hz
      · exact hx this z hz
      · exact this j z hz }

/-- A slot keeps its keys and its tier. -/
theorem setSlot_same (h : Keeps κ a s) (k : SlotNo) (x y : Slot) (hx : s.slot k = some x) (he : y.even = x.even)
    (ho : y.odd = x.odd) (ht : y.tier = x.tier) : Keeps κ a (s.setSlot k (some y)) :=
  h.setSlot k _ fun hk z hz => by
    have := hk k x hx
    obtain rfl := Option.some.inj hz
    simpa [Slot.keysBacked, he, ho, ht] using this

/-- The markers stay within their size when an output's marker place keeps its marker, is emptied or takes a marker of a
context. -/
theorem markers_setAt (h : Keeps κ a s) (o : OutputNo) (x : Output)
    (hm : ContextsSmall s.ctl.contexts → ∀ m, x.marker = some m →
      (s.output o).marker = some m ∨ m.components.length ≤ 8) (hc : ContextsSmall a.ctl.contexts)
    (y : MarkersSmall a.out.outputs) : MarkersSmall (setAt s.out.outputs o x) := by
  intro o' m h'
  rw [getAt_setAt] at h'
  split at h'
  · exact (hm (h.contexts hc) m h').elim (h.markers hc y o m) id
  · exact h.markers hc y o' m h'

/-- A presentation output changes and its queue does not. -/
theorem setOutput_queue (h : Keeps κ a s) (o : OutputNo) (x : Output) (hq : x.queue = (s.output o).queue)
    (hs : κ (s.setOutput o x).standing = κ s.standing)
    (hm : ContextsSmall s.ctl.contexts → ∀ m, x.marker = some m →
      (s.output o).marker = some m ∨ m.components.length ≤ 8) : Keeps κ a (s.setOutput o x) :=
  { h with
    standing := hs.trans h.standing
    markers := h.markers_setAt o x hm
    presentation := fun y o' => by
      have := h.presentation y
      simp only [setOutput_out_outputs, getAt_setAt]
      split
      · rw [hq]; exact this o
      · exact this o'
    drains := fun y => by
      have := h.drains y
      have hp : ∀ o' c, presented (getAt (s.setOutput o x).out.outputs o') c = presented (getAt s.out.outputs o') c := by
        intro o' c
        simp only [setOutput_out_outputs, getAt_setAt]
        split
        · next ho => subst ho; simp only [presented, hq]; rfl
        · rfl
      exact ⟨fun c => by simp only [packetsOf, hp]; exact this.drain c, this.capture, this.free⟩ }

theorem setOutput_same (h : Keeps κ a s) (o : OutputNo) (x : Output) (hq : x.queue = (s.output o).queue)
    (hp : x.pacing = (s.output o).pacing)
    (hm : ContextsSmall s.ctl.contexts → ∀ m, x.marker = some m →
      (s.output o).marker = some m ∨ m.components.length ≤ 8 := by exact fun _ _ h => Or.inl h) :
    Keeps κ a (s.setOutput o x) :=
  h.setOutput_queue o x hq (by rw [setOutput_standing s o x hp]) hm

theorem setOutput_paced (h : Keeps κ a s) (hκ : ∀ t v, κ { t with pacing := v } = κ t) (o : OutputNo) (x : Output)
    (hq : x.queue = (s.output o).queue) (hm : x.marker = (s.output o).marker := by rfl) :
    Keeps κ a (s.setOutput o x) :=
  h.setOutput_queue o x hq (hκ s.standing _) fun _ _ h => Or.inl (hm ▸ h)

end Keeps

/-! ### Contexts -/

/-- A context changes without a queue, an identity or a birth: its drain count stays, it is FREE only if it was or has
no packet, and it is live only if it was, under the same identity. -/
structure CtxChange (old new : Context) : Prop where
  drain : new.drain = old.drain
  free : new.state = .free → old.state = .free ∨ new.drain = 0
  live : new.live → old.live ∧ new.input = old.input ∧ new.service = old.service
  small : old.small → new.small

/-- Such a change of a context that runs on where it is RUNNING. -/
structure CtxStep (old new : Context) : Prop where
  change : CtxChange old new
  runs : old.state = .running → new.state = .running

theorem CtxState.acquiring_live {x : Context} (h : x.state.acquiring = true) : x.live ∧ x.state ≠ .running := by
  cases hs : x.state <;> simp_all [Context.live, CtxState.acquiring]

/-- The lists of a context stay. -/
theorem Context.small.same {old new : Context} (h : old.small) (hc : new.components = old.components)
    (hr : new.mapRatings = old.mapRatings) (hp : new.play = old.play) : new.small :=
  ⟨by rw [hc]; exact h.components, by rw [hr]; exact h.ratings, by rw [hp]; exact h.play⟩

/-- The drain count, the state and the identity stay. -/
theorem CtxStep.same {old new : Context} (hd : new.drain = old.drain) (hs : new.state = old.state)
    (hi : new.input = old.input) (hv : new.service = old.service)
    (hm : old.small → new.small := by exact fun h => h.same rfl rfl rfl) : CtxStep old new :=
  ⟨⟨hd, fun h => Or.inl (hs ▸ h), fun h => ⟨by simpa [Context.live, hs] using h, hi, hv⟩, hm⟩, fun h => hs ▸ h⟩

/-- A context in acquisition takes another state that is not FREE. -/
theorem CtxStep.stage {old new : Context} (hl : old.state.acquiring = true) (hd : new.drain = old.drain) (hs : new.state ≠ .free)
    (hi : new.input = old.input) (hv : new.service = old.service)
    (hm : old.small → new.small := by exact fun h => h.same rfl rfl rfl) : CtxStep old new :=
  ⟨⟨hd, fun h => absurd h hs, fun _ => ⟨(CtxState.acquiring_live hl).1, hi, hv⟩, hm⟩,
    fun h => absurd h (CtxState.acquiring_live hl).2⟩

theorem ContextsSmall.setAt {v : Vector Context 16} (h : ContextsSmall v) (c : CtxNo) (x : Context)
    (hx : (getAt v c).small → x.small) : ContextsSmall (Machine.setAt v c x) := by
  intro d
  rw [getAt_setAt]
  split
  · exact hx (h c)
  · exact h d

theorem IdentitiesDistinct.setAt {v : Vector Context 16} (h : IdentitiesDistinct v) (c : CtxNo) (x : Context)
    (hx : x.live → (getAt v c).live ∧ x.input = (getAt v c).input ∧ x.service = (getAt v c).service) :
    IdentitiesDistinct (Machine.setAt v c x) := by
  intro d e hd he
  simp only [getAt_setAt] at hd he ⊢
  split at hd <;> split at he
  · next h1 h2 => intros; exact h1.symm.trans h2
  · next h1 h2 =>
    subst h1
    obtain ⟨hl, h3, h4⟩ := hx hd
    simp only [if_true, if_neg h2, h3, h4]
    exact h c e hl he
  · next h1 h2 =>
    subst h2
    obtain ⟨hl, h3, h4⟩ := hx he
    simp only [if_true, if_neg h1, h3, h4]
    exact h d c hd hl
  · next h1 h2 =>
    simp only [if_neg h1, if_neg h2]
    exact h d e hd he

theorem Keeps.changeContext {σ : Type} {κ : Standing → σ} {a s : State} (h : Keeps κ a s) (c : CtxNo) (x : Context)
    (hx : CtxChange (s.context c) x)
    (ht : TracksRunning s.ctl.contexts s.guide.tracked → TracksRunning (Machine.setAt s.ctl.contexts c x) s.guide.tracked) :
    Keeps κ a (s.setContext c x) :=
  { h with
    tracking := fun y => ht (h.tracking y)
    drains := fun y => by
      have hd := h.drains y
      refine ⟨fun d => ?_, hd.capture, fun d => ?_⟩
      · simp only [setContext_ctl_contexts, getAt_setAt]
        split
        · next hc => subst hc; rw [hx.drain]; exact hd.drain c
        · exact hd.drain d
      · simp only [setContext_ctl_contexts, getAt_setAt]
        split
        · next hc =>
          subst hc
          intro hf
          rcases hx.free hf with h1 | h1
          · rw [hx.drain]; exact hd.free c h1
          · exact h1
        · exact hd.free d
    contexts := fun y => (h.contexts y).setAt c x hx.small
    idents := fun y => (h.idents y).setAt c x hx.live }

theorem Keeps.setContext {σ : Type} {κ : Standing → σ} {a s : State} (h : Keeps κ a s) (c : CtxNo) (x : Context)
    (hx : CtxStep (s.context c) x) : Keeps κ a (s.setContext c x) :=
  h.changeContext c x hx.change fun y => y.setAt_same c x fun hr => by
    have hn := hx.runs hr
    exact ⟨hn, (hx.change.live (by simp [Context.live, hn])).2⟩

end Sys2Proof.Machine
end

