-- ==== Sys2Proof/Laws/Table.lean ====
section
/-! SUPPORT. What the operations on the stream table do to its invariant and to the blocks its assemblies hold. -/

namespace Sys2Proof.Machine

/-! ### Blocks of a list of entries -/

@[simp] theorem blocksOf_nil : blocksOf [] = 0 := rfl

@[simp] theorem blocksOf_cons (e : Entry) (l : List Entry) : blocksOf (e :: l) = e.blocks + blocksOf l := by
  simp [blocksOf]

@[simp] theorem blocksOf_append (l m : List Entry) : blocksOf (l ++ m) = blocksOf l + blocksOf m := by
  simp [blocksOf]

theorem blocksOf_map (f : Entry → Entry) (l : List Entry) (hf : ∀ e, (f e).blocks = e.blocks) :
    blocksOf (l.map f) = blocksOf l := by
  induction l with
  | nil => rfl
  | cons e l ih => simp [hf, ih]

theorem blocksOf_filter_add (p : Entry → Bool) (l : List Entry) :
    blocksOf (l.filter (fun e => !p e)) + blocksOf (l.filter p) = blocksOf l := by
  induction l with
  | nil => rfl
  | cons e l ih => cases h : p e <;> simp [h] <;> omega

/-- The blocks of a table after its entry of a pair is changed in place. -/
theorem blocksOf_updateFirst (hit : Entry → Bool) (f : Entry → Entry) (l : List Entry) (e : Entry)
    (he : l.find? hit = some e) : blocksOf (updateFirst hit f l) + e.blocks = blocksOf l + (f e).blocks := by
  induction l with
  | nil => simp at he
  | cons x l ih =>
    cases hx : hit x
    · simp [hx] at he
      have := ih he
      simp [updateFirst, hx]
      omega
    · simp [hx] at he
      subst he
      simp [updateFirst, hx]
      omega

theorem updateFirst_none {α : Type} (hit : α → Bool) (f : α → α) (l : List α) (h : l.find? hit = none) :
    updateFirst hit f l = l := by
  induction l with
  | nil => rfl
  | cons x l ih =>
    simp only [List.find?_cons] at h
    cases hx : hit x <;> simp [hx] at h
    simp only [updateFirst, hx, Bool.false_eq_true, if_false, List.cons.injEq, true_and]
    exact ih (by simpa using h)

theorem blocksOf_updateFirst_same (hit : Entry → Bool) (f : Entry → Entry) (l : List Entry)
    (hf : ∀ e, (f e).blocks = e.blocks) : blocksOf (updateFirst hit f l) = blocksOf l := by
  induction l with
  | nil => rfl
  | cons x l ih => cases hx : hit x <;> simp [updateFirst, hx, hf, ih]

/-! ### Changing entries in place -/

theorem mem_updateFirst {α : Type} {hit : α → Bool} {f : α → α} {l : List α} {y : α} (h : y ∈ updateFirst hit f l) :
    ∃ x ∈ l, y = x ∨ y = f x := by
  induction l with
  | nil => simp [updateFirst] at h
  | cons x l ih =>
    cases hx : hit x <;> simp [updateFirst, hx] at h
    · rcases h with h | h
      · exact ⟨x, by simp, Or.inl h⟩
      · obtain ⟨z, hz, hy⟩ := ih h
        exact ⟨z, by simp [hz], hy⟩
    · rcases h with h | h
      · exact ⟨x, by simp, Or.inr h⟩
      · exact ⟨y, by simp [h], Or.inl rfl⟩

/-- The changed element is one that is hit. -/
theorem mem_updateFirst_hit {α : Type} {hit : α → Bool} {f : α → α} {l : List α} {y : α} (h : y ∈ updateFirst hit f l) :
    y ∈ l ∨ ∃ x ∈ l, hit x = true ∧ l.find? hit = some x ∧ y = f x := by
  induction l with
  | nil => simp [updateFirst] at h
  | cons x l ih =>
    cases hx : hit x <;> simp [updateFirst, hx] at h
    · rcases h with h | h
      · exact Or.inl (by simp [h])
      · rcases ih h with hz | ⟨z, hz, hh, hf, hy⟩
        · exact Or.inl (by simp [hz])
        · exact Or.inr ⟨z, by simp [hz], hh, by simp [hx, hf], hy⟩
    · rcases h with h | h
      · exact Or.inr ⟨x, by simp, hx, by simp [hx], h⟩
      · exact Or.inl (by simp [h])

theorem mem_or_mem_updateFirst {α : Type} {hit : α → Bool} {f : α → α} {l : List α} {x : α} (h : x ∈ l) :
    x ∈ updateFirst hit f l ∨ f x ∈ updateFirst hit f l := by
  induction l with
  | nil => simp at h
  | cons y l ih =>
    cases hy : hit y <;> simp [updateFirst, hy] <;> simp at h
    · rcases h with rfl | h
      · simp
      · rcases ih h with h | h <;> simp [h]
    · rcases h with rfl | h
      · simp
      · simp [h]

/-- An entry keeps its place in the table: its pair, its role, a user, and INDEX where it holds it. -/
structure EntryStep (f : Entry → Entry) : Prop where
  input : ∀ e, (f e).input = e.input
  stream : ∀ e, (f e).stream = e.stream
  role : ∀ e, (f e).role = e.role
  used : ∀ e, e.unused = false → (f e).unused = false
  fixed : ∀ e, e.pins.index = true → (f e).pins.index = true
  order : ∀ e, e.ordered → (f e).ordered

/-- A change that leaves users and pins as they are. -/
theorem EntryStep.of_same {f : Entry → Entry} (hi : ∀ e, (f e).input = e.input) (hs : ∀ e, (f e).stream = e.stream)
    (hr : ∀ e, (f e).role = e.role) (hu : ∀ e, (f e).users = e.users) (hp : ∀ e, (f e).pins = e.pins) :
    EntryStep f := by
  refine ⟨hi, hs, hr, fun e h => ?_, fun e h => ?_, fun e h => ?_⟩
  · simpa [Entry.unused, Entry.pinned, hu, hp] using h
  · simpa [hp] using h
  · simpa [Entry.ordered, hu] using h

theorem keys_updateFirst {f : Entry → Entry} (hf : EntryStep f) (hit : Entry → Bool) (l : List Entry) :
    (updateFirst hit f l).map (fun e => (e.input, e.stream)) = l.map (fun e => (e.input, e.stream)) := by
  induction l with
  | nil => rfl
  | cons x l ih => cases hx : hit x <;> simp [updateFirst, hx, hf.input, hf.stream, ih]

theorem TableSound.updateFirst {l : List Entry} (h : TableSound l) {f : Entry → Entry} (hf : EntryStep f)
    (hit : Entry → Bool) : TableSound (updateFirst hit f l) := by
  have hk := keys_updateFirst hf hit l
  refine ⟨?_, by rw [hk]; exact h.pairs, ?_, ?_, ?_⟩
  · have := congrArg List.length hk
    simp at this
    have := h.size
    omega
  · intro e he
    obtain ⟨x, hx, rfl | rfl⟩ := mem_updateFirst he
    · exact h.numbers e hx
    · simpa [hf.input, hf.stream] using h.numbers x hx
  · intro e he
    obtain ⟨x, hx, rfl | rfl⟩ := mem_updateFirst he
    · exact h.used e hx
    · exact hf.used x (h.used x hx)
  · intro p
    obtain ⟨e, he, h1, h2, h3, h4⟩ := h.fixed p
    rcases mem_or_mem_updateFirst (hit := hit) (f := f) he with h' | h'
    · exact ⟨e, h', h1, h2, h3, h4⟩
    · exact ⟨f e, h', by rw [hf.input, h1], by rw [hf.stream, h2], by rw [hf.role, h3], hf.fixed e h4⟩

theorem TableSound.map {l : List Entry} (h : TableSound l) {f : Entry → Entry} (hf : EntryStep f) :
    TableSound (l.map f) := by
  refine ⟨by simpa using h.size, ?_, ?_, ?_, ?_⟩
  · have : (l.map f).map (fun e => (e.input, e.stream)) = l.map (fun e => (e.input, e.stream)) := by
      simp [Function.comp_def, hf.input, hf.stream]
    rw [this]
    exact h.pairs
  · intro e he
    obtain ⟨x, hx, rfl⟩ := List.mem_map.1 he
    simpa [hf.input, hf.stream] using h.numbers x hx
  · intro e he
    obtain ⟨x, hx, rfl⟩ := List.mem_map.1 he
    exact hf.used x (h.used x hx)
  · intro p
    obtain ⟨e, he, h1, h2, h3, h4⟩ := h.fixed p
    exact ⟨f e, List.mem_map_of_mem he, by rw [hf.input, h1], by rw [hf.stream, h2], by rw [hf.role, h3], hf.fixed e h4⟩

theorem UsersOrdered.updateFirst {l : List Entry} (h : UsersOrdered l) {f : Entry → Entry} (hf : EntryStep f)
    (hit : Entry → Bool) : UsersOrdered (updateFirst hit f l) := by
  intro e he
  obtain ⟨x, hx, rfl | rfl⟩ := mem_updateFirst he
  · exact h e hx
  · exact hf.order x (h x hx)

theorem UsersOrdered.map {l : List Entry} (h : UsersOrdered l) {f : Entry → Entry} (hf : EntryStep f) :
    UsersOrdered (l.map f) := by
  intro e he
  obtain ⟨x, hx, rfl⟩ := List.mem_map.1 he
  exact hf.order x (h x hx)

/-! ### Assemblies -/

theorem AssembliesBut.updateFirst {P : Input → Nat → Prop} {l : List Entry} (h : AssembliesBut P l) {f : Entry → Entry}
    (hf : EntryStep f) (ha : ∀ e, (f e).assembly = e.assembly) (hit : Entry → Bool) :
    AssembliesBut P (updateFirst hit f l) := by
  intro e he
  obtain ⟨x, hx, rfl | rfl⟩ := mem_updateFirst he
  · exact h e hx
  · rw [ha, hf.input, hf.stream]
    exact h x hx

/-- The one entry of a pair takes another assembly: the pair is left out from then on, or no longer. -/
theorem AssembliesBut.setOne {P Q : Input → Nat → Prop} {t : List Entry} (ht : TableSound t) (h : AssembliesBut P t)
    (i : Input) (st : Nat) (x : Assembly) (hx : x.small ∨ Q i st ∧ x.sized) (hp : ∀ j n, P j n → Q j n ∨ j = i ∧ n = st) :
    AssembliesBut Q (Machine.updateFirst (isAt i st) (fun e => { e with assembly := x }) t) := by
  have hk := ht.pairs
  clear ht
  induction t with
  | nil => simp [AssembliesBut, Machine.updateFirst]
  | cons y t ih =>
    rw [List.map_cons, List.nodup_cons] at hk
    have htail : AssembliesBut P t := fun e he => h e (by simp [he])
    cases hy : isAt i st y
    · simp only [Machine.updateFirst, hy, Bool.false_eq_true, if_false]
      intro e he
      rcases List.mem_cons.1 he with rfl | he
      · refine (h e (by simp)).imp_right fun z => ⟨(hp _ _ z.1).resolve_right fun hc => ?_, z.2⟩
        simp [isAt, hc.1, hc.2] at hy
      · exact ih htail hk.2 e he
    · simp only [isAt, Bool.and_eq_true, beq_iff_eq] at hy
      simp only [Machine.updateFirst, isAt, hy, beq_self_eq_true, Bool.and_self, if_true]
      intro e he
      rcases List.mem_cons.1 he with rfl | he
      · rcases hx with hx | hx
        · exact Or.inl hx
        · exact Or.inr ⟨by simpa [hy] using hx.1, hx.2⟩
      · refine (h e (by simp [he])).imp_right fun z => ⟨(hp _ _ z.1).resolve_right fun hc => hk.1 ?_, z.2⟩
        rw [hy.1, hy.2]
        exact List.mem_map.2 ⟨e, he, by rw [hc.1, hc.2]⟩

/-! ### Adding and removing users -/

/-- An added purpose leaves the context users in ascending number. -/
theorem addPurpose_ordered (c : CtxNo) (p : Purpose) (us : List CtxUser)
    (h : (us.map CtxUser.ctx).Pairwise (· < ·)) :
    ((addPurpose c p us).map CtxUser.ctx).Pairwise (· < ·) ∧
      ∀ x ∈ (addPurpose c p us).map CtxUser.ctx, x = c ∨ x ∈ us.map CtxUser.ctx := by
  induction us with
  | nil => simp [addPurpose]
  | cons u us ih =>
    rw [List.map_cons, List.pairwise_cons] at h
    obtain ⟨i1, i2⟩ := ih h.2
    unfold addPurpose
    split
    · next hc =>
      have h' : ((u :: us).map CtxUser.ctx).Pairwise (· < ·) := by rw [List.map_cons, List.pairwise_cons]; exact h
      split
      · exact ⟨h', fun x hx => Or.inr hx⟩
      · have e : List.map CtxUser.ctx (⟨c, u.purposes ++ [p]⟩ :: us) = (u :: us).map CtxUser.ctx := by
          simp [hc]
        rw [e]
        exact ⟨h', fun x hx => Or.inr hx⟩
    · next hc =>
      split
      · next hlt =>
        refine ⟨?_, fun x hx => by simpa using hx⟩
        simp only [List.map_cons, List.pairwise_cons, List.mem_cons]
        refine ⟨?_, h.1, h.2⟩
        rintro x (rfl | hx)
        · exact hlt
        · exact lt_trans hlt (h.1 x hx)
      · next hge =>
        refine ⟨?_, fun x hx => ?_⟩
        · rw [List.map_cons, List.pairwise_cons]
          refine ⟨fun x hx => ?_, i1⟩
          rcases i2 x hx with rfl | hx
          · exact lt_of_le_of_ne (not_lt.1 hge) hc
          · exact h.1 x hx
        · rw [List.map_cons, List.mem_cons] at hx
          rcases hx with rfl | hx
          · simp
          · rcases i2 x hx with rfl | hx
            · exact Or.inl rfl
            · exact Or.inr (by simp [hx])

/-- A purpose taken away leaves the context users in ascending number. -/
theorem dropPurpose_ordered (c : CtxNo) (p : Purpose) (us : List CtxUser)
    (h : (us.map CtxUser.ctx).Pairwise (· < ·)) : ((dropPurpose c p us).map CtxUser.ctx).Pairwise (· < ·) := by
  refine h.sublist ?_
  unfold dropPurpose
  induction us with
  | nil => simp
  | cons u us ih =>
    rw [List.map_cons, List.pairwise_cons] at h
    rw [List.filterMap_cons]
    split
    · exact (ih h.2).trans (List.sublist_cons_self _ _)
    · next y hy =>
      have e : y.ctx = u.ctx := by
        split at hy
        · next hc =>
          dsimp only at hy
          split at hy
          · cases hy
          · cases hy; exact hc.symm
        · cases hy; rfl
      rw [List.map_cons, List.map_cons, e]
      exact (ih h.2).cons_cons _

theorem addPurpose_ne_nil (c : CtxNo) (p : Purpose) (us : List CtxUser) : addPurpose c p us ≠ [] := by
  cases us with
  | nil => simp [addPurpose]
  | cons u us => simp only [addPurpose]; split <;> [split; split] <;> simp

theorem pinned_add (p : Pins) (c : PinConsumer) (e : Entry) : ({ e with pins := p.add c } : Entry).pinned = true := by
  cases c with
  | filter f =>
    have h : addBit p.filters f ≠ 0 := by
      intro h
      have h' := congrArg (fun b => b.getLsbD f.val) h
      simp [addBit, bitOf, f.isLt] at h'
    simp only [Entry.pinned, Pins.add, bne_iff_ne, ne_eq, Bool.or_eq_true]
    exact Or.inr h
  | _ => simp [Entry.pinned, Pins.add]

theorem unused_add (r : UserReq) (e : Entry) : (Entry.add r e).unused = false := by
  cases r with
  | ctx c p => simp [Entry.add, Entry.unused, addPurpose_ne_nil]
  | pin p => simp only [Entry.add, Entry.unused, pinned_add]; simp

theorem entryStep_add (r : UserReq) : EntryStep (Entry.add r) := by
  refine ⟨?_, ?_, ?_, fun e _ => unused_add r e, ?_, fun e h => ?_⟩
  · intro e; cases r <;> simp [Entry.add]
  · intro e; cases r <;> simp [Entry.add]
  · intro e; cases r <;> simp [Entry.add]
  · intro e
    cases r with
    | ctx c p => simp [Entry.add]
    | pin p => cases p <;> simp [Entry.add, Pins.add]
  · cases r with
    | ctx c p => exact (addPurpose_ordered c p e.users h).1
    | pin p => exact h

theorem assembly_add (r : UserReq) (e : Entry) : (Entry.add r e).assembly = e.assembly := by
  cases r <;> rfl

theorem blocks_of_assembly {e f : Entry} (h : f.assembly = e.assembly) : f.blocks = e.blocks := by
  simp [Entry.blocks, h]

theorem TableSound.append {l : List Entry} (h : TableSound l) (e : Entry) (hs : l.length < 192)
    (hn : l.find? (isAt e.input e.stream) = none) (ha : admissible e.input e.stream = true) (hu : e.unused = false) :
    TableSound (l ++ [e]) := by
  refine ⟨by simp; omega, ?_, ?_, ?_, ?_⟩
  · rw [List.map_append]
    refine List.nodup_append.2 ⟨h.pairs, by simp, ?_⟩
    intro x hx y hy hxy
    simp at hy
    subst hy
    obtain ⟨z, hz, hzx⟩ := List.mem_map.1 hx
    have := List.find?_eq_none.1 hn z hz
    rw [hxy] at hzx
    simp at hzx
    simp [isAt, hzx.1, hzx.2] at this
  · intro x hx
    rcases List.mem_append.1 hx with hx | hx
    · exact h.numbers x hx
    · simp at hx; subst hx; exact ha
  · intro x hx
    rcases List.mem_append.1 hx with hx | hx
    · exact h.used x hx
    · simp at hx; subst hx; exact hu
  · intro p
    obtain ⟨x, hx, h'⟩ := h.fixed p
    exact ⟨x, by simp [hx], h'⟩

/-- What a removal does to an entry: its pair, role and assembly stay, and INDEX where it holds it. -/
structure RemovalStep (f : Entry → Entry) : Prop where
  input : ∀ e, (f e).input = e.input
  stream : ∀ e, (f e).stream = e.stream
  role : ∀ e, (f e).role = e.role
  assembly : ∀ e, (f e).assembly = e.assembly
  fixed : ∀ e, e.pins.index = true → (f e).pins.index = true
  order : ∀ e, e.ordered → (f e).ordered

theorem AssembliesBut.removeUsers {P : Input → Nat → Prop} {s : State} (h : AssembliesBut P s.table) (hit : Entry → Bool)
    {f : Entry → Entry} (hf : RemovalStep f) : AssembliesBut P (removeUsers hit f s).table := by
  intro e he
  obtain ⟨x, hx, rfl⟩ := List.mem_map.1 he
  have := h x (List.mem_filter.1 hx).1
  split
  · rw [hf.assembly, hf.input, hf.stream]
    exact this
  · exact this

theorem UsersOrdered.removeUsers {s : State} (h : UsersOrdered s.table) (hit : Entry → Bool) {f : Entry → Entry}
    (hf : RemovalStep f) : UsersOrdered (removeUsers hit f s).table := by
  intro e he
  obtain ⟨x, hx, rfl⟩ := List.mem_map.1 he
  have := h x (List.mem_filter.1 hx).1
  split
  · exact hf.order x this
  · exact this

theorem TableSound.removeUsers {s : State} (h : TableSound s.table) (hit : Entry → Bool) {f : Entry → Entry}
    (hf : RemovalStep f) : TableSound (removeUsers hit f s).table := by
  simp only [Machine.removeUsers]
  generalize s.table = l at *
  refine ⟨?_, ?_, ?_, ?_, ?_⟩
  · rw [List.length_map]
    exact (List.length_filter_le _ l).trans h.size
  · have : ((l.filter (fun e => !(hit e && (f e).unused))).map (fun e => if hit e then f e else e)).map
        (fun e => (e.input, e.stream)) =
        (l.filter (fun e => !(hit e && (f e).unused))).map (fun e => (e.input, e.stream)) := by
      rw [List.map_map]
      refine List.map_congr_left fun e _ => ?_
      cases hh : hit e <;> simp [hh, hf.input, hf.stream]
    rw [this]
    exact h.pairs.sublist (List.Sublist.map _ List.filter_sublist)
  · intro e he
    obtain ⟨x, hx, rfl⟩ := List.mem_map.1 he
    have hx' := (List.mem_filter.1 hx).1
    have := h.numbers x hx'
    cases hit x <;> simp [hf.input, hf.stream, this]
  · intro e he
    obtain ⟨x, hx, rfl⟩ := List.mem_map.1 he
    obtain ⟨hx', hg⟩ := List.mem_filter.1 hx
    cases hh : hit x
    · simpa [hh] using h.used x hx'
    · simpa [hh] using hg
  · intro p
    obtain ⟨e, he, h1, h2, h3, h4⟩ := h.fixed p
    have hu : (f e).unused = false := by simp [Entry.unused, Entry.pinned, hf.fixed e h4]
    refine ⟨if hit e then f e else e, List.mem_map_of_mem (List.mem_filter.2 ⟨he, by simp [hu]⟩), ?_⟩
    cases hh : hit e <;> simp [h1, h2, h3, h4, hf.input, hf.stream, hf.role, hf.fixed]

theorem blocksTotal_removeUsers (s : State) (hit : Entry → Bool) {f : Entry → Entry} (hf : RemovalStep f) :
    (removeUsers hit f s).blocksTotal = s.blocksTotal := by
  simp only [State.blocksTotal, Machine.removeUsers]
  rw [blocksOf_map _ _ (fun e => by cases hh : hit e <;> simp [blocks_of_assembly (hf.assembly e)])]
  have := blocksOf_filter_add (fun e => hit e && (f e).unused) s.table
  omega

/-! ### The operations -/

namespace Keeps

variable {σ : Type} {κ : Standing → σ} {a s : State} {full : Option (Input × Nat)}

/-- An operation that touches only the table and the free blocks. -/
theorem of_table (h : Keeps κ a s) {t : List Entry} {n : Nat} (ht : TableSound s.table → TableSound t)
    (hb : n + blocksOf t = s.sections.freeBlocks + blocksOf s.table) (ho : UsersOrdered s.table → UsersOrdered t)
    (ha : ∀ P : Input → Nat → Prop, AssembliesBut P s.table → AssembliesBut P t) :
    Keeps κ a { s with table := t, sections := { s.sections with freeBlocks := n } } :=
  { h with
    assemblies := fun x P hP y => ha P (h.assemblies x P hP y)
    table := fun x => ht (h.table x)
    order := fun x => ho (h.order x)
    blocks := by
      rw [← h.blocks]
      simp only [State.blocksTotal]
      omega }

theorem modifyEntry (h : Keeps κ a s) (i : Input) (st : Nat) {f : Entry → Entry} (hf : EntryStep f)
    (ha : ∀ e, (f e).assembly = e.assembly) : Keeps κ a (modifyEntry i st f s) :=
  h.of_table (fun x => x.updateFirst hf _)
    (by rw [blocksOf_updateFirst_same _ _ _ fun e => blocks_of_assembly (ha e)])
    (fun x => x.updateFirst hf _) fun _ x => x.updateFirst hf ha _

theorem addUser (h : Keeps κ a s) (i : Input) (st : Nat) (role : Role) (r : UserReq) :
    Keeps κ a (addUser i st role r s).2 := by
  unfold Machine.addUser
  split
  · next e he =>
    split
    · exact h
    split
    · exact h
    exact h.modifyEntry i st (entryStep_add r) (assembly_add r)
  · next he =>
    split
    · exact h
    next ha =>
    split
    · exact h
    next hs =>
    refine h.of_table (fun x => ?_) ?_ (fun x => ?_) fun P x => ?_
    · refine x.append _ (by omega) ?_ ?_ (unused_add _ _)
      · simp only [newEntry, (entryStep_add r).input, (entryStep_add r).stream]
        exact he
      · simpa only [newEntry, (entryStep_add r).input, (entryStep_add r).stream, Bool.not_eq_true',
          Bool.not_eq_false] using ha
    · rw [blocksOf_append, blocksOf_cons, newEntry, blocks_of_assembly (assembly_add r _)]
      rfl
    · intro e he
      rcases List.mem_append.1 he with he | he
      · exact x e he
      · obtain rfl := List.mem_singleton.1 he
        exact (entryStep_add r).order _ List.Pairwise.nil
    · intro e he
      rcases List.mem_append.1 he with he | he
      · exact x e he
      · obtain rfl := List.mem_singleton.1 he
        exact Or.inl (by rw [newEntry, assembly_add]; exact trivial)

theorem removeUsers (h : Keeps κ a s) (hit : Entry → Bool) {f : Entry → Entry} (hf : RemovalStep f) :
    Keeps κ a (removeUsers hit f s) :=
  { h with
    table := fun x => (h.table x).removeUsers hit hf
    order := fun x => (h.order x).removeUsers hit hf
    assemblies := fun x P hP y => (h.assemblies x P hP y).removeUsers hit hf
    blocks := by rw [← h.blocks]; exact blocksTotal_removeUsers s hit hf }

theorem removePurpose (h : Keeps κ a s) (i : Input) (st : Nat) (c : CtxNo) (p : Purpose) :
    Keeps κ a (removePurpose i st c p s) :=
  h.removeUsers _ ⟨fun _ => rfl, fun _ => rfl, fun _ => rfl, fun _ => rfl, fun _ => id,
    fun e he => dropPurpose_ordered c p e.users he⟩

theorem removeContext (h : Keeps κ a s) (c : CtxNo) : Keeps κ a (removeContext c s) :=
  h.removeUsers _ ⟨fun _ => rfl, fun _ => rfl, fun _ => rfl, fun _ => rfl, fun _ => id,
    fun _ he => he.sublist (List.filter_sublist.map _)⟩

theorem removePin (h : Keeps κ a s) (i : Input) (st : Nat) (p : PinConsumer) : Keeps κ a (removePin i st p s) :=
  h.removeUsers _ ⟨fun _ => rfl, fun _ => rfl, fun _ => rfl, fun _ => rfl,
    fun e he => by cases p <;> simpa [Pins.drop], fun _ => id⟩

/-- Where the pair has no entry, its section is no longer there. -/
theorem absent (h : Keeps κ a s full) {i : Input} {st : Nat} (he : findEntry i st s = none)
    (hf : full = none ∨ full = some (i, st)) : Keeps κ a s :=
  { h with
    assemblies := fun x P _ y e hm => by
      have hq := h.assemblies x (fun j n => P j n ∨ j = i ∧ n = st) (by rcases hf with rfl | rfl <;> simp)
        (y.mono fun _ _ => Or.inl) e hm
      refine hq.imp_right fun z => ⟨z.1.resolve_right fun hc => ?_, z.2⟩
      have := List.find?_eq_none.1 he e hm
      simp [isAt, hc.1, hc.2] at this }

/-- A new assembly on the entry of a pair, with the blocks it gains or gives up. -/
theorem of_assembly {full' : Option (Input × Nat)} (h : Keeps κ a s full) (i : Input) (st : Nat) (x : Assembly) {e : Entry}
    {n : Nat} (he : findEntry i st s = some e)
    (hn : n + ({ e with assembly := x } : Entry).blocks = s.sections.freeBlocks + e.blocks)
    (hf : full = none ∨ full = some (i, st)) (hx : e.assembly.sized → x.sized)
    (hs : (full = none → e.assembly.small) → x.small ∨ full' = some (i, st)) :
    Keeps κ a (Machine.modifyEntry i st (fun e => { e with assembly := x })
      { s with sections := { s.sections with freeBlocks := n } }) full' := by
  have hu := blocksOf_updateFirst (isAt i st) (fun e => { e with assembly := x }) s.table e he
  have hstep : EntryStep (fun e => { e with assembly := x }) :=
    EntryStep.of_same (fun _ => rfl) (fun _ => rfl) (fun _ => rfl) (fun _ => rfl) (fun _ => rfl)
  exact { h with
    table := fun y => (h.table y).updateFirst hstep _
    order := fun y => (h.order y).updateFirst hstep _
    assemblies := fun y P hP z => by
      have hq := h.assemblies y (fun j n => P j n ∨ j = i ∧ n = st) (by rcases hf with rfl | rfl <;> simp)
        (z.mono fun _ _ => Or.inl)
      have hm := List.mem_of_find?_eq_some he
      refine hq.setOne (h.table y) i st x ?_ fun _ _ => id
      have hz := hx (hq.sized e hm)
      rcases hf with rfl | rfl
      · rcases h.assemblies y P (fun _ _ => nofun) z e hm with h1 | h1
        · exact (hs fun _ => h1).imp_right fun h2 => ⟨hP _ _ h2, hz⟩
        · obtain ⟨hi, hst⟩ : e.input = i ∧ e.stream = st := by simpa [isAt] using List.find?_some he
          exact Or.inr ⟨hi ▸ hst ▸ h1.1, hz⟩
      · exact (hs nofun).imp_right fun h2 => ⟨hP _ _ h2, hz⟩
    blocks := by
      rw [← h.blocks]
      simp only [State.blocksTotal, Machine.modifyEntry]
      omega }

theorem skipping_sized : Assembly.skipping.sized := by
  intro _ _ _ h
  cases h

theorem idle_sized : Assembly.idle.sized := by
  intro _ _ _ h
  cases h

/-- The section of a pair is abandoned, also one that is complete. -/
theorem abandon (h : Keeps κ a s full) (i : Input) (st : Nat)
    (hf : full = none ∨ full = some (i, st) := by exact Or.inl rfl) : Keeps κ a (abandon i st s) := by
  unfold Machine.abandon
  split
  · next he => exact h.absent he hf
  · next e he =>
    exact h.of_assembly i st .skipping he (by simp [Entry.blocks]) hf (fun _ => skipping_sized) fun _ => Or.inl trivial

theorem clearPortRecords (h : Keeps κ a s) (i : Input) : Keeps κ a (clearPortRecords i s) := by
  have hf : EntryStep (fun e => if e.input == i then e.leftUp else e) := by
    refine EntryStep.of_same ?_ ?_ ?_ ?_ ?_ <;> intro e <;> split <;> rfl
  refine h.of_table (fun x => x.map hf) ?_ (fun x => x.map hf) fun P x e he => ?_
  rotate_left
  · obtain ⟨y, hy, rfl⟩ := List.mem_map.1 he
    split
    · refine Or.inl ?_
      cases hA : y.assembly <;> simp [Entry.leftUp, Assembly.inProgress, hA, Assembly.small]
    · exact x y hy
  generalize s.table = l
  induction l with
  | nil => rfl
  | cons e l ih =>
    have hb : e.leftUp.blocks = 0 := by
      cases hA : e.assembly <;> simp [Entry.leftUp, Entry.blocks, Assembly.inProgress, hA]
    cases he : e.input == i <;> simp only [List.map_cons, List.filter_cons, he, blocksOf_cons, if_true, if_false,
      Bool.false_eq_true, hb] at ih ⊢ <;> omega

end Keeps
end Sys2Proof.Machine
end

