-- ==== Sys2Proof/Laws/Holds.lean ====
section
/-! SUPPORT. What judging holds, ending grants and handing packets to the queues keep, and that the first two leave every
context as it is. -/

namespace Sys2Proof.Machine

/-! ### Contexts that stay -/

theorem output_cases : ∀ o : OutputNo, o = 0 ∨ o = 1 := by decide

theorem foldl_inv {σ α β : Type} {f : σ → α → σ} {g : σ → β} (hf : ∀ s x, g (f s x) = g s) (l : List α) (s : σ) :
    g (l.foldl f s) = g s := by
  induction l generalizing s with
  | nil => rfl
  | cons x l ih => exact (ih _).trans (hf s x)

@[simp] theorem offer_ctl_contexts (s : State) (n : Notice) : (offer n s).ctl.contexts = s.ctl.contexts := by simp

@[simp] theorem rejudgeCurrent_contexts (w : Which) (p : CtxNo → Bool) (o : OutputNo) (s : State) :
    (rejudgeCurrent w p o s).ctl.contexts = s.ctl.contexts := by
  unfold rejudgeCurrent
  split
  · rfl
  · dsimp only
    split <;> simp

@[simp] theorem rejudgePending_contexts (w : Which) (p : CtxNo → Bool) (o : OutputNo) (s : State) :
    (rejudgePending w p o s).ctl.contexts = s.ctl.contexts := by
  unfold rejudgePending
  split
  · rfl
  · split <;> rfl

@[simp] theorem rejudgeOutput_contexts (w : Which) (p : CtxNo → Bool) (o : OutputNo) (s : State) :
    (rejudgeOutput w p o s).ctl.contexts = s.ctl.contexts := by
  simp [rejudgeOutput]

@[simp] theorem rejudgeTag_contexts (w : Which) (p : CtxNo → Bool) (t : TagNo) (s : State) :
    (rejudgeTag w p t s).ctl.contexts = s.ctl.contexts := by
  unfold rejudgeTag
  split
  · rfl
  · rfl
  · dsimp only
    split
    · split <;> simp
    · rfl

@[simp] theorem rejudge_contexts (w : Which) (p : CtxNo → Bool) (s : State) :
    (rejudge w p s).ctl.contexts = s.ctl.contexts := by
  have h1 := foldl_inv (f := fun s o => rejudgeOutput w p o s) (g := fun s : State => s.ctl.contexts)
    (fun s o => rejudgeOutput_contexts w p o s) outputNos s
  have h2 := foldl_inv (f := fun s t => rejudgeTag w p t s) (g := fun s : State => s.ctl.contexts)
    (fun s t => rejudgeTag_contexts w p t s) tagNos (outputNos.foldl (fun s o => rejudgeOutput w p o s) s)
  unfold rejudge
  exact Eq.trans h2 h1

@[simp] theorem rejudgeVerdicts_contexts (p : CtxNo → Bool) (s : State) :
    (rejudgeVerdicts p s).ctl.contexts = s.ctl.contexts :=
  foldl_inv (f := fun s o => rejudgeOutput judgeVerdict p o s) (g := fun s : State => s.ctl.contexts)
    (fun s o => rejudgeOutput_contexts judgeVerdict p o s) outputNos s

@[simp] theorem endGrants_contexts (hit : Grant → Bool) (cause : GrantEnd) (s : State) :
    (endGrants hit cause s).ctl.contexts = s.ctl.contexts :=
  foldl_inv (g := fun s => s.ctl.contexts) (fun s _ => offer_ctl_contexts s _) _ _

/-! ### The guide store stays -/

@[simp] theorem offer_guide' (s : State) (n : Notice) : (offer n s).guide = s.guide := by simp

@[simp] theorem rejudgeOutput_guide (w : Which) (p : CtxNo → Bool) (o : OutputNo) (s : State) :
    (rejudgeOutput w p o s).guide = s.guide := by
  unfold rejudgeOutput rejudgePending rejudgeCurrent
  dsimp only
  (repeat' split) <;> simp

@[simp] theorem rejudgeTag_guide (w : Which) (p : CtxNo → Bool) (t : TagNo) (s : State) :
    (rejudgeTag w p t s).guide = s.guide := by
  unfold rejudgeTag
  dsimp only
  (repeat' split) <;> simp

@[simp] theorem rejudge_guide (w : Which) (p : CtxNo → Bool) (s : State) : (rejudge w p s).guide = s.guide := by
  unfold rejudge
  rw [foldl_inv (g := fun s : State => s.guide) (fun s t => rejudgeTag_guide w p t s),
    foldl_inv (g := fun s : State => s.guide) (fun s o => rejudgeOutput_guide w p o s)]

@[simp] theorem endGrants_guide (hit : Grant → Bool) (cause : GrantEnd) (s : State) :
    (endGrants hit cause s).guide = s.guide := by
  unfold endGrants
  rw [foldl_inv (g := fun s : State => s.guide) (fun s _ => offer_guide' s _)]

/-! ### What they keep -/

namespace Keeps

variable {σ : Type} {κ : Standing → σ} {a s : State}

theorem rejudgeCurrent (h : Keeps κ a s) (w : Which) (p : CtxNo → Bool) (o : OutputNo) :
    Keeps κ a (rejudgeCurrent w p o s) := by
  unfold Machine.rejudgeCurrent
  split
  · exact h
  · dsimp only
    split
    · exact (h.setBinding _ _).offer _
    · exact h

theorem rejudgePending (h : Keeps κ a s) (w : Which) (p : CtxNo → Bool) (o : OutputNo) :
    Keeps κ a (rejudgePending w p o s) := by
  unfold Machine.rejudgePending
  split
  · exact h
  · split
    · exact h.setBinding _ _
    · exact h

theorem rejudgeOutput (h : Keeps κ a s) (w : Which) (p : CtxNo → Bool) (o : OutputNo) :
    Keeps κ a (rejudgeOutput w p o s) :=
  (h.rejudgeCurrent w p o).rejudgePending w p o

theorem rejudgeTag (h : Keeps κ a s) (w : Which) (p : CtxNo → Bool) (t : TagNo) : Keeps κ a (rejudgeTag w p t s) := by
  unfold Machine.rejudgeTag
  split
  · exact h
  · exact h
  · dsimp only
    split
    · split
      · exact (h.setTag _ _).offer _
      · exact h.setTag _ _
    · exact h

theorem rejudge (h : Keeps κ a s) (w : Which) (p : CtxNo → Bool) : Keeps κ a (rejudge w p s) :=
  (h.foldl (fun _ o h => h.rejudgeOutput w p o) outputNos).foldl (fun _ t h => h.rejudgeTag w p t) tagNos

theorem rejudgeVerdicts (h : Keeps κ a s) (p : CtxNo → Bool) : Keeps κ a (rejudgeVerdicts p s) :=
  h.foldl (fun _ o h => h.rejudgeOutput _ p o) outputNos

theorem rejudgePairs (h : Keeps κ a s) (o : OutputNo) : Keeps κ a (rejudgePairs o s) :=
  h.rejudgeOutput _ _ o

theorem endGrants (h : Keeps κ a s) (hit : Grant → Bool) (cause : GrantEnd) : Keeps κ a (endGrants hit cause s) :=
  (h.setGrants _ fun hl => (List.length_filter_le _ _).trans hl).foldl (fun _ _ h => h.offer _) _

theorem endGrantsAndJudge (h : Keeps κ a s) (hit : Grant → Bool) (cause : GrantEnd) :
    Keeps κ a (endGrantsAndJudge hit cause s) :=
  (h.endGrants hit cause).foldl (fun _ o h => h.rejudgePairs o) _

/-! ### Packets that join a queue -/

/-- A context that is not FREE has one packet more in a queue, and its drain count rises (R161). -/
theorem raiseDrain (h : Keeps κ a s) (c : CtxNo) (v : Vector Output 2) (l : List CapturePacket) (n : Vector Nat 16)
    (hc : (s.context c).state ≠ .free) (hw : v.map Output.pacing = s.out.outputs.map Output.pacing)
    (hv : QueuesSmall s.out.outputs → QueuesSmall v)
    (hl : s.out.capture.length ≤ 128 → l.length ≤ 128)
    (hp : ∀ d, packetsOf v l d = packetsOf s.out.outputs s.out.capture d + if c = d then 1 else 0)
    (hn : (∀ d, getAt s.out.captureCount d = captured s.out.capture d) → ∀ d, getAt n d = captured l d)
    (hs : SharesSmall s.out.captureCount → SharesSmall n) (hm : MarkersSmall s.out.outputs → MarkersSmall v) :
    Keeps κ a (raiseDrain c { s with out := { s.out with outputs := v, capture := l, captureCount := n } }) :=
  { h with
    standing := by
      rw [← h.standing]
      show κ { s.standing with pacing := v.map Output.pacing } = _
      rw [hw]
      rfl
    presentation := fun y => hv (h.presentation y)
    capture := fun y => hl (h.capture y)
    share := fun y => hs (h.share y)
    markers := fun y z => hm (h.markers y z)
    tracking := fun y => (h.tracking y).setAt_same c _ fun hr => ⟨hr, rfl, rfl⟩
    contexts := fun y => (h.contexts y).setAt c _ fun hl => hl.same rfl rfl rfl
    idents := fun y => (h.idents y).setAt c _ fun hl => ⟨hl, rfl, rfl⟩
    drains := fun y => by
      have hd := h.drains y
      refine ⟨fun d => ?_, fun d => hn hd.capture d, fun d => ?_⟩
      · have h1 := hd.drain d
        simp only [Machine.raiseDrain, setContext_ctl_contexts, getAt_setAt]
        show _ = packetsOf v l d
        rw [hp]
        split
        · next hcd => subst hcd; rw [← h1]; rfl
        · rw [← h1]; rfl
      · simp only [Machine.raiseDrain, setContext_ctl_contexts, getAt_setAt]
        split
        · next hcd => intro hf; exact absurd hf hc
        · exact hd.free d }

theorem setOutput_mark (h : Keeps κ a s) (o : OutputNo) (n : Nat) (b : Bool) :
    Keeps κ a (s.setOutput o { s.output o with overflowDiscards := n, overflowMark := b }) :=
  h.setOutput_same o _ (by rfl) (by rfl)

theorem handToOutput (h : Keeps κ a s) (o : OutputNo) (c : CtxNo) (p : List Byte) (t : BitVec 32)
    (hc : (s.context c).state ≠ .free) : Keeps κ a (handToOutput o c p t s) := by
  unfold Machine.handToOutput
  dsimp only
  split
  · next hq =>
    refine h.raiseDrain c (setAt s.out.outputs o { s.output o with queue := (s.output o).queue ++ [⟨p, t, c⟩] })
      s.out.capture s.out.captureCount hc (outputs_pacing _ _ _ (by rfl)) (fun y o' => ?_) id (fun d => ?_) id id
      fun y o' m h' => ?_
    · simp only [getAt_setAt]
      split
      · rw [List.length_append]; exact hq
      · exact y o'
    · have h0 : ∀ o', presented (getAt (setAt s.out.outputs o
          { s.output o with queue := (s.output o).queue ++ [⟨p, t, c⟩] }) o') d =
          presented (getAt s.out.outputs o') d + if o = o' ∧ c = d then 1 else 0 := by
        intro o'
        simp only [getAt_setAt]
        split
        · next ho => subst ho; simp [presented, State.output, List.countP_append, List.countP_cons]
        · next ho => simp [ho]
      simp only [packetsOf, h0]
      rcases output_cases o with rfl | rfl <;> simp <;> omega
    · rw [getAt_setAt] at h'
      split at h'
      · exact y o m h'
      · exact y o' m h'
  · split
    · exact h.setOutput_mark o _ _
    · exact (h.setOutput_mark o _ _).offer _

/-- A marker takes the components of its context (R153). -/
theorem placeMarker (h : Keeps κ a s) (o : OutputNo) (c : CtxNo) : Keeps κ a (placeMarker o c s) :=
  h.setOutput_same o _ (by rfl) (by rfl) fun hc m hm => by
    obtain rfl := Option.some.inj hm
    exact Or.inr (hc c).components

theorem handToCapture (h : Keeps κ a s) (t : TagNo) (c : CtxNo) (slot : Nat) (p : List Byte)
    (hc : (s.context c).state ≠ .free) : Keeps κ a (handToCapture t c slot p s) := by
  unfold Machine.handToCapture
  split
  · next hq =>
    simp only [Bool.and_eq_true, decide_eq_true_eq] at hq
    have hk := h.raiseDrain c s.out.outputs
      (s.out.capture ++ [CapturePacket.mk (withStream p (captureStream t.val slot)) t c])
      (modAt s.out.captureCount c (· + 1)) hc rfl id (fun _ => by simp; omega)
      (fun d => by
        simp only [packetsOf, captured, List.countP_append, List.countP_cons, List.countP_nil, beq_iff_eq]
        omega)
      (fun hy d => by
        have h1 := hy d
        simp only [getAt_modAt, captured, List.countP_append, List.countP_cons, List.countP_nil, beq_iff_eq]
        split
        · next hcd => subst hcd; rw [h1]; simp [captured]
        · rw [h1]; simp [captured])
      (fun hy d => by
        rw [getAt_modAt]
        split
        · next hcd => subst hcd; omega
        · exact hy d)
      id
    exact hk.setCaptureRec t _
  · dsimp only
    split
    · exact h.setCaptureRec _ _
    · exact (h.setCaptureRec _ _).offer _

theorem clearCaptureRec (h : Keeps κ a s) (t : TagNo) : Keeps κ a (clearCaptureRec t s) :=
  h.setCaptureRec t _

end Keeps
end Sys2Proof.Machine
end

