-- ==== Sys2Proof/Laws/Contexts.lean ====
section
/-! SUPPORT. What the work of the context controller keeps, and which of it leaves every context as it is. -/

namespace Sys2Proof.Machine

/-! ### Contexts that stay -/

theorem context_of_contexts {s t : State} (h : t.ctl.contexts = s.ctl.contexts) (c : CtxNo) :
    t.context c = s.context c := by
  simp [State.context, h]

@[simp] theorem addUser_contexts (i : Input) (st : Nat) (role : Role) (r : UserReq) (s : State) :
    (addUser i st role r s).2.ctl.contexts = s.ctl.contexts := by
  unfold addUser
  split
  · split
    · rfl
    · split <;> rfl
  · split
    · rfl
    · split <;> rfl

@[simp] theorem joinSlot_contexts (c : CtxNo) (i : Input) (st : Nat) (s : State) :
    (joinSlot c i st s).2.ctl.contexts = s.ctl.contexts := by
  unfold joinSlot
  split
  · rfl
  · split <;> rfl

@[simp] theorem leaveSlot_contexts (c : CtxNo) (k : SlotNo) (s : State) :
    (leaveSlot c k s).ctl.contexts = s.ctl.contexts := by
  unfold leaveSlot
  split
  · rfl
  · split <;> rfl

@[simp] theorem freeTag_contexts (c : CtxNo) (t : TagNo) (s : State) :
    (freeTag c t s).ctl.contexts = s.ctl.contexts := by
  unfold freeTag
  split <;> simp

@[simp] theorem removePurpose_contexts (i : Input) (st : Nat) (c : CtxNo) (p : Purpose) (s : State) :
    (removePurpose i st c p s).ctl.contexts = s.ctl.contexts := rfl

@[simp] theorem removeContext_contexts (c : CtxNo) (s : State) :
    (removeContext c s).ctl.contexts = s.ctl.contexts := rfl

@[simp] theorem startTracking_contexts (service : Nat) (s : State) :
    (startTracking service s).ctl.contexts = s.ctl.contexts := by
  unfold startTracking
  split <;> rfl

@[simp] theorem endTracking_contexts (service : Nat) (s : State) :
    (endTracking service s).ctl.contexts = s.ctl.contexts := by
  unfold endTracking
  split <;> rfl

@[simp] theorem addComponents_contexts (i : Input) (c : CtxNo) (l : List (Nat × Fin 8)) (s : State) :
    (addComponents i c l s).2.2.ctl.contexts = s.ctl.contexts := by
  induction l generalizing s with
  | nil => rfl
  | cons x l ih =>
    have ha := addUser_contexts i x.1 .component (.ctx c (.component x.2)) s
    unfold addComponents
    split
    · next s' he =>
      rw [he] at ha
      exact (ih s').trans ha
    · next s' he =>
      rw [‹addUser _ _ _ _ _ = _›] at ha
      exact ha

@[simp] theorem removeComponents_contexts (i : Input) (c : CtxNo) (l : List (Nat × Fin 8)) (s : State) :
    (removeComponents i c l s).ctl.contexts = s.ctl.contexts :=
  foldl_inv (f := fun s (r : Nat × Fin 8) => removePurpose i r.1 c (.component r.2) s)
    (g := fun s : State => s.ctl.contexts) (fun _ _ => rfl) l s

@[simp] theorem dropKeyStream_contexts (c : CtxNo) (x : Context) (s : State) :
    (dropKeyStream c x s).ctl.contexts = s.ctl.contexts := by
  unfold dropKeyStream
  split
  · simp
  · rfl

/-! ### What it keeps -/

/-- A change that keeps drain count and identity, of a context that keeps its state or is in acquisition. -/
theorem CtxStep.moved {old new : Context} (hd : new.drain = old.drain)
    (hs : new.state = old.state ∨ (old.state.acquiring = true ∧ new.state ≠ .free)) (hi : new.input = old.input)
    (hv : new.service = old.service) (hm : old.small → new.small := by exact fun h => h.same rfl rfl rfl) :
    CtxStep old new := by
  rcases hs with hs | ⟨hl, hs⟩
  · exact CtxStep.same hd hs hi hv hm
  · exact CtxStep.stage hl hd hs hi hv hm

/-- A context without lists. -/
theorem Context.small.empty {x : Context} (hc : x.components = []) (hr : x.mapRatings = []) (hp : x.play = none) :
    x.small :=
  ⟨by simp [hc], by simp [hr], by simp [hp]⟩

theorem readRatings_length (l : List Byte) (n : Nat) : (readRatings l n).length ≤ n := by
  simp [readRatings]

/-- A map that is read lists at most 3 ratings (R104). -/
theorem usableMap_ratings {x : Context} {body : List Byte} {m : MapBody} (h : usableMap x body = some m) :
    m.ratings.length ≤ 3 := by
  unfold usableMap at h
  obtain ⟨m', h1, h2⟩ := Option.bind_eq_some_iff.1 h
  split at h2
  · cases h2
    unfold readMap at h1
    dsimp only at h1
    split at h1
    · cases h1
    · next hr =>
      obtain ⟨cs, _, rfl⟩ := Option.map_eq_some_iff.1 h1
      simp only [Bool.or_eq_true, decide_eq_true_eq, not_or, Nat.not_lt] at hr
      exact (readRatings_length _ _).trans hr.1
  · cases h2

/-- What a context records from a map keeps its lists within their sizes. -/
theorem recordMap_small (x : Context) (version : Nat) (m : MapBody) (hm : m.ratings.length ≤ 3) (h : x.small) :
    (recordMap x version m).small :=
  ⟨by simp [recordMap, usedComponents, componentIndices], hm, h.play⟩

/-- A RUNNING tuner context on a service (R63). -/
theorem runningOn_iff {s : State} {service : Nat} {c : CtxNo} :
    runningOn s service c = true ↔ (getAt s.ctl.contexts c).state = .running ∧ (getAt s.ctl.contexts c).input ≠ pb ∧
      (getAt s.ctl.contexts c).service = service := by
  simp [runningOn, onService, State.context, and_comm]

namespace Keeps

variable {σ : Type} {κ : Standing → σ} {a s : State}

theorem joinSlot (h : Keeps κ a s) (c : CtxNo) (i : Input) (st : Nat) : Keeps κ a (joinSlot c i st s).2 := by
  unfold Machine.joinSlot
  split
  · next k hk =>
    cases hs : s.slot k with
    | none => exact h.setSlot k _ (by simp)
    | some x => exact h.setSlot_same k x _ hs rfl rfl rfl
  · split
    · next k hk =>
      refine h.setSlot k _ fun _ y hy => ?_
      obtain rfl := Option.some.inj hy
      simp [Slot.keysBacked, newSlot]
    · exact h

theorem leaveSlot (h : Keeps κ a s) (c : CtxNo) (k : SlotNo) : Keeps κ a (leaveSlot c k s) := by
  unfold Machine.leaveSlot
  split
  · exact h
  · next x hx =>
    split
    · dsimp only
      split
      · exact h.setSlot k _ (by simp)
      · exact h.setSlot_same k x _ hx rfl rfl rfl
    · exact h

theorem startTracking (h : Keeps κ a s) (service : Nat) (c : CtxNo) (hc : runningOn s service c = true) :
    Keeps κ a (startTracking service s) := by
  unfold Machine.startTracking
  split
  · exact h
  · next hn =>
    exact { h with
      tracking := fun y => by
        obtain ⟨h1, h2⟩ := h.tracking y
        refine ⟨?_, fun t ht => ?_⟩
        · rw [List.map_append]
          refine List.nodup_append.2 ⟨h1, by simp, ?_⟩
          intro x hx z hz hxz
          obtain ⟨t, ht, rfl⟩ := List.mem_map.1 hx
          have := List.find?_eq_none.1 hn t ht
          simp_all
        · rcases List.mem_append.1 ht with ht | ht
          · exact h2 t ht
          · obtain rfl := List.mem_singleton.1 ht
            exact ⟨c, runningOn_iff.1 hc⟩ }

theorem endTracking (h : Keeps κ a s) (service : Nat) : Keeps κ a (endTracking service s) := by
  unfold Machine.endTracking
  split
  · exact h
  · exact { h with tracking := fun y => (h.tracking y).filter _ }

/-- A context that leaves RUNNING, and the end of the tracking of its service (R63). -/
theorem endRunning (h : Keeps κ a s) (c : CtxNo) (x : Context) (hx : CtxChange (s.context c) x) :
    Keeps κ a
      (if (s.context c).state = .running && (s.context c).input != pb then
        Machine.endTracking (s.context c).service (s.setContext c x)
      else s.setContext c x) := by
  split
  · unfold Machine.endTracking
    split
    · next hr =>
      refine h.changeContext c x hx fun y => y.setAt c x fun _ _ t _ ht => ?_
      obtain ⟨d, _, hd⟩ := List.any_eq_true.1 hr
      exact ⟨d, ht ▸ runningOn_iff.1 hd⟩
    · have h1 : Keeps κ a { s with guide :=
          { s.guide with tracked := s.guide.tracked.filter (fun t => t.service != (s.context c).service) } } :=
        { h with tracking := fun y => (h.tracking y).filter _ }
      refine h1.changeContext c x hx fun y => y.setAt c x fun _ _ t ht hs => ?_
      have := (List.mem_filter.1 ht).2
      exact absurd hs (by simpa [State.context] using this)
  · next hn =>
    refine h.changeContext c x hx fun y => y.setAt c x fun hr hi => ?_
    exact absurd (by simp [State.context, hr, hi]) hn

theorem freeTag (h : Keeps κ a s) (c : CtxNo) (t : TagNo) : Keeps κ a (freeTag c t s) := by
  unfold Machine.freeTag
  split
  · exact (h.setTag _ _).offer _
  · exact h

theorem freeContext (h : Keeps κ a s) (c : CtxNo) (hd : (s.context c).drain = 0)
    (hr : (s.context c).state = .retiring) : Keeps κ a (freeContext c s) := by
  have key : ∀ s' : State, Keeps κ a s' → s'.ctl.contexts = s.ctl.contexts →
      Keeps κ a ((tagNos.foldl (fun s t => Machine.freeTag c t s) s').setContext c
        { Context.empty with lastFailure := (s.context c).lastFailure }) := by
    intro s' h' hc
    have hf : (tagNos.foldl (fun s t => Machine.freeTag c t s) s').ctl.contexts = s.ctl.contexts :=
      (foldl_inv (f := fun s t => Machine.freeTag c t s) (g := fun s : State => s.ctl.contexts)
        (fun s t => freeTag_contexts c t s) tagNos s').trans hc
    refine (h'.foldl (fun _ t h => h.freeTag c t) tagNos).setContext c _ ?_
    rw [context_of_contexts hf]
    exact ⟨⟨hd.symm, fun _ => Or.inr rfl, fun hl => absurd rfl hl.1, fun _ => .empty rfl rfl rfl⟩,
      fun h => by rw [hr] at h; cases h⟩
  unfold Machine.freeContext
  dsimp only
  split
  · exact key _ (h.leaveSlot _ _) (leaveSlot_contexts _ _ _)
  · exact key _ h rfl

theorem freeIfDrained (h : Keeps κ a s) (c : CtxNo) : Keeps κ a (freeIfDrained c s) := by
  unfold Machine.freeIfDrained
  split
  · next hc =>
    simp only [Bool.and_eq_true, decide_eq_true_eq] at hc
    exact h.freeContext c hc.2 hc.1
  · exact h

theorem retire (h : Keeps κ a s) (c : CtxNo) : Keeps κ a (retire c s) := by
  unfold Machine.retire
  dsimp only
  split
  · exact h
  · exact ((h.removeContext c).endRunning c { s.context c with state := .retiring, deadline := none }
      ⟨rfl, by simp, fun hl => absurd rfl hl.2, fun h => h.same rfl rfl rfl⟩).freeIfDrained c

theorem retireIfUnbound (h : Keeps κ a s) (c : CtxNo) : Keeps κ a (retireIfUnbound c s) := by
  unfold Machine.retireIfUnbound
  split
  · exact h
  · exact h.retire c

theorem failOutput (h : Keeps κ a s) (c : CtxNo) (r : FailReason) (o : OutputNo) : Keeps κ a (failOutput c r o s) := by
  unfold Machine.failOutput
  split
  · exact (h.setBinding _ _).offer _
  · exact h

theorem failTag (h : Keeps κ a s) (c : CtxNo) (r : FailReason) (t : TagNo) : Keeps κ a (failTag c r t s) := by
  unfold Machine.failTag
  split
  · exact (h.setTag _ _).offer _
  · exact h

theorem failContext (h : Keeps κ a s) (c : CtxNo) (r : FailReason) : Keeps κ a (failContext c r s) :=
  (((h.setContext c { s.context c with lastFailure := some r } (CtxStep.same rfl rfl rfl rfl)).foldl
    (fun _ o h => h.failOutput c r o) outputNos).foldl (fun _ t h => h.failTag c r t) tagNos).retire c

theorem supersede (h : Keeps κ a s) (o : OutputNo) (c : CtxNo) : Keeps κ a (supersede o c s) :=
  (h.offer _).retireIfUnbound c

theorem dropSuperseded (h : Keeps κ a s) (o : OutputNo) : Keeps κ a (dropSuperseded o s) := by
  unfold Machine.dropSuperseded
  split
  · exact h
  · exact (h.setBinding _ _).supersede _ _

theorem bindPending (h : Keeps κ a s) (o : OutputNo) (c : CtxNo) : Keeps κ a (bindPending o c s) := by
  unfold Machine.bindPending
  dsimp only
  split
  · exact (h.setBinding _ _).rejudge _ _
  · exact ((h.setBinding _ _).rejudge _ _).supersede _ _

theorem bindTag (h : Keeps κ a s) (t : TagNo) (c : CtxNo) : Keeps κ a (bindTag t c s) :=
  ((h.setTag _ _).clearCaptureRec t).rejudge _ _

theorem enterMap (h : Keeps κ a s) (c : CtxNo) (stream : Nat) (hl : (s.context c).state.acquiring = true) :
    Keeps κ a (enterMap c stream s) := by
  have h1 := h.setContext c { s.context c with state := .map, mapStream := some stream }
    (CtxStep.stage hl rfl (by simp) rfl rfl)
  unfold Machine.enterMap
  dsimp only
  have h2 := h1.addUser (((s.setContext c { s.context c with state := .map, mapStream := some stream }).context c).input)
    stream .sections (.ctx c .map)
  split
  · next s' he => rw [he] at h2; exact h2
  · next s' he => rw [‹Machine.addUser _ _ _ _ _ = _›] at h2; exact h2.failContext c _

theorem locate (h : Keeps κ a s) (c : CtxNo) : Keeps κ a (locate c s) := by
  unfold Machine.locate
  split
  · next hs =>
    split
    · exact h
    · split
      · exact h.enterMap c _ (by simp [CtxState.acquiring, hs])
      · exact h.failContext c _
  · exact h

theorem addComponents (h : Keeps κ a s) (i : Input) (c : CtxNo) (l : List (Nat × Fin 8)) :
    Keeps κ a (addComponents i c l s).2.2 := by
  induction l generalizing s with
  | nil => exact h
  | cons x l ih =>
    have ha := h.addUser i x.1 .component (.ctx c (.component x.2))
    unfold Machine.addComponents
    split
    · next s' he => rw [he] at ha; exact ih ha
    · next s' he => rw [‹Machine.addUser _ _ _ _ _ = _›] at ha; exact ha

theorem removeComponents (h : Keeps κ a s) (i : Input) (c : CtxNo) (l : List (Nat × Fin 8)) :
    Keeps κ a (removeComponents i c l s) :=
  h.foldl (fun _ r h => h.removePurpose i r.1 c (.component r.2)) l

theorem countMapOverflow (h : Keeps κ a s) (c : CtxNo) (m : MapBody) : Keeps κ a (countMapOverflow c m s) := by
  unfold Machine.countMapOverflow
  split
  · exact h.setContext c _ (CtxStep.same rfl rfl rfl rfl)
  · exact h

theorem judgeKey (h : Keeps κ a s) (c : CtxNo) : Keeps κ a (judgeKey c s) := by
  unfold Machine.judgeKey
  split
  · next hk =>
    simp only [Bool.and_eq_true, decide_eq_true_eq] at hk
    exact h.setContext c _ (CtxStep.stage (by simp [CtxState.acquiring, hk.1]) rfl (by simp) rfl rfl)
  · exact h

theorem enterKey (h : Keeps κ a s) (c : CtxNo) (stream : Nat) (hl : (s.context c).state.acquiring = true) :
    Keeps κ a (enterKey c stream s) := by
  unfold Machine.enterKey
  dsimp only
  have h1 := (h.setContext c { s.context c with state := .key } (CtxStep.stage hl rfl (by simp) rfl rfl)).rejudge
    judgeEntitlement (· == c)
  generalize Machine.rejudge judgeEntitlement (· == c) (s.setContext c { s.context c with state := .key }) = s1 at h1 ⊢
  split
  · exact h1.failContext c _
  · have h2 := h1.joinSlot c (s1.context c).input stream
    have hc := joinSlot_contexts c (s1.context c).input stream s1
    split
    · next s2 he => rw [he] at h2; exact h2.failContext c _
    · next k s2 he =>
      rw [he] at h2 hc
      have h3 := h2.setContext c { s1.context c with slot := some k }
        (by rw [context_of_contexts hc]; exact CtxStep.same rfl rfl rfl rfl)
      have h4 := h3.addUser (s1.context c).input stream .sections (.ctx c (.keys k))
      split
      · next s3 he3 => rw [he3] at h4; exact (h4.rejudge _ _).judgeKey c
      · next s3 he3 => rw [‹Machine.addUser _ _ _ _ _ = _›] at h4; exact h4.failContext c _

theorem takeMap (h : Keeps κ a s) (c : CtxNo) (version : Nat) (m : MapBody)
    (hl : (s.context c).state.acquiring = true)
    (hm : m.ratings.length ≤ 3) :
    Keeps κ a (takeMap c version m s) := by
  unfold Machine.takeMap
  dsimp only
  have h1 := h.countMapOverflow c m
  have hl1 : ((Machine.countMapOverflow c m s).context c).state.acquiring = true := by
    unfold Machine.countMapOverflow
    split
    · simpa using hl
    · exact hl
  generalize Machine.countMapOverflow c m s = s1 at h1 hl1 ⊢
  have h2 := h1.addComponents (s1.context c).input c (componentStreams (usedComponents (s1.context c) m))
  have hc := addComponents_contexts (s1.context c).input c (componentStreams (usedComponents (s1.context c) m)) s1
  split
  · next s2 he => rw [he] at h2; exact h2.failContext c _
  · next x s2 he =>
    rw [he] at h2 hc
    have h3 := (h2.setContext c
      { recordMap (s1.context c) version m with keyStream := usedKeyStream (s1.context c) m }
      (by
        rw [context_of_contexts hc]
        exact CtxStep.same rfl rfl rfl rfl fun hs => (recordMap_small _ version m hm hs).same rfl rfl rfl)).rejudgeVerdicts (· == c)
    have hx : ((Machine.rejudgeVerdicts (· == c) (s2.setContext c
        { recordMap (s1.context c) version m with keyStream := usedKeyStream (s1.context c) m })).context c).state.acquiring = true := by
      rw [context_of_contexts (rejudgeVerdicts_contexts _ _)]
      simpa [recordMap] using hl1
    split
    · exact h3.enterKey c _ hx
    · exact h3.setContext c _ (CtxStep.stage hx rfl (by simp) rfl rfl)

theorem dropKeyStream (h : Keeps κ a s) (c : CtxNo) (x : Context) : Keeps κ a (dropKeyStream c x s) := by
  unfold Machine.dropKeyStream
  split
  · exact (h.removePurpose _ _ _ _).leaveSlot _ _
  · exact h

theorem moveKeyStream (h : Keeps κ a s) (c : CtxNo) (ks : Option Nat) : Keeps κ a (moveKeyStream c ks s) := by
  unfold Machine.moveKeyStream
  dsimp only
  split
  · next st =>
    have h1 := h.joinSlot c (s.context c).input st
    have c1 := joinSlot_contexts c (s.context c).input st s
    split
    · next s1 he => rw [he] at h1; exact h1
    · next k s1 he =>
      rw [he] at h1 c1
      have h2 := h1.addUser (s.context c).input st .sections (.ctx c (.keys k))
      have c2 := addUser_contexts (s.context c).input st .sections (.ctx c (.keys k)) s1
      split
      · next s2 he2 =>
        rw [he2] at h2 c2
        have c3 := (dropKeyStream_contexts c (s.context c) s2).trans (c2.trans c1)
        refine (((h2.dropKeyStream c (s.context c)).setContext c _ ?_).rejudge _ _).judgeKey c
        rw [context_of_contexts c3]
        refine CtxStep.moved rfl ?_ rfl rfl
        dsimp only
        split
        · next hs =>
          simp only [Bool.and_eq_true, decide_eq_true_eq] at hs
          exact Or.inr ⟨by simp [CtxState.acquiring, hs.1], by simp⟩
        · exact Or.inl rfl
      · next s2 he2 => rw [‹Machine.addUser _ _ _ _ _ = _›] at h2; exact h2.leaveSlot c k
  · refine ((h.dropKeyStream c (s.context c)).setContext c _ ?_).rejudge _ _
    rw [context_of_contexts (dropKeyStream_contexts c (s.context c) s)]
    refine CtxStep.moved rfl ?_ rfl rfl
    dsimp only
    split
    · next hs => exact Or.inr ⟨by simp [CtxState.acquiring, hs], by simp⟩
    · exact Or.inl rfl

theorem changeMap (h : Keeps κ a s) (c : CtxNo) (version : Nat) (m : MapBody) (hm : m.ratings.length ≤ 3) : Keeps κ a (changeMap c version m s) := by
  unfold Machine.changeMap
  dsimp only
  have h1 := h.countMapOverflow c m
  generalize Machine.countMapOverflow c m s = s1 at h1 ⊢
  have h2 := h1.addComponents (s1.context c).input c (componentStreams (usedComponents (s1.context c) m))
  have c2 := addComponents_contexts (s1.context c).input c (componentStreams (usedComponents (s1.context c) m)) s1
  split
  · next l s2 he =>
    rw [he] at h2 c2
    refine (h2.removeComponents _ c l).setContext c _ ?_
    rw [context_of_contexts ((removeComponents_contexts _ c l s2).trans c2)]
    exact CtxStep.same rfl rfl rfl rfl
  · next l s2 he =>
    rw [he] at h2 c2
    have h3 : ∀ l', Keeps κ a (Machine.rejudgeVerdicts (· == c)
        ((Machine.removeComponents (s1.context c).input c l' s2).setContext c
          (recordMap (s1.context c) version m))) := by
      intro l'
      refine ((h2.removeComponents _ c l').setContext c _ ?_).rejudgeVerdicts _
      rw [context_of_contexts ((removeComponents_contexts _ c l' s2).trans c2)]
      exact CtxStep.same rfl rfl rfl rfl (recordMap_small _ version m hm)
    split
    · exact h3 _
    · exact (h3 _).moveKeyStream c _

theorem mapSection (h : Keeps κ a s) (c : CtxNo) (x : SectionHeader) (body : List Byte) :
    Keeps κ a (mapSection c x body s) := by
  unfold Machine.mapSection
  dsimp only
  split
  · exact h
  split
  · exact h
  split
  · exact h.setContext c _ (CtxStep.same rfl rfl rfl rfl)
  next m hu =>
  split
  · next hs => exact h.takeMap c _ _ (by simp [CtxState.acquiring, hs]) (usableMap_ratings hu)
  split
  · exact h
  · exact h.changeMap c _ _ (usableMap_ratings hu)

theorem moveMapStream (h : Keeps κ a s) (c : CtxNo) : Keeps κ a (moveMapStream c s) := by
  unfold Machine.moveMapStream
  dsimp only
  split
  · exact h
  · next stream hst =>
    split
    · exact h
    · have h1 := h.addUser (s.context c).input stream .sections (.ctx c .map)
      have c1 := addUser_contexts (s.context c).input stream .sections (.ctx c .map) s
      split
      · next s1 he =>
        rw [he] at h1 c1
        split
        · refine (h1.removePurpose _ _ _ _).setContext c _ ?_
          rw [context_of_contexts ((removePurpose_contexts _ _ _ _ _).trans c1)]
          exact CtxStep.same rfl rfl rfl rfl
        · refine h1.setContext c _ ?_
          rw [context_of_contexts c1]
          exact CtxStep.same rfl rfl rfl rfl
      · next s1 he =>
        rw [‹Machine.addUser _ _ _ _ _ = _›] at h1 c1
        refine h1.setContext c _ ?_
        rw [context_of_contexts c1]
        exact CtxStep.same rfl rfl rfl rfl

theorem indexReport (h : Keeps κ a s) (p : PortNo) (c : CtxNo) : Keeps κ a (indexReport p c s) := by
  unfold Machine.indexReport
  dsimp only
  split
  · split
    · exact h.locate c
    all_goals first | exact h.moveMapStream c | exact h
  · exact h

theorem indexChanged (h : Keeps κ a s) (p : PortNo) : Keeps κ a (indexChanged p s) :=
  h.foldl (fun _ c h => h.indexReport p c) ctxNos

theorem slotReport (h : Keeps κ a s) (k : SlotNo) : Keeps κ a (slotReport k s) := by
  unfold Machine.slotReport
  split
  · exact h
  · exact (h.rejudge _ _).foldl (fun _ c h => h.judgeKey c) _

theorem tierReport (h : Keeps κ a s) : Keeps κ a (tierReport s) := h.rejudge _ _

theorem serviceReport (h : Keeps κ a s) (service : Nat) : Keeps κ a (serviceReport service s) :=
  (h.rejudge _ _).rejudgeVerdicts _

theorem signalReport (h : Keeps κ a s) (i : Input) : Keeps κ a (signalReport i s) := h.rejudge _ _

end Keeps
end Sys2Proof.Machine
end

