-- ==== Sys2Proof/Laws/Stores.lean ====
section
/-! SUPPORT. What the work of the guide store, the access engine and the clock unit keeps. -/

namespace Sys2Proof.Machine

/-! ### Sizes -/

theorem addPair_length (x : PairsAcc) (p : Nat × Nat) (h : x.entries.length ≤ 64) : (addPair x p).entries.length ≤ 64 := by
  unfold addPair
  split
  · split
    · exact h
    · simpa using h
  · split
    · simp only [List.length_append, List.length_singleton]; omega
    · exact h

theorem addPairs_length (r : IndexRec) (n : Nat) (l : List (Nat × Nat)) (k : Nat) (h : r.entries.length ≤ 64) :
    (addPairs r n l k).1.entries.length ≤ 64 := by
  have : ∀ (l : List (Nat × Nat)) (x : PairsAcc), x.entries.length ≤ 64 → (l.foldl addPair x).entries.length ≤ 64 := by
    intro l
    induction l with
    | nil => exact fun _ => id
    | cons p l ih => exact fun x hx => ih _ (addPair_length x p hx)
  exact this l _ h

theorem settleCollection_small (h : SectionHeader) (r : IndexRec) (n : Nat) (x : PortIndex) (hx : x.small)
    (hr : r.entries.length ≤ 64) : (settleCollection h r n x).1.small := by
  unfold settleCollection
  split
  · exact ⟨fun y hy => by obtain rfl := Option.some.inj hy; exact hr, fun y hy => by simp at hy⟩
  · exact ⟨hx.1, fun y hy => by obtain rfl := Option.some.inj hy; exact hr⟩

theorem takePairs_small (h : SectionHeader) (l : List (Nat × Nat)) (x : PortIndex) (hx : x.small) :
    (takePairs h l x).1.small := by
  unfold takePairs
  split
  · next r hr =>
    split
    · exact hx
    · refine ⟨fun y hy => ?_, hx.2⟩
      obtain rfl := Option.some.inj hy
      exact addPairs_length _ _ _ _ (hx.1 r (Option.mem_filter_iff.1 hr).1)
  · split
    · next r hr =>
      split
      · exact hx
      · exact settleCollection_small h _ _ x hx (addPairs_length _ _ _ _ (hx.2 r (Option.mem_filter_iff.1 hr).1))
    · exact settleCollection_small h _ _ x hx (addPairs_length _ _ _ _ (by simp))

theorem mergeRecord_length (x : ListAcc) (r : ServiceRec) (h : x.list.length ≤ 256) :
    (mergeRecord x r).list.length ≤ 256 := by
  unfold mergeRecord
  split
  · simpa using h
  · split
    · simp only [List.length_append, List.length_singleton]; omega
    · exact h

theorem mergeRecords_length (l : List ServiceRec) (x : ListAcc) (h : x.list.length ≤ 256) :
    (l.foldl mergeRecord x).list.length ≤ 256 := by
  induction l generalizing x with
  | nil => exact h
  | cons r l ih => exact ih _ (mergeRecord_length x r h)

@[simp] theorem insertOrdered_length (e : Event) (l : List Event) : (insertOrdered e l).length = l.length + 1 := by
  induction l with
  | nil => rfl
  | cons x l ih => unfold insertOrdered; split <;> simp [ih]

theorem latestEvent_mem {l : List Event} {e : Event} (h : latestEvent l = some e) : e ∈ l := by
  cases l with
  | nil => simp [latestEvent] at h
  | cons x l =>
    simp only [latestEvent, Option.some.injEq] at h
    subst h
    induction l generalizing x with
    | nil => simp
    | cons y l ih =>
      have hl : laterStarting x y = x ∨ laterStarting x y = y := by
        unfold laterStarting
        split <;> simp
      have := ih (laterStarting x y)
      rcases hl with hl | hl <;> simp only [List.foldl_cons, hl, List.mem_cons] at this ⊢ <;> tauto

/-- A list loses at least one item to a filter that one of its items fails. -/
theorem length_filter_lt {α : Type} {p : α → Bool} {l : List α} {x : α} (hx : x ∈ l) (hp : p x = false) :
    (l.filter p).length < l.length := by
  rw [List.length_filter_lt_length_iff_exists]
  exact ⟨x, hx, by simp [hp]⟩

/-! ### The exception log -/

@[simp] theorem logException_slots (kind : ExceptionKind) (i : Input) (st : Nat) (t : Option Nat) (q : Nat) (s : State) :
    (logException kind i st t q s).access.slots = s.access.slots := by
  unfold logException
  dsimp only
  split
  · rfl
  · split
    · split <;> simp
    · split <;> simp

@[simp] theorem logException_entitlements (kind : ExceptionKind) (i : Input) (st : Nat) (t : Option Nat) (q : Nat)
    (s : State) : (logException kind i st t q s).access.entitlements = s.access.entitlements := by
  unfold logException
  dsimp only
  split
  · rfl
  · split
    · split <;> simp
    · split <;> simp

/-! ### The clock settles an update -/

@[simp] theorem settled_uptime (c : Clock) : c.settled.uptime = c.uptime := by
  unfold Clock.settled Clock.applyChange
  dsimp only
  split
  · split <;> rfl
  · rfl

@[simp] theorem settled_source (c : Clock) : c.settled.source = c.source := by
  unfold Clock.settled Clock.applyChange
  dsimp only
  split
  · split <;> rfl
  · rfl

/-! ### Erasing the keys of lost tiers -/

/-- Erasing the keys of slots changes nothing but the slots; each slot has no key, or is one that was not named. -/
theorem eraseSlots (l : List SlotNo) (s : State) :
    ∃ v, l.foldl (fun s k => s.setSlot k ((s.slot k).map Slot.erased)) s =
        { s with access := { s.access with slots := v } } ∧
      ∀ k x, getAt v k = some x → (x.even = none ∧ x.odd = none) ∨ (k ∉ l ∧ s.slot k = some x) := by
  induction l generalizing s with
  | nil => exact ⟨s.access.slots, rfl, fun k x h => Or.inr ⟨by simp, h⟩⟩
  | cons j l ih =>
    obtain ⟨v, hv, hx⟩ := ih (s.setSlot j ((s.slot j).map Slot.erased))
    refine ⟨v, hv, fun k x hk => ?_⟩
    rcases hx k x hk with h | ⟨hk, h⟩
    · exact Or.inl h
    · simp only [State.slot, setSlot_access_slots, getAt_setAt] at h
      split at h
      · obtain ⟨y, _, rfl⟩ := Option.map_eq_some_iff.1 h
        exact Or.inl ⟨rfl, rfl⟩
      · next hj => exact Or.inr ⟨by simp [hk]; exact fun h => hj h.symm, h⟩

theorem mem_insertOrdered {e x : Event} {l : List Event} (h : x ∈ insertOrdered e l) : x = e ∨ x ∈ l := by
  induction l with
  | nil => simpa [insertOrdered] using h
  | cons y l ih =>
    unfold insertOrdered at h
    split at h
    · rcases List.mem_cons.1 h with rfl | h
      · simp
      · rcases ih h with h | h <;> simp [h]
    · simpa using h

/-- An event of at most 3 ratings joins events that have at most 3 each (R59). -/
theorem insertOrdered_small {e : Event} {l : List Event} (he : e.ratings.length ≤ 3) (hl : EventsSmall l) :
    EventsSmall (insertOrdered e l) := by
  intro x hx
  rcases mem_insertOrdered hx with rfl | hx
  · exact he
  · exact hl x hx

/-- Reports of a current event leave the guide store (R63). -/
theorem reportEvent_guide (service : Nat) (ended : Grant → Bool) (s : State) :
    (reportEvent service ended s).guide = s.guide := by
  unfold reportEvent
  dsimp only
  rw [foldl_inv (g := fun s : State => s.guide) (fun s o => rejudgeOutput_guide _ _ o s), endGrants_guide, rejudge_guide]

/-- Judging the current event of a service leaves the stored events (R63). -/
theorem judgeService_events (content : Bool) (service : Nat) (s : State) :
    (judgeService content service s).guide.events = s.guide.events := by
  unfold judgeService
  split
  · rfl
  · dsimp only
    split
    · split
      · rw [reportEvent_guide]
      · rfl
    · rw [reportEvent_guide, offer_guide']

theorem removeEvents_one (l : Event) (s : State) :
    (removeEvents [l] s).guide.events = s.guide.events.filter (fun y => !sameEvent y l) :=
  judgeService_events _ _ _

namespace Keeps

variable {σ : Type} {κ : Standing → σ} {a s : State}

/-! ### Guide store -/

theorem indexSection (h : Keeps κ a s) (p : PortNo) (x : SectionHeader) (body : List Byte) :
    Keeps κ a (indexSection p x body s) := by
  unfold Machine.indexSection
  dsimp only
  split
  · exact h.setPortIndex p _ id
  · next pairs _ =>
    have h1 := h.setPortIndex p
      (takePairs x (pairs.filter (fun e => admissible (inputOf p) e.2))
        { getAt s.guide.index p with
          malformed := bumpBy top16 (getAt s.guide.index p).malformed
            (pairs.length - (pairs.filter (fun e => admissible (inputOf p) e.2)).length) }).1
      (fun hx => takePairs_small _ _ _ hx)
    split
    · exact h1.indexChanged p
    · exact h1

theorem clearIndex (h : Keeps κ a s) (p : PortNo) : Keeps κ a (clearIndex p s) :=
  (h.setPortIndex p _ fun _ => ⟨by simp, by simp⟩).indexChanged p

theorem setList (h : Keeps κ a s) (l : List ServiceRec) (v : Option ListVersion) (n : Nat)
    (hl : s.guide.list.length ≤ 256 → l.length ≤ 256) :
    Keeps κ a { s with guide := { s.guide with list := l, listVersion := v, listOverflow := n } } :=
  { h with services := fun y => hl (h.services y) }

theorem serviceListSection (h : Keeps κ a s) (x : SectionHeader) (body : List Byte) :
    Keeps κ a (serviceListSection x body s) := by
  unfold Machine.serviceListSection
  split
  · exact { h with }
  · next records _ =>
    dsimp only
    refine (h.setList _ _ _ fun hl => ?_).foldl (fun _ n h => h.serviceReport n) _
    have hm : ((records.foldl mergeRecord ⟨if s.guide.listVersion.any
        (fun v => v.network == x.extension && v.version == x.version) then s.guide.list
        else s.guide.list.map (fun r => { r with seen := false }), s.guide.listOverflow, []⟩)).list.length ≤ 256 := by
      refine mergeRecords_length _ _ ?_
      split <;> simpa using hl
    split
    · exact (List.length_filter_le _ _).trans hm
    · exact hm

theorem reportEvent (h : Keeps κ a s) (service : Nat) (ended : Grant → Bool) :
    Keeps κ a (reportEvent service ended s) :=
  ((h.rejudge _ _).endGrants _ _).foldl (fun _ o h => h.rejudgeOutput _ _ o) _

theorem judgeService (h : Keeps κ a s) (content : Bool) (service : Nat) : Keeps κ a (judgeService content service s) := by
  unfold Machine.judgeService
  split
  · exact h
  · dsimp only
    split
    · split
      · exact h.reportEvent _ _
      · exact h
    · refine (Keeps.offer ?_ _).reportEvent _ _
      exact { h with
        tracking := fun y => (h.tracking y).services (by
          rw [List.map_map]
          refine List.map_congr_left fun r _ => ?_
          simp only [Function.comp_apply]
          split
          · next hr => exact (eq_of_beq hr).symm
          · rfl) }

theorem judgeTracked (h : Keeps κ a s) : Keeps κ a (judgeTracked s) :=
  h.foldl (fun _ n h => h.judgeService _ n) _

theorem removeEvents (h : Keeps κ a s) (l : List Event) : Keeps κ a (removeEvents l s) :=
  h.foldl (fun s x h =>
    (h.setEvents (s.guide.events.filter (fun y => !sameEvent y x)) (fun hl => (List.length_filter_le _ _).trans hl)
      fun hr y hy => hr y (List.mem_filter.1 hy).1).judgeService _ _) _

theorem storeEvent (h : Keeps κ a s) (e : Event) (he : e.ratings.length ≤ 3)
    (hl : a.guide.events.length ≤ 2048 → s.guide.events.length < 2048) : Keeps κ a (storeEvent e s) := by
  have h1 : Keeps κ a (s.setEvents (insertOrdered e s.guide.events)) :=
    { h with
      events := fun y => by
        have := hl y
        simp only [setEvents_guide_events, insertOrdered_length]
        omega
      ratings := fun y => insertOrdered_small he (h.ratings y) }
  exact h1.judgeService _ _

theorem updateEvent (h : Keeps κ a s) (e : Event) (he : e.ratings.length ≤ 3) (hs : s.guide.events.any (fun x => sameEvent x e) = true) :
    Keeps κ a (updateEvent e s) := by
  obtain ⟨x, hx, hxe⟩ := List.any_eq_true.1 hs
  refine Keeps.judgeService (h.setEvents _ (fun hl => ?_)
    fun hr => insertOrdered_small he fun y hy => hr y (List.mem_filter.1 hy).1) _ _
  have h1 := length_filter_lt (p := fun x => !sameEvent x e) hx (by simp [hxe])
  simp only [insertOrdered_length]
  omega

theorem storeFull (h : Keeps κ a s) (e : Event) (he : e.ratings.length ≤ 3) : Keeps κ a (storeFull e s) := by
  unfold Machine.storeFull
  dsimp only
  split
  · next l hl =>
    split
    · have hk : Keeps κ a (Machine.removeEvents [l]
          { s with guide := { s.guide with evicted := bump top16 s.guide.evicted } }) :=
        (show Keeps κ a { s with guide := { s.guide with evicted := bump top16 s.guide.evicted } } from
          { h with }).removeEvents _
      refine hk.storeEvent e he fun y => ?_
      have h1 := length_filter_lt (p := fun x => !sameEvent x l) (latestEvent_mem hl) (by simp [sameEvent])
      have h2 := h.events y
      rw [removeEvents_one]
      dsimp only
      omega
    · exact { h with }
  · exact { h with }

theorem insertEvent (h : Keeps κ a s) (e : Event) (he : e.ratings.length ≤ 3) : Keeps κ a (insertEvent e s) := by
  unfold Machine.insertEvent
  split
  · exact (show Keeps κ a { s with guide := { s.guide with outside := bump top16 s.guide.outside } } from
      { h with }).removeEvents _
  · dsimp only
    have h1 := h.removeEvents (s.guide.events.filter (Event.displacedBy e))
    split
    · next hs => exact h1.updateEvent e he hs
    · split
      · next hl => exact h1.storeEvent e he fun _ => hl
      · exact h1.storeFull e he

theorem takeEvent (h : Keeps κ a s) (service : Nat) (b : EventBody) : Keeps κ a (takeEvent service s b) := by
  unfold Machine.takeEvent
  split
  · exact { h with }
  · next hb =>
    simp only [Bool.or_eq_true, decide_eq_true_eq, not_or, Nat.not_lt] at hb
    exact h.insertEvent _ hb.2

theorem eventSection (h : Keeps κ a s) (x : SectionHeader) (body : List Byte) : Keeps κ a (eventSection x body s) := by
  unfold Machine.eventSection
  split
  · exact { h with }
  · exact h.foldl (fun _ b h => h.takeEvent _ b) _

theorem guideClockSecond (h : Keeps κ a s) : Keeps κ a (guideClockSecond s) := by
  unfold Machine.guideClockSecond
  split
  · exact h
  · exact (h.setEvents _ (fun hl => (List.length_filter_le _ _).trans hl)
      fun hr y hy => hr y (List.mem_filter.1 hy).1).judgeTracked

/-! ### Access engine -/

theorem setLog (h : Keeps κ a s) (l : List ExceptionRec) (b : Bool) (hl : s.access.log.length ≤ 16 → l.length ≤ 16) :
    Keeps κ a { s with access := { s.access with log := l, overflow := b } } :=
  { h with log := fun y => hl (h.log y) }

theorem logException (h : Keeps κ a s) (kind : ExceptionKind) (i : Input) (st : Nat) (t : Option Nat) (q : Nat) :
    Keeps κ a (logException kind i st t q s) := by
  unfold Machine.logException
  dsimp only
  split
  · next hm =>
    refine h.setLog _ _ fun hl => ?_
    cases he : s.access.log with
    | nil => simp [he] at hm
    | cons x l =>
      rw [he] at hl
      have ho : ∀ o : Option ExceptionRec, o.toList.length ≤ 1 := by intro o; cases o <;> simp
      simp only [List.length_append, List.length_dropLast, List.length_cons] at hl ⊢
      exact (Nat.add_le_add_left (ho _) _).trans (by omega)
  · split
    · next hl =>
      have h1 := fun r => h.setLog (s.access.log ++ [r]) s.access.overflow
        (fun _ => by simp only [List.length_append, List.length_singleton]; omega)
      split
      · exact (h1 _).offer _
      · exact h1 _
    · split
      · exact h
      · exact (h.setLog s.access.log true id).offer _

theorem slotReports (h : Keeps κ a s) (l : List SlotNo) :
    Keeps κ a (Machine.tierReport (l.foldl (fun s k => Machine.slotReport k s) s)) :=
  (h.foldl (fun _ k h => h.slotReport k) l).tierReport

theorem removeTiers (h : Keeps κ a s) (hit : Entitlement → Bool) : Keeps κ a (removeTiers hit s) := by
  unfold Machine.removeTiers Machine.loseTiers
  have hle : s.access.entitlements.length ≤ 64 → (s.access.entitlements.filter (fun r => !hit r)).length ≤ 64 :=
    fun hl => (List.length_filter_le _ _).trans hl
  split
  · next he =>
    have hn : ∀ r ∈ s.access.entitlements, hit r = false := by
      intro r hr
      by_contra hc
      simp only [List.isEmpty_iff, List.map_eq_nil_iff, List.filter_eq_nil_iff] at he
      exact he r hr (by simpa using hc)
    have hf : s.access.entitlements.filter (fun r => !hit r) = s.access.entitlements :=
      List.filter_eq_self.2 fun r hr => by simp [hn r hr]
    exact { h with
      entitlements := fun y => hle (h.entitlements y)
      keys := fun y => by simp only [hf]; exact h.keys y }
  · dsimp only
    refine Keeps.slotReports ?_ _
    generalize hs' : ({ s with access := { s.access with
      entitlements := s.access.entitlements.filter (fun r => !hit r) } } : State) = s'
    obtain ⟨v, hv, hx⟩ := eraseSlots
      (slotsOfTiers ((s.access.entitlements.filter hit).map Entitlement.tier) s') s'
    rw [hv]
    subst hs'
    exact { h with
      entitlements := fun y => hle (h.entitlements y)
      keys := fun y k x hk => by
        rcases hx k x hk with ⟨h1, h2⟩ | ⟨hn, hk'⟩
        · intro hor
          simp [h1, h2] at hor
        · intro hor
          obtain ⟨t, ht, hh⟩ := (h.keys y) k x hk' hor
          refine ⟨t, ht, ?_⟩
          obtain ⟨r, hr, hrt⟩ := List.any_eq_true.1 hh
          refine List.any_eq_true.2 ⟨r, List.mem_filter.2 ⟨hr, ?_⟩, hrt⟩
          by_contra hc
          refine hn (List.mem_filter.2 ⟨by fin_cases k <;> decide, ?_⟩)
          simp only [State.slot] at hk' ⊢
          simp only [hk', Option.any_some, ht, List.contains_eq_mem, decide_eq_true_eq, List.mem_map, List.mem_filter]
          exact ⟨r, ⟨hr, by simpa using hc⟩, by simpa using hrt⟩ }

theorem expireTiers (h : Keeps κ a s) : Keeps κ a (expireTiers s) := by
  unfold Machine.expireTiers
  split
  · exact h
  · exact h.removeTiers _

theorem countApplied (h : Keeps κ a s) : Keeps κ a (countApplied s) := { h with }

/-- An entitlement list in which every tier held before is held. -/
theorem setEntitlements (h : Keeps κ a s) (l : List Entitlement)
    (hl : s.access.entitlements.length ≤ 64 → l.length ≤ 64)
    (ht : ∀ t, holdsTier s.access.entitlements t = true → holdsTier l t = true) :
    Keeps κ a { s with access := { s.access with entitlements := l } } :=
  { h with
    entitlements := fun y => hl (h.entitlements y)
    keys := fun y k x hk hor => by
      obtain ⟨t, h1, h2⟩ := (h.keys y) k x hk hor
      exact ⟨t, h1, ht t h2⟩ }

theorem applyGrant (h : Keeps κ a s) (i : Input) (st q : Nat) (r : Entitlement) : Keeps κ a (applyGrant i st q r s) := by
  unfold Machine.applyGrant
  dsimp only
  split
  · split
    · exact h.countApplied.removeTiers _
    · refine h.countApplied.setEntitlements _ (by simp) fun t ht => ?_
      obtain ⟨x, hx, hxt⟩ := List.any_eq_true.1 ht
      refine List.any_eq_true.2 ⟨_, List.mem_map.2 ⟨x, hx, rfl⟩, ?_⟩
      split
      · next he =>
        simp only [beq_iff_eq] at he hxt ⊢
        exact he.symm.trans hxt
      · exact hxt
  · split
    · exact h.logException _ _ _ _ _
    · split
      · refine Keeps.slotReports ?_ _
        refine h.countApplied.foldl (fun s k h => h.setSlot k _ fun _ y hy => ?_) _
        obtain ⟨z, _, rfl⟩ := Option.map_eq_some_iff.1 hy
        simp [Slot.keysBacked, Slot.erased]
      · next hl _ =>
        refine (h.countApplied.setEntitlements _ (fun _ => ?_) fun t ht => ?_).tierReport
        · simp only [List.length_append, List.length_singleton, Machine.countApplied]; omega
        · rw [holdsTier, List.any_append]
          simp only [holdsTier] at ht
          simp [ht]

theorem applyGroups (h : Keeps κ a s) (pairs : List (Nat × Key)) (hp : pairs.length ≤ 4) :
    Keeps κ a (applyGroups pairs s) := by
  unfold Machine.applyGroups
  refine (Keeps.countApplied ?_).removeTiers _
  exact { h with groups := fun _ => by simpa using hp }

theorem applyInstr (h : Keeps κ a s) (i : Input) (st : Nat) (src : Option Nat) (q : Nat) (key : Key) (x : AccessInstr) :
    Keeps κ a (applyInstr i st src q key x s) := by
  unfold Machine.applyInstr
  split
  · exact h.applyGrant _ _ _ _
  · exact (h.removeTiers _).countApplied
  · split
    · exact h.logException _ _ _ _ _
    · next hc =>
      refine h.applyGroups _ ?_
      simp only [Bool.or_eq_true, decide_eq_true_eq, not_or, Nat.not_lt] at hc
      simpa using hc.1.2
  · split
    · exact h.logException _ _ _ _ _
    · exact (h.removeTiers _).countApplied

theorem recordSeq (h : Keeps κ a s) (x : AccessAddress) (q : Nat) : Keeps κ a (recordSeq x q s) := by
  unfold Machine.recordSeq
  split
  · exact { h with }
  · exact { h with groups := fun y => by simpa using h.groups y }

theorem openMessage (h : Keeps κ a s) (i : Input) (st home : Nat) (m : AccessBody) (key : Key) (r : Option Nat) :
    Keeps κ a (openMessage i st home m key r s) := by
  unfold Machine.openMessage
  split
  · exact h.logException _ _ _ _ _
  split
  · exact h.logException _ _ _ _ _
  split
  · exact h.logException _ _ _ _ _
  · refine Keeps.applyInstr ?_ _ _ _ _ _ _
    exact { h.recordSeq _ _ with }

theorem entitlementSection (h : Keeps κ a s) (i : Input) (st : Nat) (x : SectionHeader) (body : List Byte) :
    Keeps κ a (entitlementSection i st x body s) := by
  unfold Machine.entitlementSection
  split
  · split
    · exact { h with }
    · split
      · exact { h with }
      · exact h.openMessage _ _ _ _ _ _
  · exact h

theorem updateSlot (h : Keeps κ a s) (k : SlotNo) (x : Slot)
    (hx : KeysHeld s.access.slots s.access.entitlements → x.keysBacked s.access.entitlements) :
    Keeps κ a (updateSlot k x s) := by
  have h1 := h.setSlot k (some x) fun hk y hy => by obtain rfl := Option.some.inj hy; exact hx hk
  unfold Machine.updateSlot
  dsimp only
  split
  · exact h1
  · exact h1.slotReport k

theorem takeKeyMessage (h : Keeps κ a s) (k : SlotNo) (x : Slot) (home : Nat) (m : KeyBody) (hs : s.slot k = some x) :
    Keeps κ a (takeKeyMessage k x home m s) := by
  unfold Machine.takeKeyMessage
  split
  · exact h.logException _ _ _ _ _
  · split
    · refine (h.logException _ _ _ _ _).updateSlot k _ fun hk => ?_
      simp only [logException_slots, logException_entitlements] at hk ⊢
      have := hk k x hs
      simpa [Slot.keysBacked] using this
    · next r hr =>
      split
      · exact h.logException _ _ _ _ _
      · split
        · refine h.updateSlot k _ fun _ _ => ⟨m.tier, rfl, ?_⟩
          exact List.any_eq_true.2 ⟨r, List.mem_of_find?_eq_some hr, by have := List.find?_some hr; simpa using this⟩
        · exact h.setSlot_same k x _ hs rfl rfl rfl
        · exact h.logException _ _ _ _ _

theorem keySection (h : Keeps κ a s) (k : SlotNo) (i : Input) (st : Nat) (x : SectionHeader) (body : List Byte) :
    Keeps κ a (keySection k i st x body s) := by
  unfold Machine.keySection
  split
  · next hs =>
    split
    · split
      · exact h.setSlot_same k _ _ hs rfl rfl rfl
      · exact h.takeKeyMessage k _ _ _ hs
    · exact h
  · exact h

/-! ### Clock unit -/

theorem minuteEvent (h : Keeps κ a s) (old : Option Nat) : Keeps κ a (minuteEvent old s) := by
  unfold Machine.minuteEvent
  split
  · exact h
  · exact h.rejudgeVerdicts _

theorem clockSecond (h : Keeps κ a s) : Keeps κ a (clockSecond s) :=
  h.guideClockSecond.expireTiers

theorem announceTime (h : Keeps κ a s) (old : Option Nat) : Keeps κ a (announceTime old s) :=
  h.clockSecond.minuteEvent old

theorem endLockouts (h : Keeps κ a s) (hκ : ∀ t v, κ { t with profiles := v } = κ t) : Keeps κ a (endLockouts s) :=
  { h with
    standing := (hκ s.standing _).trans h.standing
    windows := fun y p => by
      have := h.windows y p
      simpa [Machine.endLockouts] using this }

theorem endMinuteGrants (h : Keeps κ a s) : Keeps κ a (endMinuteGrants s) :=
  h.endGrantsAndJudge _ _

/-- The clock settles a time update. -/
theorem setSettled (h : Keeps κ a s) (c : Clock) (hu : c.uptime = s.clock.uptime) (hs : c.source = s.clock.source) :
    Keeps κ a (s.setClock c.settled) :=
  h.setClock _ (by rw [settled_uptime, hu]) (by rw [settled_source, hs])

theorem clockAdvance (h : Keeps κ a s) : Keeps κ a (clockAdvance s) := by
  unfold Machine.clockAdvance
  split
  · exact h
  · split
    · exact h
    · exact (h.setSettled _ (by rfl) (by rfl)).announceTime _

theorem uptimeSecond (h : Keeps κ a s) (ht : ∀ t v, κ { t with time := v } = κ t)
    (hu : ∀ t v, κ { t with uptime := v } = κ t) (hp : ∀ t v, κ { t with profiles := v } = κ t) :
    Keeps κ a (uptimeSecond s) :=
  (((h.advanceTo ht _).setUptime hu _).endLockouts hp).endMinuteGrants.clockAdvance

theorem setFirst (h : Keeps κ a s) (t : TimeBody) : Keeps κ a (setFirst t s) := by
  unfold Machine.setFirst
  dsimp only
  refine Keeps.announceTime (Keeps.rejudgeVerdicts (Keeps.judgeTracked (Keeps.offer ?_ _)) _) _
  exact h.setSettled _ (by rfl) (by rfl)

theorem compareTime (h : Keeps κ a s) (t : TimeBody) (now : NetTime) : Keeps κ a (compareTime t now s) := by
  unfold Machine.compareTime
  dsimp only
  split
  · split
    · exact (h.setSettled _ (by rfl) (by rfl)).minuteEvent _
    · refine Keeps.announceTime ?_ _
      exact h.setClock _ (settled_uptime _) (settled_source _)
  · split
    · exact ((h.setSettled _ (by rfl) (by rfl)).offer _).announceTime _
    · exact (h.setSettled _ (by rfl) (by rfl)).minuteEvent _

theorem timeSection (h : Keeps κ a s) (x : SectionHeader) (body : List Byte) : Keeps κ a (timeSection x body s) := by
  unfold Machine.timeSection
  split
  · exact h.setClock _ (by rfl) (by rfl)
  · split
    · exact h.setFirst _
    · exact h.compareTime _ _

end Keeps
end Sys2Proof.Machine
end

