-- ==== Sys2Proof/Laws/Sections.lean ====
section
/-! SUPPORT. What the section engine keeps, and that a section ends with its assembly no longer in progress. -/

namespace Sys2Proof.Machine

/-! ### Finding an entry after a change -/

theorem find?_updateFirst {α : Type} {hit : α → Bool} {f : α → α} (hf : ∀ x, hit (f x) = hit x) (l : List α) :
    (updateFirst hit f l).find? hit = (l.find? hit).map f := by
  induction l with
  | nil => rfl
  | cons x l ih => cases hx : hit x <;> simp [updateFirst, hx, hf, ih]

theorem findEntry_modifyEntry (i : Input) (st : Nat) {f : Entry → Entry} (hf : ∀ e, isAt i st (f e) = isAt i st e)
    (s : State) : findEntry i st (modifyEntry i st f s) = (findEntry i st s).map f :=
  find?_updateFirst hf s.table

theorem findEntry_at {i : Input} {st : Nat} {s : State} {e : Entry} (h : findEntry i st s = some e) :
    e.input = i ∧ e.stream = st := by
  have := List.find?_some h
  simpa [isAt] using this

theorem collecting_modifyEntry (i : Input) (st : Nat) {f : Entry → Entry} (hf : ∀ e, isAt i st (f e) = isAt i st e)
    (s : State) (ha : ∀ e, findEntry i st s = some e → (f e).assembly.inProgress = false) :
    collecting i st (modifyEntry i st f s) = false := by
  unfold collecting
  rw [findEntry_modifyEntry i st hf]
  cases he : findEntry i st s with
  | none => rfl
  | some e => exact ha e he

theorem collecting_abandon (i : Input) (st : Nat) (s : State) : collecting i st (abandon i st s) = false := by
  unfold abandon
  split
  · next he => simp [collecting, he]
  · exact collecting_modifyEntry i st (by exact fun _ => rfl) _ (by exact fun _ _ => rfl)

theorem collecting_starve (i : Input) (st : Nat) (s : State) : collecting i st (starve i st s) = false := by
  show collecting i st (modifyEntry i st (fun e => { e with starve := bump top16 e.starve }) (abandon i st s)) = false
  refine collecting_modifyEntry i st (by exact fun _ => rfl) _ fun e he => ?_
  have := collecting_abandon i st s
  simpa [collecting, he] using this

@[simp] theorem judgeDelivery_table (s : State) : (judgeDelivery s).table = s.table := by
  unfold judgeDelivery
  split <;> rfl

theorem collecting_of_table {s t : State} (h : t.table = s.table) (i : Input) (st : Nat) :
    collecting i st t = collecting i st s := by
  simp [collecting, findEntry, h]

theorem collecting_moveSection (i : Input) (st : Nat) (bad : Bool) (bytes : List Byte) (m : BitVec 24) (s : State) :
    collecting i st (moveSection i st bad bytes m s) = false := by
  have key : collecting i st (modifyEntry i st (fun e => { e with assembly := .idle }) s) = false :=
    collecting_modifyEntry i st (by exact fun _ => rfl) _ (by exact fun _ _ => rfl)
  unfold moveSection
  split
  · next he => simp [collecting, he]
  · dsimp only
    split
    · exact key
    · rw [collecting_of_table (judgeDelivery_table _)]
      exact key

/-- A byte that completes or abandons a section leaves no section in progress. -/
theorem collecting_appendByte (i : Input) (st : Nat) (b : Byte) (s : State) (h : (appendByte i st b s).1 ≠ .inProgress) :
    collecting i st (appendByte i st b s).2 = false := by
  revert h
  have key : ∀ e n l x s, findEntry i st s = some e → (storeByte e n l x s).1 ≠ .inProgress →
      collecting i st (storeByte e n l x s).2 = false := by
    intro e n l x s he
    obtain ⟨hi, hs⟩ := findEntry_at he
    subst hi hs
    unfold storeByte
    split
    · split
      · exact fun h => absurd rfl h
      · intro _
        exact collecting_abandon _ _ _
    · dsimp only
      split
      · intro _
        exact collecting_moveSection _ _ _ _ _ _
      · exact fun h => absurd rfl h
  unfold appendByte
  split
  · next he => intro _; simp [collecting, he]
  · next e he =>
    cases e.assembly <;> dsimp only <;> (split; split) <;>
      first | exact key _ _ _ _ _ he | (intro _; exact collecting_starve _ _ _)

theorem collecting_leadBytes (i : Input) (st : Nat) (l : List Byte) (s : State) :
    collecting i st (leadBytes i st l s) = false := by
  induction l generalizing s with
  | nil => exact collecting_abandon i st s
  | cons b l ih =>
    have h := collecting_appendByte i st b s
    unfold leadBytes
    split
    · exact ih _
    · next s' he =>
      rw [he] at h
      split
      · exact h (by simp)
      · exact h (by simp)
    · next s' he =>
      rw [he] at h
      exact h (by simp)

theorem takeBytes_cons (i : Input) (st : Nat) (between : Bool) (b : Byte) (l : List Byte) (s : State) :
    takeBytes i st between (b :: l) s =
      if between && b == 0xFF then setAssembly i st .idle s
      else
        match appendByte i st b s with
        | (.inProgress, s) => takeBytes i st false l s
        | (.completed, s) => takeBytes i st true l s
        | (.abandoned, s) => s := by
  cases between <;> rfl

/-! ### Seen sets -/

theorem seenAfter_length (h : SectionHeader) (l l' : List SeenSet) (hl : l.length ≤ 8) (he : seenAfter h l = some l') :
    l'.length ≤ 8 := by
  unfold seenAfter at he
  dsimp only at he
  split at he
  · split at he
    · split at he
      · simp at he
      · obtain rfl := Option.some.inj he; simpa using hl
    · obtain rfl := Option.some.inj he; simpa using hl
  · obtain rfl := Option.some.inj he
    split <;> simp <;> omega

theorem matchSection_seen (x y : Filter) (bad : Bool) (bytes : List Byte) (hl : x.seen.length ≤ 8)
    (he : x.matchSection bad bytes = some y) : y.seen.length ≤ 8 := by
  unfold Filter.matchSection at he
  split at he
  · simp at he
  split at he
  · split at he
    · obtain rfl := Option.some.inj he; exact hl
    · simp at he
  split at he
  · obtain ⟨z, hz, rfl⟩ := Option.map_eq_some_iff.1 he
    exact seenAfter_length _ _ _ hl hz
  · obtain rfl := Option.some.inj he; exact hl

namespace Keeps

variable {σ : Type} {κ : Standing → σ} {a s : State} {i : Input} {st : Nat}

theorem judgeDelivery (h : Keeps κ a s) : Keeps κ a (judgeDelivery s) := by
  unfold Machine.judgeDelivery
  split
  · exact { h with }
  · exact h

theorem matchFilter (present : BitVec 24) (bad : Bool) (bytes : List Byte) (f : FilterNo) (r : BitVec 24 × State)
    (h : Keeps κ a r.2) : Keeps κ a (matchFilter present bad bytes f r).2 := by
  unfold Machine.matchFilter
  split
  · split
    · exact h
    · next x hx =>
      split
      · exact h
      · next y hy =>
        exact { h with
          seen := fun v g z hz => by
            have hv := h.seen v
            simp only [getAt_setAt] at hz
            split at hz
            · obtain rfl := Option.some.inj hz
              exact matchSection_seen x _ bad bytes (hv f x hx) hy
            · exact hv g z hz }
  · exact h

theorem matchFilters (present : BitVec 24) (bad : Bool) (bytes : List Byte) (l : List FilterNo) (r : BitVec 24 × State)
    (h : Keeps κ a r.2) :
    Keeps κ a (l.foldl (fun r f => Machine.matchFilter present bad bytes f r) r).2 := by
  induction l generalizing r with
  | nil => exact h
  | cons f l ih => exact ih _ (h.matchFilter present bad bytes f r)

theorem offerSection (h : Keeps κ a s) (e : Entry) (x : SectionHeader) (body : List Byte) :
    Keeps κ a (offerSection e x body s) := by
  unfold Machine.offerSection
  split
  · split
    · split
      · exact h.indexSection _ _ _
      · exact h
    · exact h
  · split
    · exact h.serviceListSection _ _
    · exact h
  · split
    · exact h.eventSection _ _
    · exact h
  · split
    · exact h.timeSection _ _
    · exact h
  · split
    · exact h.entitlementSection _ _ _ _
    · exact h
  · split
    · exact h.keySection _ _ _ _ _
    · exact h
  · exact h.foldl (fun _ c h => h.mapSection c _ _) _
  · exact h

theorem takeGoodSection (h : Keeps κ a s) (e : Entry) (bytes : List Byte) : Keeps κ a (takeGoodSection e bytes s) := by
  unfold Machine.takeGoodSection
  dsimp only
  have h1 := h.countSection e.input (fun r => { r with good := bump top32 r.good })
  split
  · exact h1.countSection _ _
  split
  · exact h1
  · exact h1.offerSection _ _ _

/-- A complete section leaves its assembly, which is IDLE from then on (R25, R35). -/
theorem moveSection (h : Keeps κ a s (some (i, st))) (bad : Bool) (bytes : List Byte) (m : BitVec 24)
    (hb : TableSound a.table → AssembliesBut (fun _ _ => True) a.table → 12 ≤ bytes.length ∧ bytes.length ≤ 1024) :
    Keeps κ a (moveSection i st bad bytes m s) := by
  unfold Machine.moveSection
  split
  · next he => exact h.absent he (Or.inr rfl)
  · next e he =>
    have h1 : Keeps κ a (Machine.modifyEntry i st (fun e => { e with assembly := .idle })
        { s with sections := { s.sections with freeBlocks := s.sections.freeBlocks + e.blocks } }) :=
      h.of_assembly i st .idle he rfl (Or.inr rfl) (fun _ => idle_sized) fun _ => Or.inl trivial
    dsimp only
    split
    · exact h1
    · refine Keeps.judgeDelivery ?_
      exact { h1 with
        deliveries := fun y z w d hd => by
          rcases List.mem_append.1 hd with hd | hd
          · exact h.deliveries y z w d hd
          · obtain rfl := List.mem_singleton.1 hd
            exact hb y z
        blocks := by
          rw [← h1.blocks]
          simp only [State.blocksTotal, queueBlocks, Machine.modifyEntry, List.map_append, List.sum_append, List.map_cons,
            List.map_nil, List.sum_cons, List.sum_nil]
          omega }

theorem completeSection (e : Entry) (h : Keeps κ a s (some (e.input, e.stream))) (bytes : List Byte)
    (hb : TableSound a.table → AssembliesBut (fun _ _ => True) a.table → 12 ≤ bytes.length ∧ bytes.length ≤ 1024) :
    Keeps κ a (completeSection e bytes s) := by
  unfold Machine.completeSection
  dsimp only
  refine Keeps.moveSection (h.trans (matchFilters _ _ _ _ _ ?_)) _ _ _ hb
  show Keeps κ s (if _ then _ else _)
  split
  · exact (refl s).countSection _ _
  · exact (refl s).takeGoodSection _ _

theorem starve (h : Keeps κ a s) (i : Input) (st : Nat) : Keeps κ a (starve i st s) :=
  ((h.abandon i st).modifyEntry i st (f := fun e => { e with starve := bump top16 e.starve })
    (EntryStep.of_same (fun _ => rfl) (fun _ => rfl) (fun _ => rfl) (fun _ => rfl) (fun _ => rfl))
    (fun _ => rfl)).countSection i _

theorem expectedSize_range {l : List Byte} {n : Nat} (h : expectedSize l = some n) : 12 ≤ n ∧ n ≤ 1024 := by
  unfold expectedSize at h
  dsimp only at h
  split at h
  · next hl =>
    simp only [Bool.and_eq_true, decide_eq_true_eq] at hl
    obtain rfl := Option.some.inj h
    omega
  · cases h

/-- A byte more in an assembly: `n`, `l` and `x` are the chain, bytes and length before it is judged. -/
theorem storeByte (h : Keeps κ a s) (e : Entry) (n k : Nat) (l : List Byte) (x : Option Nat)
    (he : findEntry e.input e.stream s = some e) (hk : k + n = s.sections.freeBlocks + e.blocks)
    (hx : e.assembly.sized → ∀ m, x = some m → 12 ≤ m ∧ m ≤ 1024)
    (hc : e.assembly.small → 1 ≤ l.length ∧ n = (l.length + 63) / 64 ∧ (x = none → l.length ≤ 3) ∧
      ∀ m, x = some m → 3 < l.length ∧ l.length ≤ m) :
    Keeps κ a (storeByte e n l x { s with sections := { s.sections with freeBlocks := k } }).2 := by
  have hz : ∀ y : Option Nat, (∀ m, y = some m → 12 ≤ m ∧ m ≤ 1024) → (Assembly.collecting n l y).sized := by
    rintro y hy _ _ m h
    cases h
    exact hy m rfl
  /- The assembly takes the byte; it is left out where it is full or has no legal length. -/
  have hs : ∀ y full, (e.assembly.sized → ∀ m, y = some m → 12 ≤ m ∧ m ≤ 1024) →
      (e.assembly.small → (Assembly.collecting n l y).small ∨ full = some (e.input, e.stream)) →
      Keeps κ a (setAssembly e.input e.stream (.collecting n l y)
        { s with sections := { s.sections with freeBlocks := k } }) full :=
    fun y full hy hf => h.of_assembly e.input e.stream _ he hk (Or.inl rfl) (fun z => hz y (hy z)) fun z => hf (z rfl)
  unfold Machine.storeByte
  split
  · next h3 =>
    split
    · next m hm =>
      have hr := expectedSize_range hm
      refine hs _ none (fun _ m' hm' => ?_) fun z => Or.inl ?_
      · obtain rfl := Option.some.inj hm'
        exact hr
      · have := hc z
        refine ⟨this.1, this.2.1, nofun, fun m' hm' => ?_⟩
        obtain rfl := Option.some.inj hm'
        omega
    · exact ((hs none _ (fun _ => nofun) fun _ => Or.inr rfl).abandon _ _ (Or.inr rfl)).countFraming _
  · next h3 =>
    dsimp only
    split
    · next hl =>
      refine completeSection e (hs x _ hx fun _ => Or.inr rfl) l fun y z => hx ?_ _ hl
      exact (h.assemblies y _ (fun _ _ _ => trivial) z).sized e (List.mem_of_find?_eq_some he)
    · next hl =>
      refine hs x none hx fun z => Or.inl ?_
      obtain ⟨h1, h2, h4, h5⟩ := hc z
      refine ⟨h1, h2, fun hn => ?_, fun m hm => ?_⟩
      · have := h4 hn
        omega
      · have := h5 m hm
        have := hx z.sized m hm
        have : m ≠ l.length := fun hml => hl (by rw [hm, hml])
        omega

theorem appendByte (h : Keeps κ a s) (i : Input) (st : Nat) (b : Byte) : Keeps κ a (appendByte i st b s).2 := by
  unfold Machine.appendByte
  split
  · exact h
  · next e he =>
    obtain ⟨hi, hs⟩ := findEntry_at he
    subst hi hs
    have key : ∀ n l x, e.blocks = n → (e.assembly.sized → ∀ m, x = some m → 12 ≤ m ∧ m ≤ 1024) →
        (e.assembly.small → ChainSound n l x) → Keeps κ a
        (if l.length % 64 = 0 then
          if claimGranted e s then
            Machine.storeByte e (n + 1) (l ++ [b]) x
              { s with sections := { s.sections with freeBlocks := s.sections.freeBlocks - 1 } }
          else (.abandoned, Machine.starve e.input e.stream s)
        else Machine.storeByte e n (l ++ [b]) x s).2 := by
      intro n l x hn hx hch
      have hl : (l ++ [b]).length = l.length + 1 := by simp
      split
      · next h64 =>
        split
        · next hc =>
          refine h.storeByte e (n + 1) _ _ _ he ?_ hx fun z => ?_
          rotate_left
          · obtain ⟨h1, h2, h3⟩ := hch z
            rw [hl]
            refine ⟨by omega, by omega, fun hx => ?_, fun m hm => ?_⟩
            · have := h2 hx
              omega
            · have := h3 m hm
              omega
          have : 1 ≤ s.sections.freeBlocks := by
            unfold claimGranted at hc
            split at hc <;> simp at hc <;> omega
          omega
        · exact h.starve _ _
      · refine h.storeByte e n s.sections.freeBlocks _ _ he (by omega) hx fun z => ?_
        obtain ⟨h1, h2, h3⟩ := hch z
        rw [hl]
        refine ⟨by omega, by omega, fun hx => ?_, fun m hm => ?_⟩
        · have := h2 hx
          omega
        · have := h3 m hm
          omega
    cases hA : e.assembly with
    | collecting n l x =>
      exact key n l x (by simp [Entry.blocks, hA]) (fun z m hm => z n l m (by rw [hA, hm])) fun z => by
        rw [hA] at z
        exact z.2
    | idle => exact key 0 [] none (by simp [Entry.blocks, hA]) (fun _ => nofun) fun _ => ⟨rfl, by simp, nofun⟩
    | skipping => exact key 0 [] none (by simp [Entry.blocks, hA]) (fun _ => nofun) fun _ => ⟨rfl, by simp, nofun⟩

/-- An entry whose assembly is not in progress becomes IDLE. -/
theorem setIdle (h : Keeps κ a s) (i : Input) (st : Nat) (hc : collecting i st s = false) :
    Keeps κ a (setAssembly i st .idle s) := by
  cases he : findEntry i st s with
  | none =>
    have : setAssembly i st .idle s = s := by
      unfold setAssembly Machine.modifyEntry
      rw [updateFirst_none _ _ _ he]
    rw [this]
    exact h
  | some e =>
    refine h.of_assembly i st .idle he ?_ (Or.inl rfl) (fun _ => idle_sized) fun _ => Or.inl trivial
    have hb : e.blocks = 0 := by
      simp only [collecting, he] at hc
      unfold Entry.blocks
      cases hA : e.assembly <;> simp [hA, Assembly.inProgress] at hc ⊢
    rw [hb]
    rfl

theorem takeBytes (h : Keeps κ a s) (i : Input) (st : Nat) (between : Bool) (l : List Byte)
    (hc : between = true → collecting i st s = false) : Keeps κ a (takeBytes i st between l s) := by
  induction l generalizing s between with
  | nil =>
    cases between
    · exact h
    · exact h.setIdle i st (hc rfl)
  | cons b l ih =>
    have h1 := h.appendByte i st b
    have h2 := collecting_appendByte i st b s
    rw [takeBytes_cons]
    split
    · next hb =>
      simp only [Bool.and_eq_true] at hb
      exact h.setIdle i st (hc hb.1)
    · split
      · next s' he => rw [he] at h1; exact ih h1 _ (by simp)
      · next s' he => rw [he] at h1 h2; exact ih h1 _ fun _ => h2 (by simp)
      · next s' he => rw [he] at h1; exact h1

theorem leadBytes (h : Keeps κ a s) (i : Input) (st : Nat) (l : List Byte) : Keeps κ a (leadBytes i st l s) := by
  induction l generalizing s with
  | nil => exact (h.abandon i st).countFraming i
  | cons b l ih =>
    have h1 := h.appendByte i st b
    unfold Machine.leadBytes
    split
    · next s' he => rw [he] at h1; exact ih h1
    · next s' he =>
      rw [he] at h1
      split
      · exact h1
      · exact h1.countFraming i
    · next s' he => rw [he] at h1; exact h1

theorem takeLead (h : Keeps κ a s) (i : Input) (st : Nat) (l : List Byte) : Keeps κ a (takeLead i st l s) := by
  unfold Machine.takeLead
  split
  · exact (h.abandon i st).countFraming i
  · split
    · exact (h.abandon i st).countFraming i
    · dsimp only
      split
      · exact (h.leadBytes i st _).takeBytes i st true _ fun _ => collecting_leadBytes _ _ _ _
      · next hc => exact h.takeBytes i st true _ fun _ => by simpa using hc

theorem handPayload (h : Keeps κ a s) (i : Input) (st : Nat) (b : Bool) (l : List Byte) :
    Keeps κ a (handPayload i st b l s) := by
  unfold Machine.handPayload
  split
  · exact h.takeLead i st l
  · split
    · exact h.takeBytes i st false l (by simp)
    · exact h

end Keeps
end Sys2Proof.Machine
end

