-- ==== Sys2Proof/Laws/Traffic.lean ====
section
/-! SUPPORT. What the way of a packet through descrambler, switch, capture start and admission keeps, and what the intake
keeps. -/

namespace Sys2Proof.Machine

/-! ### One context under work on another -/

theorem setContext_context (c d : CtxNo) (x : Context) (s : State) :
    (s.setContext c x).context d = if c = d then x else s.context d := by
  simp [State.context]

theorem setContext_context_ne {c d : CtxNo} (x : Context) (s : State) (h : c ≠ d) :
    (s.setContext c x).context d = s.context d := by
  simp [h]

theorem freeContext_context_ne {c d : CtxNo} (s : State) (h : c ≠ d) : (freeContext c s).context d = s.context d := by
  have key : ∀ s' : State, s'.ctl.contexts = s.ctl.contexts → ∀ x,
      ((tagNos.foldl (fun s t => freeTag c t s) s').setContext c x).context d = s.context d := by
    intro s' hs x
    rw [setContext_context_ne _ _ h]
    refine context_of_contexts ?_ d
    exact (foldl_inv (f := fun s t => freeTag c t s) (g := fun s : State => s.ctl.contexts)
      (fun s t => freeTag_contexts c t s) tagNos s').trans hs
  unfold freeContext
  dsimp only
  split
  · exact key _ (leaveSlot_contexts _ _ _) _
  · exact key _ rfl _

theorem freeIfDrained_context_ne {c d : CtxNo} (s : State) (h : c ≠ d) :
    (freeIfDrained c s).context d = s.context d := by
  unfold freeIfDrained
  split
  · exact freeContext_context_ne s h
  · rfl

theorem retire_context_ne {c d : CtxNo} (s : State) (h : c ≠ d) : (retire c s).context d = s.context d := by
  unfold retire
  dsimp only
  split
  · rfl
  · rw [freeIfDrained_context_ne _ h]
    split
    · rw [context_of_contexts (endTracking_contexts _ _), setContext_context_ne _ _ h]
      rfl
    · rw [setContext_context_ne _ _ h]
      rfl

/-- A context that is a destination's stays as it is while any context without one retires. -/
theorem retireIfUnbound_context (c d : CtxNo) (s : State) (h : hasDestination s d = true) :
    (retireIfUnbound c s).context d = s.context d := by
  unfold retireIfUnbound
  split
  · rfl
  · next hc =>
    refine retire_context_ne s fun hcd => ?_
    rw [hcd] at hc
    exact hc h

theorem hasDestination_current {s : State} {o : OutputNo} {c : CtxNo} (h : s.isCurrent o c = true) :
    hasDestination s c = true := by
  have ho : o ∈ outputNos := by rcases output_cases o with rfl | rfl <;> decide
  unfold hasDestination
  have : outputNos.any (fun o => s.isCurrent o c || s.isPending o c) = true :=
    List.any_eq_true.2 ⟨o, ho, by simp [h]⟩
  simp [this]

theorem hasDestination_pending {s : State} {o : OutputNo} {c : CtxNo} (h : s.isPending o c = true) :
    hasDestination s c = true := by
  have ho : o ∈ outputNos := by rcases output_cases o with rfl | rfl <;> decide
  unfold hasDestination
  have : outputNos.any (fun o => s.isCurrent o c || s.isPending o c) = true :=
    List.any_eq_true.2 ⟨o, ho, by simp [h]⟩
  simp [this]

/-! ### Handing packets over changes no stage -/

theorem raiseDrain_stage (c d : CtxNo) (s : State) : ((raiseDrain c s).context d).state = (s.context d).state := by
  unfold raiseDrain
  rw [setContext_context]
  split
  · next h => rw [h]
  · rfl

theorem handToOutput_stage (o : OutputNo) (c d : CtxNo) (p : List Byte) (t : BitVec 32) (s : State) :
    ((handToOutput o c p t s).context d).state = (s.context d).state := by
  unfold handToOutput
  dsimp only
  split
  · exact raiseDrain_stage c d _
  · split
    · rfl
    · rw [context_of_contexts (offer_ctl_contexts _ _)]
      rfl

theorem handToCapture_stage (t : TagNo) (c d : CtxNo) (slot : Nat) (p : List Byte) (s : State) :
    ((handToCapture t c slot p s).context d).state = (s.context d).state := by
  unfold handToCapture
  dsimp only
  split
  · exact raiseDrain_stage c d _
  · split
    · rfl
    · rw [context_of_contexts (offer_ctl_contexts _ _)]
      rfl

theorem admitOutput_stage (c d : CtxNo) (copy : Option (List Byte)) (t : BitVec 32) (o : OutputNo) (s : State) :
    ((admitOutput c copy t o s).context d).state = (s.context d).state := by
  unfold admitOutput
  split
  · split
    · exact handToOutput_stage _ _ _ _ _ _
    · rfl
  · rfl

theorem admitTag_stage (c d : CtxNo) (slot : Nat) (p : List Byte) (t : TagNo) (s : State) :
    ((admitTag c slot p t s).context d).state = (s.context d).state := by
  unfold admitTag
  split
  · split
    · exact handToCapture_stage _ _ _ _ _ _
    · rfl
  all_goals rfl

theorem switchOutput_stage (o : OutputNo) (c : CtxNo) (copy : Option (List Byte)) (t : BitVec 32) (s : State) :
    ((switchOutput o c copy t s).context c).state = (s.context c).state := by
  unfold switchOutput
  dsimp only
  rw [context_of_contexts (offer_ctl_contexts _ _)]
  generalize hs1 : (endGrants (fun g => g.output == o) .binding
    ((placeMarker o c s).setBinding o { current := some ⟨c, .none⟩, pending := none })) = s1
  have h1 : s1.ctl.contexts = s.ctl.contexts := by
    rw [← hs1, endGrants_contexts]
    rfl
  generalize judged s1 judgeAll c (.output o) .none = hold
  have key : ∀ s2 : State, s2.ctl.outputs = (s1.setBinding o { current := some ⟨c, hold⟩, pending := none }).ctl.outputs →
      (s2.context c).state = (s.context c).state →
      ((match (s.binding o).current with
        | some b => retireIfUnbound b.ctx s2
        | none => s2).context c).state = (s.context c).state := by
    intro s2 hb hs
    split
    · rw [retireIfUnbound_context]
      · exact hs
      · refine hasDestination_current (o := o) ?_
        simp [State.isCurrent, State.binding, hb]
    · exact hs
  have h2 : ((s1.setBinding o { current := some ⟨c, hold⟩, pending := none }).context c).state = (s.context c).state := by
    show (s1.context c).state = _
    rw [context_of_contexts h1]
  refine key _ ?_ ?_
  · split
    · split
      · unfold handToOutput
        dsimp only
        split
        · rfl
        · split
          · rfl
          · simp
      · rfl
    · rfl
  · split
    · split
      · rw [handToOutput_stage]; exact h2
      · exact h2
    · exact h2

theorem startTag_contexts (c : CtxNo) (t : TagNo) (s : State) : (startTag c t s).ctl.contexts = s.ctl.contexts := by
  unfold startTag
  split
  · split
    · dsimp only
      rw [offer_ctl_contexts]
      rfl
    · rfl
  all_goals rfl

theorem becomeRunning_stage (c : CtxNo) (s : State) (h : (s.context c).state = .entry ∨ (s.context c).state = .running) :
    ((becomeRunning c s).context c).state = .running := by
  unfold becomeRunning
  dsimp only
  split
  · split
    · simp
    · rw [context_of_contexts (startTracking_contexts _ _)]
      simp
  · next hn => exact h.resolve_left hn

namespace Keeps

variable {σ : Type} {κ : Standing → σ} {a s : State}

/-- Operations one after another that keep a second property beside. -/
theorem foldl_with {α : Type} {P : State → Prop} {f : State → α → State}
    (hf : ∀ s x, Keeps κ a s → P s → Keeps κ a (f s x) ∧ P (f s x)) (h : Keeps κ a s) (hp : P s) (l : List α) :
    Keeps κ a (l.foldl f s) ∧ P (l.foldl f s) := by
  induction l generalizing s with
  | nil => exact ⟨h, hp⟩
  | cons x l ih => exact ih (hf s x h hp).1 (hf s x h hp).2

/-! ### Descrambler -/

theorem classifySlot (h : Keeps κ a s) (i : Input) (p : List Byte) (k : SlotNo) : Keeps κ a (classifySlot i p k s) := by
  unfold Machine.classifySlot
  split
  · exact h
  · next x hx =>
    have hb : ∀ y : Slot, y.even = x.even → y.odd = x.odd → y.tier = x.tier →
        KeysHeld s.access.slots s.access.entitlements → y.keysBacked s.access.entitlements := by
      intro y he ho ht hk
      have := hk k x hx
      simpa [Slot.keysBacked, he, ho, ht] using this
    split
    · exact h.countDescrambler _ _
    split
    · exact (h.setSlot_same k x _ hx (by rfl) (by rfl) (by rfl)).countDescrambler _ _
    split
    · exact (h.countDescrambler i _).updateSlot k _ (hb _ rfl rfl rfl)
    · refine (h.countDescrambler i _).updateSlot k _ (hb _ ?_ ?_ ?_) <;>
        · unfold unkeyedSlot; dsimp only; split <;> rfl

theorem classifySlotless (h : Keeps κ a s) (i : Input) (p : List Byte) : Keeps κ a (classifySlotless i p s) :=
  h.countDescrambler _ _

theorem classify (h : Keeps κ a s) (i : Input) (p : List Byte) (l : List CtxNo) : Keeps κ a (classify i p l s) := by
  unfold Machine.classify
  split
  · exact (h.foldl (fun _ k h => h.classifySlot i p k) _).foldl (fun _ _ h => h.classifySlotless i p) _
  · exact h

/-! ### Switching, capture start, admission -/

theorem switchOutput (h : Keeps κ a s) (o : OutputNo) (c : CtxNo) (copy : Option (List Byte)) (t : BitVec 32)
    (hc : (s.context c).state ≠ .free) : Keeps κ a (switchOutput o c copy t s) := by
  unfold Machine.switchOutput
  dsimp only
  refine Keeps.offer ?_ _
  have h1 := ((h.placeMarker o c).setBinding o { current := some ⟨c, .none⟩, pending := none }).endGrants
    (fun g => g.output == o) .binding
  have hc1 : ((Machine.endGrants (fun g => g.output == o) .binding
      ((Machine.placeMarker o c s).setBinding o { current := some ⟨c, .none⟩, pending := none })).context c).state ≠
      .free := by
    rw [context_of_contexts (endGrants_contexts _ _ _)]
    exact hc
  generalize Machine.endGrants (fun g => g.output == o) .binding
    ((Machine.placeMarker o c s).setBinding o { current := some ⟨c, .none⟩, pending := none }) = s1 at h1 hc1 ⊢
  generalize judged s1 judgeAll c (.output o) .none = hold
  have h2 := h1.setBinding o { current := some ⟨c, hold⟩, pending := none }
  have key : ∀ s2 : State, Keeps κ a s2 → Keeps κ a (match (s.binding o).current with
      | some b => Machine.retireIfUnbound b.ctx s2
      | none => s2) := by
    intro s2 h2
    split
    · exact h2.retireIfUnbound _
    · exact h2
  refine key _ ?_
  split
  · split
    · exact h2.handToOutput o c _ t hc1
    · exact h2
  · exact h2

theorem startTag (h : Keeps κ a s) (c : CtxNo) (t : TagNo) : Keeps κ a (startTag c t s) := by
  unfold Machine.startTag
  split
  · split
    · exact (h.setTag _ _).offer _
    · exact h
  all_goals exact h

theorem admitOutput (h : Keeps κ a s) (c : CtxNo) (copy : Option (List Byte)) (t : BitVec 32) (o : OutputNo)
    (hc : (s.context c).state ≠ .free) : Keeps κ a (admitOutput c copy t o s) := by
  unfold Machine.admitOutput
  split
  · split
    · exact h.handToOutput o c _ t hc
    · exact h
  · exact h

theorem admitTag (h : Keeps κ a s) (c : CtxNo) (slot : Nat) (p : List Byte) (t : TagNo)
    (hc : (s.context c).state ≠ .free) : Keeps κ a (admitTag c slot p t s) := by
  unfold Machine.admitTag
  split
  · split
    · exact h.handToCapture t c slot p hc
    · exact h
  all_goals exact h

theorem admitTags (h : Keeps κ a s) (c : CtxNo) (slot : Nat) (p : List Byte) (hc : (s.context c).state ≠ .free) :
    Keeps κ a (tagNos.foldl (fun s t => Machine.admitTag c slot p t s) s) :=
  (h.foldl_with (P := fun s => (s.context c).state ≠ .free)
    (fun s t h hp => ⟨h.admitTag c slot p t hp, by rw [admitTag_stage]; exact hp⟩) hc tagNos).1

theorem admitPacket (h : Keeps κ a s) (c : CtxNo) (k : Fin 8) (p : List Byte) (copy : Option (List Byte)) (t : BitVec 32)
    (l : List OutputNo) : Keeps κ a (admitPacket c k p copy t l s) := by
  unfold Machine.admitPacket
  split
  · next hr =>
    have h1 := h.foldl_with (P := fun s => (s.context c).state ≠ .free)
      (fun s o h hp => ⟨h.admitOutput c copy t o hp, by rw [admitOutput_stage]; exact hp⟩) (by simp [hr])
      (outputNos.filter (fun o => !l.contains o))
    exact h1.1.admitTags c _ p h1.2
  · exact h

theorem becomeRunning (h : Keeps κ a s) (c : CtxNo) : Keeps κ a (becomeRunning c s) := by
  unfold Machine.becomeRunning
  dsimp only
  split
  · next he =>
    have h1 := h.setContext c { s.context c with state := .running, deadline := none }
      (CtxStep.stage (by simp [CtxState.acquiring, he]) rfl (by simp) rfl rfl)
    split
    · exact h1
    · next hi => exact h1.startTracking _ c (runningOn_iff.2 (by simpa [State.context] using hi))
  · exact h

theorem takeEntryPacket (h : Keeps κ a s) (c : CtxNo) (k : Fin 8) (p : List Byte) (t : BitVec 32)
    (hc : (s.context c).state = .entry ∨ (s.context c).state = .running) :
    Keeps κ a (takeEntryPacket c k p t s) := by
  unfold Machine.takeEntryPacket
  dsimp only
  have h0 := h.becomeRunning c
  have hr : ((Machine.becomeRunning c s).context c).state ≠ .free := by rw [becomeRunning_stage c s hc]; simp
  generalize Machine.becomeRunning c s = s1 at h0 hr ⊢
  generalize presentationCopy s1 (s1.context c) p = copy
  have h1 := h0.foldl_with (P := fun s => (s.context c).state ≠ .free) (f := fun s o => Machine.switchOutput o c copy t s)
    (fun s o h hp => ⟨h.switchOutput o c copy t hp, by rw [switchOutput_stage]; exact hp⟩) hr
    (outputNos.filter (canSwitch s1 c))
  generalize outputNos.filter (canSwitch s1 c) = l at h1 ⊢
  have h2 := h1.1.foldl (f := fun s t => Machine.startTag c t s) (fun _ t h => h.startTag c t) tagNos
  exact h2.admitPacket c k p copy t l

theorem takeComponent (h : Keeps κ a s) (p : List Byte) (t : BitVec 32) (c : CtxNo) (k : Fin 8) :
    Keeps κ a (takeComponent p t c k s) := by
  unfold Machine.takeComponent
  dsimp only
  split
  · next hs =>
    split
    · exact h.takeEntryPacket c k p t (Or.inl hs)
    · exact h
  · next hs =>
    split
    · exact h.takeEntryPacket c k p t (Or.inr hs)
    · exact h.admitPacket c k p _ t []
  all_goals exact h

theorem showPacket (h : Keeps κ a s) (i : Input) (e : Entry) (p : List Byte) (t : BitVec 32) :
    Keeps κ a (showPacket i e p t s) :=
  (h.classify i p _).foldl (fun _ u h => h.takeComponent p t u.1 u.2) _

theorem admitRaw (h : Keeps κ a s) (c : CtxNo) (slot : Nat) (p : List Byte) : Keeps κ a (admitRaw c slot p s) := by
  unfold Machine.admitRaw
  split
  · next hr => exact h.admitTags c slot p (by simp [hr])
  · exact h

theorem offerRaw (h : Keeps κ a s) (e : Entry) (p : List Byte) : Keeps κ a (offerRaw e p s) := by
  refine h.foldl (fun s u h => ?_) _
  have h1 : Keeps κ a (if u.purposes.contains .map then Machine.admitRaw u.ctx 0 p s else s) := by
    split
    · exact h.admitRaw _ _ _
    · exact h
  dsimp only
  split
  · exact h1.admitRaw _ _ _
  · exact h1

/-! ### Intake -/

theorem modifyRecord (h : Keeps κ a s) (i : Input) (st : Nat) {f : Entry → Entry} (hi : ∀ e, (f e).input = e.input)
    (hs : ∀ e, (f e).stream = e.stream) (hr : ∀ e, (f e).role = e.role) (hu : ∀ e, (f e).users = e.users)
    (hp : ∀ e, (f e).pins = e.pins) (ha : ∀ e, (f e).assembly = e.assembly) : Keeps κ a (Machine.modifyEntry i st f s) :=
  h.modifyEntry i st (EntryStep.of_same hi hs hr hu hp) ha

theorem handOff (h : Keeps κ a s) (i : Input) (e : Entry) (p : List Byte) (t : BitVec 32) : Keeps κ a (handOff i e p t s) := by
  unfold Machine.handOff
  split
  · exact h.showPacket i e p t
  · refine Keeps.offerRaw ?_ e p
    split
    · exact h.handPayload _ _ _ _
    · exact h

theorem takeErrored (h : Keeps κ a s) (i : Input) (e : Entry) (p : List Byte) (t : BitVec 32) :
    Keeps κ a (takeErrored i e p t s) := by
  unfold Machine.takeErrored
  split
  · exact h.handOff i e p t
  · exact ((h.abandon i e.stream).modifyRecord i e.stream (by exact fun _ => rfl) (by exact fun _ => rfl)
      (by exact fun _ => rfl) (by exact fun _ => rfl) (by exact fun _ => rfl) (by exact fun _ => rfl)).offerRaw e p

theorem takeChecked (h : Keeps κ a s) (i : Input) (e : Entry) (p : List Byte) (t : BitVec 32) :
    Keeps κ a (takeChecked i e p t s) := by
  unfold Machine.takeChecked
  split
  · exact h.handOff i e p t
  · dsimp only
    have h1 : ∀ k c, Keeps κ a (Machine.modifyEntry i e.stream (Entry.afterCheck k c) s) := by
      intro k c
      cases c <;> exact h.modifyRecord i e.stream (by exact fun _ => rfl) (by exact fun _ => rfl)
        (by exact fun _ => rfl) (by exact fun _ => rfl) (by exact fun _ => rfl) (by exact fun _ => rfl)
    split
    · exact (h1 _ _).handOff i e p t
    · exact h1 _ _
    · refine Keeps.handOff ?_ i e p t
      split
      · exact ((h1 _ _).countPort i _).abandon i _
      · exact (h1 _ _).countPort i _

theorem countPacket (h : Keeps κ a s) (i : Input) (p : List Byte) : Keeps κ a (countPacket i p s) := h.countPort _ _

theorem countStray (h : Keeps κ a s) (i : Input) : Keeps κ a (countStray i s) := h.countPort _ _

theorem examine (h : Keeps κ a s) (i : Input) (p : List Byte) (t : BitVec 32) : Keeps κ a (examine i p t s) := by
  unfold Machine.examine
  dsimp only
  have h1 := h.countPacket i p
  split
  · exact h1
  split
  · exact h1.countStray i
  split
  · exact h1
  split
  · exact h1.takeErrored i _ p t
  · exact h1.takeChecked i _ p t

theorem enterUp (h : Keeps κ a s) (i : Input)
    (hκ : ∀ t v, κ { t with sync := setAt t.sync i v } = κ t) : Keeps κ a (enterUp i s) :=
  ((h.setSync i hκ _).offer _).signalReport i

theorem leaveUp (h : Keeps κ a s) (i : Input)
    (hκ : ∀ t v, κ { t with sync := setAt t.sync i v } = κ t) (x : SyncRec) : Keeps κ a (leaveUp i x s) :=
  (((h.setSync i hκ x).offer _).clearPortRecords i).signalReport i

theorem takeSeeking (h : Keeps κ a s) (i : Input)
    (hκ : ∀ t v, κ { t with sync := setAt t.sync i v } = κ t) (good : Bool) : Keeps κ a (takeSeeking i good s) := by
  unfold Machine.takeSeeking
  dsimp only
  split
  · split
    · exact (h.setSync i hκ _).enterUp i hκ
    · exact h.setSync i hκ _
  · exact h.setSync i hκ _

theorem takeBadSync (h : Keeps κ a s) (i : Input)
    (hκ : ∀ t v, κ { t with sync := setAt t.sync i v } = κ t) : Keeps κ a (takeBadSync i s) := by
  unfold Machine.takeBadSync
  dsimp only
  split
  · exact (h.countPort i _).leaveUp i hκ _
  · exact h.setSync i hκ _

theorem takeGoodSync (h : Keeps κ a s) (i : Input)
    (hκ : ∀ t v, κ { t with sync := setAt t.sync i v } = κ t) : Keeps κ a (takeGoodSync i s) := h.setSync i hκ _

theorem lockFalls (h : Keeps κ a s) (p : PortNo) (hl : ∀ t v, κ { t with lock := setAt t.lock p v } = κ t)
    (hκ : ∀ t v, κ { t with sync := setAt t.sync (inputOf p) v } = κ t) : Keeps κ a (lockFalls p s) := by
  unfold Machine.lockFalls
  dsimp only
  have h1 := (h.setLock p hl false).setForming (inputOf p) none (by simp)
  split
  · exact h1
  · exact (h1.setSync _ hκ _).clearIndex p
  · exact (h1.leaveUp _ hκ _).clearIndex p

theorem lockRises (h : Keeps κ a s) (p : PortNo) (hl : ∀ t v, κ { t with lock := setAt t.lock p v } = κ t)
    (hκ : ∀ t v, κ { t with sync := setAt t.sync (inputOf p) v } = κ t) : Keeps κ a (lockRises p s) := by
  unfold Machine.lockRises
  dsimp only
  split
  · exact (h.setLock p hl true).setSync _ hκ _
  all_goals exact h.setLock p hl true

end Keeps
end Sys2Proof.Machine
end

