-- ==== Sys2Proof/Laws/Links.lean ====
section
/-! SUPPORT. What a whole command carries over from the state before it: each invariant of Safety.lean. First the links and
the timed commands. -/

namespace Sys2Proof.Machine

/-- Each invariant of Safety.lean goes over from `s` to `t`. -/
structure Carries (s t : State) : Prop where
  blocks : s.blocksTotal = 512 → t.blocksTotal = 512
  table : TableSound s.table → TableSound t.table
  lists : ListsBounded s → ListsBounded t
  links : LinkQueuesBounded s → LinkQueuesBounded t
  drains : DrainsCounted s → DrainsCounted t
  idents : IdentitiesDistinct s.ctl.contexts → IdentitiesDistinct t.ctl.contexts
  keys : KeysHeld s.access.slots s.access.entitlements → KeysHeld t.access.slots t.access.entitlements

/-- What operations inside a command keep, looking at nothing that stands. -/
abbrev Kept (s t : State) : Prop :=
  Keeps (fun _ => ()) s t

theorem Kept.refl (s : State) : Kept s s := Keeps.refl s

theorem Keeps.carries {s t : State} {σ : Type} {κ : Standing → σ} (h : Keeps κ s t) : Carries s t where
  blocks hb := h.blocks.trans hb
  table := h.table
  lists := h.lists
  links hl := ⟨by rw [h.mgmt]; exact hl.answers, by rw [h.mgmt]; exact hl.buffer⟩
  drains := h.drains
  idents := h.idents
  keys := h.keys

namespace Carries

variable {s t u : State}

theorem refl (s : State) : Carries s s := (Kept.refl s).carries

theorem trans (h : Carries s t) (h' : Carries t u) : Carries s u :=
  ⟨h'.blocks ∘ h.blocks, h'.table ∘ h.table, h'.lists ∘ h.lists, h'.links ∘ h.links, h'.drains ∘ h.drains,
    h'.idents ∘ h.idents, h'.keys ∘ h.keys⟩

theorem next (h : Carries s t) (h' : Kept t u) : Carries s u := h.trans h'.carries

/-- The management unit changes, its queues within their sizes. -/
theorem setMgmt (s : State) (m : Mgmt) (ha : s.mgmt.answers.length ≤ 16 → m.answers.length ≤ 16)
    (hb : s.mgmt.buffer.length ≤ 4 → m.buffer.length ≤ 4) : Carries s { s with mgmt := m } where
  blocks := id
  table := id
  lists h := { h with }
  links h := ⟨ha h.answers, hb h.buffer⟩
  drains := id
  idents := id
  keys := id

end Carries

/-! ### Departures -/

namespace Keeps

variable {σ : Type} {κ : Standing → σ} {a s : State}

/-- A packet of a context leaves a queue, and its drain count falls (R161). -/
theorem lowered (h : Keeps κ a s) (c : CtxNo) (v : Vector Output 2) (l : List CapturePacket) (n : Vector Nat 16)
    (hv : QueuesSmall s.out.outputs → QueuesSmall v) (hl : s.out.capture.length ≤ 128 → l.length ≤ 128)
    (hp : ∀ d, packetsOf v l d + (if c = d then 1 else 0) = packetsOf s.out.outputs s.out.capture d)
    (hn : (∀ d, getAt s.out.captureCount d = captured s.out.capture d) → ∀ d, getAt n d = captured l d)
    (hw : v.map Output.pacing = s.out.outputs.map Output.pacing)
    (hs : SharesSmall s.out.captureCount → SharesSmall n) (hm : MarkersSmall s.out.outputs → MarkersSmall v) :
    Keeps κ a (({ s with out := { s.out with outputs := v, capture := l, captureCount := n } } : State).setContext c
      { s.context c with drain := (s.context c).drain - 1 }) :=
  { h with
    standing := by
      rw [← h.standing]
      show κ { s.standing with pacing := v.map Output.pacing } = _
      rw [hw]
      rfl
    presentation := fun y => hv (h.presentation y)
    capture := fun y => hl (h.capture y)
    share := fun y => hs (h.share y)
    markers := fun y z => hm (h.markers y z)
    tracking := fun y => (h.tracking y).setAt_same c _ fun hr => ⟨hr, rfl, rfl⟩
    contexts := fun y => (h.contexts y).setAt c _ fun hl => hl.same rfl rfl rfl
    idents := fun y => (h.idents y).setAt c _ fun hl => ⟨hl, rfl, rfl⟩
    drains := fun y => by
      have hd := h.drains y
      have hc := hp c
      rw [← hd.drain c, if_pos rfl] at hc
      refine ⟨fun d => ?_, fun d => hn hd.capture d, fun d => ?_⟩
      · have h1 := hp d
        rw [← hd.drain d] at h1
        simp only [setContext_ctl_contexts, getAt_setAt]
        show _ = packetsOf v l d
        split
        · next hcd => subst hcd; rw [if_pos rfl] at h1; simp only [State.context]; omega
        · next hcd => rw [if_neg hcd] at h1; omega
      · simp only [setContext_ctl_contexts, getAt_setAt]
        split
        · intro hf
          have := hd.free c hf
          omega
        · exact hd.free d }

theorem departPo (h : Keeps κ a s) (hl : ∀ t v, κ { t with link := v } = κ t) (o : OutputNo) (q : QueuedPacket) (rest : List QueuedPacket)
    (hq : (s.output o).queue = q :: rest) : Keeps κ a (departPo o q rest s) := by
  have key : ∀ (p : List Byte) (x : Output), x.queue = rest → x.pacing = (s.output o).pacing →
      (∀ m, x.marker = some m → ∃ m', (s.output o).marker = some m' ∧ m.components = m'.components) →
      Keeps κ a (lowerDrain q.ctx (Machine.sendPo o p (s.setOutput o x))) := by
    intro p x hx hw hm
    refine Keeps.freeIfDrained ?_ _
    refine (h.sendPo hl o p).lowered q.ctx (setAt s.out.outputs o x) s.out.capture s.out.captureCount (fun y o' => ?_)
      id (fun d => ?_) id (outputs_pacing _ _ _ hw) id fun y o' m h' => ?_
    · simp only [getAt_setAt]
      split
      · next ho =>
        have := y o
        change (s.output o).queue.length ≤ 64 at this
        rw [hq, List.length_cons] at this
        rw [hx]
        omega
      · exact y o'
    · have h0 : ∀ o', presented (getAt (setAt s.out.outputs o x) o') d + (if o = o' ∧ q.ctx = d then 1 else 0) =
          presented (getAt s.out.outputs o') d := by
        intro o'
        simp only [getAt_setAt]
        split
        · next ho =>
          subst ho
          change _ = (s.output o).queue.countP _
          rw [hq]
          simp [presented, hx, List.countP_cons]
        · next ho => simp [ho]
      show packetsOf (setAt s.out.outputs o x) s.out.capture d + _ = packetsOf s.out.outputs s.out.capture d
      simp only [packetsOf, ← h0]
      rcases output_cases o with rfl | rfl <;> simp <;> omega
    · rw [getAt_setAt] at h'
      split at h'
      · obtain ⟨m', h1, h2⟩ := hm m h'
        rw [h2]
        exact y o m' h1
      · exact y o' m h'
  refine key _ _ rfl rfl fun m hm => ?_
  obtain ⟨m', h1, rfl⟩ := Option.map_eq_some_iff.1 hm
  exact ⟨m', h1, rfl⟩

theorem sendMarker (h : Keeps κ a s) (hl : ∀ t v, κ { t with link := v } = κ t) (o : OutputNo) (m : Marker) : Keeps κ a (sendMarker o m s) :=
  (h.setOutput_same o _ (by rfl) (by rfl) fun _ _ hm => by cases hm).sendPo hl o _

theorem sendQueued (h : Keeps κ a s) (hl : ∀ t v, κ { t with link := v } = κ t) (o : OutputNo) : Keeps κ a (sendQueued o s) := by
  unfold Machine.sendQueued
  dsimp only
  split
  · next hq => exact h.departPo hl o _ _ hq
  · exact (h.setOutput_same o _ (by rfl) (by rfl)).sendPo hl o _

theorem sendPresentation (h : Keeps κ a s) (ht : ∀ t v, κ { t with time := v } = κ t)
    (hl : ∀ t v, κ { t with link := v } = κ t) (hp : ∀ t v, κ { t with pacing := v } = κ t) (o : OutputNo) :
    Keeps κ a (sendPresentation o s) := by
  unfold Machine.sendPresentation
  dsimp only
  have h1 := (h.advanceTo ht (nextOpportunity (s.output o))).setOutput_paced hp o
    { (Machine.advanceTo (nextOpportunity (s.output o)) s).output o with
      paceIndex := ((Machine.advanceTo (nextOpportunity (s.output o)) s).output o).paceIndex + 1 } rfl
  split
  · split
    · exact h1.sendMarker hl o _
    · exact h1.sendQueued hl o
  · exact h1.sendQueued hl o

theorem sendCapture (h : Keeps κ a s) (hl : ∀ t v, κ { t with link := v } = κ t) (q : CapturePacket) (rest : List CapturePacket) (hq : s.out.capture = q :: rest) :
    Keeps κ a (sendCapture q rest s) := by
  refine Keeps.freeIfDrained ?_ q.ctx
  have h1 : Keeps κ a (Machine.sendHlOut (asSent q.packet)
      (({ s with out := { s.out with
        sent := { s.out.sent with capture := bump top32 s.out.sent.capture }, run := bump 3 s.out.run } } :
          State).setCaptureRec q.tag { s.captureRec q.tag with sent := bump top32 (s.captureRec q.tag).sent })) :=
    (Keeps.setCaptureRec (s := { s with out := { s.out with
        sent := { s.out.sent with capture := bump top32 s.out.sent.capture }, run := bump 3 s.out.run } })
      { h with } q.tag _).sendHlOut hl _
  refine h1.lowered q.ctx s.out.outputs rest (modAt s.out.captureCount q.ctx (· - 1)) id (fun y => ?_) (fun d => ?_)
    (fun y d => ?_) rfl (fun y d => ?_) id
  · change s.out.capture.length ≤ 128 at y
    rw [hq, List.length_cons] at y
    omega
  · show packetsOf s.out.outputs rest d + _ = packetsOf s.out.outputs s.out.capture d
    rw [hq]
    simp only [packetsOf, captured, List.countP_cons, beq_iff_eq]
    omega
  · have hd := y d
    have hc := y q.ctx
    change getAt s.out.captureCount d = captured s.out.capture d at hd
    change getAt s.out.captureCount q.ctx = captured s.out.capture q.ctx at hc
    rw [hq] at hd hc
    simp only [captured, List.countP_cons, beq_iff_eq] at hd hc ⊢
    rw [getAt_modAt]
    split
    · next he => subst he; rw [hc]; simp
    · next he => rw [hd]; simp [he]
  · have hd := y d
    have hc := y q.ctx
    change getAt s.out.captureCount d ≤ 64 at hd
    change getAt s.out.captureCount q.ctx ≤ 64 at hc
    rw [getAt_modAt]
    split
    · exact (Nat.sub_le _ _).trans hc
    · exact hd

theorem sendDelivery (h : Keeps κ a s) (hl : ∀ t v, κ { t with link := v } = κ t)
    (hn : ∀ t v, κ { t with nextNumber := v } = κ t) (d : Delivery) (rest : List Delivery) (hq : s.sections.queue = d :: rest) :
    Keeps κ a (sendDelivery d rest s) := by
  refine Keeps.setLink (s := { s with
      sections :=
        { s.sections with
          queue := if decide (deliveryPackets d ≤ d.sentPackets + 1) then rest else
            { d with number := some (d.number.getD s.sections.nextNumber), sentPackets := d.sentPackets + 1 } :: rest
          nextNumber := if d.number.isSome then s.sections.nextNumber else (s.sections.nextNumber + 1) % 256
          freeBlocks := s.sections.freeBlocks + (if decide (deliveryPackets d ≤ d.sentPackets + 1) then d.blocks else 0)
          released := s.sections.released && !(if decide (deliveryPackets d ≤ d.sentPackets + 1) then rest else
            { d with number := some (d.number.getD s.sections.nextNumber), sentPackets := d.sentPackets + 1 } ::
              rest).isEmpty }
      out := { s.out with sent := { s.out.sent with delivery := bump top32 s.out.sent.delivery }, run := 0 } }) ?_ hl _
  exact { h with
    standing := (hn s.standing _).trans h.standing
    deliveries := fun y z w e he => by
      have hw := h.deliveries y z w
      rw [hq] at hw
      split at he
      · exact hw e (List.mem_cons_of_mem _ he)
      · rcases List.mem_cons.1 he with rfl | he
        · exact hw d (List.mem_cons_self ..)
        · exact hw e (List.mem_cons_of_mem _ he)
    blocks := by
      rw [← h.blocks]
      simp only [State.blocksTotal, hq, queueBlocks, List.map_cons, List.sum_cons]
      split
      · omega
      · simp only [List.map_cons, List.sum_cons]; omega }

theorem sendFiller (h : Keeps κ a s) (hl : ∀ t v, κ { t with link := v } = κ t) : Keeps κ a (sendFiller s) := by
  refine Keeps.sendHlOut ?_ hl _
  exact { h with }

theorem sendCaptureOrDelivery (h : Keeps κ a s) (hl : ∀ t v, κ { t with link := v } = κ t)
    (hn : ∀ t v, κ { t with nextNumber := v } = κ t) : Keeps κ a (sendCaptureOrDelivery s) := by
  have hr : ∀ d rest, (if s.sections.released then s.sections.queue else []) = d :: rest →
      s.sections.queue = d :: rest := by
    intro d rest he
    split at he
    · exact he
    · simp at he
  unfold Machine.sendCaptureOrDelivery
  split
  · exact h.sendFiller hl
  · next hq _ => exact h.sendCapture hl _ _ hq
  · next he => exact h.sendDelivery hl hn _ _ (hr _ _ he)
  · next hq he =>
    split
    · exact h.sendCapture hl _ _ hq
    · exact h.sendDelivery hl hn _ _ (hr _ _ he)

end Keeps

/-! ### HL-out -/

theorem sendAnswer_carries (s : State) (x : Answer) (rest : List Answer) (hq : s.mgmt.answers = x :: rest) :
    Carries s (sendAnswer x rest s) := by
  have h1 := Carries.setMgmt s { s.mgmt with answers := rest } (by rw [hq]; simp; omega) id
  refine h1.next (Keeps.sendHlOut (s := { s with
      mgmt := { s.mgmt with answers := rest }
      link := { s.link with answerCount := (s.link.answerCount + 1) % 16 }
      out := { s.out with sent := { s.out.sent with answers := bump top32 s.out.sent.answers } } }) ?_ (fun _ _ => rfl) _)
  exact { Kept.refl _ with }

theorem waitingNotice_some {s : State} {n : Notice} {rest : List Notice} (h : waitingNotice s = some (n, rest)) :
    s.notices.queue = n :: rest := by
  unfold waitingNotice at h
  split at h
  · simp at h
  · next hq =>
    split at h
    · simp only [Option.some.injEq, Prod.mk.injEq] at h
      rw [hq, h.1, h.2]
    · simp at h

theorem sendNotice_carries (s : State) (n : Notice) (rest : List Notice) (hq : s.notices.queue = n :: rest) :
    Carries s (sendNotice n rest s) := by
  have h1 := Carries.setMgmt s { s.mgmt with ready := s.mgmt.ready || n.isReady } id id
  refine h1.next ?_
  refine Keeps.sendHlOut (s := { s with
      notices := { queue := rest, missed := false }
      mgmt := { s.mgmt with ready := s.mgmt.ready || n.isReady }
      link := { s.link with noticeCount := (s.link.noticeCount + 1) % 16 }
      out := { s.out with sent := { s.out.sent with notices := bump top32 s.out.sent.notices } } }) ?_ (fun _ _ => rfl) _
  exact { Kept.refl _ with
    notices := fun y => by
      change s.notices.queue.length ≤ 32 at y
      rw [hq, List.length_cons] at y
      show rest.length ≤ 32
      omega }

theorem arbitrate_carries (s : State) : Carries s (arbitrate s) := by
  unfold arbitrate
  split
  · next hq => exact sendAnswer_carries s _ _ hq
  · split
    · next hn => exact sendNotice_carries s _ _ (waitingNotice_some hn)
    · exact ((Kept.refl s).sendCaptureOrDelivery (fun _ _ => rfl) (fun _ _ => rfl)).carries

/-! ### The management buffer -/

theorem dropEnded_length (l : List OrderPacket) : (dropEnded l).length ≤ l.length := by
  induction l with
  | nil => simp [dropEnded]
  | cons p l ih =>
    unfold dropEnded
    split
    · simp only [List.length_cons]; omega
    · simp

theorem setBuffer_carries (s : State) (l : List OrderPacket) (h : s.mgmt.buffer.length ≤ 4 → l.length ≤ 4) :
    Carries s (s.setBuffer l) :=
  Carries.setMgmt s _ id h

theorem pruneBuffer_carries (s : State) : Carries s (pruneBuffer s) := by
  unfold pruneBuffer
  split
  · exact Carries.refl s
  · exact setBuffer_carries s _ fun h => (dropEnded_length _).trans h

theorem takeOrderPacket_carries (p : List Byte) (s : State) : Carries s (takeOrderPacket p s) := by
  unfold takeOrderPacket
  split
  · exact Carries.refl s
  split
  · next hl =>
    refine (setBuffer_carries s _ fun _ => ?_).trans (pruneBuffer_carries _)
    simp only [List.length_append, List.length_singleton]
    omega
  · exact Carries.setMgmt s _ id id

theorem sortHlIn_carries (p : List Byte) (t : BitVec 32) (s : State) : Carries s (sortHlIn p t s) := by
  unfold sortHlIn
  dsimp only
  split
  · split
    · exact ((Kept.refl s).countPort _ _).carries
    · exact takeOrderPacket_carries p s
  split
  · exact ((Kept.refl s).examine _ _ _).carries
  split
  · exact ((Kept.refl s).countPacket _ _).carries
  · exact (((Kept.refl s).countPacket _ _).countStray _).carries

/-! ### Units -/

theorem usePacket_carries (i : Input) (p : List Byte) (t : BitVec 32) (s : State) : Carries s (usePacket i p t s) := by
  unfold usePacket
  split
  · exact sortHlIn_carries _ _ _
  · exact ((Kept.refl s).examine _ _ _).carries

theorem takeUnit_carries (i : Input) (unit : List Byte) (s : State) : Carries s (takeUnit i unit s) := by
  unfold takeUnit
  split
  · exact Carries.refl s
  · exact ((Kept.refl s).takeSeeking _ (fun _ _ => rfl) _).carries
  · split
    · exact ((Kept.refl s).takeGoodSync i (fun _ _ => rfl)).carries.trans (usePacket_carries _ _ _ _)
    · exact ((Kept.refl s).takeBadSync _ (fun _ _ => rfl)).carries

theorem setForming_carries (i : Input) (v : Option (List Byte)) (s : State)
    (hv : FormingSmall s.intake.forming → ∀ u, v = some u → 1 ≤ u.length ∧ u.length ≤ 187) :
    Carries s (s.setForming i v) :=
  ((Kept.refl s).setForming i v hv).carries

theorem cutShort_carries (i : Input) (s : State) : Carries s (cutShort i s) := by
  unfold cutShort
  split
  · exact Carries.refl s
  · exact (setForming_carries i none s (by simp)).trans (takeUnit_carries _ _ _)

theorem takeLinkByte_carries (i : Input) (s : State) (b : LinkByte) : Carries s (takeLinkByte i s b) := by
  unfold takeLinkByte
  split
  · exact Carries.refl s
  split
  · refine (cutShort_carries i s).trans (setForming_carries i _ _ fun _ u hu => ?_)
    obtain rfl := Option.some.inj hu
    simp
  split
  · exact Carries.refl s
  · next u hf =>
    split
    · exact (setForming_carries i none s (by simp)).trans (takeUnit_carries _ _ _)
    · next hl =>
      refine setForming_carries i _ _ fun hs v hv => ?_
      obtain rfl := Option.some.inj hv
      have := hs i u hf
      simp only [List.length_append, List.length_singleton]
      omega

theorem takeLinkBytes_carries (i : Input) (l : List LinkByte) (s : State) : Carries s (takeLinkBytes i l s) := by
  unfold takeLinkBytes
  induction l generalizing s with
  | nil => exact Carries.refl s
  | cons b l ih => exact (takeLinkByte_carries i s b).trans (ih _)

/-! ### Timed commands -/

namespace Keeps

variable {σ : Type} {κ : Standing → σ} {a s : State}

theorem deliveryTimedOut (h : Keeps κ a s) (ht : ∀ t v, κ { t with time := v } = κ t) : Keeps κ a (deliveryTimedOut s) := by
  unfold Machine.deliveryTimedOut
  split
  · exact h
  · split
    · exact h
    · exact { h.advanceTo ht _ with }

theorem outputWaitOver (h : Keeps κ a s) (ht : ∀ t v, κ { t with time := v } = κ t) (o : OutputNo) : Keeps κ a (outputWaitOver o s) := by
  unfold Machine.outputWaitOver
  split
  · exact h
  · split
    · exact (((h.advanceTo ht _).setBinding o _).offer _).retireIfUnbound _
    · exact h

theorem tagWaitOver (h : Keeps κ a s) (ht : ∀ t v, κ { t with time := v } = κ t) (t : TagNo) : Keeps κ a (tagWaitOver t s) := by
  unfold Machine.tagWaitOver
  split
  · split
    · exact (((h.advanceTo ht _).setTag t _).offer _).retireIfUnbound _
    · exact h
  all_goals exact h

theorem acquisitionOver (h : Keeps κ a s) (ht : ∀ t v, κ { t with time := v } = κ t) (c : CtxNo) : Keeps κ a (acquisitionOver c s) := by
  unfold Machine.acquisitionOver
  split
  · exact (h.advanceTo ht _).failContext c _
  · exact h

/-- READY takes the head of the notice queue. -/
theorem placeReady (h : Keeps κ a s) : Keeps κ a (placeReady s) := by
  unfold Machine.placeReady
  dsimp only
  split
  · next hn => exact { h with notices := fun _ => by simp only [List.length_cons]; omega }
  · exact { h with notices := fun _ => by simp only [List.length_cons, List.length_take]; omega }

theorem endFuseRead (h : Keeps κ a s) (hκ : ∀ t r v, κ { t with reading := r, fuses := v } = κ t) (f : Option Fuses) : Keeps κ a (endFuseRead f s) := by
  unfold Machine.endFuseRead
  split
  · refine Keeps.placeReady ?_
    exact { h with standing := (hκ s.standing _ _).trans h.standing }
  · exact h

end Keeps

/-! ### Reset values -/

theorem fixedTable_sound : TableSound fixedTable :=
  ⟨by decide, by decide, by decide, by decide, by decide⟩

theorem fixedTable_ordered : UsersOrdered fixedTable := by
  intro e he
  have : e.users = [] := by
    revert e
    decide
  simp [Entry.ordered, this]

theorem fixedTable_assemblies : AssembliesSmall fixedTable := by
  intro e he
  have : e.assembly = .idle := by
    revert e
    decide
  rw [this]
  exact trivial

theorem tracksRunning_nil (ctxs : Vector Context 16) : TracksRunning ctxs [] :=
  ⟨List.nodup_nil, fun _ => nofun⟩

theorem contextEmpty_small : Context.empty.small := .empty rfl rfl rfl

/-- No packet waits in any queue and every context is FREE. -/
theorem drainsAgree_empty (ctxs : Vector Context 16) (v : Vector Output 2) (counts : Vector Nat 16)
    (hc : ∀ c, getAt ctxs c = .empty) (hv : ∀ o, (getAt v o).queue = []) (hn : ∀ c, getAt counts c = 0) :
    DrainsAgree ctxs v [] counts where
  drain c := by simp [hc, packetsOf, presented, captured, hv, Context.empty]
  capture c := by simp [hn, captured]
  free c _ := by simp [hc, Context.empty]

theorem identities_empty (ctxs : Vector Context 16) (hc : ∀ c, getAt ctxs c = .empty) : IdentitiesDistinct ctxs := by
  intro c d h
  rw [hc] at h
  exact absurd rfl h.1

theorem pinReset_carries (locks : Vector Bool 4) (s : State) : Carries s (pinResetState locks s) where
  blocks _ := by rfl
  table _ := fixedTable_sound
  lists _ :=
    { forming := fun i u h => by simp [pinResetState, Intake.ofLocks] at h
      order := fixedTable_ordered
      users := UsersOrdered.length fixedTable_ordered
      contexts := fun c => by simp [pinResetState, State.reset, contextEmpty_small]
      ratings := fun e h => by simp [pinResetState, State.reset] at h
      windows := fun p => by simp [pinResetState, State.reset, Profile.initial]
      share := fun c => by simp [pinResetState, State.reset]
      seen := fun f x h => by simp [pinResetState, State.reset] at h
      index := fun p => by simp [pinResetState, State.reset, PortIndex.small, PortIndex.empty]
      services := by simp [pinResetState, State.reset]
      events := by simp [pinResetState, State.reset]
      entitlements := by simp [pinResetState, State.reset]
      groups := by simp [pinResetState, State.reset]
      log := by simp [pinResetState, State.reset]
      locked := by simp [pinResetState, State.reset]
      grants := by simp [pinResetState, State.reset]
      presentation := fun o => by simp [pinResetState, State.reset, Output.initial]
      capture := by simp [pinResetState, State.reset]
      notices := by simp [pinResetState, State.reset]
      table := fixedTable_sound
      assemblies := fixedTable_assemblies
      deliveries := fun d h => by simp [pinResetState, State.reset] at h
      markers := fun o m h => by simp [pinResetState, State.reset, Output.initial] at h
      tracking := tracksRunning_nil _
      tracked := by simp [pinResetState, State.reset] }
  links _ := ⟨by simp [pinResetState, State.reset], by simp [pinResetState, State.reset]⟩
  drains _ := drainsAgree_empty _ _ _ (fun c => by simp [pinResetState, State.reset])
    (fun o => by simp [pinResetState, State.reset, Output.initial]) (fun c => by simp [pinResetState, State.reset])
  idents _ := identities_empty _ fun c => by simp [pinResetState, State.reset]
  keys _ := fun k x h => by simp [pinResetState, State.reset] at h

/-- The part with its RESTART values, before READY is placed. -/
theorem restartValues_carries (s : State) :
    Carries s
      { s with
        intake := restartIntake s.intake
        table := fixedTable
        sections := restartSections s.sections
        clock := restartClock s.clock
        guide := restartGuide s.guide
        access := restartAccess s.access
        ctl := restartCtl s.ctl
        parental := { s.parental with grants := [] }
        out := restartOut s.out
        notices := { queue := [], missed := false }
        mgmt := restartMgmt } where
  blocks _ := by rfl
  table _ := fixedTable_sound
  lists h :=
    { forming := h.forming
      order := fixedTable_ordered
      users := UsersOrdered.length fixedTable_ordered
      contexts := fun c => by simp [restartCtl, contextEmpty_small]
      ratings := h.ratings
      windows := h.windows
      share := fun c => by simp [restartOut]
      seen := fun f x hx => by simp [restartSections] at hx
      index := fun p => by simp [restartGuide, PortIndex.small, PortIndex.empty]
      services := h.services
      events := h.events
      entitlements := h.entitlements
      groups := h.groups
      log := h.log
      locked := h.locked
      grants := by simp
      presentation := fun o => by simp [restartOut, restartOutput, Output.initial]
      capture := by simp [restartOut]
      notices := by simp
      table := fixedTable_sound
      assemblies := fixedTable_assemblies
      deliveries := fun d h => by simp [restartSections] at h
      markers := fun o m h => by simp [restartOut, restartOutput, Output.initial] at h
      tracking := tracksRunning_nil _
      tracked := by simp [restartGuide] }
  links _ := ⟨by simp [restartMgmt], by simp [restartMgmt]⟩
  drains _ := drainsAgree_empty _ _ _ (fun c => by simp [restartCtl])
    (fun o => by simp [restartOut, restartOutput, Output.initial]) (fun c => by simp [restartOut])
  idents _ := identities_empty _ fun c => by simp [restartCtl]
  keys _ := fun k x h => by simp [restartAccess] at h

theorem restartEffect_carries (s : State) : Carries s (restartEffect s) := by
  unfold restartEffect
  split
  · exact (restartValues_carries s).next (Kept.refl _).placeReady
  · exact Carries.refl s

end Sys2Proof.Machine
end

