-- ==== Sys2Proof/Laws/Orders.lean ====
section
/-! SUPPORT. What each order keeps, and what the decoding of order packets carries over. -/

namespace Sys2Proof.Machine

theorem supersede_context {o : OutputNo} {b c : CtxNo} {s : State} (h : hasDestination s c = true) :
    (supersede o b s).context c = s.context c := by
  have hd : hasDestination (offer (.superseded o b (s.context b).input (s.context b).service) s) c =
      hasDestination s c := by
    simp [hasDestination, State.isCurrent, State.isPending, State.binding, State.tag]
  unfold supersede
  rw [retireIfUnbound_context _ _ _ (by rw [hd]; exact h)]
  exact context_of_contexts (offer_ctl_contexts _ _) c

/-- What is pending on an output stays so when hold sets are judged again. -/
theorem rejudge_isPending (w : Which) (p : CtxNo → Bool) (o : OutputNo) (c : CtxNo) (s : State) :
    (rejudge w p s).isPending o c = s.isPending o c := by
  have hb : ∀ (s : State) (k : OutputNo) (x : OutBind), x.pending.map PendingBinding.ctx = (s.binding k).pending.map PendingBinding.ctx →
      (s.setBinding k x).isPending o c = s.isPending o c := by
    intro s k x h
    by_cases hk : k = o
    · subst hk
      cases hx : x.pending <;> cases hy : (s.binding k).pending <;>
        simp_all [State.isPending, State.binding]
    · simp [State.isPending, State.binding, hk]
  have hn : ∀ (s : State) (n : Notice), (offer n s).isPending o c = s.isPending o c := by
    intro s n
    simp [State.isPending, State.binding]
  have h1 : ∀ (s : State) (k : OutputNo), (rejudgeOutput w p k s).isPending o c = s.isPending o c := by
    intro s k
    have hc : (rejudgeCurrent w p k s).isPending o c = s.isPending o c := by
      unfold rejudgeCurrent
      split
      · rfl
      · dsimp only
        split
        · exact (hn _ _).trans (hb _ _ _ rfl)
        · rfl
    rw [rejudgeOutput, ← hc]
    unfold rejudgePending
    split
    · rfl
    · next b h =>
      split
      · exact hb _ _ _ (by simp [h])
      · rfl
  have h2 : ∀ (s : State) (k : TagNo), (rejudgeTag w p k s).isPending o c = s.isPending o c := by
    intro s k
    unfold rejudgeTag
    split
    · rfl
    · rfl
    · dsimp only
      split
      · split
        · exact (hn _ _).trans rfl
        · rfl
      · rfl
  unfold rejudge
  rw [foldl_inv (g := fun s : State => s.isPending o c) h2, foldl_inv (g := fun s : State => s.isPending o c) h1]

/-- The context bound stays as it is while the one it replaces may retire. -/
theorem bindPending_context (o : OutputNo) (c : CtxNo) (s : State) : (bindPending o c s).context c = s.context c := by
  unfold bindPending
  dsimp only
  split
  · exact context_of_contexts (rejudge_contexts _ _ _) c
  · rw [supersede_context]
    · exact context_of_contexts (rejudge_contexts _ _ _) c
    · refine hasDestination_pending (o := o) ?_
      rw [rejudge_isPending]
      simp [State.isPending, State.binding]

@[simp] theorem rejudgeOutput_grants (w : Which) (p : CtxNo → Bool) (o : OutputNo) (s : State) :
    (rejudgeOutput w p o s).parental.grants = s.parental.grants := by
  have h1 : ∀ s, (rejudgePending w p o s).parental.grants = s.parental.grants := by
    intro s
    unfold rejudgePending
    split
    · rfl
    · split <;> rfl
  rw [rejudgeOutput, h1]
  unfold rejudgeCurrent
  split
  · rfl
  · dsimp only
    split
    · simp
    · rfl

namespace Keeps

variable {σ : Type} {κ : Standing → σ} {a s : State}

/-! ### Section engine -/

theorem addFilterPins (h : Keeps κ a s) (f : FilterNo) (st : Nat) (l : List Input) :
    Keeps κ a (addFilterPins f st l s).2.2 := by
  induction l generalizing s with
  | nil => exact h
  | cons i l ih =>
    have ha := h.addUser i st .sections (.pin (.filter f))
    unfold Machine.addFilterPins
    split
    · next s' he => rw [he] at ha; exact ih ha
    · next r s' _ he => rw [he] at ha; exact ha

theorem removeFilterPins (h : Keeps κ a s) (f : FilterNo) (st : Nat) (l : List Input) :
    Keeps κ a (removeFilterPins f st l s) :=
  h.foldl (fun _ i h => h.removePin i st _) l

theorem installFilter (h : Keeps κ a s) (f : FilterNo) (x : Filter) (hx : x.seen = []) :
    Keeps κ a (installFilter f x s).2 := by
  have h1 := h.addFilterPins f x.stream (filterInputs x.port x.stream)
  unfold Machine.installFilter
  split
  · next l s' he =>
    rw [he] at h1
    dsimp only
    refine Keeps.setFilter ?_ f _ fun y hy => by obtain rfl := Option.some.inj hy; simp [hx]
    split
    · exact h1.removeFilterPins f _ _
    · exact h1
  · next r l s' _ he => rw [he] at h1; exact h1.removeFilterPins f _ _

theorem takeSetFilter (h : Keeps κ a s) (f p : Byte) (st : Word16) (pat m : Vector Byte 6) (o : Byte) :
    Keeps κ a (takeSetFilter f p st pat m o s).2 := by
  unfold Machine.takeSetFilter
  split
  · split
    · exact h.installFilter _ _ rfl
    · exact h
  · exact h

theorem takeClearFilter (h : Keeps κ a s) (f : Byte) : Keeps κ a (takeClearFilter f s).2 := by
  unfold Machine.takeClearFilter
  split
  · exact h
  · split
    · exact h
    · exact (h.removeFilterPins _ _ _).setFilter _ _ (by simp)

theorem takeSetDelivery (h : Keeps κ a s)
    (hκ : ∀ t v w, κ { t with trigger := v, timeout := w } = κ t) (t : Byte) (ms : Word16) : Keeps κ a (takeSetDelivery t ms s).2 := by
  unfold Machine.takeSetDelivery
  split
  · refine Keeps.judgeDelivery ?_
    exact { h with standing := (hκ s.standing _ _).trans h.standing }
  · exact h

theorem takeQueryEntry (h : Keeps κ a s) (p : Byte) (st : Word16) : Keeps κ a (takeQueryEntry p st s).2 := by
  unfold Machine.takeQueryEntry
  split
  · exact h
  · split
    · exact h
    · split <;> exact h

/-! ### Sources -/

theorem unpin (h : Keeps κ a s) (c : PinConsumer) (old : Option (PortNo × Nat)) : Keeps κ a (unpin c old s) := by
  unfold Machine.unpin
  split
  · exact h.removePin _ _ _
  · exact h

theorem changeSource (h : Keeps κ a s) (c : PinConsumer) (old : Option (PortNo × Nat))
    {put : Option (PortNo × Nat) → State → State} (hp : ∀ x s, Keeps κ a s → Keeps κ a (put x s)) (param : SourceParam) :
    Keeps κ a (changeSource c old put param s).2 := by
  unfold Machine.changeSource
  split
  · exact hp _ _ (h.unpin c old)
  · split
    · exact h
    · next x _ =>
      split
      · exact h
      · have h1 := h.addUser (inputOf x.1) x.2 .sections (.pin c)
        split
        · next s' he => rw [he] at h1; exact hp _ _ (h1.unpin c old)
        · next s' _ he => rw [he] at h1; exact h1

theorem takeSetSourceTime (h : Keeps κ a s) (hκ : ∀ t v, κ { t with timeSource := v } = κ t)
    (x : SourceParam) : Keeps κ a (takeSetSourceTime x s).2 :=
  h.changeSource .time s.clock.source (put := putTimeSource)
    (fun _ s h => { h with standing := (hκ s.standing _).trans h.standing }) x

theorem takeSetSourceGuide (h : Keeps κ a s) (hκ : ∀ t v, κ { t with guideSource := v } = κ t)
    (x : SourceParam) : Keeps κ a (takeSetSourceGuide x s).2 :=
  h.changeSource .guide s.guide.source (put := putGuideSource)
    (fun _ s h => { h with standing := (hκ s.standing _).trans h.standing }) x

theorem takeSetSourceAccess (h : Keeps κ a s) (hκ : ∀ t v, κ { t with accessSources := v } = κ t) (k : Byte) (x : SourceParam) : Keeps κ a (takeSetSourceAccess k x s).2 := by
  unfold Machine.takeSetSourceAccess
  split
  · exact h
  · next k' _ =>
    dsimp only
    split
    · exact h
    · exact h.changeSource .access (getAt s.access.sources k') (put := putAccessSource k')
        (fun _ s h => { h with standing := (hκ s.standing _).trans h.standing }) x

theorem takeQueryGuideService (h : Keeps κ a s) (p : Byte) (sv : Word16) : Keeps κ a (takeQueryGuideService p sv s).2 := by
  unfold Machine.takeQueryGuideService
  split
  · exact h
  · split <;> exact h

/-! ### Access engine -/

theorem takeSetHomeNetwork (h : Keeps κ a s) (hκ : ∀ t v, κ { t with home := v } = κ t)
    (n : Word16) : Keeps κ a (takeSetHomeNetwork n s).2 := by
  unfold Machine.takeSetHomeNetwork
  split
  · exact h
  · exact { h with standing := (hκ s.standing _).trans h.standing }

theorem takeReadExceptions (h : Keeps κ a s) (f : Byte) : Keeps κ a (takeReadExceptions f s).2 := by
  unfold Machine.takeReadExceptions
  split <;> exact h

theorem takeClearExceptions (h : Keeps κ a s) (n : Byte) : Keeps κ a (takeClearExceptions n s).2 := by
  unfold Machine.takeClearExceptions
  split
  · exact h
  · exact h.setLog _ _ fun hl => by rw [List.length_drop]; omega

theorem takeQuerySlotSlot (h : Keeps κ a s) (k : Byte) : Keeps κ a (takeQuerySlotSlot k s).2 := by
  unfold Machine.takeQuerySlotSlot
  split
  · exact h
  · split <;> exact h

theorem takeQuerySlotInput (h : Keeps κ a s) (k : Byte) : Keeps κ a (takeQuerySlotInput k s).2 := by
  unfold Machine.takeQuerySlotInput
  split <;> exact h

/-! ### Context controller -/

/-- A FREE context is allocated under an identity that no live context has (R99, R101). -/
theorem allocate (h : Keeps κ a s) (c : CtxNo) (x : Context) (hf : freeCtx s = some c)
    (hn : findContext x.input x.service s = none) (hd : x.drain = 0) (hm : x.small) :
    Keeps κ a (s.setContext c x) := by
  have hfree : (s.context c).state = .free := by
    have := List.find?_some hf
    simpa using this
  have hno : ∀ d, (getAt s.ctl.contexts d).live → (getAt s.ctl.contexts d).input = x.input →
      (getAt s.ctl.contexts d).service = x.service → False := by
    intro d hl hi hv
    have := List.find?_eq_none.1 hn d (by fin_cases d <;> decide)
    simp only [Bool.and_eq_true, bne_iff_ne, ne_eq, beq_iff_eq] at this
    exact this ⟨⟨⟨hl.1, hl.2⟩, hi⟩, hv⟩
  exact { h with
    contexts := fun y => (h.contexts y).setAt c x fun _ => hm
    tracking := fun y => (h.tracking y).setAt_same c x fun hr => by
      have hs : (s.context c).state = .running := hr
      rw [hfree] at hs
      cases hs
    drains := fun y => by
      have hy := h.drains y
      refine ⟨fun d => ?_, hy.capture, fun d => ?_⟩
      · simp only [setContext_ctl_contexts, getAt_setAt]
        split
        · next hc => subst hc; rw [hd, ← hy.free c hfree]; exact hy.drain c
        · exact hy.drain d
      · simp only [setContext_ctl_contexts, getAt_setAt]
        split
        · exact fun _ => hd
        · exact hy.free d
    idents := fun y d e hdl hel => by
      have hy := h.idents y
      simp only [setContext_ctl_contexts, getAt_setAt] at hdl hel ⊢
      split at hdl <;> split at hel
      · next h1 h2 => intros; exact h1.symm.trans h2
      · next h1 h2 =>
        subst h1
        simp only [if_true, if_neg h2]
        exact fun hi hv => (hno e hel hi.symm hv.symm).elim
      · next h1 h2 =>
        subst h2
        simp only [if_true, if_neg h1]
        exact fun hi hv => (hno d hdl hi hv).elim
      · next h1 h2 =>
        simp only [if_neg h1, if_neg h2]
        exact hy d e hdl hel }

theorem tuneTo (h : Keeps κ a s) (o : OutputNo) (i : Input) (sv : Nat) : Keeps κ a (tuneTo o i sv s).2 := by
  unfold Machine.tuneTo
  split
  · exact h.dropSuperseded o
  split
  · exact h
  split
  · exact h.bindPending o _
  · next hn =>
    split
    · exact h
    · next c hf =>
      exact ((h.allocate c (allocated s c i sv .locate) hf hn rfl (.empty rfl rfl rfl)).bindPending o c).locate c

theorem takeTune (h : Keeps κ a s) (o p : Byte) (sv : Word16) : Keeps κ a (takeTune o p sv s).2 := by
  unfold Machine.takeTune
  split
  · exact h.tuneTo _ _ _
  · exact h

theorem captureTo (h : Keeps κ a s) (t : TagNo) (i : Input) (sv : Nat) : Keeps κ a (captureTo t i sv s).2 := by
  unfold Machine.captureTo
  split
  · dsimp only
    exact h.bindTag t _
  · next hn =>
    split
    · exact h
    · next c hf =>
      dsimp only
      exact ((h.allocate c (allocated s c i sv .locate) hf hn rfl (.empty rfl rfl rfl)).bindTag t c).locate c

theorem takeCapture (h : Keeps κ a s) (t p : Byte) (sv : Word16) : Keeps κ a (takeCapture t p sv s).2 := by
  unfold Machine.takeCapture
  split
  · split
    · exact h.captureTo _ _ _
    · exact h
    · exact h
  · exact h

theorem setPlay (h : Keeps κ a s) (c : CtxNo) (x : PlayInfo) (hx : x.ratings.length ≤ 3) : Keeps κ a (setPlay c x s) :=
  (h.setContext c { s.context c with play := some x } (CtxStep.same rfl rfl rfl rfl
    fun hs => ⟨hs.components, hs.ratings, fun y hy => by obtain rfl := Option.some.inj hy; exact hx⟩)).rejudgeVerdicts _

theorem playTo (h : Keeps κ a s) (o : OutputNo) (tag : Nat) (x : PlayInfo) (hx : x.ratings.length ≤ 3) :
    Keeps κ a (playTo o tag x s).2 := by
  unfold Machine.playTo
  split
  · exact h.dropSuperseded o
  split
  · dsimp only
    split
    · exact h.setPlay _ _ hx
    · exact (h.setPlay _ _ hx).bindPending o _
  · next hn =>
    split
    · exact h
    · next c hf =>
      have h1 := (h.allocate c
        { allocated s c pb tag .map with play := some x, mapStream := some (captureStream tag 0) } hf hn
        rfl ⟨by simp [allocated, Context.empty], by simp [allocated, Context.empty],
          fun y hy => by obtain rfl := Option.some.inj hy; exact hx⟩).bindPending o c
      refine h1.enterMap c _ ?_
      rw [bindPending_context, setContext_context, if_pos rfl]
      simp [CtxState.acquiring, allocated]

theorem takePlay (h : Keeps κ a s) (o t x : Byte) (rs : List (Byte × Byte)) : Keeps κ a (takePlay o t x rs s).2 := by
  unfold Machine.takePlay
  split
  · split
    · exact h
    · next hr =>
      simp only [Bool.or_eq_true, decide_eq_true_eq, not_or, Nat.not_lt] at hr
      exact h.playTo _ _ _ (by simpa using hr.1)
  · exact h

theorem takeReleaseOutput (h : Keeps κ a s) (o : Byte) : Keeps κ a (takeReleaseOutput o s).2 := by
  unfold Machine.takeReleaseOutput
  split
  · exact h
  · dsimp only
    split
    · exact h
    · refine Keeps.foldl (fun _ c h => h.retireIfUnbound c) ?_ _
      split
      · exact (h.setBinding _ _).endGrants _ _
      · exact h.setBinding _ _

theorem takeReleaseTag (h : Keeps κ a s) (t : Byte) : Keeps κ a (takeReleaseTag t s).2 := by
  unfold Machine.takeReleaseTag
  split
  · exact h
  · split
    · exact h
    · exact h
    · exact (h.setTag _ _).retireIfUnbound _

theorem takeSetAcquisitionLimit (h : Keeps κ a s) (hκ : ∀ t v, κ { t with limit := v } = κ t)
    (ms : Word16) : Keeps κ a (takeSetAcquisitionLimit ms s).2 :=
  { h with standing := (hκ s.standing _).trans h.standing }

theorem takeQueryContext (h : Keeps κ a s) (c : Byte) : Keeps κ a (takeQueryContext c s).2 := by
  unfold Machine.takeQueryContext
  split <;> exact h

theorem takeQueryPort (h : Keeps κ a s) (i : Byte) : Keeps κ a (takeQueryPort i s).2 := by
  unfold Machine.takeQueryPort
  split <;> exact h

/-! ### Parental unit -/

theorem pinCheck (h : Keeps κ a s) (hp : ∀ t v, κ { t with profiles := v } = κ t)
    (q : ProfileNo) (pin : Pin) : Keeps κ a (pinCheck q pin s).2 := by
  unfold Machine.pinCheck
  dsimp only
  split
  · exact h
  split
  · exact h
  split
  · exact h.setProfile hp q _ fun hw => hw
  split
  · exact (h.setProfile hp q { s.profile q with failures := 0, lockoutEnd := some (s.clock.uptime + 600) }
      fun hw => hw).offer _
  · exact h.setProfile hp q _ fun hw => hw

theorem afterCheck (h : Keeps κ a s) (hp : ∀ t v, κ { t with profiles := v } = κ t)
    (q : ProfileNo) (pin : Option Pin) {f : State → Reply × State}
    (hf : ∀ s, Keeps κ a s → Keeps κ a (f s).2) : Keeps κ a (afterCheck q pin f s).2 := by
  unfold Machine.afterCheck
  split
  · exact h
  · have h1 := h.pinCheck hp q ‹Pin›
    split
    · next s' he => rw [he] at h1; exact hf _ h1
    · next s' _ he => rw [he] at h1; exact h1

theorem gated (h : Keeps κ a s) (hp : ∀ t v, κ { t with profiles := v } = κ t)
    (q : ProfileNo) (pin : Option Pin) {f : State → Reply × State}
    (hf : ∀ s, Keeps κ a s → Keeps κ a (f s).2) : Keeps κ a (gated q pin f s).2 := by
  unfold Machine.gated
  split
  · exact h
  split
  · exact h.afterCheck hp q pin hf
  · exact hf _ h

theorem loadRow (h : Keeps κ a s) (hκ : ∀ t v, κ { t with ratings := v } = κ t)
    (k : Fin 8) (l : Vector Byte 64) : Keeps κ a (loadRow k l s) :=
  Keeps.rejudgeVerdicts (s := { s with parental :=
    { s.parental with table := setAt s.parental.table k (l.map BitVec.toNat) } }) 
    { h with standing := (hκ s.standing _).trans h.standing } _

theorem takeLoadRatingRow (h : Keeps κ a s) (hκ : ∀ t v, κ { t with ratings := v } = κ t)
    (hp : ∀ t v, κ { t with profiles := v } = κ t)
    (k : Byte) (l : Vector Byte 64) (pin : Option Pin) :
    Keeps κ a (takeLoadRatingRow k l pin s).2 := by
  unfold Machine.takeLoadRatingRow
  split
  · exact h
  · split
    · exact h.gated hp 0 pin fun _ h => h.loadRow hκ _ _
    · exact h

theorem rejudgeProfile (h : Keeps κ a s) (p : ProfileNo) : Keeps κ a (rejudgeProfile p s) :=
  h.foldl (fun _ o h => h.rejudgePairs o) _

theorem takeSetProfile (h : Keeps κ a s) (hp : ∀ t v, κ { t with profiles := v } = κ t)
    (p : Byte) (lim : Vector Byte 8) (u ad tu : Byte)
    (ws : List (Word16 × Word16)) (pin : Option Pin) : Keeps κ a (takeSetProfile p lim u ad tu ws pin s).2 := by
  unfold Machine.takeSetProfile
  split
  · exact h
  · split
    · next hw =>
      simp only [Bool.and_eq_true, decide_eq_true_eq] at hw
      exact h.gated hp _ pin fun _ h => (h.setProfile hp _ _ fun _ => by simpa using hw.1.2).rejudgeProfile _
    · exact h

theorem takeSetPin (h : Keeps κ a s) (hp : ∀ t v, κ { t with profiles := v } = κ t)
    (p : Byte) (pin new : Option Pin) : Keeps κ a (takeSetPin p pin new s).2 := by
  unfold Machine.takeSetPin
  split
  · exact h
  · dsimp only
    split
    · exact h
    split
    · exact h.afterCheck hp _ pin fun _ h => h.setProfile hp _ _ fun hw => hw
    split
    · exact h.afterCheck hp _ pin fun _ h => h.setProfile hp _ _ fun hw => hw
    · exact h.setProfile hp _ _ fun hw => hw

theorem bindProfileTo (h : Keeps κ a s) (hκ : ∀ t v, κ { t with bound := v } = κ t)
    (o : OutputNo) (p : Option ProfileNo) : Keeps κ a (bindProfileTo o p s) :=
  (Keeps.endGrants (s := { s with parental := { s.parental with binding := setAt s.parental.binding o p } })
    { h with standing := (hκ s.standing _).trans h.standing } _ _).rejudgePairs o

theorem takeBindProfile (h : Keeps κ a s) (hκ : ∀ t v, κ { t with bound := v } = κ t)
    (hp : ∀ t v, κ { t with profiles := v } = κ t)
    (o p : Byte) (pin : Option Pin) : Keeps κ a (takeBindProfile o p pin s).2 := by
  unfold Machine.takeBindProfile
  split
  · refine h.gated hp _ pin fun _ h => ?_
    dsimp only
    split
    · exact h
    · exact h.bindProfileTo hκ _ _
  · exact h

theorem rejudgeService (h : Keeps κ a s) (n : Nat) : Keeps κ a (rejudgeService n s) := h.rejudgeVerdicts _

theorem takeLockService (h : Keeps κ a s) (hκ : ∀ t v, κ { t with locked := v } = κ t)
    (hp : ∀ t v, κ { t with profiles := v } = κ t)
    (sv : Word16) (m : Byte) (pin : Option Pin) :
    Keeps κ a (takeLockService sv m pin s).2 := by
  unfold Machine.takeLockService
  split
  · exact h
  · refine h.gated hp 0 pin fun s h => ?_
    dsimp only
    split
    · exact (h.setLocked hκ _ fun hl => by simpa using hl).rejudgeService _
    split
    · exact (h.setLocked hκ _ fun _ => by simp only [List.length_append, List.length_singleton]; omega).rejudgeService _
    · exact h

theorem takeUnlockService (h : Keeps κ a s) (hκ : ∀ t v, κ { t with locked := v } = κ t)
    (hp : ∀ t v, κ { t with profiles := v } = κ t)
    (sv : Word16) (pin : Option Pin) :
    Keeps κ a (takeUnlockService sv pin s).2 := by
  unfold Machine.takeUnlockService
  refine h.gated hp 0 pin fun s h => ?_
  dsimp only
  split
  · exact (h.setLocked hκ _ fun hl => (List.length_filter_le _ _).trans hl).rejudgeService _
  · exact h

/-- The grants are set to a list whose size follows from the size before the command. -/
theorem setGrants_of (h : Keeps κ a s) (l : List Grant) (hl : a.parental.grants.length ≤ 8 → l.length ≤ 8) :
    Keeps κ a (s.setGrants l) :=
  { h with grants := hl }

theorem placeGrant (h : Keeps κ a s) (g : Grant) : Keeps κ a (placeGrant g s) := by
  unfold Machine.placeGrant
  dsimp only
  refine Keeps.rejudgePairs ?_ _
  split
  · next hs =>
    obtain ⟨x, hx, hxs⟩ := List.any_eq_true.1 hs
    have hlt := length_filter_lt (p := fun x => !x.serves g.output g.key g.profile) hx (by simp [hxs])
    refine h.setGrants_of (s.parental.grants.filter (fun x => !x.serves g.output g.key g.profile) ++ [g]) fun hl => ?_
    have := h.grants hl
    simp only [List.length_append, List.length_singleton]
    omega
  · split
    · split
      · exact h.setGrants _ fun _ => by simp_all
      · next old rest he =>
        have hr : a.parental.grants.length ≤ 8 → rest.length + 1 ≤ 8 := fun hl => by
          have := h.grants hl
          rwa [he, List.length_cons] at this
        have h1 := (((h.setGrants_of rest fun hl => by have := hr hl; omega).offer
          (.grantEnd old.output old.key old.profile .displaced)).rejudgePairs old.output)
        refine h1.setGrants_of _ fun hl => ?_
        have hg : (Machine.rejudgePairs old.output (Machine.offer (.grantEnd old.output old.key old.profile .displaced)
            (s.setGrants rest))).parental.grants = rest := by
          rw [Machine.rejudgePairs, rejudgeOutput_grants, offer_parental]
          rfl
        rw [hg, List.length_append]
        exact hr hl
    · exact h.setGrants _ fun _ => by simp only [List.length_append, List.length_singleton]; omega

theorem unlockWith (h : Keeps κ a s) (hp : ∀ t v, κ { t with profiles := v } = κ t)
    (o : OutputNo) (pin : Pin) (m : Option Nat) (b : Bool) :
    Keeps κ a (unlockWith o pin m b s).2 := by
  unfold Machine.unlockWith
  split
  · next p _ _ =>
    have h1 := h.pinCheck hp p pin
    split
    · next s' he => rw [he] at h1; exact h1.placeGrant _
    · next s' _ he => rw [he] at h1; exact h1
  · exact h

theorem takeUnlock (h : Keeps κ a s) (hp : ∀ t v, κ { t with profiles := v } = κ t)
    (o : Byte) (pin : Pin) (sc : Byte) (m : Word16) :
    Keeps κ a (takeUnlock o pin sc m s).2 := by
  unfold Machine.takeUnlock
  split
  · exact h
  split
  · exact h
  split
  · exact h.unlockWith hp _ _ _ _
  split
  · exact h.unlockWith hp _ _ _ _
  · exact h

theorem takeRevokeGrants (h : Keeps κ a s) (o : Byte) : Keeps κ a (takeRevokeGrants o s).2 := by
  unfold Machine.takeRevokeGrants
  split
  · exact h.endGrantsAndJudge _ _
  · exact h

theorem takeLockParental (h : Keeps κ a s) (hκ : ∀ t v, κ { t with parentalLock := v } = κ t)
    : Keeps κ a (takeLockParental s).2 := by
  unfold Machine.takeLockParental
  split
  · exact h
  split
  · exact h
  · exact { h with standing := (hκ s.standing _).trans h.standing }

/-! ### Output unit -/

theorem takeSetOutputRate (h : Keeps κ a s) (hκ : ∀ t v, κ { t with pacing := v } = κ t)
    (o : Byte) (r : Word16) : Keeps κ a (takeSetOutputRate o r s).2 := by
  unfold Machine.takeSetOutputRate
  split
  · exact h
  · dsimp only
    unfold setRate
    split
    · exact h
    · exact h.setOutput_paced hκ _ _ (by rfl)

theorem takeQueryOutput (h : Keeps κ a s) (o : Byte) : Keeps κ a (takeQueryOutput o s).2 := by
  unfold Machine.takeQueryOutput
  split
  · exact h
  · exact h.setOutput_same _ _ (by rfl) (by rfl)

theorem takeQueryCapture (h : Keeps κ a s) (t : Byte) : Keeps κ a (takeQueryCapture t s).2 := by
  unfold Machine.takeQueryCapture
  split
  · exact h
  · exact h.setCaptureRec _ _

end Keeps

/-! ### Every order -/

/-- An order taken by its owner carries every invariant over and leaves the answers that wait. -/
structure OrderStep (s t : State) : Prop where
  carries : Carries s t
  answers : t.mgmt.answers = s.mgmt.answers

theorem Keeps.orderStep {s t : State} (h : Kept s t) : OrderStep s t :=
  ⟨h.carries, by rw [h.mgmt]⟩

theorem takeRestart_step (s : State) : OrderStep s (takeRestart s).2 :=
  ⟨Carries.setMgmt s _ id id, rfl⟩

theorem takeOrder_step (i : Instr) (s : State) : OrderStep s (takeOrder i s).2 := by
  have h := Kept.refl s
  unfold takeOrder
  split
  · exact (h.takeSetFilter _ _ _ _ _ _).orderStep
  · exact (h.takeClearFilter _).orderStep
  · exact (h.takeSetDelivery (fun _ _ _ => rfl) _ _).orderStep
  · exact (h.takeSetSourceGuide (fun _ _ => rfl) _).orderStep
  · exact (h.takeSetSourceTime (fun _ _ => rfl) _).orderStep
  · exact (h.takeSetSourceAccess (fun _ _ => rfl) _ _).orderStep
  · exact h.orderStep
  · exact (h.takeQueryGuideService _ _).orderStep
  · exact (h.takeSetHomeNetwork (fun _ _ => rfl) _).orderStep
  · exact (h.takeReadExceptions _).orderStep
  · exact (h.takeClearExceptions _).orderStep
  · exact (h.takeQuerySlotSlot _).orderStep
  · exact (h.takeQuerySlotInput _).orderStep
  · exact (h.takeTune _ _ _).orderStep
  · exact (h.takeCapture _ _ _).orderStep
  · exact (h.takePlay _ _ _ _).orderStep
  · exact (h.takeReleaseOutput _).orderStep
  · exact (h.takeReleaseTag _).orderStep
  · exact (h.takeSetAcquisitionLimit (fun _ _ => rfl) _).orderStep
  · exact (h.takeQueryContext _).orderStep
  · exact (h.takeQueryPort _).orderStep
  · exact (h.takeQueryEntry _ _).orderStep
  · exact (h.takeLoadRatingRow (fun _ _ => rfl) (fun _ _ => rfl) _ _ _).orderStep
  · exact (h.takeSetProfile (fun _ _ => rfl) _ _ _ _ _ _ _).orderStep
  · exact (h.takeSetPin (fun _ _ => rfl) _ _ _).orderStep
  · exact (h.takeBindProfile (fun _ _ => rfl) (fun _ _ => rfl) _ _ _).orderStep
  · exact (h.takeLockService (fun _ _ => rfl) (fun _ _ => rfl) _ _ _).orderStep
  · exact (h.takeUnlockService (fun _ _ => rfl) (fun _ _ => rfl) _ _).orderStep
  · exact (h.takeUnlock (fun _ _ => rfl) _ _ _ _).orderStep
  · exact (h.takeRevokeGrants _).orderStep
  · exact (h.takeLockParental (fun _ _ => rfl)).orderStep
  · exact (h.takeSetOutputRate (fun _ _ => rfl) _ _).orderStep
  · exact (h.takeQueryOutput _).orderStep
  · exact (h.takeQueryCapture _).orderStep
  · exact h.orderStep
  · exact takeRestart_step s
  all_goals exact h.orderStep

/-- An answer joins a queue that has room. -/
theorem pushAnswer_carries (code tag : Byte) (r : Reply) (s : State) (h : s.mgmt.answers.length < 16) :
    Carries s (pushAnswer code tag r s) :=
  Carries.setMgmt s _ (fun _ => by simp only [List.length_append, List.length_singleton]; omega) id

theorem handOver_carries (code tag : Byte) (take : State → Reply × State) (s : State)
    (h : OrderStep s (take s).2) : Carries s (handOver code tag take s) := by
  unfold handOver
  split
  · next hh =>
    simp only [State.handsOn, Bool.and_eq_true, decide_eq_true_eq] at hh
    exact h.carries.trans (pushAnswer_carries _ _ _ _ (by rw [h.answers]; exact hh.2))
  · exact Carries.refl s

theorem takeFramed_step (code tag : Byte) (params : List Byte) (s : State) :
    OrderStep s (takeFramed code tag params s).2 := by
  unfold takeFramed
  split
  · exact takeOrder_step _ s
  all_goals exact (Kept.refl s).orderStep

theorem decodeHead_carries (p : OrderPacket) (rest : List OrderPacket) (s : State)
    (hb : s.mgmt.buffer.length ≤ 4 → rest.length + 1 ≤ 4) : Carries s (decodeHead p rest s) := by
  have hr := setBuffer_carries s rest fun h => by have := hb h; omega
  unfold decodeHead
  split
  · exact hr
  · exact handOver_carries _ _ _ _ ⟨hr, rfl⟩
  · exact handOver_carries _ _ _ _ ⟨hr, rfl⟩
  · next code tag params _ =>
    refine handOver_carries _ _ _ _ ?_
    have h1 := takeFramed_step code tag params
      (s.setBuffer ({ p with position := p.position + 4 + params.length } :: rest))
    exact ⟨(setBuffer_carries s _ fun h => by have := hb h; simp only [List.length_cons]; omega).trans h1.carries,
      h1.answers⟩

theorem decodeNext_carries (s : State) : Carries s (decodeNext s) := by
  unfold decodeNext
  split
  · have h1 := pruneBuffer_carries s
    dsimp only
    split
    · exact h1
    · next p rest he =>
      refine (h1.trans (decodeHead_carries p rest _ fun h => ?_)).trans (pruneBuffer_carries _)
      rwa [he, List.length_cons] at h
  · exact Carries.refl s

end Sys2Proof.Machine
end

