-- ==== Sys2Proof/Laws/Frames.lean ====
section
/-! SUPPORT. What judging hold sets again changes: hold sets and HOLD notices, nothing else; and what the verdicts and SIGNAL
come to. -/

namespace Sys2Proof.Machine

theorem offer_join (n : Notice) (s : State) : offer n s = { s with notices := s.notices.join n } := by
  unfold offer NoticeQueue.join
  split <;> rfl

theorem joinAll_append (q : NoticeQueue) (l m : List Notice) : q.joinAll (l ++ m) = (q.joinAll l).joinAll m :=
  List.foldl_append

/-- A list of things that looks the same where one of them is replaced by one that looks the same. -/
theorem map_setAt {α β : Type} {n : Nat} (f : α → β) (v : Vector α n) (i : Fin n) (x : α) (h : f x = f (getAt v i)) :
    (setAt v i x).map f = v.map f := by
  refine Vector.ext fun j hj => ?_
  have h1 := getAt_setAt v i ⟨j, hj⟩ x
  simp only [getAt, Vector.get] at h1 h
  simp only [Vector.getElem_map]
  split at h1
  · next hi =>
    have : (setAt v i x)[j] = x := h1
    rw [this, h]
    subst hi
    rfl
  · have : (setAt v i x)[j] = v[j] := h1
    rw [this]

theorem setBinding_bare (s : State) (o : OutputNo) (x : OutBind) (h : x.bare = (s.binding o).bare) :
    (s.setBinding o x).bare = s.bare := by
  show State.mk .. = State.mk ..
  simp only [State.setBinding, map_setAt OutBind.bare _ _ _ h]

theorem setTag_bare (s : State) (t : TagNo) (x : TagRec) (h : x.bare = (s.tag t).bare) :
    (s.setTag t x).bare = s.bare := by
  show State.mk .. = State.mk ..
  simp only [State.setTag, map_setAt TagRec.bare _ _ _ h]

namespace HoldsOnly

variable {s t u : State}

theorem refl (s : State) : HoldsOnly s s := ⟨rfl, [], by simp, rfl⟩

theorem trans (h : HoldsOnly s t) (h' : HoldsOnly t u) : HoldsOnly s u := by
  obtain ⟨l, hl, e⟩ := h.notices
  obtain ⟨m, hm, f⟩ := h'.notices
  refine ⟨h'.bare.trans h.bare, l ++ m, ?_, ?_⟩
  · intro n hn
    rcases List.mem_append.1 hn with hn | hn
    · exact hl n hn
    · exact hm n hn
  · rw [f, e, joinAll_append]

theorem foldl {α : Type} {f : State → α → State} (hf : ∀ s x, HoldsOnly s (f s x)) (s : State) (l : List α) :
    HoldsOnly s (l.foldl f s) := by
  induction l generalizing s with
  | nil => exact refl s
  | cons x l ih => exact (hf s x).trans (ih _)

theorem setBinding (s : State) (o : OutputNo) (x : OutBind) (h : x.bare = (s.binding o).bare) :
    HoldsOnly s (s.setBinding o x) :=
  ⟨setBinding_bare s o x h, [], by simp, rfl⟩

theorem setTag (s : State) (t : TagNo) (x : TagRec) (h : x.bare = (s.tag t).bare) : HoldsOnly s (s.setTag t x) :=
  ⟨setTag_bare s t x h, [], by simp, rfl⟩

theorem offerHold (s : State) (d : Dest) (c : CtxNo) (h : HoldSet) : HoldsOnly s (offer (.hold d c h) s) := by
  rw [offer_join]
  exact ⟨rfl, [.hold d c h], by simp [Notice.isHold, Notice.kind], rfl⟩

/-- Everything but hold sets and notices is as it was. -/
theorem part {α : Type} (f : State → α) (hf : ∀ s : State, f s.bare = f s) (h : HoldsOnly s t) : f t = f s := by
  rw [← hf t, h.bare, hf]

theorem pending (h : HoldsOnly s t) : t.pending = s.pending := h.part State.pending fun _ => rfl
theorem time (h : HoldsOnly s t) : t.time = s.time := h.part State.time fun _ => rfl
theorem intake (h : HoldsOnly s t) : t.intake = s.intake := h.part State.intake fun _ => rfl
theorem table (h : HoldsOnly s t) : t.table = s.table := h.part State.table fun _ => rfl
theorem sections (h : HoldsOnly s t) : t.sections = s.sections := h.part State.sections fun _ => rfl
theorem clock (h : HoldsOnly s t) : t.clock = s.clock := h.part State.clock fun _ => rfl
theorem guide (h : HoldsOnly s t) : t.guide = s.guide := h.part State.guide fun _ => rfl
theorem access (h : HoldsOnly s t) : t.access = s.access := h.part State.access fun _ => rfl
theorem contexts (h : HoldsOnly s t) : t.ctl.contexts = s.ctl.contexts := h.part (·.ctl.contexts) fun _ => rfl
theorem limit (h : HoldsOnly s t) : t.ctl.limit = s.ctl.limit := h.part (·.ctl.limit) fun _ => rfl
theorem parental (h : HoldsOnly s t) : t.parental = s.parental := h.part State.parental fun _ => rfl
theorem out (h : HoldsOnly s t) : t.out = s.out := h.part State.out fun _ => rfl
theorem mgmt (h : HoldsOnly s t) : t.mgmt = s.mgmt := h.part State.mgmt fun _ => rfl
theorem link (h : HoldsOnly s t) : t.link = s.link := h.part State.link fun _ => rfl

/-- The part with the hold sets and the notices of `t` put in is `t`. -/
theorem eq (h : HoldsOnly s t) :
    t = { s with ctl := { s.ctl with outputs := t.ctl.outputs, tags := t.ctl.tags }, notices := t.notices } := by
  have hc : t.ctl = { s.ctl with outputs := t.ctl.outputs, tags := t.ctl.tags } := by
    show Ctl.mk t.ctl.contexts _ _ t.ctl.limit = _
    rw [h.contexts, h.limit]
  have e : t = State.mk t.pending t.time t.intake t.table t.sections t.clock t.guide t.access t.ctl t.parental t.out
      t.notices t.mgmt t.link := rfl
  rw [h.pending, h.time, h.intake, h.table, h.sections, h.clock, h.guide, h.access, hc, h.parental, h.out, h.mgmt,
    h.link] at e
  exact e

theorem rejudgeCurrent (w : Which) (p : CtxNo → Bool) (o : OutputNo) (s : State) :
    HoldsOnly s (rejudgeCurrent w p o s) := by
  unfold Machine.rejudgeCurrent
  split
  · exact refl s
  · next b hb =>
    dsimp only
    split
    · refine (setBinding s o _ ?_).trans (offerHold _ _ _ _)
      simp only [OutBind.bare, hb, Option.map_some]
    · exact refl s

theorem rejudgePending (w : Which) (p : CtxNo → Bool) (o : OutputNo) (s : State) :
    HoldsOnly s (rejudgePending w p o s) := by
  unfold Machine.rejudgePending
  split
  · exact refl s
  · next b hb =>
    split
    · refine setBinding s o _ ?_
      simp only [OutBind.bare, hb, Option.map_some]
    · exact refl s

theorem rejudgeOutput (w : Which) (p : CtxNo → Bool) (o : OutputNo) (s : State) : HoldsOnly s (rejudgeOutput w p o s) :=
  (rejudgeCurrent w p o s).trans (rejudgePending w p o _)

theorem rejudgeTag (w : Which) (p : CtxNo → Bool) (t : TagNo) (s : State) : HoldsOnly s (rejudgeTag w p t s) := by
  unfold Machine.rejudgeTag
  split
  · exact refl s
  · exact refl s
  · next c wait old ht =>
    dsimp only
    split
    · have h1 : HoldsOnly s (s.setTag t (.bound c wait (judged s w c (.tag t) old))) :=
        setTag s t _ (by rw [ht]; rfl)
      split
      · exact h1.trans (offerHold _ _ _ _)
      · exact h1
    · exact refl s

theorem rejudge (w : Which) (p : CtxNo → Bool) (s : State) : HoldsOnly s (rejudge w p s) :=
  (foldl (fun s o => rejudgeOutput w p o s) s _).trans (foldl (fun s t => rejudgeTag w p t s) _ _)

theorem rejudgeVerdicts (p : CtxNo → Bool) (s : State) : HoldsOnly s (rejudgeVerdicts p s) :=
  foldl (fun s o => rejudgeOutput judgeVerdict p o s) s _

theorem rejudgePairs (o : OutputNo) (s : State) : HoldsOnly s (rejudgePairs o s) := rejudgeOutput _ _ _ _

theorem rejudgeProfile (p : ProfileNo) (s : State) : HoldsOnly s (rejudgeProfile p s) :=
  foldl (fun s o => rejudgePairs o s) s _

theorem rejudgeService (service : Nat) (s : State) : HoldsOnly s (rejudgeService service s) := rejudgeVerdicts _ _

theorem signalReport (i : Input) (s : State) : HoldsOnly s (signalReport i s) := rejudge _ _ _

theorem tierReport (s : State) : HoldsOnly s (tierReport s) := rejudge _ _ _

end HoldsOnly

/-! ### What a hold set is judged from -/

/-- Hold sets and notices play no part in judging a hold set. -/
theorem judged_eq {s t : State} (h : HoldsOnly s t) (w : Which) (c : CtxNo) (d : Dest) (old : HoldSet) :
    judged t w c d old = judged s w c d old := by
  rw [h.eq]
  rfl

theorem verdict_eq {s t : State} (h : HoldsOnly s t) (c : CtxNo) (o : OutputNo) : verdict t c o = verdict s c o := by
  rw [h.eq]
  rfl

/-! ### What judging again leaves on each destination -/

theorem rejudgeCurrent_current (w : Which) (p : CtxNo → Bool) (o : OutputNo) (s : State) (b : Binding)
    (hb : (s.binding o).current = some b) :
    ((rejudgeCurrent w p o s).binding o).current =
      some (if p b.ctx then { b with hold := judged s w b.ctx (.output o) b.hold } else b) := by
  unfold rejudgeCurrent
  rw [hb]
  dsimp only
  split
  · next h =>
    have hp : p b.ctx = true := (Bool.and_eq_true_iff.1 h).1
    rw [offer_join, if_pos hp]
    show (getAt (setAt s.ctl.outputs o _) o).current = _
    rw [getAt_setAt, if_pos rfl]
  · next h =>
    rw [hb]
    split
    · next hp =>
      have : judged s w b.ctx (.output o) b.hold = b.hold := by
        by_contra hne
        exact h (Bool.and_eq_true_iff.2 ⟨hp, bne_iff_ne.2 hne⟩)
      rw [this]
    · rfl

theorem rejudgePending_pending (w : Which) (p : CtxNo → Bool) (o : OutputNo) (s : State) (b : PendingBinding)
    (hb : (s.binding o).pending = some b) :
    ((rejudgePending w p o s).binding o).pending =
      some (if p b.ctx then { b with hold := judged s w b.ctx (.output o) b.hold } else b) := by
  unfold rejudgePending
  rw [hb]
  dsimp only
  split
  · show (getAt (setAt s.ctl.outputs o _) o).pending = _
    rw [getAt_setAt, if_pos rfl]
  · exact hb

theorem rejudgeCurrent_pending (w : Which) (p : CtxNo → Bool) (o : OutputNo) (s : State) :
    ((rejudgeCurrent w p o s).binding o).pending = (s.binding o).pending := by
  unfold rejudgeCurrent
  split
  · rfl
  · dsimp only
    split
    · rw [offer_join]
      show (getAt (setAt s.ctl.outputs o _) o).pending = _
      rw [getAt_setAt, if_pos rfl]
    · rfl

theorem rejudgePending_current (w : Which) (p : CtxNo → Bool) (o : OutputNo) (s : State) :
    ((rejudgePending w p o s).binding o).current = (s.binding o).current := by
  unfold rejudgePending
  split
  · rfl
  · split
    · show (getAt (setAt s.ctl.outputs o _) o).current = _
      rw [getAt_setAt, if_pos rfl]
    · rfl

theorem rejudgeOutput_other (w : Which) (p : CtxNo → Bool) (o o' : OutputNo) (s : State) (h : o ≠ o') :
    (rejudgeOutput w p o s).binding o' = s.binding o' := by
  have h1 : ∀ s, (rejudgeCurrent w p o s).binding o' = s.binding o' := by
    intro s
    unfold rejudgeCurrent
    split
    · rfl
    · dsimp only
      split
      · rw [offer_join]
        show getAt (setAt s.ctl.outputs o _) o' = _
        rw [getAt_setAt, if_neg h]
        rfl
      · rfl
  have h2 : ∀ s, (rejudgePending w p o s).binding o' = s.binding o' := by
    intro s
    unfold rejudgePending
    split
    · rfl
    · split
      · show getAt (setAt s.ctl.outputs o _) o' = _
        rw [getAt_setAt, if_neg h]
        rfl
      · rfl
  rw [rejudgeOutput, h2, h1]

/-- One output judged again: each of its bindings has its hold set judged where its context meets the test. -/
theorem rejudgeOutput_current (w : Which) (p : CtxNo → Bool) (o : OutputNo) (s : State) (b : Binding)
    (hb : (s.binding o).current = some b) :
    ((rejudgeOutput w p o s).binding o).current =
      some (if p b.ctx then { b with hold := judged s w b.ctx (.output o) b.hold } else b) := by
  rw [rejudgeOutput, rejudgePending_current, rejudgeCurrent_current w p o s b hb]

theorem rejudgeOutput_pending (w : Which) (p : CtxNo → Bool) (o : OutputNo) (s : State) (b : PendingBinding)
    (hb : (s.binding o).pending = some b) :
    ((rejudgeOutput w p o s).binding o).pending =
      some (if p b.ctx then { b with hold := judged s w b.ctx (.output o) b.hold } else b) := by
  rw [rejudgeOutput, rejudgePending_pending w p o _ b ((rejudgeCurrent_pending w p o s).trans hb),
    judged_eq (HoldsOnly.rejudgeCurrent w p o s)]

theorem rejudgeOutput_tags (w : Which) (p : CtxNo → Bool) (o : OutputNo) (s : State) :
    (rejudgeOutput w p o s).ctl.tags = s.ctl.tags := by
  have h1 : ∀ s, (rejudgeCurrent w p o s).ctl.tags = s.ctl.tags := by
    intro s
    unfold rejudgeCurrent
    split
    · rfl
    · dsimp only
      split
      · rw [offer_join]; rfl
      · rfl
  have h2 : ∀ s, (rejudgePending w p o s).ctl.tags = s.ctl.tags := by
    intro s
    unfold rejudgePending
    split
    · rfl
    · split <;> rfl
  rw [rejudgeOutput, h2, h1]

theorem rejudgeTag_other (w : Which) (p : CtxNo → Bool) (t t' : TagNo) (s : State) (h : t ≠ t') :
    (rejudgeTag w p t s).tag t' = s.tag t' := by
  unfold rejudgeTag
  split
  · rfl
  · rfl
  · dsimp only
    split
    · split
      · rw [offer_join]
        show getAt (setAt s.ctl.tags t _) t' = _
        rw [getAt_setAt, if_neg h]; rfl
      · show getAt (setAt s.ctl.tags t _) t' = _
        rw [getAt_setAt, if_neg h]; rfl
    · rfl

theorem rejudgeTag_outputs (w : Which) (p : CtxNo → Bool) (t : TagNo) (s : State) :
    (rejudgeTag w p t s).ctl.outputs = s.ctl.outputs := by
  unfold rejudgeTag
  split
  · rfl
  · rfl
  · dsimp only
    split
    · split
      · rw [offer_join]; rfl
      · rfl
    · rfl

theorem rejudgeTag_tag (w : Which) (p : CtxNo → Bool) (t : TagNo) (s : State) (c : CtxNo) (x : Option Nat) (h : HoldSet)
    (hb : s.tag t = .bound c x h) :
    (rejudgeTag w p t s).tag t = .bound c x (if p c then judged s w c (.tag t) h else h) := by
  unfold rejudgeTag
  rw [hb]
  dsimp only
  split
  · next hh =>
    have hp : p c = true := (Bool.and_eq_true_iff.1 hh).1
    rw [if_pos hp]
    split
    · rw [offer_join]
      show getAt (setAt s.ctl.tags t _) t = _
      rw [getAt_setAt, if_pos rfl]
    · show getAt (setAt s.ctl.tags t _) t = _
      rw [getAt_setAt, if_pos rfl]
  · next hh =>
    rw [hb]
    split
    · next hp =>
      have : judged s w c (.tag t) h = h := by
        by_contra hne
        exact hh (Bool.and_eq_true_iff.2 ⟨hp, bne_iff_ne.2 hne⟩)
      rw [this]
    · rfl

/-- The tags judged one after another: each has its own hold set judged once. -/
theorem rejudgeTags (w : Which) (p : CtxNo → Bool) (l : List TagNo) (hl : l.Nodup) (s : State) :
    (l.foldl (fun s t => rejudgeTag w p t s) s).ctl.outputs = s.ctl.outputs ∧
    ∀ t c x h, s.tag t = .bound c x h →
      (l.foldl (fun s t => rejudgeTag w p t s) s).tag t = .bound c x (if t ∈ l ∧ p c then judged s w c (.tag t) h else h) := by
  induction l generalizing s with
  | nil => exact ⟨rfl, fun t c x h hb => by simpa using hb⟩
  | cons a l ih =>
    obtain ⟨i1, i2⟩ := ih (List.nodup_cons.1 hl).2 (rejudgeTag w p a s)
    refine ⟨i1.trans (rejudgeTag_outputs _ _ _ _), fun t c x h hb => ?_⟩
    by_cases hta : a = t
    · subst hta
      have := i2 a c x _ (rejudgeTag_tag w p a s c x h hb)
      rw [List.foldl_cons, this]
      have hn : a ∉ l := (List.nodup_cons.1 hl).1
      simp [hn]
    · have := i2 t c x h ((rejudgeTag_other w p a t s hta).trans hb)
      rw [List.foldl_cons, this, judged_eq (HoldsOnly.rejudgeTag w p a s)]
      simp [Ne.symm hta]

/-- The outputs judged one after another: each binding has its hold set judged once. -/
theorem rejudgeOutputs_current (w : Which) (p : CtxNo → Bool) (s : State) (o : OutputNo) (b : Binding)
    (hb : (s.binding o).current = some b) :
    ((outputNos.foldl (fun s o => rejudgeOutput w p o s) s).binding o).current =
      some (if p b.ctx then { b with hold := judged s w b.ctx (.output o) b.hold } else b) := by
  show ((rejudgeOutput w p 1 (rejudgeOutput w p 0 s)).binding o).current = _
  fin_cases o
  · show ((rejudgeOutput w p 1 (rejudgeOutput w p 0 s)).binding 0).current = _
    rw [rejudgeOutput_other w p 1 0 _ (by decide), rejudgeOutput_current w p 0 s b hb]
    rfl
  · show ((rejudgeOutput w p 1 (rejudgeOutput w p 0 s)).binding 1).current = _
    rw [rejudgeOutput_current w p 1 _ b (by rw [rejudgeOutput_other w p 0 1 _ (by decide)]; exact hb),
      judged_eq (HoldsOnly.rejudgeOutput w p 0 s)]
    rfl

theorem rejudgeOutputs_pending (w : Which) (p : CtxNo → Bool) (s : State) (o : OutputNo) (b : PendingBinding)
    (hb : (s.binding o).pending = some b) :
    ((outputNos.foldl (fun s o => rejudgeOutput w p o s) s).binding o).pending =
      some (if p b.ctx then { b with hold := judged s w b.ctx (.output o) b.hold } else b) := by
  show ((rejudgeOutput w p 1 (rejudgeOutput w p 0 s)).binding o).pending = _
  fin_cases o
  · show ((rejudgeOutput w p 1 (rejudgeOutput w p 0 s)).binding 0).pending = _
    rw [rejudgeOutput_other w p 1 0 _ (by decide), rejudgeOutput_pending w p 0 s b hb]
    rfl
  · show ((rejudgeOutput w p 1 (rejudgeOutput w p 0 s)).binding 1).pending = _
    rw [rejudgeOutput_pending w p 1 _ b (by rw [rejudgeOutput_other w p 0 1 _ (by decide)]; exact hb),
      judged_eq (HoldsOnly.rejudgeOutput w p 0 s)]
    rfl

theorem bare_current {s t : State} (h : t.bare = s.bare) (o : OutputNo) :
    (t.binding o).current.map (fun b => b.ctx) = (s.binding o).current.map (fun b => b.ctx) := by
  have h1 : (t.ctl.outputs.map OutBind.bare) = (s.ctl.outputs.map OutBind.bare) := congrArg (·.ctl.outputs) h
  have h2 : (t.binding o).bare = (s.binding o).bare := by
    have := congrArg (fun v => v.get o) h1
    simpa [State.binding, getAt, Vector.get] using this
  have h3 := congrArg (fun b : OutBind => b.current.map (fun b => b.ctx)) h2
  simpa [OutBind.bare, Option.map_map, Function.comp_def] using h3
theorem bare_pending {s t : State} (h : t.bare = s.bare) (o : OutputNo) :
    (t.binding o).pending.map (fun b => b.ctx) = (s.binding o).pending.map (fun b => b.ctx) := by
  have h1 : (t.ctl.outputs.map OutBind.bare) = (s.ctl.outputs.map OutBind.bare) := congrArg (·.ctl.outputs) h
  have h2 : (t.binding o).bare = (s.binding o).bare := by
    have := congrArg (fun v => v.get o) h1
    simpa [State.binding, getAt, Vector.get] using this
  have h3 := congrArg (fun b : OutBind => b.pending.map (fun b => b.ctx)) h2
  simpa [OutBind.bare, Option.map_map, Function.comp_def] using h3
theorem bare_tag {s t : State} (h : t.bare = s.bare) (o : TagNo) :
    (t.tag o).bare = (s.tag o).bare := by
  have h1 : (t.ctl.tags.map TagRec.bare) = (s.ctl.tags.map TagRec.bare) := congrArg (·.ctl.tags) h
  have := congrArg (fun v => v.get o) h1
  simpa [State.tag, getAt, Vector.get] using this

theorem rejudge_current (w : Which) (p : CtxNo → Bool) (s : State) (o : OutputNo) (b : Binding)
    (hb : (s.binding o).current = some b) :
    ((rejudge w p s).binding o).current =
      some (if p b.ctx then { b with hold := judged s w b.ctx (.output o) b.hold } else b) := by
  unfold rejudge State.binding
  rw [(rejudgeTags w p tagNos (by decide) _).1]
  exact rejudgeOutputs_current w p s o b hb

theorem rejudge_pending (w : Which) (p : CtxNo → Bool) (s : State) (o : OutputNo) (b : PendingBinding)
    (hb : (s.binding o).pending = some b) :
    ((rejudge w p s).binding o).pending =
      some (if p b.ctx then { b with hold := judged s w b.ctx (.output o) b.hold } else b) := by
  unfold rejudge State.binding
  rw [(rejudgeTags w p tagNos (by decide) _).1]
  exact rejudgeOutputs_pending w p s o b hb

theorem rejudge_tag (w : Which) (p : CtxNo → Bool) (s : State) (t : TagNo) (c : CtxNo) (x : Option Nat) (h : HoldSet)
    (ht : s.tag t = .bound c x h) :
    (rejudge w p s).tag t = .bound c x (if p c then judged s w c (.tag t) h else h) := by
  have hOut : HoldsOnly s (outputNos.foldl (fun s o => rejudgeOutput w p o s) s) :=
    HoldsOnly.foldl (fun s o => HoldsOnly.rejudgeOutput _ _ _ _) s _
  have hT : (outputNos.foldl (fun s o => rejudgeOutput w p o s) s).ctl.tags = s.ctl.tags := by
    show (rejudgeOutput _ _ 1 (rejudgeOutput _ _ 0 s)).ctl.tags = _
    rw [rejudgeOutput_tags, rejudgeOutput_tags]
  have h1 : (outputNos.foldl (fun s o => rejudgeOutput w p o s) s).tag t = .bound c x h := by
    unfold State.tag
    rw [hT]
    exact ht
  have h2 := (rejudgeTags w p tagNos (by decide) _).2 t c x h h1
  have h3 : t ∈ tagNos := by fin_cases t <;> decide
  rw [judged_eq hOut] at h2
  simp only [h3, true_and] at h2
  exact h2

/-! ### What the hold sets are afterwards, told by the bindings afterwards -/

theorem of_map_some {α β : Type} {f : α → β} {x : Option α} {y : β} (h : x.map f = some y) : ∃ a, x = some a ∧ f a = y := by
  rcases x with _ | a
  · simp at h
  · exact ⟨a, rfl, by simpa using h⟩

/-- A current binding after judging again, from the one before. -/
theorem rejudge_current_after (w : Which) (p : CtxNo → Bool) (s : State) (o : OutputNo) (b : Binding)
    (hb : ((rejudge w p s).binding o).current = some b) :
    ∃ old, (s.binding o).current = some ⟨b.ctx, old⟩ ∧
      b.hold = if p b.ctx then judged s w b.ctx (.output o) old else old := by
  have h1 := bare_current (HoldsOnly.rejudge w p s).bare o
  rw [hb] at h1
  obtain ⟨b0, h0, e⟩ := of_map_some h1.symm
  have h2 := rejudge_current w p s o b0 h0
  rw [hb] at h2
  have h3 := Option.some.inj h2
  have e : b0.ctx = b.ctx := e
  refine ⟨b0.hold, by rw [h0, ← e], ?_⟩
  rw [← e]
  split at h3
  · next hp => rw [h3, if_pos hp]
  · next hp => rw [h3, if_neg hp]

theorem rejudge_pending_after (w : Which) (p : CtxNo → Bool) (s : State) (o : OutputNo) (b : PendingBinding)
    (hb : ((rejudge w p s).binding o).pending = some b) :
    ∃ old, (s.binding o).pending = some { b with hold := old } ∧
      b.hold = if p b.ctx then judged s w b.ctx (.output o) old else old := by
  have h1 := bare_pending (HoldsOnly.rejudge w p s).bare o
  rw [hb] at h1
  obtain ⟨b0, h0, e⟩ := of_map_some h1.symm
  have h2 := rejudge_pending w p s o b0 h0
  rw [hb] at h2
  have h3 := Option.some.inj h2
  have e : b0.ctx = b.ctx := e
  refine ⟨b0.hold, ?_, ?_⟩
  · rw [h0, h3]
    split <;> rfl
  · rw [← e]
    split at h3
    · next hp => rw [h3, if_pos hp]
    · next hp => rw [h3, if_neg hp]

theorem rejudge_tag_after (w : Which) (p : CtxNo → Bool) (s : State) (t : TagNo) (c : CtxNo) (x : Option Nat) (h : HoldSet)
    (ht : (rejudge w p s).tag t = .bound c x h) :
    ∃ old, s.tag t = .bound c x old ∧ h = if p c then judged s w c (.tag t) old else old := by
  have h1 := bare_tag (HoldsOnly.rejudge w p s).bare t
  rw [ht] at h1
  rcases hs : s.tag t with _ | ⟨c0, w0, h0⟩ | c0
  · rw [hs] at h1; simp [TagRec.bare] at h1
  · rw [hs] at h1
    simp only [TagRec.bare, TagRec.bound.injEq, and_true] at h1
    obtain ⟨rfl, rfl⟩ := h1
    have h2 := rejudge_tag w p s t c x h0 hs
    rw [ht] at h2
    exact ⟨h0, rfl, (TagRec.bound.inj h2).2.2⟩
  · rw [hs] at h1; simp [TagRec.bare] at h1

/-- A port's report leaves SIGNAL on its contexts' destinations as the port stands (R4, R5, R115). -/
theorem signalReport_on (i : Input) (s : State) : SignalOn (signalReport i s) i (!s.up i) := by
  have hc : ∀ c, (signalReport i s).context c = s.context c :=
    fun c => congrArg (fun v => getAt v c) (HoldsOnly.signalReport i s).contexts
  have key : ∀ c d old, (s.context c).input = i → (judged s judgeSignal c d old).signal = !s.up i := by
    intro c d old h
    simp only [judged, judgeSignal, if_true, h]
  refine ⟨fun o b hb hi => ?_, fun o b hb hi => ?_, fun t c w h hb hi => ?_⟩ <;> rw [hc] at hi
  · obtain ⟨old, _, e⟩ := rejudge_current_after _ _ s o b hb
    rw [e, if_pos (by simpa using hi)]
    exact key _ _ _ hi
  · obtain ⟨old, _, e⟩ := rejudge_pending_after _ _ s o b hb
    rw [e, if_pos (by simpa using hi)]
    exact key _ _ _ hi
  · obtain ⟨old, _, e⟩ := rejudge_tag_after _ _ s t c w h hb
    rw [e, if_pos (by simpa using hi)]
    exact key _ _ _ hi

/-! ### A cleared service index -/

/-- Without an index in use, its report leaves the part as it is. -/
theorem indexReport_none (p : PortNo) (c : CtxNo) (s : State) (h : (getAt s.guide.index p).inUse = none) :
    indexReport p c s = s := by
  unfold indexReport
  dsimp only
  split
  · next hi =>
    have hu : indexInUse s (s.context c).input = none := by
      rw [hi]
      unfold indexInUse
      fin_cases p <;> exact h
    split
    · unfold locate
      rw [hu]
      split <;> rfl
    all_goals first
      | rfl
      | (unfold moveMapStream; simp only [hu, Option.bind_none])
  · rfl

theorem indexChanged_none (p : PortNo) (s : State) (h : (getAt s.guide.index p).inUse = none) : indexChanged p s = s := by
  unfold indexChanged
  have : ∀ l : List CtxNo, l.foldl (fun s c => indexReport p c s) s = s := by
    intro l
    induction l with
    | nil => rfl
    | cons c l ih => rw [List.foldl_cons, indexReport_none p c s h, ih]
  exact this _

/-- Clearing a port's service index changes nothing else (R6). -/
theorem clearIndex_eq (p : PortNo) (s : State) :
    clearIndex p s = { s with guide := { s.guide with
      index := setAt s.guide.index p { getAt s.guide.index p with inUse := none, collection := none } } } := by
  unfold clearIndex
  rw [indexChanged_none]
  · rfl
  · show (getAt (setAt s.guide.index p _) p).inUse = none
    rw [getAt_setAt, if_pos rfl]

end Sys2Proof.Machine
end

