-- ==== Sys2Proof/Laws/Commands.lean ====
section
/-! SUPPORT. What a command comes to before its meaning is unfolded: the hand-over of an order, the taking of a unit, the
examination of a packet that finds its entry. -/

namespace Sys2Proof.Machine

theorem setAt_setAt {α : Type} {n : Nat} (v : Vector α n) (i : Fin n) (x y : α) :
    setAt (setAt v i x) i y = setAt v i y := by
  refine Vector.ext fun j hj => ?_
  simp [setAt, Vector.getElem_set]

theorem getAt_setSync (s : State) (i : Input) (v : SyncRec) : getAt (s.setSync i v).intake.sync i = v := by
  show getAt (setAt s.intake.sync i v) i = v
  rw [getAt_setAt, if_pos rfl]

theorem setSync_setSync (s : State) (i : Input) (a b : SyncRec) : (s.setSync i a).setSync i b = s.setSync i b := by
  unfold State.setSync
  simp only [setAt_setAt]

theorem up_offer_setSync (s : State) (i : Input) (n : Notice) (a : SyncRec) :
    (offer n (s.setSync i a)).up i = (a.state == .up) := by
  rw [offer_join]
  have := getAt_setSync s i a
  unfold State.up
  simp only at this ⊢
  rw [this]

theorem handsOn_iff (s : State) :
    s.handsOn = true ↔ s.mgmt.ready = true ∧ s.mgmt.restarting = false ∧ s.mgmt.answers.length < 16 := by
  simp [State.handsOn, and_assoc]

/-- Every order command is the hand-over of its order to its owner. -/
theorem exec_order (i : Instr) (s : State) (code tag : Byte) (params : List Byte)
    (h : orderParts i = some (code, tag, params)) : exec i s = .next (handOver code tag (takeOrder i) s) := by
  cases i <;> simp only [orderParts, Option.some.injEq, Prod.mk.injEq, reduceCtorEq] at h <;>
    (try obtain ⟨rfl, rfl, _⟩ := h) <;> rfl

/-! ### Unit formation (R1) -/

theorem exec_takenOn (i : Input) (l : List LinkByte) (s : State) :
    exec (takenOn i l) s = .next (takeLinkBytes i l s) := by
  fin_cases i <;> rfl

theorem setForming_forming (s : State) (i : Input) (v : Option (List Byte)) : (s.setForming i v).forming i = v := by
  show getAt (setAt s.intake.forming i v) i = v
  rw [getAt_setAt, if_pos rfl]

theorem setForming_setForming (s : State) (i : Input) (a b : Option (List Byte)) :
    (s.setForming i a).setForming i b = s.setForming i b := by
  unfold State.setForming
  simp only [setAt_setAt]

/-- The unit in progress put where it stands. -/
theorem setForming_self (s : State) (i : Input) (v : Option (List Byte)) (h : s.forming i = v) : s.setForming i v = s := by
  have e : setAt s.intake.forming i v = s.intake.forming := by
    refine Vector.ext fun j hj => ?_
    have h1 := getAt_setAt s.intake.forming i ⟨j, hj⟩ v
    split at h1
    · next hi => subst hi; exact h1.trans h.symm
    · exact h1
  unfold State.setForming
  rw [e]

/-- Bytes that are no packet starts join the unit in progress; the one that makes it 188 bytes ends it. -/
theorem takeLinkBytes_tail (i : Input) (l u : List Byte) (s : State) (hd : (getAt s.intake.sync i).state ≠ .down)
    (hu : s.forming i = some u) (hl : l ≠ []) (hlen : u.length + l.length = 188) :
    takeLinkBytes i (l.map (fun b => ⟨b, false⟩)) s = takeUnit i (u ++ l) (s.setForming i none) := by
  induction l generalizing u s with
  | nil => exact absurd rfl hl
  | cons b l ih =>
    have h1 : takeLinkByte i s ⟨b, false⟩ =
        if u.length + 1 = 188 then takeUnit i (u ++ [b]) (s.setForming i none)
        else s.setForming i (some (u ++ [b])) := by
      unfold takeLinkByte
      rw [if_neg hd, if_neg (by simp)]
      simp only [hu]
    unfold takeLinkBytes
    rw [List.map_cons, List.foldl_cons, h1]
    rw [List.length_cons] at hlen
    by_cases h : l = []
    · subst h
      rw [if_pos (by simpa using hlen)]
      rfl
    · have : l.length ≠ 0 := by simpa using h
      rw [if_neg (by omega)]
      have := ih (u ++ [b]) (s.setForming i (some (u ++ [b]))) hd (setForming_forming _ _ _) h
        (by simp only [List.length_append, List.length_singleton]; omega)
      unfold takeLinkBytes at this
      rw [this, setForming_setForming]
      simp

/-- A whole unit on an input without a unit in progress is taken (R1). -/
theorem exec_marked (i : Input) (u : List Byte) (s : State) (hn : s.forming i = none) (hu : u.length = 188) :
    exec (takenOn i (marked u)) s = .next (takeUnit i u s) := by
  rw [exec_takenOn]
  congr 1
  by_cases hd : (getAt s.intake.sync i).state = .down
  · have h1 : ∀ b, takeLinkByte i s b = s := fun b => by unfold takeLinkByte; rw [if_pos hd]
    have h2 : ∀ l : List LinkByte, l.foldl (takeLinkByte i) s = s := by
      intro l
      induction l with
      | nil => rfl
      | cons b l ih => rw [List.foldl_cons, h1, ih]
    unfold takeLinkBytes takeUnit
    rw [h2, hd]
  · match u with
    | [] => simp at hu
    | b :: l =>
      have h1 : takeLinkByte i s ⟨b, true⟩ = s.setForming i (some [b]) := by
        unfold takeLinkByte cutShort
        rw [if_neg hd]
        simp only [if_true, hn]
      have hl : l ≠ [] := by rintro rfl; simp at hu
      have := takeLinkBytes_tail i l [b] (s.setForming i (some [b])) hd (setForming_forming _ _ _) hl
        (by simpa [Nat.add_comm] using hu)
      unfold takeLinkBytes at this ⊢
      show List.foldl _ (takeLinkByte i s ⟨b, true⟩) _ = _
      rw [h1, this, setForming_setForming, setForming_self s i none hn]
      rfl

theorem goodSync_length {u : List Byte} (h : goodSync u = true) : u.length = 188 := by
  unfold goodSync at h
  simp only [Bool.and_eq_true, beq_iff_eq] at h
  exact h.1

theorem streamNumber_lt (q : List Byte) : streamNumber q < 8192 := by
  unfold streamNumber byteAt
  have := (q.getD 2 0).isLt
  omega

theorem counted_eq (s : State) (i : Input) (q : List Byte) : countPacket i q (takeGoodSync i s) = s.counted i q := rfl

/-- A good-sync unit on an input that is UP whose packet finds its entry. -/
theorem exec_counted (i : Input) (unit : List Byte) (s : State) (hn : s.forming i = none) (hup : (getAt s.intake.sync i).state = .up)
    (hg : goodSync unit = true) (e : Entry) (hl : lookedUp i (streamNumber (asTaken unit)))
    (he : findEntry i (streamNumber (asTaken unit)) s = some e) :
    exec (takenOn i (marked unit)) s =
      .next (if errorFlag (asTaken unit) then
          takeErrored i e (asTaken unit) s.time.counter (s.counted i (asTaken unit))
        else takeChecked i e (asTaken unit) s.time.counter (s.counted i (asTaken unit))) := by
  have hex : examine i (asTaken unit) s.time.counter (takeGoodSync i s) =
      if errorFlag (asTaken unit) then takeErrored i e (asTaken unit) s.time.counter (s.counted i (asTaken unit))
      else takeChecked i e (asTaken unit) s.time.counter (s.counted i (asTaken unit)) := by
    unfold examine
    rw [counted_eq]
    have h1 : streamNumber (asTaken unit) ≠ 0x1FFF ∧ ¬ (i ≠ pb ∧ 0x1FF0 ≤ streamNumber (asTaken unit)) := by
      unfold lookedUp at hl
      split at hl
      · next h => subst h; simp; omega
      · next h => simp; omega
    have h2 : findEntry i (streamNumber (asTaken unit)) (s.counted i (asTaken unit)) = some e := he
    simp only [h1.1, if_false, h2]
    rw [if_neg (by simpa using h1.2)]
  rw [exec_marked i unit s hn (goodSync_length hg)]
  simp only [takeUnit, hup, hg, if_true]
  congr 1
  unfold usePacket
  split
  · next h =>
    subst h
    unfold sortHlIn
    unfold lookedUp at hl
    rw [if_pos rfl] at hl
    simp only
    rw [if_neg (by omega), if_pos (by simpa using hl)]
    exact hex
  · exact hex

/-- The end of grants: the list less those that end, and a GRANT_END notice for each (R141). -/
theorem endGrants_eq (hit : Grant → Bool) (cause : GrantEnd) (s : State) :
    endGrants hit cause s = { s with
      parental := { s.parental with grants := s.parental.grants.filter (fun g => !hit g) }
      notices := s.notices.joinAll
        ((s.parental.grants.filter hit).map (fun g => .grantEnd g.output g.key g.profile cause)) } := by
  unfold endGrants
  have : ∀ (l : List Grant) (t : State), l.foldl (fun s g => offer (.grantEnd g.output g.key g.profile cause) s) t =
      { t with notices := t.notices.joinAll (l.map (fun g => .grantEnd g.output g.key g.profile cause)) } := by
    intro l
    induction l with
    | nil => intro t; rfl
    | cons g l ih =>
      intro t
      rw [List.foldl_cons, ih, offer_join]
      rfl
  rw [this]

theorem endGrantsAndJudge_holds (hit : Grant → Bool) (cause : GrantEnd) (s : State) :
    HoldsOnly (endGrants hit cause s) (endGrantsAndJudge hit cause s) := by
  unfold endGrantsAndJudge
  exact HoldsOnly.foldl (fun s o => HoldsOnly.rejudgePairs o s) _ _

theorem endGrantsAndJudge_clock (hit : Grant → Bool) (cause : GrantEnd) (s : State) :
    (endGrantsAndJudge hit cause s).clock = s.clock := by
  rw [(endGrantsAndJudge_holds hit cause s).clock, endGrants_eq]

/-! ### Verdicts after grants end -/

theorem rejudgePairs_after_current (o : OutputNo) (s : State) (b : Binding) (hb : ((rejudgePairs o s).binding o).current = some b) :
    b.hold.parental = verdict s b.ctx o := by
  have h1 := bare_current (HoldsOnly.rejudgePairs o s).bare o
  rw [hb] at h1
  obtain ⟨b0, h0, e⟩ := of_map_some h1.symm
  have h2 := rejudgeOutput_current judgeVerdict (fun _ => true) o s b0 h0
  have h2 : ((rejudgePairs o s).binding o).current = _ := h2
  rw [hb] at h2
  have h3 := Option.some.inj h2
  rw [if_pos rfl] at h3
  rw [h3]
  rfl

theorem rejudgePairs_after_pending (o : OutputNo) (s : State) (b : PendingBinding) (hb : ((rejudgePairs o s).binding o).pending = some b) :
    b.hold.parental = verdict s b.ctx o := by
  have h1 := bare_pending (HoldsOnly.rejudgePairs o s).bare o
  rw [hb] at h1
  obtain ⟨b0, h0, e⟩ := of_map_some h1.symm
  have h2 := rejudgeOutput_pending judgeVerdict (fun _ => true) o s b0 h0
  have h2 : ((rejudgePairs o s).binding o).pending = _ := h2
  rw [hb] at h2
  have h3 := Option.some.inj h2
  rw [if_pos rfl] at h3
  rw [h3]
  rfl

theorem rejudgePairs_other (o o' : OutputNo) (s : State) (h : o ≠ o') : (rejudgePairs o s).binding o' = s.binding o' :=
  rejudgeOutput_other _ _ o o' s h

theorem rejudgePairs_list (l : List OutputNo) (hl : l.Nodup) (s : State) (o : OutputNo) (ho : o ∈ l) :
    (∀ b, ((l.foldl (fun s o => rejudgePairs o s) s).binding o).current = some b → b.hold.parental = verdict s b.ctx o) ∧
    (∀ b, ((l.foldl (fun s o => rejudgePairs o s) s).binding o).pending = some b → b.hold.parental = verdict s b.ctx o) := by
  induction l generalizing s with
  | nil => simp at ho
  | cons a l ih =>
    rw [List.foldl_cons]
    have hn := List.nodup_cons.1 hl
    by_cases ha : a = o
    · subst ha
      have keep : ∀ (l : List OutputNo) (s : State), a ∉ l → (l.foldl (fun s o => rejudgePairs o s) s).binding a = s.binding a := by
        intro l
        induction l with
        | nil => intro s _; rfl
        | cons b l ih2 =>
          intro s hb
          rw [List.foldl_cons, ih2 _ (fun h => hb (by simp [h])), rejudgePairs_other b a s (fun h => hb (by simp [h]))]
      rw [keep l _ hn.1]
      exact ⟨fun b hb => rejudgePairs_after_current a s b hb, fun b hb => rejudgePairs_after_pending a s b hb⟩
    · have ho' : o ∈ l := by
        rcases List.mem_cons.1 ho with h | h
        · exact absurd h.symm ha
        · exact h
      obtain ⟨i1, i2⟩ := ih hn.2 (rejudgePairs a s) ho'
      refine ⟨fun b hb => ?_, fun b hb => ?_⟩
      · rw [i1 b hb, verdict_eq (HoldsOnly.rejudgePairs a s)]
      · rw [i2 b hb, verdict_eq (HoldsOnly.rejudgePairs a s)]

theorem mem_outputNos (o : OutputNo) : o ∈ outputNos := by fin_cases o <;> decide

theorem endGrantsAndJudge_verdicts (hit : Grant → Bool) (cause : GrantEnd) (s : State) (o : OutputNo)
    (h : ∃ g ∈ s.parental.grants, hit g = true ∧ g.output = o) :
    (∀ b, ((endGrantsAndJudge hit cause s).binding o).current = some b → b.hold.parental = verdict (endGrantsAndJudge hit cause s) b.ctx o) ∧
    (∀ b, ((endGrantsAndJudge hit cause s).binding o).pending = some b → b.hold.parental = verdict (endGrantsAndJudge hit cause s) b.ctx o) := by
  obtain ⟨g, hg, h1, h2⟩ := h
  have hv := fun c => verdict_eq (endGrantsAndJudge_holds hit cause s) c o
  have key := rejudgePairs_list (outputNos.filter (fun o => s.parental.grants.any (fun g => hit g && g.output == o)))
    (List.Nodup.filter _ (by decide)) (endGrants hit cause s) o
    (List.mem_filter.2 ⟨mem_outputNos o, List.any_eq_true.2 ⟨g, hg, by simp [h1, h2]⟩⟩)
  exact ⟨fun b hb => (key.1 b hb).trans (hv _).symm, fun b hb => (key.2 b hb).trans (hv _).symm⟩

end Sys2Proof.Machine
end

