-- ==== Sys2Proof/Laws/Endings.lean ====
section
/-! SUPPORT. Tags and outputs that are freed by a failing or retiring context, erased slots, what the reports of slots and
tiers leave, and what hold sets are after them. -/

namespace Sys2Proof.Machine

theorem ext_getAt {α : Type} {n : Nat} {v w : Vector α n} (h : ∀ i, getAt v i = getAt w i) : v = w := by
  refine Vector.ext fun i hi => ?_
  have := h ⟨i, hi⟩
  simpa [getAt, Vector.get] using this

theorem getAt_ofFn {α : Type} {n : Nat} (f : Fin n → α) (i : Fin n) : getAt (Vector.ofFn f) i = f i := by
  simp [getAt, Vector.get]
  rfl

/-- A fold over tags, each of whose steps changes only its own tag and sends one notice. -/
theorem foldTags_map (f : TagNo → State → State) (g : TagRec → TagRec) (hit : TagRec → Bool) (n : TagNo → Notice)
    (hf : ∀ t s, f t s = if hit (s.tag t) then { s with ctl := { s.ctl with tags := setAt s.ctl.tags t (g (s.tag t)) }, notices := s.notices.join (n t) } else s)
    (l : List TagNo) (hl : l.Nodup) (s : State) :
    l.foldl (fun s t => f t s) s =
      { s with
        ctl := { s.ctl with tags := Vector.ofFn (fun t => if t ∈ l ∧ hit (s.tag t) then g (s.tag t) else s.tag t) }
        notices := s.notices.joinAll ((l.filter (fun t => hit (s.tag t))).map n) } := by
  induction l generalizing s with
  | nil =>
    have : Vector.ofFn (fun t => if t ∈ ([] : List TagNo) ∧ hit (s.tag t) then g (s.tag t) else s.tag t) = s.ctl.tags := by
      refine ext_getAt fun i => ?_
      simp [getAt, Vector.get, State.tag]
      rfl
    rw [this]
    rfl
  | cons a l ih =>
    rw [List.foldl_cons]
    have hn := List.nodup_cons.1 hl
    rw [ih hn.2, hf]
    by_cases h : hit (s.tag a) = true
    · simp only [h, if_true]
      have e : ∀ t, State.tag { s with ctl := { s.ctl with tags := setAt s.ctl.tags a (g (s.tag a)) }, notices := s.notices.join (n a) } t = if a = t then g (s.tag a) else s.tag t := by
        intro t
        show getAt (setAt s.ctl.tags a _) t = _
        rw [getAt_setAt]; rfl
      have e1 : l.filter (fun t => hit (State.tag { s with ctl := { s.ctl with tags := setAt s.ctl.tags a (g (s.tag a)) }, notices := s.notices.join (n a) } t)) = l.filter (fun t => hit (s.tag t)) := by
        apply List.filter_congr
        intro t ht
        rw [e, if_neg]
        rintro rfl
        exact hn.1 ht
      rw [e1, List.filter_cons, if_pos h]
      have e2 : (Vector.ofFn fun t => if t ∈ l ∧ hit (State.tag { s with ctl := { s.ctl with tags := setAt s.ctl.tags a (g (s.tag a)) }, notices := s.notices.join (n a) } t) = true then g (State.tag { s with ctl := { s.ctl with tags := setAt s.ctl.tags a (g (s.tag a)) }, notices := s.notices.join (n a) } t) else State.tag { s with ctl := { s.ctl with tags := setAt s.ctl.tags a (g (s.tag a)) }, notices := s.notices.join (n a) } t) =
         Vector.ofFn fun t => if t ∈ a :: l ∧ hit (s.tag t) = true then g (s.tag t) else s.tag t := by
        congr 1
        funext t
        rw [e]
        by_cases hat : a = t
        · subst hat
          simp [hn.1, h]
        · have : t ∈ a :: l ↔ t ∈ l := by simp [Ne.symm hat]
          simp only [if_neg hat, this]
      simp only [e2]
      rfl
    · simp only [h]
      rw [List.filter_cons, if_neg h]
      have e2 : (Vector.ofFn fun t => if t ∈ l ∧ hit (s.tag t) = true then g (s.tag t) else s.tag t) =
         Vector.ofFn fun t => if t ∈ a :: l ∧ hit (s.tag t) = true then g (s.tag t) else s.tag t := by
        congr 1
        funext t
        by_cases hat : a = t
        · subst hat
          simp [h]
        · have : t ∈ a :: l ↔ t ∈ l := by simp [Ne.symm hat]
          simp only [this]
      simp only [Bool.false_eq_true, if_false, e2]

theorem mem_tagNos (t : TagNo) : t ∈ tagNos := by fin_cases t <;> decide

theorem freeTags_eq (c : CtxNo) (s : State) :
    tagNos.foldl (fun s t => freeTag c t s) s =
      { s with
        ctl := { s.ctl with tags := s.ctl.tags.map (fun r =>
            match r with
            | .draining c' => if c' = c then .idle else .draining c'
            | .idle => .idle
            | .bound c' w h => .bound c' w h) }
        notices := s.notices.joinAll ((tagNos.filter (fun k => (s.tag k).drainingFrom c)).map (fun k => .tagFree k)) } := by
  rw [foldTags_map (freeTag c) (fun _ => .idle) (fun r => r.drainingFrom c) (fun k => .tagFree k) ?_ tagNos (by decide)]
  · suffices e : (Vector.ofFn fun t => if t ∈ tagNos ∧ (s.tag t).drainingFrom c = true then TagRec.idle else s.tag t) = s.ctl.tags.map (fun r =>
            match r with
            | .draining c' => if c' = c then .idle else .draining c'
            | .idle => .idle
            | .bound c' w h => .bound c' w h) by rw [e]
    refine ext_getAt fun t => ?_
    rw [getAt_map, getAt_ofFn]
    simp only [mem_tagNos, true_and, State.tag]
    rcases h : getAt s.ctl.tags t with _ | ⟨c', w, hh⟩ | c'
    · simp [TagRec.drainingFrom]
    · simp [TagRec.drainingFrom]
    · by_cases hc : c' = c <;> simp [TagRec.drainingFrom, hc]
  · intro t s
    unfold freeTag
    split
    · rw [offer_join]; rfl
    · rfl

theorem failTags_eq (c : CtxNo) (r : FailReason) (s : State) :
    tagNos.foldl (fun s t => failTag c r t s) s =
      { s with
        ctl := { s.ctl with tags := s.ctl.tags.map (fun r =>
            match r with
            | .bound c' w h => if c' = c then .idle else .bound c' w h
            | .idle => .idle
            | .draining c' => .draining c') }
        notices := s.notices.joinAll ((tagNos.filter (fun k => (s.tag k).boundTo c)).map (fun k => .tuneFailed (.tag k) c (s.context c).input (s.context c).service r)) } := by
  have key : ∀ (i : Input) (sv : Nat) (s : State), (s.context c).input = i → (s.context c).service = sv →
     ∀ l : List TagNo, l.foldl (fun s t => failTag c r t s) s = l.foldl (fun s t => if (s.tag t).boundTo c then { s with ctl := { s.ctl with tags := setAt s.ctl.tags t .idle }, notices := s.notices.join (.tuneFailed (.tag t) c i sv r) } else s) s := by
    intro i sv s h1 h2 l
    induction l generalizing s with
    | nil => rfl
    | cons a l ih =>
      rw [List.foldl_cons, List.foldl_cons]
      have : failTag c r a s = if (s.tag a).boundTo c then { s with ctl := { s.ctl with tags := setAt s.ctl.tags a .idle }, notices := s.notices.join (.tuneFailed (.tag a) c i sv r) } else s := by
        unfold failTag
        split
        · rw [offer_join, h1, h2]; rfl
        · rfl
      rw [this]
      apply ih
      · split <;> exact h1
      · split <;> exact h2
  rw [key _ _ s rfl rfl]
  rw [foldTags_map (fun t s => if (s.tag t).boundTo c then { s with ctl := { s.ctl with tags := setAt s.ctl.tags t .idle }, notices := s.notices.join (.tuneFailed (.tag t) c _ _ r) } else s) (fun _ => .idle) (fun r => r.boundTo c) (fun k => .tuneFailed (.tag k) c _ _ r) (fun _ _ => rfl) tagNos (by decide)]
  suffices e : (Vector.ofFn fun t => if t ∈ tagNos ∧ (s.tag t).boundTo c = true then TagRec.idle else s.tag t) = s.ctl.tags.map (fun r =>
            match r with
            | .bound c' w h => if c' = c then .idle else .bound c' w h
            | .idle => .idle
            | .draining c' => .draining c') by rw [e]
  refine ext_getAt fun t => ?_
  rw [getAt_map, getAt_ofFn]
  simp only [mem_tagNos, true_and, State.tag]
  rcases h : getAt s.ctl.tags t with _ | ⟨c', w, hh⟩ | c'
  · simp [TagRec.boundTo]
  · by_cases hc : c' = c <;> simp [TagRec.boundTo, hc]
  · simp [TagRec.boundTo]

theorem failOutputs_eq (c : CtxNo) (r : FailReason) (s : State) :
    outputNos.foldl (fun s o => failOutput c r o s) s =
      { s with
        ctl := { s.ctl with outputs := s.ctl.outputs.map (fun b => if b.pending.any (fun p => p.ctx == c) then { b with pending := none } else b) }
        notices := s.notices.joinAll ((outputNos.filter (fun o => (s.binding o).pending.any (fun p => p.ctx == c))).map (fun o => .tuneFailed (.output o) c (s.context c).input (s.context c).service r)) } := by
  have h1 : ∀ o s, failOutput c r o s = if s.isPending o c then { s with ctl := { s.ctl with outputs := setAt s.ctl.outputs o { s.binding o with pending := none } }, notices := s.notices.join (.tuneFailed (.output o) c (s.context c).input (s.context c).service r) } else s := by
    intro o s
    unfold failOutput
    split
    · rw [offer_join]; rfl
    · rfl
  show failOutput c r 1 (failOutput c r 0 s) = _
  have hm : s.ctl.outputs.map (fun b => if b.pending.any (fun p => p.ctx == c) then { b with pending := none } else b) =
     #v[if (s.binding 0).pending.any (fun p => p.ctx == c) then { s.binding 0 with pending := none } else s.binding 0, if (s.binding 1).pending.any (fun p => p.ctx == c) then { s.binding 1 with pending := none } else s.binding 1] := by
    refine ext_getAt fun o => ?_
    rw [getAt_map]
    fin_cases o <;> rfl
  have hs : s.ctl.outputs = #v[s.binding 0, s.binding 1] := by
    refine ext_getAt fun o => ?_
    fin_cases o <;> rfl
  have g0 : ∀ x, setAt s.ctl.outputs 0 x = #v[x, s.binding 1] := by
    intro x; refine ext_getAt fun o => ?_; rw [getAt_setAt]; fin_cases o <;> rfl
  have g1 : ∀ x, setAt s.ctl.outputs 1 x = #v[s.binding 0, x] := by
    intro x; refine ext_getAt fun o => ?_; rw [getAt_setAt]; fin_cases o <;> rfl
  have g01 : ∀ x y, setAt (setAt s.ctl.outputs 0 x) 1 y = #v[x, y] := by
    intro x y; rw [g0]; refine ext_getAt fun o => ?_; rw [getAt_setAt]; fin_cases o <;> rfl
  rw [hm]
  have b1 : ∀ x, State.binding { s with ctl := { s.ctl with outputs := setAt s.ctl.outputs 0 x } } 1 = s.binding 1 := by
    intro x
    show getAt (setAt s.ctl.outputs 0 x) 1 = _
    rw [getAt_setAt, if_neg (by decide)]; rfl
  by_cases p0 : (s.binding 0).pending.any (fun p => p.ctx == c) = true <;> by_cases p1 : (s.binding 1).pending.any (fun p => p.ctx == c) = true
  · have q0 : s.isPending 0 c = true := p0
    have q1 : s.isPending 1 c = true := p1
    rw [h1 0, if_pos q0, h1 1, if_pos ?_]
    · have e : State.binding { s with ctl := { s.ctl with outputs := setAt s.ctl.outputs 0 { s.binding 0 with pending := none } }, notices := s.notices.join (.tuneFailed (.output 0) c (s.context c).input (s.context c).service r) } 1 = s.binding 1 := b1 _
      rw [e]
      dsimp only
      rw [g01]
      simp only [p0, p1, if_true, outputNos, List.filter]
      rfl
    · unfold State.isPending
      exact (congrArg (fun x : OutBind => x.pending.any (fun p => p.ctx == c)) (b1 _)).trans p1
  · have q0 : s.isPending 0 c = true := p0
    have q1 : s.isPending 1 c = false := Bool.eq_false_iff.2 p1
    rw [h1 0, if_pos q0, h1 1, if_neg ?_]
    · dsimp only
      rw [g0]
      simp only [p0, p1, if_true, outputNos, List.filter]
      rfl
    · have : State.isPending { s with ctl := { s.ctl with outputs := setAt s.ctl.outputs 0 { s.binding 0 with pending := none } }, notices := s.notices.join (.tuneFailed (.output 0) c (s.context c).input (s.context c).service r) } 1 c = false := Eq.trans (congrArg (fun x : OutBind => x.pending.any (fun p : PendingBinding => p.ctx == c)) (b1 _)) q1
      simp [this]
  · have q0 : s.isPending 0 c = false := Bool.eq_false_iff.2 p0
    have q1 : s.isPending 1 c = true := p1
    rw [h1 0, if_neg (by simp [q0]), h1 1, if_pos q1]
    rw [g1]
    simp only [p0, p1, if_true, outputNos, List.filter]
    rfl
  · have q0 : s.isPending 0 c = false := Bool.eq_false_iff.2 p0
    have q1 : s.isPending 1 c = false := Bool.eq_false_iff.2 p1
    rw [h1 0, if_neg (by simp [q0]), h1 1, if_neg (by simp [q1])]
    simp only [p0, p1, outputNos, List.filter, Bool.false_eq_true, if_false]
    rw [← hs]
    rfl


theorem failContext_eq (c : CtxNo) (r : FailReason) (s : State) :
    failContext c r s = retire c
      { s with
        ctl := { s.ctl with
          contexts := setAt s.ctl.contexts c { s.context c with lastFailure := some r }
          outputs := s.ctl.outputs.map (fun b => if b.pending.any (fun p => p.ctx == c) then { b with pending := none } else b)
          tags := s.ctl.tags.map (fun r =>
            match r with
            | .bound c' w h => if c' = c then .idle else .bound c' w h
            | .idle => .idle
            | .draining c' => .draining c') }
        notices := s.notices.joinAll
          ((outputNos.filter (fun o => (s.binding o).pending.any (fun p => p.ctx == c))).map (fun o => .tuneFailed (.output o) c (s.context c).input (s.context c).service r) ++
          (tagNos.filter (fun k => (s.tag k).boundTo c)).map (fun k => .tuneFailed (.tag k) c (s.context c).input (s.context c).service r)) } := by
  have h : State.context (s.setContext c { s.context c with lastFailure := some r }) c = { s.context c with lastFailure := some r } := by
    show getAt (setAt _ c _) c = _
    rw [getAt_setAt, if_pos rfl]
  have h2 : ∀ (v) (q), State.context { (s.setContext c { s.context c with lastFailure := some r }) with ctl := { (s.setContext c { s.context c with lastFailure := some r }).ctl with outputs := v }, notices := q } c = { s.context c with lastFailure := some r } := fun _ _ => h
  unfold failContext
  dsimp only
  rw [failOutputs_eq, failTags_eq]
  simp only [h, h2]
  rw [joinAll_append]
  rfl

/-! ### Reports of slots and tiers -/

namespace ReportsOnly

variable {s t u : State}

theorem ofHolds (h : HoldsOnly s t) : ReportsOnly s t := by
  refine ⟨?_, fun c => .inl ?_, h.notices⟩
  · rw [h.bare]
    show State.mk .. = State.mk ..
    rw [h.contexts]
    rfl
  · show getAt _ c = getAt _ c; rw [h.contexts]

theorem refl (s : State) : ReportsOnly s s := ofHolds (HoldsOnly.refl s)

theorem trans (h : ReportsOnly s t) (h' : ReportsOnly t u) : ReportsOnly s u := by
  obtain ⟨l, hl, e⟩ := h.notices
  obtain ⟨m, hm, f⟩ := h'.notices
  refine ⟨?_, fun c => ?_, l ++ m, fun n hn => ?_, ?_⟩
  · rw [h'.bare, h.bare]
  · rcases h.contexts c with e | ⟨e1, e2⟩ <;> rcases h'.contexts c with f | ⟨f1, f2⟩
    · exact .inl (f.trans e)
    · rw [e] at f1 f2; exact .inr ⟨f1, f2⟩
    · exact .inr ⟨e1, f.trans e2⟩
    · rw [e2] at f1; exact absurd f1 (by simp)
  · rcases List.mem_append.1 hn with hn | hn
    · exact hl n hn
    · exact hm n hn
  · rw [f, e, joinAll_append]

/-- Everything but hold sets, notices and contexts is as it was. -/
theorem part {α : Type} (f : State → α)
    (hf : ∀ (s : State) (v : Vector Context 16), f { s.bare with ctl := { s.bare.ctl with contexts := v } } = f s)
    (h : ReportsOnly s t) : f t = f s := by
  rw [← hf t t.ctl.contexts]
  have := h.bare
  rw [this]
  exact hf s _

theorem access (h : ReportsOnly s t) : t.access = s.access := h.part State.access fun _ _ => rfl
theorem guide (h : ReportsOnly s t) : t.guide = s.guide := h.part State.guide fun _ _ => rfl
theorem clock (h : ReportsOnly s t) : t.clock = s.clock := h.part State.clock fun _ _ => rfl
theorem intake (h : ReportsOnly s t) : t.intake = s.intake := h.part State.intake fun _ _ => rfl

theorem judgeKey (c : CtxNo) (s : State) : ReportsOnly s (judgeKey c s) := by
  unfold Machine.judgeKey
  split
  · rename_i h
    simp only [Bool.and_eq_true, decide_eq_true_eq] at h
    refine ⟨rfl, fun d => ?_, [], by simp, rfl⟩
    have : State.context (s.setContext c { s.context c with state := .entry }) d =
        if c = d then { s.context c with state := .entry } else s.context d := by
      show getAt (setAt _ c _) d = _
      rw [getAt_setAt]; rfl
    rw [this]
    by_cases e : c = d
    · subst e; rw [if_pos rfl]; exact .inr ⟨h.1, rfl⟩
    · rw [if_neg e]; exact .inl rfl
  · exact refl s

theorem foldl {α : Type} {f : State → α → State} (hf : ∀ s x, ReportsOnly s (f s x)) (s : State) (l : List α) :
    ReportsOnly s (l.foldl f s) := by
  induction l generalizing s with
  | nil => exact refl s
  | cons a l ih => exact (hf s a).trans (ih _)

theorem slotReport (k : SlotNo) (s : State) : ReportsOnly s (slotReport k s) := by
  unfold Machine.slotReport
  split
  · exact refl s
  · exact (ofHolds (HoldsOnly.rejudge _ _ _)).trans (foldl (fun s c => judgeKey c s) _ _)

/-- Reports leave what ENTITLEMENT, KEY_LAPSE and SIGNAL are judged from. -/
theorem judged_eq (h : ReportsOnly s t) (w : Which) (hw : w.parental = false) (c : CtxNo) (d : Dest) (old : HoldSet) :
    judged t w c d old = judged s w c d old := by
  have hx : (t.context c).input = (s.context c).input ∧ (t.context c).service = (s.context c).service ∧
      (t.context c).slot = (s.context c).slot := by
    rcases h.contexts c with e | ⟨_, e⟩ <;> rw [e] <;> exact ⟨rfl, rfl, rfl⟩
  have e1 : t.up (t.context c).input = s.up (s.context c).input := by
    unfold State.up; rw [h.intake, hx.1]
  have e2 : slotOf t (t.context c) = slotOf s (s.context c) := by
    unfold slotOf; rw [hx.2.2]
    show (s.context c).slot.bind (fun k => getAt t.access.slots k) = _
    rw [h.access]; rfl
  have e3 : ∀ n, tierHeld t n = tierHeld s n := by
    intro n; unfold tierHeld; rw [h.access]
  have e4 : requiredTiers t (t.context c) = requiredTiers s (s.context c) := by
    unfold requiredTiers serviceRec currentEvent; rw [hx.1, hx.2.1, h.guide, h.clock]
  have e5 : entitlementReason t (t.context c) = entitlementReason s (s.context c) := by
    unfold entitlementReason; rw [e2, e4]; simp only [e3]
  have e6 : keyLapseReason t (t.context c) = keyLapseReason s (s.context c) := by
    unfold keyLapseReason; rw [e2]
  unfold judged
  simp only [e1, e5, e6, hw, Bool.false_eq_true, if_false]

end ReportsOnly

/-! ### Judged hold sets -/

theorem judged_judged (s : State) (w : Which) (c : CtxNo) (d : Dest) (old : HoldSet) :
    judged s w c d (judged s w c d old) = judged s w c d old := by
  rcases w with ⟨_ | _, _ | _, _ | _, _ | _⟩ <;> cases d <;> rfl

theorem JudgedOn.mono {t : State} {w : Which} {h g : CtxNo → Prop} (v : JudgedOn t w h) (hg : ∀ c, g c → h c) :
    JudgedOn t w g :=
  ⟨fun o b hb hh => v.current o b hb (hg _ hh), fun o b hb hh => v.pending o b hb (hg _ hh),
    fun k c x y hb hh => v.tag k c x y hb (hg _ hh)⟩

/-- Judging again leaves the named reasons on the destinations of the named contexts (R115). -/
theorem rejudge_judgedOn (w : Which) (p : CtxNo → Bool) (s : State) :
    JudgedOn (rejudge w p s) w (fun c => p c = true) := by
  refine ⟨fun o b hb hp => ?_, fun o b hb hp => ?_, fun k c x h hb hp => ?_⟩ <;>
    rw [judged_eq (HoldsOnly.rejudge w p s)]
  · obtain ⟨old, _, e⟩ := rejudge_current_after _ _ s o b hb
    rw [if_pos hp] at e
    rw [e, judged_judged]
  · obtain ⟨old, _, e⟩ := rejudge_pending_after _ _ s o b hb
    rw [if_pos hp] at e
    rw [e, judged_judged]
  · obtain ⟨old, _, e⟩ := rejudge_tag_after _ _ s k c x h hb
    rw [if_pos hp] at e
    rw [e, judged_judged]

/-- Contexts that go on to ENTRY leave hold sets judged as they are. -/
theorem JudgedOn.of_stage {s t : State} {w : Which} {hit : CtxNo → Prop} (h : JudgedOn s w hit) (hw : w.parental = false)
    (ht : ReportsOnly s t) (ho : t.ctl.outputs = s.ctl.outputs) (hk : t.ctl.tags = s.ctl.tags) : JudgedOn t w hit := by
  have h1 : ∀ o, t.binding o = s.binding o := fun o => by unfold State.binding; rw [ho]
  have h2 : ∀ k, t.tag k = s.tag k := fun k => by unfold State.tag; rw [hk]
  refine ⟨fun o b hb hh => ?_, fun o b hb hh => ?_, fun k c x y hb hh => ?_⟩ <;> rw [ht.judged_eq w hw]
  · exact h.current o b ((h1 o).symm ▸ hb) hh
  · exact h.pending o b ((h1 o).symm ▸ hb) hh
  · exact h.tag k c x y ((h2 k).symm ▸ hb) hh

/-! ### The report of a slot -/

theorem judgeKey_outputs (c : CtxNo) (s : State) :
    (judgeKey c s).ctl.outputs = s.ctl.outputs ∧ (judgeKey c s).ctl.tags = s.ctl.tags := by
  unfold judgeKey; split <;> exact ⟨rfl, rfl⟩

theorem slotOf_opens (s : State) (x : Context) : (slotOf s x).any Slot.opens = true ↔ opensFor s x := by
  unfold slotOf opensFor Slot.opens
  rcases x.slot with _ | k
  · simp
  · rcases h : s.slot k with _ | y <;> simp [h]

theorem judgeKey_context (c d : CtxNo) (s : State) :
    (c = d → (s.context d).state = .key → opensFor s (s.context d) →
      (judgeKey c s).context d = { s.context d with state := .entry }) ∧
    (¬(c = d ∧ (s.context d).state = .key ∧ opensFor s (s.context d)) → (judgeKey c s).context d = s.context d) := by
  have hset : State.context (s.setContext c { s.context c with state := .entry }) d =
      if c = d then { s.context c with state := .entry } else s.context d := by
    show getAt (setAt _ c _) d = _
    rw [getAt_setAt]; rfl
  unfold judgeKey
  constructor
  · rintro rfl h1 h2
    rw [if_pos (by simp [h1, slotOf_opens, h2]), hset, if_pos rfl]
  · intro h
    split
    · rename_i hh
      simp only [Bool.and_eq_true, decide_eq_true_eq, slotOf_opens] at hh
      rw [hset, if_neg]
      rintro rfl
      exact h ⟨rfl, hh⟩
    · rfl

/-- Contexts in KEY judge their slots one after another (R105). -/
theorem judgeKeys (l : List CtxNo) (s : State) :
    ReportsOnly s (l.foldl (fun s c => judgeKey c s) s) ∧
    ((l.foldl (fun s c => judgeKey c s) s).ctl.outputs = s.ctl.outputs ∧
      (l.foldl (fun s c => judgeKey c s) s).ctl.tags = s.ctl.tags) ∧
    ∀ d, (d ∈ l → (s.context d).state = .key → opensFor s (s.context d) →
        (l.foldl (fun s c => judgeKey c s) s).context d = { s.context d with state := .entry }) ∧
      (¬(d ∈ l ∧ (s.context d).state = .key ∧ opensFor s (s.context d)) →
        (l.foldl (fun s c => judgeKey c s) s).context d = s.context d) := by
  induction l generalizing s with
  | nil => exact ⟨.refl s, ⟨rfl, rfl⟩, fun d => ⟨by simp, fun _ => rfl⟩⟩
  | cons a l ih =>
    obtain ⟨i1, i2, i3⟩ := ih (judgeKey a s)
    have hr := ReportsOnly.judgeKey a s
    have ho := judgeKey_outputs a s
    refine ⟨hr.trans i1, ⟨i2.1.trans ho.1, i2.2.trans ho.2⟩, fun d => ?_⟩
    obtain ⟨k1, k2⟩ := judgeKey_context a d s
    obtain ⟨j1, j2⟩ := i3 d
    have hop : ∀ x, opensFor (judgeKey a s) x ↔ opensFor s x := by
      intro x
      rw [← slotOf_opens, ← slotOf_opens]
      unfold slotOf
      show (x.slot.bind fun k => getAt (judgeKey a s).access.slots k).any _ = true ↔ _
      rw [hr.access]; rfl
    rw [List.foldl_cons]
    by_cases had : a = d ∧ (s.context d).state = .key ∧ opensFor s (s.context d)
    · have e := k1 had.1 had.2.1 had.2.2
      have e2 := j2 (by rw [e]; simp)
      exact ⟨fun _ _ _ => e2.trans e, fun h => absurd ⟨by simp [had.1], had.2⟩ h⟩
    · have e := k2 had
      rw [e] at j1 j2
      rw [hop] at j1 j2
      refine ⟨fun h1 h2 h3 => ?_, fun h => j2 fun ⟨p, q⟩ => h ⟨List.mem_cons_of_mem _ p, q⟩⟩
      rcases List.mem_cons.1 h1 with rfl | h1
      · exact absurd ⟨rfl, h2, h3⟩ had
      · exact j1 h1 h2 h3

theorem mem_ctxNos (c : CtxNo) : c ∈ ctxNos := by fin_cases c <;> decide

/-- A slot's condition is reported to its users (R85). -/
theorem slotReport_reported (k : SlotNo) (x : Slot) (s : State) (hk : s.slot k = some x) :
    SlotReported x.users s (slotReport k s) := by
  unfold slotReport
  rw [hk]
  dsimp only
  have hh := HoldsOnly.rejudge judgeSlot (hasBit x.users) s
  obtain ⟨i1, i2, i3⟩ := judgeKeys (ctxNos.filter (hasBit x.users)) (rejudge judgeSlot (hasBit x.users) s)
  have hc : ∀ c, (rejudge judgeSlot (hasBit x.users) s).context c = s.context c :=
    fun c => congrArg (fun v => getAt v c) hh.contexts
  have hop : ∀ y, opensFor (rejudge judgeSlot (hasBit x.users) s) y ↔ opensFor s y := by
    intro y
    rw [← slotOf_opens, ← slotOf_opens]
    unfold slotOf
    show (y.slot.bind fun k => getAt (rejudge judgeSlot (hasBit x.users) s).access.slots k).any _ = true ↔ _
    rw [hh.access]; rfl
  have hm : ∀ c, c ∈ ctxNos.filter (hasBit x.users) ↔ hasBit x.users c = true := by
    intro c; simp [List.mem_filter, mem_ctxNos]
  simp only [hc, hop, hm] at i3
  exact ⟨(ReportsOnly.ofHolds hh).trans i1, (rejudge_judgedOn judgeSlot (hasBit x.users) s).of_stage rfl i1 i2.1 i2.2,
    fun c => (i3 c).1, fun c => (i3 c).2⟩

theorem judged_comm (s : State) (w v : Which) (c : CtxNo) (d : Dest) (old : HoldSet) :
    judged s w c d (judged s v c d old) = judged s v c d (judged s w c d old) := by
  rcases w with ⟨_ | _, _ | _, _ | _, _ | _⟩ <;> rcases v with ⟨_ | _, _ | _, _ | _, _ | _⟩ <;> cases d <;> rfl

/-- What is judged stays so when some reasons are judged again. -/
theorem JudgedOn.rejudge {s : State} {w : Which} {hit : CtxNo → Prop} (h : JudgedOn s w hit) (v : Which)
    (p : CtxNo → Bool) : JudgedOn (Machine.rejudge v p s) w hit := by
  have key : ∀ (c : CtxNo) (d : Dest) (old x : HoldSet), old = judged s w c d old →
      x = (if p c = true then judged s v c d old else old) → x = judged s w c d x := by
    intro c d old x ho hx
    subst hx
    split
    · rw [judged_comm, ← ho]
    · exact ho
  refine ⟨fun o b hb hp => ?_, fun o b hb hp => ?_, fun k c x y hb hp => ?_⟩ <;>
    rw [judged_eq (HoldsOnly.rejudge v p s)]
  · obtain ⟨old, ho, e⟩ := rejudge_current_after _ _ s o b hb
    exact key _ _ old _ (h.current o ⟨b.ctx, old⟩ ho hp) e
  · obtain ⟨old, ho, e⟩ := rejudge_pending_after _ _ s o b hb
    exact key _ _ old _ (h.pending o ⟨b.ctx, b.wait, old⟩ ho hp) e
  · obtain ⟨old, ho, e⟩ := rejudge_tag_after _ _ s k c x y hb
    exact key _ _ _ _ (h.tag k c x _ ho hp) e

/-- What is judged stays so at the report of a slot. -/
theorem JudgedOn.slotReport {s : State} {w : Which} {hit : CtxNo → Prop} (h : JudgedOn s w hit) (hw : w.parental = false)
    (k : SlotNo) : JudgedOn (Machine.slotReport k s) w hit := by
  unfold Machine.slotReport
  split
  · exact h
  · obtain ⟨i1, i2, _⟩ := judgeKeys (ctxNos.filter (hasBit _)) (Machine.rejudge judgeSlot (hasBit _) s)
    exact (h.rejudge _ _).of_stage hw i1 i2.1 i2.2

/-- A report after reports of other users. -/
theorem SlotsReported.trans {f g : CtxNo → Prop} {s t u : State} (h : SlotsReported f s t) (h' : SlotsReported g t u)
    (hu : JudgedOn u judgeSlot f) : SlotsReported (fun c => f c ∨ g c) s u := by
  have hop : ∀ y, opensFor t y ↔ opensFor s y := by
    intro y
    rw [← slotOf_opens, ← slotOf_opens]
    unfold slotOf
    show (y.slot.bind fun k => getAt t.access.slots k).any _ = true ↔ _
    rw [h.only.access]; rfl
  refine ⟨h.only.trans h'.only, ⟨fun o b hb hh => ?_, fun o b hb hh => ?_, fun k c x y hb hh => ?_⟩, fun c hc h1 h2 => ?_,
    fun c hn => ?_⟩
  · exact hh.elim (hu.current o b hb) (h'.reasons.current o b hb)
  · exact hh.elim (hu.pending o b hb) (h'.reasons.pending o b hb)
  · exact hh.elim (hu.tag k c x y hb) (h'.reasons.tag k c x y hb)
  · by_cases hf : f c
    · have e := h.opened c hf h1 h2
      rw [h'.stays c (by rw [e]; simp), e]
    · have e := h.stays c fun hh => hf hh.1
      have hg := hc.resolve_left hf
      rw [h'.opened c hg (by rw [e]; exact h1) (by rw [e]; exact (hop _).2 h2), e]
  · have e := h.stays c fun hh => hn ⟨.inl hh.1, hh.2⟩
    rw [h'.stays c (by rw [e, hop]; exact fun hh => hn ⟨.inr hh.1, hh.2⟩), e]

theorem SlotsReported.congr {f g : CtxNo → Prop} {s t : State} (h : SlotsReported f s t) (e : ∀ c, f c ↔ g c) :
    SlotsReported g s t := by
  have : f = g := funext fun c => propext (e c)
  exact this ▸ h

/-- The conditions of several slots are reported one after another (R85). -/
theorem slotReports_reported (l : List SlotNo) (s : State) :
    SlotsReported (fun c => ∃ k ∈ l, ∃ x, s.slot k = some x ∧ hasBit x.users c = true) s
      (l.foldl (fun s k => slotReport k s) s) ∧
    ∀ w hit, w.parental = false → JudgedOn s w hit → JudgedOn (l.foldl (fun s k => slotReport k s) s) w hit := by
  induction l generalizing s with
  | nil =>
    exact ⟨⟨.refl s, ⟨by simp, by simp, by simp⟩, by simp, fun _ _ => rfl⟩, fun _ _ _ h => h⟩
  | cons k l ih =>
    obtain ⟨i1, i2⟩ := ih (slotReport k s)
    have hslot : ∀ j, (slotReport k s).slot j = s.slot j := by
      intro j
      show getAt (slotReport k s).access.slots j = _
      rw [(ReportsOnly.slotReport k s).access]; rfl
    rw [List.foldl_cons]
    refine ⟨?_, fun w hit hw h => i2 w hit hw (h.slotReport hw k)⟩
    cases hk : s.slot k with
    | none =>
      have e : slotReport k s = s := by unfold slotReport; rw [hk]
      rw [e] at i1 ⊢
      exact i1.congr fun c => by simp [hk]
    | some x =>
      have h1 := slotReport_reported k x s hk
      exact (h1.trans i1 (i2 _ _ rfl h1.reasons)).congr fun c => by simp [hslot, hk]

theorem mem_slotNos (k : SlotNo) : k ∈ slotNos := by fin_cases k <;> decide

theorem eraseSlots_eq (l : List SlotNo) (hl : l.Nodup) (s : State) :
    ∃ v, l.foldl (fun s k => s.setSlot k ((s.slot k).map Slot.erased)) s = { s with access := { s.access with slots := v } } ∧
      ∀ k, getAt v k = if k ∈ l then (s.slot k).map Slot.erased else s.slot k := by
  induction l generalizing s with
  | nil => exact ⟨s.access.slots, rfl, fun k => by simp; rfl⟩
  | cons a l ih =>
    have hn := List.nodup_cons.1 hl
    obtain ⟨v, h1, h2⟩ := ih hn.2 (s.setSlot a ((s.slot a).map Slot.erased))
    refine ⟨v, by rw [List.foldl_cons, h1]; rfl, fun k => ?_⟩
    rw [h2]
    have : ∀ k, State.slot (s.setSlot a ((s.slot a).map Slot.erased)) k = if a = k then (s.slot a).map Slot.erased else s.slot k := by
      intro k
      show getAt (setAt _ a _) k = _
      rw [getAt_setAt]; rfl
    rw [this]
    by_cases e : a = k
    · subst e; simp [hn.1]
    · simp [e, Ne.symm e]

end Sys2Proof.Machine
end

