-- ==== Sys2Proof/Laws/Handling.lean ====
section
/-! SUPPORT. How single operations answer: places, the hand-over of orders, users, exceptions and slots, lost
tiers, events, stamps, the gate of the parental lock and PIN checks. -/

namespace Sys2Proof.Machine

/-! ### Places -/

/-- A number in range names its place. -/
theorem place_some {n : Nat} {v : Nat} (f : Fin n) (h : f.val = v) : place n v = some f := by
  unfold place; rw [dif_pos (by rw [← h]; exact f.isLt)]; congr 1; exact Fin.ext h.symm

/-- A number out of range names none. -/
theorem place_none {n v : Nat} (h : n ≤ v) : place n v = none := by
  unfold place; rw [dif_neg (by omega)]

/-- Bringing a value into a range. -/
theorem clamp_eq (lo hi v : Nat) (h : lo ≤ hi) : clamp lo hi v = max lo (min hi v) := by
  unfold clamp; split
  · omega
  · split <;> omega

/-- Two bytes agree under a mask when they agree in each bit of the mask. -/
theorem and_mask_eq_iff (p m b : Byte) : p &&& m = b &&& m ↔ ∀ k < 8, m.getLsbD k = true →
    p.getLsbD k = b.getLsbD k := by
  constructor
  · intro h k hk hm
    have := congrArg (fun v => BitVec.getLsbD v k) h
    simpa [hm] using this
  · intro h; apply BitVec.eq_of_getLsbD_eq; intro k hk
    simp only [BitVec.getLsbD_and]
    cases hm : m.getLsbD k
    · simp
    · simp [h k hk hm]

/-! ### The hand-over of orders -/

/-- An order that is handed on is taken by its owner and answered (R171). -/
theorem exec_handed (i : Instr) (s : State) (code tag : Byte) (params : List Byte) (h : orderParts i = some (code,
    tag, params)) (hh : s.handsOn = true) :
   exec i s = .next (pushAnswer code tag (takeOrder i s).1 (takeOrder i s).2) := by
  rw [exec_order i s code tag params h]; unfold handOver; rw [if_pos hh]

/-- An order that is read has a code and a tag, those it was read with. -/
theorem orderParts_of_readOrder (code tag : Byte) (params : List Byte) (i : Instr) (h :
    readOrder code tag params = .order i) : ∃ ps, orderParts i = some (code, tag, ps) := by
  have hb : ∀ n : Nat, n < 256 → code.toNat = n → code = BitVec.ofNat 8 n := by
    intro n hn hc; apply BitVec.eq_of_toNat_eq; simp [hc]; omega
  unfold readOrder at h
  split at h <;> rename_i hc
  all_goals try (have hcode := hb _ (by decide) hc; clear hb hc)
  all_goals try simp only [readSetFilter, readSetSource, readTwoForms, readPlay, readLoadRatingRow, readSetProfile,
    readSetPin] at h
  all_goals (repeat' split at h)
  all_goals first | (cases h; done) | (cases h; rw [hcode]; exact ⟨_, rfl⟩)

/-- Packets whose order list has ended leave the buffer at once (log 18). -/
theorem dropEnded_idem (l : List OrderPacket) (p : OrderPacket) (rest) (h : dropEnded l = p :: rest) :
    dropEnded (p :: rest) = p :: rest := by
  induction l with
  | nil => cases h
  | cons a l ih =>
    rw [dropEnded] at h
    split at h
    · exact ih h
    · rename_i hh
      cases h
      rw [dropEnded, if_neg hh]

/-! ### Users of the stream table -/

/-- A user touches no section, and a refused one nothing at all (R15, R17). -/
theorem addUser_keeps (i st role r s) : (addUser i st role r s).2.sections = s.sections ∧
    ((addUser i st role r s).1 ≠ .granted → (addUser i st role r s).2 = s) := by
  unfold addUser
  (repeat' split) <;> simp

/-- Pins of a filter touch no section. -/
theorem addFilterPins_sections (f : FilterNo) (st : Nat) (l : List Input) (s : State) :
    (addFilterPins f st l s).2.2.sections = s.sections := by
  induction l generalizing s with
  | nil => rfl
  | cons i l ih =>
    have := (addUser_keeps i st .sections (.pin (.filter f)) s).1
    unfold addFilterPins
    split
    · rename_i s' h; rw [h] at this; exact (ih s').trans this
    · rename_i r s' hne h; rw [h] at this; exact this

/-! ### The access engine -/

/-- An exception changes the log, its overflow mark and the notice queue only (R78, R79). -/
theorem logException_keeps (kind : ExceptionKind) (i : Input) (st : Nat) (tier : Option Nat) (seq : Nat) (s t : State)
    (ht : t = logException kind i st tier seq s) :
    t.access.slots = s.access.slots ∧ t.standing = s.standing ∧ t.table = s.table ∧ t.sections = s.sections ∧
      t.parental = s.parental ∧ t.out = s.out ∧ t.ctl = s.ctl := by
  subst ht
  unfold logException; dsimp only; repeat' split
  all_goals simp [offer_join]
  all_goals rfl

/-- A slot takes its new contents; the report, where there is one, changes hold sets and contexts in KEY only (R85). -/
theorem updateSlot_spec (k : SlotNo) (x : Slot) (s u : State) (hu : u = s.setSlot k (some x)) :
    (slotCondition u k = slotCondition s k → updateSlot k x s = u) ∧
      (slotCondition u k ≠ slotCondition s k → SlotReported x.users u (updateSlot k x s)) := by
  subst hu
  unfold updateSlot
  refine ⟨fun h => if_pos h, fun h => ?_⟩
  dsimp only
  rw [if_neg h]
  refine slotReport_reported k x _ ?_
  show getAt (setAt _ k _) k = _
  rw [getAt_setAt, if_pos rfl]

/-- The erased slots of lost tiers, and their reports (R76). -/
theorem eraseTiers_lost (gone : Entitlement → Bool) (lost : List Nat) (s s0 : State)
    (h0 : s0 = s.without gone s.access.slots)
    (hl : ∀ q, q ∈ lost ↔ ∃ r ∈ s.access.entitlements, gone r = true ∧ q = r.tier)
    (hex : ∃ r ∈ s.access.entitlements, gone r = true) :
    TiersLost gone s
      (tierReport ((slotsOfTiers lost s0).foldl (fun s k => slotReport k s)
        ((slotsOfTiers lost s0).foldl (fun s k => s.setSlot k ((s.slot k).map Slot.erased)) s0))) := by
  obtain ⟨v, h1, h2⟩ := eraseSlots_eq (slotsOfTiers lost s0) (List.Nodup.filter _ (by decide)) s0
  rw [h1]
  have e0 : ∀ k, s0.slot k = s.slot k := by rw [h0]; exact fun _ => rfl
  have hmem : ∀ k, k ∈ slotsOfTiers lost s0 ↔ ∃ x, s.slot k = some x ∧ x.losesTier gone s := by
    intro k
    unfold slotsOfTiers Slot.losesTier
    simp only [List.mem_filter, mem_slotNos k, true_and, e0]
    cases s.slot k with
    | none => simp
    | some x => cases hx : x.tier with
      | none => simp [hx]
      | some q => simp [hx, hl]
  have hbase : ({ s0 with access := { s0.access with slots := v } } : State) = s.without gone v := by rw [h0]; rfl
  rw [hbase]
  obtain ⟨r1, _⟩ := slotReports_reported (slotsOfTiers lost s0) (s.without gone v)
  have hh := HoldsOnly.tierReport ((slotsOfTiers lost s0).foldl (fun s k => slotReport k s) (s.without gone v))
  have r2 : SlotsReported (fun c => ∃ k x, s.slot k = some x ∧ x.losesTier gone s ∧ hasBit x.users c = true)
      (s.without gone v)
      (tierReport ((slotsOfTiers lost s0).foldl (fun s k => slotReport k s) (s.without gone v))) := by
    have hc : ∀ c, (tierReport ((slotsOfTiers lost s0).foldl (fun s k => slotReport k s) (s.without gone v))).context c =
        ((slotsOfTiers lost s0).foldl (fun s k => slotReport k s) (s.without gone v)).context c :=
      fun c => congrArg (fun v => getAt v c) hh.contexts
    refine SlotsReported.congr
      ⟨r1.only.trans (.ofHolds hh), r1.reasons.rejudge judgeEntitlement _, fun c => ?_, fun c => ?_⟩ fun c => ?_
    · rw [hc]; exact r1.opened c
    · rw [hc]; exact r1.stays c
    · have hv : ∀ k ∈ slotsOfTiers lost s0, (s.without gone v).slot k = (s.slot k).map Slot.erased := by
        intro k hk
        show getAt v k = _
        rw [h2, if_pos hk, e0]
      constructor
      · rintro ⟨k, hk, y, hy, hb⟩
        obtain ⟨x, hx, hlose⟩ := (hmem k).1 hk
        rw [hv k hk, hx] at hy
        cases hy
        exact ⟨k, x, hx, hlose, hb⟩
      · rintro ⟨k, x, hx, hlose, hb⟩
        have hk := (hmem k).2 ⟨x, hx, hlose⟩
        exact ⟨k, hk, x.erased, by rw [hv k hk, hx]; rfl, hb⟩
  have hs : (tierReport ((slotsOfTiers lost s0).foldl (fun s k => slotReport k s) (s.without gone v))).access.slots = v := by
    rw [r2.only.access]; rfl
  refine ⟨by rw [hs]; exact r2.only, fun k x hx hlose => ?_, fun k hn => ?_, fun h => ?_, fun _ => by rw [hs]; exact r2,
    fun _ => ?_⟩
  · show getAt _ k = _
    rw [hs, h2, if_pos ((hmem k).2 ⟨x, hx, hlose⟩), e0, hx]
    rfl
  · show getAt _ k = _
    rw [hs, h2, if_neg fun hk => ?_, e0]
    obtain ⟨x, hx, hlose⟩ := (hmem k).1 hk
    exact hn x hx hlose
  · obtain ⟨r, hr, hg⟩ := hex
    exact absurd (h r hr) (by simp [hg])
  · exact (rejudge_judgedOn judgeEntitlement (fun _ => true) _).mono fun _ _ => rfl

/-- Removing records loses their tiers (R76). -/
theorem removeTiers_lost (gone : Entitlement → Bool) (s : State) : TiersLost gone s (removeTiers gone s) := by
  unfold removeTiers loseTiers
  split
  · rename_i hemp
    simp only [List.isEmpty_iff, List.map_eq_nil_iff, List.filter_eq_nil_iff] at hemp
    have hf : s.access.entitlements.filter (fun r => !gone r) = s.access.entitlements :=
      List.filter_eq_self.2 fun r hr => by simpa using hemp r hr
    have hs : { s with access := { s.access with entitlements := s.access.entitlements.filter (fun r => !gone r) } } = s := by
      rw [hf]
    rw [hs]
    have hn : ¬∃ r ∈ s.access.entitlements, gone r = true := fun ⟨r, hr, hg⟩ => hemp r hr hg
    refine ⟨?_, fun k x _ ⟨r, hr, hg, _⟩ => absurd ⟨r, hr, hg⟩ hn, fun _ _ => rfl, fun _ => rfl, fun h => absurd h hn,
      fun h => absurd h hn⟩
    show ReportsOnly { s with access := { s.access with entitlements := _ } } s
    rw [hs]
    exact ReportsOnly.refl s
  · rename_i hne
    refine eraseTiers_lost gone _ s _ rfl (fun q => ?_) ?_
    swap
    · simp only [List.isEmpty_iff, List.map_eq_nil_iff, List.filter_eq_nil_iff, not_forall, not_not] at hne
      obtain ⟨r, hr, hg⟩ := hne
      exact ⟨r, hr, hg⟩
    simp only [List.mem_map, List.mem_filter]
    constructor
    · rintro ⟨r, ⟨a, b⟩, rfl⟩; exact ⟨r, a, b, rfl⟩
    · rintro ⟨r, a, b, rfl⟩; exact ⟨r, ⟨a, b⟩, rfl⟩

/-! ### The guide store -/

/-- An event starts no later than another, services and ids deciding between equal starts (R61). -/
def Event.notAfter (a b : Event) : Prop :=
  a.start < b.start ∨ a.start = b.start ∧ (a.service < b.service ∨ a.service = b.service ∧ a.id ≤ b.id)

theorem Event.notAfter_refl (a : Event) : a.notAfter a := by unfold Event.notAfter; omega

theorem Event.notAfter_trans {a b c : Event} (h : a.notAfter b) (h' : b.notAfter c) : a.notAfter c := by
  unfold Event.notAfter at *
  omega

theorem laterStarting_later (a b : Event) : Event.notAfter a (laterStarting a b) ∧
    Event.notAfter b (laterStarting a b) := by
  unfold laterStarting; split <;> rename_i h <;> simp at h <;> unfold Event.notAfter <;> omega

theorem foldl_laterStarting (l : List Event) (e : Event) : Event.notAfter e (l.foldl laterStarting e) ∧ ∀ x ∈ l,
    Event.notAfter x (l.foldl laterStarting e) := by
  induction l generalizing e with
  | nil => exact ⟨Event.notAfter_refl e, by simp⟩
  | cons a l ih =>
    obtain ⟨h1, h2⟩ := ih (laterStarting e a)
    refine ⟨Event.notAfter_trans (laterStarting_later e a).1 h1, fun x hx => ?_⟩
    rcases List.mem_cons.1 hx with rfl | hx
    · exact Event.notAfter_trans (laterStarting_later e x).2 h1
    · exact h2 x hx

/-! ### Stamps -/

/-- A 48-bit value in 6 bytes. -/
theorem bytesValue_enc48 (v : Nat) (h : v < 2 ^ 48) : bytesValue (enc16 (v / 4294967296) ++ enc32 v) = v := by
  simp only [enc16, enc32, bytesValue, List.cons_append, List.nil_append, List.foldl_cons, List.foldl_nil,
    BitVec.toNat_ofNat]
  omega

/-- Stamping leaves every byte outside bytes 6 to 11 (R156). -/
theorem getD_withStamp (p : List Byte) (b e : Nat) (hp : p.length = 188) (i : Nat) (hi : i < 6 ∨ 12 ≤ i) :
    (withStamp p b e).getD i 0 = p.getD i 0 := by
  unfold withStamp
  simp only [List.getD_eq_getElem?_getD]
  congr 1
  rcases hi with hi | hi
  · rw [List.append_assoc, List.getElem?_append_left (by simp [hp]; omega), List.getElem?_take_of_lt hi]
  · rw [List.getElem?_append_right (by simp [hp, enc16, enc32]; omega), List.getElem?_drop]
    congr 1
    simp [hp, enc16, enc32]; omega

/-! ### Verdicts, the gate and PIN checks -/

/-- A gated order that fails the gate has no effect of its own (R144). -/
theorem gated_of_fails {q pin s r u} (h : FailsGate q pin s r u) (f) : gated q pin f s = (r, u) := by
  unfold gated
  rcases h with ⟨⟨d, rfl, hd⟩ | ⟨hl, rfl⟩, rfl, rfl⟩ | ⟨hl, d, x, rfl, hd, hc, hx, rfl⟩
  · simp [hd]
  · simp [hl, afterCheck]
  · simp [hd, hl, afterCheck, hc]

/-- A gated order that passes the gate has its effect (R144). -/
theorem gated_of_passes {q pin s u} (h : PassesGate q pin s u) (f) : gated q pin f s = f u := by
  obtain ⟨hd, h⟩ := h
  have ha : (!pin.all digitsOk) = false := by cases pin <;> simp_all
  unfold gated
  rw [ha]
  rcases h with ⟨hl, rfl⟩ | ⟨hl, d, rfl, hc⟩
  · simp [hl]
  · simp [hl, afterCheck, hc]

theorem VerdictsOn.mono {t : State} {h g : CtxNo → OutputNo → Prop} (v : VerdictsOn t h) (hg : ∀ c o, g c o →
    h c o) : VerdictsOn t g :=
  ⟨fun o b hb hh => v.1 o b hb (hg _ _ hh), fun o b hb hh => v.2 o b hb (hg _ _ hh)⟩

/-- The verdicts of an output's pairs computed again are those of the state (R136). -/
theorem rejudgeOutput_on (p : CtxNo → Bool) (o : OutputNo) (s : State) :
    VerdictsOn (rejudgeOutput judgeVerdict p o s) (fun c o' => o' = o ∧ p c = true) := by
  have hh := HoldsOnly.rejudgeOutput judgeVerdict p o s
  refine ⟨fun o' b hb hp => ?_, fun o' b hb hp => ?_⟩ <;> obtain ⟨rfl, hp⟩ := hp <;> rw [verdict_eq hh]
  · have h1 := bare_current hh.bare o'
    rw [hb] at h1
    obtain ⟨b0, h0, e⟩ := of_map_some h1.symm
    have h2 := rejudgeOutput_current judgeVerdict p o' s b0 h0
    rw [hb] at h2
    have h3 := Option.some.inj h2
    have e : b0.ctx = b.ctx := e
    rw [e, if_pos hp] at h3
    rw [h3]; rfl
  · have h1 := bare_pending hh.bare o'
    rw [hb] at h1
    obtain ⟨b0, h0, e⟩ := of_map_some h1.symm
    have h2 := rejudgeOutput_pending judgeVerdict p o' s b0 h0
    rw [hb] at h2
    have h3 := Option.some.inj h2
    have e : b0.ctx = b.ctx := e
    rw [e, if_pos hp] at h3
    rw [h3]; rfl

/-- A verdict put into a hold set leaves the other reasons as they were judged. -/
theorem judged_withVerdict (s : State) (w : Which) (hw : w.parental = false) (c : CtxNo) (o : OutputNo) (h : HoldSet)
    (v : Reasons) (hj : h = judged s w c (.output o) h) :
    ({ h with parental := v } : HoldSet) = judged s w c (.output o) { h with parental := v } := by
  have h1 := congrArg HoldSet.signal hj
  have h2 := congrArg HoldSet.entitlement hj
  have h3 := congrArg HoldSet.keyLapse hj
  simp only [judged] at h1 h2 h3
  simp only [judged, hw, HoldSet.mk.injEq]
  exact ⟨h1, h2, h3, rfl⟩

/-- Verdicts computed again leave the other reasons as they were judged. -/
theorem JudgedOn.rejudgeOutput {s : State} {w : Which} {hit : CtxNo → Prop} (h : JudgedOn s w hit) (hw : w.parental = false)
    (p : CtxNo → Bool) (o : OutputNo) : JudgedOn (Machine.rejudgeOutput judgeVerdict p o s) w hit := by
  have hh := HoldsOnly.rejudgeOutput judgeVerdict p o s
  refine ⟨fun o' b hb hc => ?_, fun o' b hb hc => ?_, fun k c x y hb hc => ?_⟩ <;> rw [judged_eq hh]
  · by_cases ho : o = o'
    · subst ho
      have h1 := bare_current hh.bare o
      rw [hb] at h1
      obtain ⟨b0, h0, e⟩ := of_map_some h1.symm
      have h2 := rejudgeOutput_current judgeVerdict p o s b0 h0
      rw [hb] at h2
      have h3 := Option.some.inj h2
      have e : b0.ctx = b.ctx := e
      have hj := h.current o b0 h0 (e ▸ hc)
      split at h3
      · rw [h3]
        exact judged_withVerdict s w hw _ _ _ _ hj
      · rw [h3]; exact hj
    · exact h.current o' b (rejudgeOutput_other judgeVerdict p o o' s ho ▸ hb) hc
  · by_cases ho : o = o'
    · subst ho
      have h1 := bare_pending hh.bare o
      rw [hb] at h1
      obtain ⟨b0, h0, e⟩ := of_map_some h1.symm
      have h2 := rejudgeOutput_pending judgeVerdict p o s b0 h0
      rw [hb] at h2
      have h3 := Option.some.inj h2
      have e : b0.ctx = b.ctx := e
      have hj := h.pending o b0 h0 (e ▸ hc)
      split at h3
      · rw [h3]
        exact judged_withVerdict s w hw _ _ _ _ hj
      · rw [h3]; exact hj
    · exact h.pending o' b (rejudgeOutput_other judgeVerdict p o o' s ho ▸ hb) hc
  · refine h.tag k c x y ?_ hc
    have e : (Machine.rejudgeOutput judgeVerdict p o s).tag k = s.tag k := by
      unfold State.tag
      rw [rejudgeOutput_tags]
    exact e ▸ hb

/-- Grants and notices play no part in ENTITLEMENT. -/
theorem JudgedOn.withGrants {s : State} {hit : CtxNo → Prop} (h : JudgedOn s judgeEntitlement hit) (g : List Grant)
    (n : NoticeQueue) :
    JudgedOn { s with parental := { s.parental with grants := g }, notices := n } judgeEntitlement hit :=
  ⟨h.current, h.pending, h.tag⟩

/-- Both outputs computed again, each for the contexts its own test names. -/
theorem rejudgeEach_on (p : OutputNo → CtxNo → Bool) (s t : State)
    (ht : t = outputNos.foldl (fun s o => rejudgeOutput judgeVerdict (p o) o s) s) :
    HoldsOnly s t ∧ VerdictsOn t (fun c o => p o c = true) ∧
      ∀ w hit, w.parental = false → JudgedOn s w hit → JudgedOn t w hit := by
  subst ht
  have h0 := rejudgeOutput_on (p 0) 0 s
  have h1 := rejudgeOutput_on (p 1) 1 (rejudgeOutput judgeVerdict (p 0) 0 s)
  have hh := HoldsOnly.rejudgeOutput judgeVerdict (p 1) 1 (rejudgeOutput judgeVerdict (p 0) 0 s)
  have hb0 := rejudgeOutput_other judgeVerdict (p 1) 1 0 (rejudgeOutput judgeVerdict (p 0) 0 s) (by decide)
  refine ⟨HoldsOnly.foldl (fun s o => HoldsOnly.rejudgeOutput _ _ _ s) s outputNos,
    ⟨fun o b hb hp => ?_, fun o b hb hp => ?_⟩, fun w hit hw h => (h.rejudgeOutput hw (p 0) 0).rejudgeOutput hw (p 1) 1⟩ <;>
    rcases output_cases o with rfl | rfl
  · refine (h0.1 0 b ?_ ⟨rfl, hp⟩).trans (verdict_eq hh _ _).symm
    rw [← hb0]; exact hb
  · exact h1.1 1 b hb ⟨rfl, hp⟩
  · refine (h0.2 0 b ?_ ⟨rfl, hp⟩).trans (verdict_eq hh _ _).symm
    rw [← hb0]; exact hb
  · exact h1.2 1 b hb ⟨rfl, hp⟩

/-- Verdicts computed again are those of the state (R136). -/
theorem rejudgeVerdicts_on (p : CtxNo → Bool) (s : State) :
    VerdictsOn (rejudgeVerdicts p s) (fun c _ => p c = true) :=
  (rejudgeEach_on (fun _ => p) s _ rfl).2.1

/-- A changed current event is reported (R63): ENTITLEMENT is judged, outlived grants end, verdicts are computed again. -/
theorem reportEvent_reported (service : Nat) (ended : Grant → Bool) (s : State) :
    ∃ v : State, HoldsOnly s v ∧ JudgedOn v judgeEntitlement (fun c => runningOn s service c = true) ∧
      HoldsOnly (endGrants ended .event v) (reportEvent service ended s) ∧
      JudgedOn (reportEvent service ended s) judgeEntitlement (fun c => runningOn s service c = true) ∧
      VerdictsOn (reportEvent service ended s)
        (fun c o => runningOn s service c = true ∨ ∃ g ∈ s.parental.grants, ended g = true ∧ g.output = o) := by
  have hh := HoldsOnly.rejudge judgeEntitlement (runningOn s service) s
  have hr : ∀ t : State, t.ctl.contexts = s.ctl.contexts → runningOn t service = runningOn s service := by
    intro t ht
    funext c
    unfold runningOn onService State.context
    rw [ht]
  have hj := rejudge_judgedOn judgeEntitlement (runningOn s service) s
  obtain ⟨h1, h2, h3⟩ := rejudgeEach_on
    (fun o c => runningOn (rejudge judgeEntitlement (runningOn s service) s) service c ||
      (rejudge judgeEntitlement (runningOn s service) s).parental.grants.any (fun g => ended g && g.output == o))
    (endGrants ended .event (rejudge judgeEntitlement (runningOn s service) s)) _ rfl
  refine ⟨rejudge judgeEntitlement (runningOn s service) s, hh, hj, h1, h3 _ _ rfl ?_,
    h2.mono fun c o h => ?_⟩
  · rw [endGrants_eq]
    exact hj.withGrants _ _
  rw [hr _ hh.contexts, hh.parental, Bool.or_eq_true, List.any_eq_true]
  rcases h with h | ⟨g, hg, he, ho⟩
  · exact .inl h
  · exact .inr ⟨g, hg, by simp [he, ho]⟩

theorem rejudgePairs_on (o : OutputNo) (s : State) : VerdictsOn (rejudgePairs o s) (fun _ o' => o' = o) := by
  refine ⟨fun o' b hb hp => ?_, fun o' b hb hp => ?_⟩
  · subst hp; rw [verdict_eq (HoldsOnly.rejudgePairs _ s)]; exact rejudgePairs_after_current _ _ b hb
  · subst hp; rw [verdict_eq (HoldsOnly.rejudgePairs _ s)]; exact rejudgePairs_after_pending _ _ b hb

theorem rejudgeProfile_on (p : ProfileNo) (s : State) : VerdictsOn (rejudgeProfile p s)
    (fun _ o => getAt (rejudgeProfile p s).parental.binding o = some p) := by
  have hp := (HoldsOnly.rejudgeProfile p s).parental
  have key := fun o (ho : getAt (rejudgeProfile p s).parental.binding o = some p) =>
    rejudgePairs_list (outputNos.filter (fun o => getAt s.parental.binding o == some p))
      (List.Nodup.filter _ (by decide)) s o
      (List.mem_filter.2 ⟨mem_outputNos o, by rw [hp] at ho; simp [ho]⟩)
  refine ⟨fun o b hb h => ?_, fun o b hb h => ?_⟩
  · rw [verdict_eq (HoldsOnly.rejudgeProfile p s)]; exact (key o h).1 b hb
  · rw [verdict_eq (HoldsOnly.rejudgeProfile p s)]; exact (key o h).2 b hb

/-- A PIN check leaves grants, contexts, guide, clock and the bindings of profiles (R137). -/
theorem pinCheck_keeps (q : ProfileNo) (pin : Pin) (s t : State) (ht : t = (pinCheck q pin s).2) :
    t.parental.grants = s.parental.grants ∧ t.ctl = s.ctl ∧ t.guide = s.guide ∧ t.clock = s.clock ∧
      t.parental.binding = s.parental.binding := by
  subst ht
  unfold pinCheck
  dsimp only
  split
  · exact ⟨rfl, rfl, rfl, rfl, rfl⟩
  · split
    · exact ⟨rfl, rfl, rfl, rfl, rfl⟩
    · split
      · exact ⟨rfl, rfl, rfl, rfl, rfl⟩
      · split
        · rw [offer_join]; exact ⟨rfl, rfl, rfl, rfl, rfl⟩
        · exact ⟨rfl, rfl, rfl, rfl, rfl⟩

end Sys2Proof.Machine
end

