-- ==== Sys2Proof/Laws/PerInstr.lean ====
section
/-! SUPPORT. Writing an order and reading it gives the order back, for each command: the family OrderRoundTrip. -/

namespace Sys2Proof.Laws.OrderRoundTrip

set_option Elab.async false

/-- Code, tag and parameters that a well-formed order is written as are read as that order. -/
def Statement (i : Instr) : Prop :=
  i.wellFormed = true → ∀ code tag params, orderParts i = some (code, tag, params) → readOrder code tag params = .order i

/-- A command that is no order is written as nothing. -/
theorem statement_of_none {i : Instr} (h : orderParts i = none) : Statement i := by
  intro _ code tag params hp
  simp [h] at hp

/-- An order whose written form is read as it. -/
theorem statement_of_some {i : Instr} {c t : Byte} {l : List Byte} (h : orderParts i = some (c, t, l))
    (hr : i.wellFormed = true → readOrder c t l = .order i) : Statement i := by
  intro hw code tag params hp
  simp only [h, Option.some.injEq, Prod.mk.injEq] at hp
  obtain ⟨rfl, rfl, rfl⟩ := hp
  exact hr hw

/-! ### Fields -/

theorem word16_bytes16 (w : Word16) : word16 (w.extractLsb' 8 8) (w.extractLsb' 0 8) = w := by
  refine BitVec.eq_of_toNat_eq ?_
  simp only [word16, BitVec.toNat_append, BitVec.extractLsb'_toNat, Nat.shiftRight_zero]
  rw [← Nat.shiftLeft_add_eq_or_of_lt (Nat.mod_lt _ (by decide)), Nat.shiftLeft_eq, Nat.shiftRight_eq_div_pow]
  have := w.isLt
  omega

theorem vecOf_toList {n : Nat} (v : Vector Byte n) : vecOf n v.toList = some v := by
  obtain ⟨l, hl⟩ := v
  simp [vecOf, hl]

theorem take_vec {n : Nat} (v : Vector Byte n) (l : List Byte) : (v.toList ++ l).take n = v.toList :=
  List.take_left' (by simp)

theorem drop_vec {n : Nat} (v : Vector Byte n) (l : List Byte) : (v.toList ++ l).drop n = l :=
  List.drop_left' (by simp)

theorem pinParam_pinBytes (pin : Option Pin) : pinParam (pinBytes pin) = some pin := by
  cases pin with
  | none => rfl
  | some p =>
    obtain ⟨⟨l⟩, hl⟩ := p
    match l, hl with
    | [a, b, c, d], _ => rfl

theorem pin_bytes (p : Pin) : ∃ a b c d, p.toList = [a, b, c, d] ∧ p = #v[a, b, c, d] := by
  obtain ⟨⟨l⟩, hl⟩ := p
  match l, hl with
  | [a, b, c, d], _ => exact ⟨a, b, c, d, rfl, rfl⟩

theorem pairsParam_flatMap (l : List (Byte × Byte)) : pairsParam (l.flatMap (fun r => [r.1, r.2])) = l := by
  induction l with
  | nil => rfl
  | cons r l ih => simp only [List.flatMap_cons, List.cons_append, List.nil_append, pairsParam, ih]

theorem windowsParam_flatMap (l : List (Word16 × Word16)) :
    windowsParam (l.flatMap (fun w => bytes16 w.1 ++ bytes16 w.2)) = l := by
  induction l with
  | nil => rfl
  | cons r l ih =>
    simp only [List.flatMap_cons, bytes16, List.cons_append, List.nil_append, windowsParam, word16_bytes16]
    rw [show l.flatMap (fun w => [w.1.extractLsb' 8 8, w.1.extractLsb' 0 8, w.2.extractLsb' 8 8, w.2.extractLsb' 0 8]) =
      l.flatMap (fun w => bytes16 w.1 ++ bytes16 w.2) from rfl, ih]

theorem length_pairs (l : List (Byte × Byte)) : (l.flatMap (fun r => [r.1, r.2])).length = 2 * l.length := by
  induction l with
  | nil => rfl
  | cons r l ih => simp only [List.flatMap_cons, List.length_append, ih, List.length_cons, List.length_nil]; omega

theorem length_windows (l : List (Word16 × Word16)) :
    (l.flatMap (fun w => bytes16 w.1 ++ bytes16 w.2)).length = 4 * l.length := by
  induction l with
  | nil => rfl
  | cons r l ih =>
    rw [List.flatMap_cons, List.length_append, ih]
    simp only [bytes16, List.length_append, List.length_cons, List.length_nil]
    omega

theorem toNat_ofNat8 {n : Nat} (h : n < 256) : (BitVec.ofNat 8 n).toNat = n := by
  simp only [BitVec.toNat_ofNat]
  omega

/-! ### Commands that are no orders -/

theorem pinReset (locks : Vector Bool 4) : Statement (.pinReset locks) := statement_of_none rfl

theorem fuseReadEnd (fuses : Option Fuses) : Statement (.fuseReadEnd fuses) := statement_of_none rfl

theorem lockLineFalls (port : PortNo) : Statement (.lockLineFalls port) := statement_of_none rfl

theorem lockLineRises (port : PortNo) : Statement (.lockLineRises port) := statement_of_none rfl

theorem unitTaken (port : PortNo) (bytes : List LinkByte) : Statement (.unitTaken port bytes) := statement_of_none rfl

theorem hlInUnitTaken (bytes : List LinkByte) : Statement (.hlInUnitTaken bytes) := statement_of_none rfl

theorem deliveryTimeout : Statement .deliveryTimeout := statement_of_none rfl

theorem uptimeSecond : Statement .uptimeSecond := statement_of_none rfl

theorem expiry : Statement .expiry := statement_of_none rfl

theorem waitDeadline (dest : Dest) : Statement (.waitDeadline dest) := statement_of_none rfl

theorem acquisitionDeadline (ctx : CtxNo) : Statement (.acquisitionDeadline ctx) := statement_of_none rfl

theorem lockoutEnd : Statement .lockoutEnd := statement_of_none rfl

theorem grantMinutesEnd : Statement .grantMinutesEnd := statement_of_none rfl

theorem poSendOpportunity (output : OutputNo) : Statement (.poSendOpportunity output) := statement_of_none rfl

theorem hlOutOpportunity : Statement .hlOutOpportunity := statement_of_none rfl

theorem decodeOrder : Statement .decodeOrder := statement_of_none rfl

theorem restartEffect : Statement .restartEffect := statement_of_none rfl

/-! ### Orders of fixed fields -/

theorem clearFilter (tag filter : Byte) : Statement (.clearFilter tag filter) :=
  statement_of_some rfl fun _ => rfl

theorem setDelivery (tag trigger : Byte) (timeout : Word16) : Statement (.setDelivery tag trigger timeout) :=
  statement_of_some rfl fun _ => by simp [readOrder, bytes16, word16_bytes16]

theorem queryClock (tag : Byte) : Statement (.queryClock tag) :=
  statement_of_some rfl fun _ => rfl

theorem queryGuideService (tag port : Byte) (service : Word16) : Statement (.queryGuideService tag port service) :=
  statement_of_some rfl fun _ => by simp [readOrder, bytes16, word16_bytes16]

theorem setHomeNetwork (tag : Byte) (network : Word16) : Statement (.setHomeNetwork tag network) :=
  statement_of_some rfl fun _ => by simp [readOrder, bytes16, word16_bytes16]

theorem readExceptions (tag first : Byte) : Statement (.readExceptions tag first) :=
  statement_of_some rfl fun _ => rfl

theorem clearExceptions (tag count : Byte) : Statement (.clearExceptions tag count) :=
  statement_of_some rfl fun _ => rfl

theorem querySlotSlot (tag slot : Byte) : Statement (.querySlotSlot tag slot) :=
  statement_of_some rfl fun _ => rfl

theorem querySlotInput (tag input : Byte) : Statement (.querySlotInput tag input) :=
  statement_of_some rfl fun _ => rfl

theorem tune (tag output port : Byte) (service : Word16) : Statement (.tune tag output port service) :=
  statement_of_some rfl fun _ => by simp [readOrder, bytes16, word16_bytes16]

theorem capture (tag captureTag port : Byte) (service : Word16) : Statement (.capture tag captureTag port service) :=
  statement_of_some rfl fun _ => by simp [readOrder, bytes16, word16_bytes16]

theorem releaseOutput (tag output : Byte) : Statement (.releaseOutput tag output) :=
  statement_of_some rfl fun _ => rfl

theorem releaseTag (tag captureTag : Byte) : Statement (.releaseTag tag captureTag) :=
  statement_of_some rfl fun _ => rfl

theorem setAcquisitionLimit (tag : Byte) (ms : Word16) : Statement (.setAcquisitionLimit tag ms) :=
  statement_of_some rfl fun _ => by simp [readOrder, bytes16, word16_bytes16]

theorem queryContext (tag ctx : Byte) : Statement (.queryContext tag ctx) :=
  statement_of_some rfl fun _ => rfl

theorem queryPort (tag input : Byte) : Statement (.queryPort tag input) :=
  statement_of_some rfl fun _ => rfl

theorem queryEntry (tag port : Byte) (stream : Word16) : Statement (.queryEntry tag port stream) :=
  statement_of_some rfl fun _ => by simp [readOrder, bytes16, word16_bytes16]

theorem revokeGrants (tag output : Byte) : Statement (.revokeGrants tag output) :=
  statement_of_some rfl fun _ => rfl

theorem lockParental (tag : Byte) : Statement (.lockParental tag) :=
  statement_of_some rfl fun _ => rfl

theorem setOutputRate (tag output : Byte) (rate : Word16) : Statement (.setOutputRate tag output rate) :=
  statement_of_some rfl fun _ => by simp [readOrder, bytes16, word16_bytes16]

theorem queryOutput (tag output : Byte) : Statement (.queryOutput tag output) :=
  statement_of_some rfl fun _ => rfl

theorem queryCapture (tag captureTag : Byte) : Statement (.queryCapture tag captureTag) :=
  statement_of_some rfl fun _ => rfl

theorem identify (tag : Byte) : Statement (.identify tag) :=
  statement_of_some rfl fun _ => rfl

theorem restart (tag : Byte) : Statement (.restart tag) :=
  statement_of_some rfl fun _ => rfl

theorem setSourceGuide (tag : Byte) (source : SourceParam) : Statement (.setSourceGuide tag source) :=
  statement_of_some rfl fun _ => by
    rcases source with _ | ⟨p, st⟩ <;> simp [readOrder, readSetSource, sourceBytes, bytes16, word16_bytes16]

theorem setSourceTime (tag : Byte) (source : SourceParam) : Statement (.setSourceTime tag source) :=
  statement_of_some rfl fun _ => by
    rcases source with _ | ⟨p, st⟩ <;> simp [readOrder, readSetSource, sourceBytes, bytes16, word16_bytes16]

theorem setSourceAccess (tag place : Byte) (source : SourceParam) : Statement (.setSourceAccess tag place source) :=
  statement_of_some rfl fun _ => by
    rcases source with _ | ⟨p, st⟩ <;> simp [readOrder, readSetSource, sourceBytes, bytes16, word16_bytes16]

/-! ### Orders with vectors, lists or a PIN -/

theorem setFilter (tag filter port : Byte) (stream : Word16) (pattern mask : Vector Byte 6) (options : Byte) :
    Statement (.setFilter tag filter port stream pattern mask options) :=
  statement_of_some rfl fun _ => by
    have h4 : (pattern.toList ++ (mask.toList ++ [options])).drop 12 = [options] := by
      rw [show 12 = 6 + 6 from rfl, ← List.drop_drop, drop_vec, drop_vec]
    have hr : ∀ l, readOrder 0x01 tag l = readSetFilter tag l := fun _ => rfl
    simp only [hr, bytes16, List.cons_append, List.nil_append, List.append_assoc]
    show readSetFilter tag (filter :: port :: stream.extractLsb' 8 8 :: stream.extractLsb' 0 8 ::
      (pattern.toList ++ (mask.toList ++ [options]))) = _
    simp only [readSetFilter, take_vec, drop_vec, h4, vecOf_toList, word16_bytes16]

theorem play (tag output captureTag adult : Byte) (ratings : List (Byte × Byte)) :
    Statement (.play tag output captureTag adult ratings) :=
  statement_of_some rfl fun hw => by
    simp only [Instr.wellFormed, ratingsWellFormed, decide_eq_true_eq] at hw
    have hr : ∀ l, readOrder 0x32 tag l = readPlay tag l := fun _ => rfl
    simp only [hr, readPlay, length_pairs, toNat_ofNat8 (show ratings.length < 256 by omega), if_true, pairsParam_flatMap]

theorem loadRatingRow (tag system : Byte) (levels : Vector Byte 64) (pin : Option Pin) :
    Statement (.loadRatingRow tag system levels pin) :=
  statement_of_some rfl fun _ => by
    show readLoadRatingRow tag (system :: (levels.toList ++ pinBytes pin)) = _
    simp only [readLoadRatingRow, take_vec, drop_vec, vecOf_toList, pinParam_pinBytes]

theorem setProfile (tag profile : Byte) (limits : Vector Byte 8) (unrated adult timeUnknown : Byte)
    (windows : List (Word16 × Word16)) (pin : Option Pin) :
    Statement (.setProfile tag profile limits unrated adult timeUnknown windows pin) :=
  statement_of_some rfl fun hw => by
    have hn : windows.length < 256 := by
      simp only [Instr.wellFormed, windowsWellFormed, decide_eq_true_eq] at hw
      omega
    have hw := length_windows windows
    generalize hws : windows.flatMap (fun w => bytes16 w.1 ++ bytes16 w.2) = ws at hw
    have h3 : (ws ++ pinBytes pin).take (4 * windows.length) = ws := List.take_left' hw
    have h4 : (ws ++ pinBytes pin).drop (4 * windows.length) = pinBytes pin := List.drop_left' hw
    have hr : ∀ l, readOrder 0x41 tag l = readSetProfile tag l := fun _ => rfl
    rw [hr, List.cons_append]
    simp only [readSetProfile, take_vec, drop_vec, vecOf_toList, toNat_ofNat8 hn, h3, h4, hw, if_true, pinParam_pinBytes]
    rw [← hws, windowsParam_flatMap]

theorem setPin (tag profile : Byte) (pin newPin : Option Pin) : Statement (.setPin tag profile pin newPin) :=
  statement_of_some rfl fun _ => by
    show readSetPin tag (profile :: pinPresence pin newPin :: (pinPlace pin ++ pinPlace newPin)) = _
    rcases pin with _ | p <;> rcases newPin with _ | q
    · rfl
    · obtain ⟨a, b, c, d, h, rfl⟩ := pin_bytes q
      simp [readSetPin, pinPresence, pinPlace]
    · obtain ⟨a, b, c, d, h, rfl⟩ := pin_bytes p
      simp [readSetPin, pinPresence, pinPlace]
    · obtain ⟨a, b, c, d, h, rfl⟩ := pin_bytes p
      obtain ⟨a', b', c', d', h', rfl⟩ := pin_bytes q
      simp [readSetPin, pinPresence, pinPlace]

theorem bindProfile (tag output profile : Byte) (pin : Option Pin) : Statement (.bindProfile tag output profile pin) :=
  statement_of_some rfl fun _ => by simp [readOrder, pinParam_pinBytes]

theorem lockService (tag : Byte) (service : Word16) (mask : Byte) (pin : Option Pin) :
    Statement (.lockService tag service mask pin) :=
  statement_of_some rfl fun _ => by simp [readOrder, bytes16, word16_bytes16, pinParam_pinBytes]

theorem unlockService (tag : Byte) (service : Word16) (pin : Option Pin) : Statement (.unlockService tag service pin) :=
  statement_of_some rfl fun _ => by simp [readOrder, bytes16, word16_bytes16, pinParam_pinBytes]

theorem unlock (tag output : Byte) (pin : Pin) (scope : Byte) (minutes : Word16) :
    Statement (.unlock tag output pin scope minutes) :=
  statement_of_some rfl fun _ => by
    obtain ⟨a, b, c, d, h, rfl⟩ := pin_bytes pin
    simp [readOrder, bytes16, word16_bytes16]

end Sys2Proof.Laws.OrderRoundTrip
end

