-- ==== Sys2Proof/Tests/Slice0.lean ====
section
/-! SUPPORT. Tests: the well-formedness check refuses ill-formed commands, the worked examples of the book, and for each
statement with hypotheses a state and operands that meet them, clause by clause. -/

namespace Sys2Proof.Tests

set_option Elab.async false

open Sys2Proof Sys2Proof.Machine

/-! ### Small states and packets -/

/-- The part after reset, READY (log 1: orders are handed on). -/
def ready : State :=
  { State.reset with mgmt := { State.reset.mgmt with ready := true } }

/-- An input with a sync record. -/
def synced (i : Input) (x : SyncRec) (s : State) : State :=
  { s with intake := { s.intake with sync := setAt s.intake.sync i x } }

/-- A unit: bytes 1 to 3, then 184 bytes of one value. -/
def unit (a b c fill : Byte) : List Byte :=
  [0x47, a, b, c] ++ List.replicate 184 fill

/-- A unit with an adaptation area of 7 bytes that carries a clock stamp of base 0. -/
def stamped (ext : Nat) : List Byte :=
  [0x47, 0, 0, 0x30, 7, 0x40] ++ enc16 0 ++ enc32 ext ++ List.replicate 176 0

/-- The part with context c replaced. -/
def withCtx (c : CtxNo) (x : Context) (s : State) : State :=
  s.setContext c x

/-- A tuner context on TP0 and service 5. -/
def ctxIn (st : CtxState) (deadline : Option Nat) (drain : Nat) : Context :=
  { Context.empty with state := st, input := inputOf 0, service := 5, deadline := deadline, drain := drain }

/-- Context 0 current on output 0, context 1 pending there. -/
def bound01 : State :=
  (ready.setContext 0 (ctxIn .running none 0)).setContext 1 { ctxIn .running none 0 with service := 6 }
    |>.setBinding 0 ⟨some ⟨0, .none⟩, some ⟨1, 3000, .none⟩⟩

/-- Profile 0 with the PIN 1234. -/
def pinned : Pin := #v[1, 2, 3, 4]

def withPin (failures : Nat) (lockoutEnd : Option Nat) : State :=
  ready.setProfile 0 { Profile.initial with pin := some pinned, failures := failures, lockoutEnd := lockoutEnd }

def locked (s : State) : State :=
  { s with parental := { s.parental with lock := true } }

/-! ### Well-formedness -/

theorem test_no_byte_refused : Instr.wellFormed (.unitTaken 0 []) = false := by decide +kernel

theorem test_189_bytes_refused :
    Instr.wellFormed (.hlInUnitTaken (marked (List.replicate 189 0))) = false := by decide +kernel

theorem test_188_bytes_accepted :
    Instr.wellFormed (.unitTaken 0 (marked (List.replicate 188 0))) = true := by decide +kernel

theorem test_89_ratings_refused : Instr.wellFormed (.play 0 0 0 0 (List.replicate 89 (0,
      0))) = false := by decide +kernel

theorem test_88_ratings_accepted : Instr.wellFormed (.play 0 0 0 0 (List.replicate 88 (0,
      0))) = true := by decide +kernel

theorem test_42_windows_refused :
    Instr.wellFormed (.setProfile 0 0 (Vector.replicate 8 0) 0 0 0 (List.replicate 42 (0,
      0)) none) = false := by decide +kernel

theorem test_41_windows_accepted :
    Instr.wellFormed (.setProfile 0 0 (Vector.replicate 8 0) 0 0 0 (List.replicate 41 (0,
      0)) none) = true := by decide +kernel

theorem test_41_windows_with_pin_refused :
    Instr.wellFormed (.setProfile 0 0 (Vector.replicate 8 0) 0 0 0 (List.replicate 41 (0,
      0)) (some pinned)) = false := by
  decide +kernel

/-! ### Orders as bytes (R170, R185) -/

/-- TUNE, tag 7, output 0, port 2, service 0x0305, written out from Tables 9-3 and R185. -/
theorem test_tune_read :
    frameOrder [0x30, 7, 0, 4, 0, 2, 0x03, 0x05, 0] = .framed 0x30 7 [0, 2, 0x03, 0x05] ∧
      readOrder 0x30 7 [0, 2, 0x03, 0x05] = .order (.tune 7 0 2 0x0305) := by decide +kernel

/-- SET_PIN keeps the place of an absent PIN: presence bit 1 alone names the new PIN. -/
theorem test_set_pin_read :
    readOrder 0x42 1 [3, 2, 9, 9, 9, 9, 1, 2, 3, 4] = .order (.setPin 1 3 none (some #v[1, 2, 3,
      4])) := by decide +kernel

theorem test_unknown_code : readOrder 0x70 1 [] = .unknown := by decide +kernel

theorem test_wrong_length : readOrder 0x30 1 [0, 2] = .malformed := by decide +kernel

theorem test_order_list_ends : frameOrder [0, 1, 2] = .ended ∧ frameOrder [] = .ended := by decide +kernel

theorem test_order_runs_over : frameOrder [0x11, 5] = .headerOverrun 0x11 5 ∧
      frameOrder [0x11, 5, 0, 1] = .paramOverrun 0x11 5 := by
  decide +kernel

theorem test_table_spells_no_word : decodeTableWord 8 0x30 = none := by decide +kernel

/-! ### Worked examples -/

/-- Table 1-7: the cases of arrivals 1, 2, 3, 6 and 7, and the entry after the second duplicate. -/
theorem test_table_1_7 :
    continuity (Entry.fixed 2) 9 = .accepted ∧
      continuity { Entry.fixed 2 with lastCount := some 9 } 10 = .accepted ∧
      continuity { Entry.fixed 2 with lastCount := some 10 } 10 = .dropped ∧
      continuity { Entry.fixed 2 with lastCount := some 11, duplicate := true } 11 = .gap ∧
      continuity { Entry.fixed 2 with lastCount := some 11, gaps := 1 } 14 = .gap ∧
      ({ Entry.fixed 2 with lastCount := some 11, duplicate := true } : Entry).afterCheck 11 .gap =
        { Entry.fixed 2 with lastCount := some 11, gaps := 1 } := by decide +kernel

/-- The worked cases of the minute of week: Table 3-2. -/
theorem test_minute_of_week :
    minuteOfWeek 0 0 = 0 ∧ minuteOfWeek 3000000 (-300) = 9380 ∧ minuteOfWeek 10000 (-720) = 9526 ∧
      minuteOfWeek 10000 840 = 1006 := by decide +kernel

/-- The worked case of R157: base 2^33 − 2, extension 250, residence 1,000 cycles. -/
theorem test_stamp_across_the_top :
    clockStamp (withStamp (stamped 250) 8589934590 250) = some (8589934590, 250) ∧
      stampResult (withStamp (stamped 250) 8589934590 250) 1000 = .corrected 2 50 := by decide +kernel

/-- The CRC of the nine characters 1 to 9 with this polynomial,
      initial value and order is 0x0376E6E7; the section with its
CRC behind it leaves 0. -/
theorem test_crc :
    crc32 [0x31, 0x32, 0x33, 0x34, 0x35, 0x36, 0x37, 0x38, 0x39] = 0x0376E6E7 ∧
      crc32 [0x31, 0x32, 0x33, 0x34, 0x35, 0x36, 0x37, 0x38, 0x39, 0x03, 0x76, 0xE6, 0xE7] = 0 := by decide +kernel

theorem test_clamps : clamp 1 100 0 = 1 ∧ clamp 1 100 101 = 100 ∧ clamp 1000 60000 20000 = 20000 := by decide +kernel

/-- The length field of a section: 9 and 1021 are the ends of its range (R24). -/
theorem test_section_lengths :
    expectedSize [0x10, 0x00, 9] = some 12 ∧ expectedSize [0x10, 0x03, 0xFD] = some 1024 ∧
      expectedSize [0x10, 0x00, 8] = none ∧ expectedSize [0x10, 0x03, 0xFE] = none := by decide +kernel

/-- Stream 3 of tag 2 is renumbered 0x1083, its error flag and start flag kept (R158). -/
theorem test_renumbering :
    withStream [0x47, 0xC1, 0x02, 0x1F] (captureStream 2 3) = [0x47, 0xD0, 0x83, 0x1F] := by decide +kernel

/-! ### Witnesses: hand-over, resets, lock lines and units -/

theorem test_hyps_EmptyQueue : State.reset.pending = [] := by decide +kernel

theorem test_hyps_ResetValues (locks : Vector Bool 4) (s : State) : ∃ t : State, exec (.pinReset locks) s = .next t :=
  ⟨_, rfl⟩

theorem test_hyps_OrdersAreHandedOn :
    (orderParts (.identify 1)).isSome ∧ State.reset.mgmt.ready = false ∧
      (∃ s : State, s.mgmt.ready = true ∧ s.mgmt.restarting = true) ∧
      (∃ s : State, s.mgmt.ready = true ∧ s.mgmt.answers.length = 16) ∧
      orderParts (.identify 1) = some (0x60, 1, []) ∧ ready.mgmt.ready = true ∧ ready.mgmt.restarting = false ∧
      ready.mgmt.answers.length < 16 ∧ ready.handsOn = true :=
  ⟨by decide, by decide, ⟨{ ready with mgmt := { ready.mgmt with restarting := true } }, by decide⟩,
    ⟨{ ready with mgmt := { ready.mgmt with answers := List.replicate 16 ⟨0, 0, .done, false, []⟩ } }, by decide⟩,
    by decide, by decide, by decide, by decide, by decide⟩

/-- A full notice queue, and one with a free place. -/
def notices (n : Nat) (s : State) : State :=
  { s with notices := ⟨List.replicate n .overflow, false⟩ }

theorem test_hyps_FuseReadEnds :
    State.reset.access.reading = true ∧ (notices 31 State.reset).notices.queue.length < 32 ∧
      32 ≤ (notices 32 State.reset).notices.queue.length ∧
      ({ State.reset.access with reading := false } : Access).reading = false := by decide +kernel

theorem test_hyps_Restart :
    ready.handsOn = true ∧ ready.mgmt.restarting = false ∧
      ({ ready.mgmt with restarting := true } : Mgmt).restarting = true ∧ ready.mgmt.answers = [] ∧
      ({ ready.mgmt with answers := [⟨0x61, 1, .done, false, []⟩] } : Mgmt).answers ≠ [] := by decide +kernel

theorem test_hyps_LockLines :
    (getAt State.reset.intake.sync (inputOf 3)).state = .down ∧
      (getAt (synced (inputOf 3) ⟨.seeking, 2, 0⟩ ready).intake.sync (inputOf 3)).state = .seeking ∧
      (getAt (synced (inputOf 0) ⟨.up, 0, 1⟩ ready).intake.sync (inputOf 0)).state = .up := by decide +kernel

/-- Units in progress of no byte, of 186 and of 187, and a unit of 188 bytes on its link (R1). -/
theorem test_hyps_UnitFormation :
    (getAt ready.intake.sync 1).state = .down ∧ (getAt ready.intake.sync pb).state ≠ .down ∧ ready.forming pb = none ∧
      (ready.setForming pb (some (List.replicate 186 0))).forming pb = some (List.replicate 186 0) ∧
      (List.replicate 186 (0 : Byte)).length + 1 ≠ 188 ∧ (List.replicate 187 (0 : Byte)).length + 1 = 188 ∧
      (unit 0 0 0x10 0xFF).length = 188 := by decide +kernel

/-- A start indication cuts a unit short: SEEKING, its good-sync run ends (R1, R4). -/
theorem test_unit_cut_short :
    (takeLinkByte 2 ((synced 2 ⟨.seeking, 2, 0⟩ ready).setForming 2 (some [0x47, 0])) ⟨0x47, true⟩).forming 2 = some [0x47] ∧
      getAt (takeLinkByte 2 ((synced 2 ⟨.seeking, 2, 0⟩ ready).setForming 2 (some [0x47, 0])) ⟨0x47, true⟩).intake.sync 2 =
        ⟨.seeking, 0, 0⟩ := by decide +kernel

/-- A unit that is good-sync, one that is cut short at 150 bytes, and one that begins with 0x46 (Table 1-8). -/
theorem test_hyps_UnitsOnAnInputThatIsNotUp :
    goodSync (unit 0 0 0x10 0xFF) = true ∧ goodSync ((unit 0 0 0x10 0xFF).take 150) = false ∧
      goodSync (0x46 :: (unit 0 0 0x10 0xFF).tail) = false ∧ (getAt ready.intake.sync (inputOf 1)).state = .down ∧
      getAt ready.intake.sync pb = ⟨.seeking, 0, 0⟩ ∧
      getAt (synced pb ⟨.seeking, 1, 0⟩ ready).intake.sync pb = ⟨.seeking, 1, 0⟩ ∧
      getAt (synced 2 ⟨.seeking, 2, 0⟩ ready).intake.sync 2 = ⟨.seeking, 2, 0⟩ := by decide +kernel

theorem test_hyps_BadSyncUnits :
    getAt (synced 2 ⟨.up, 3, 0⟩ ready).intake.sync 2 = ⟨.up, 3, 0⟩ ∧
      getAt (synced pb ⟨.up, 3, 1⟩ ready).intake.sync pb = ⟨.up, 3, 1⟩ ∧ goodSync [0x47] = false := by decide +kernel

/-- Table 1-8, unit 5: the third good-sync unit in a row puts the port in UP. -/
theorem test_third_good_unit :
    getAt (takeSeeking 1 true (synced 1 ⟨.seeking, 2, 0⟩ ready)).intake.sync 1 = ⟨.up, 3, 0⟩ := by decide +kernel

/-- The part with an input UP. -/
def upOn (i : Input) : State :=
  synced i ⟨.up, 3, 0⟩ ready

theorem test_hyps_PacketsAreSorted :
    (getAt (upOn (inputOf 0)).intake.sync (inputOf 0)).state = .up ∧ (upOn (inputOf 0)).forming (inputOf 0) = none ∧ goodSync (unit 0x1F 0xF0 0x10 0) = true ∧
      streamNumber (asTaken (unit 0x1F 0xF0 0x10 0)) = 0x1FF0 ∧
      streamNumber (asTaken (unit 0x1F 0xFF 0x10 0)) = 0x1FFF ∧
      streamNumber (asTaken (unit 0x1F 0xEF 0x10 0)) = 0x1FEF ∧ findEntry (inputOf 0) 0x1FEF (upOn (inputOf 0)) = none ∧
      errorFlag (asTaken (unit 0 0 0x30 0xFF)) = true := by decide +kernel

theorem test_hyps_PacketsAreSorted_on_hl_in :
    (getAt (upOn pb).intake.sync pb).state = .up ∧ (upOn pb).forming pb = none ∧ streamNumber (asTaken (unit 0x9F 0xF0 0x10 0x30)) = 0x1FF0 ∧
      errorFlag (asTaken (unit 0x9F 0xF0 0x10 0x30)) = true ∧ errorFlag (asTaken (unit 0x1F 0xF0 0x10 0x30)) = false ∧
      byteAt (payload (asTaken (unit 0x1F 0xF0 0x10 0x30))) 0 ≠ 0 ∧ State.reset.mgmt.ready = false ∧
      4 ≤ (List.replicate 4 (OrderPacket.mk [0x30] 0)).length ∧
      (∀ y ∈ List.replicate 3 (OrderPacket.mk [0x30] 0), y.listEnded = false) ∧
      streamNumber (asTaken (unit 0x0F 0xFF 0x10 0)) = 0x0FFF ∧
      streamNumber (asTaken (unit 0x12 0x00 0x10 0)) = 0x1200 := by
  decide +kernel

/-! ### Witnesses: continuity and errored packets -/

/-- The part with TP0 UP and a COMPONENT entry for (TP0, 0x0102) beside the fixed ones. -/
def withEntry (last : Option Nat) (duplicate : Bool) (role : Role) : State :=
  { upOn 0 with table := fixedTable ++
    [{ Entry.fixed 0 with
        stream := 0x0102, role := role, users := [⟨0, [.component 0]⟩], pins := .none, lastCount := last,
        duplicate := duplicate }] }

theorem test_hyps_ContinuityCheck :
    (getAt (withEntry none false .component).intake.sync 0).state = .up ∧
      (withEntry none false .component).forming 0 = none ∧ lookedUp 0 0x0102 ∧ lookedUp pb 0x1000 ∧
      lookedUp pb 0x11FF ∧ streamNumber (asTaken (unit 0x01 0x02 0x1B 0)) = 0x0102 ∧
      goodSync (unit 0x01 0x02 0x1B 0) = true ∧ errorFlag (asTaken (unit 0x01 0x02 0x1B 0)) = false ∧
      payloadPresent (asTaken (unit 0x01 0x02 0x1B 0)) = true ∧
      payloadPresent (asTaken (unit 0x01 0x02 0x2B 0)) = false ∧
      continuityCount (asTaken (unit 0x01 0x02 0x1B 0)) = 11 ∧ continuityCount (asTaken (unit 0x01 0x02 0x10 0)) = 0 ∧
      (findEntry 0 0x0102 (withEntry none false .component)).map Entry.lastCount = some none ∧
      (findEntry 0 0x0102 (withEntry (some 15) false .component)).map Entry.lastCount = some (some 15) ∧
      (findEntry 0 0x0102 (withEntry (some 11) true .sections)).map Entry.duplicate = some true ∧
      (0 : Nat) = (15 + 1) % 16 := by
  unfold lookedUp
  decide +kernel

/-- Contexts 0, 1 and 2 on one COMPONENT entry: two with slots, 3 and 1, and one without. -/
def shared : List CtxUser :=
  [⟨0, [.component 4]⟩, ⟨1, [.component 0, .component 1]⟩, ⟨2, [.component 2]⟩]

def sharing : State :=
  withCtx 2 { ctxIn .running none 0 with slot := some 1 } (withCtx 0 { ctxIn .running none 0 with slot := some 3 } ready)

theorem test_hyps_PacketsAreHandedOn_slots :
    ({ Entry.fixed 0 with users := shared } : Entry).componentUsers = [(0, 4), (1, 0), (2, 2)] ∧
      ([1, 3] : List SlotNo).Pairwise (· < ·) ∧
      (∀ k : SlotNo, k ∈ ([1, 3] : List SlotNo) ↔
        ∃ u ∈ ([(0, 4), (1, 0), (2, 2)] : List (CtxNo × Fin 8)), (sharing.context u.1).slot = some k) ∧
      payloadPresent (unit 0 0 0x1F 0) = true ∧ payloadPresent (unit 0 0 0x20 0) = false := by decide +kernel

theorem test_hyps_PacketsAreHandedOn :
    errorFlag (asTaken (unit 0x81 0x02 0x1B 0)) = true ∧ streamNumber (asTaken (unit 0x81 0x02 0x1B 0)) = 0x0102 ∧
      (findEntry 0 0x0102 (withEntry none false .component)).map Entry.role = some .component ∧
      (findEntry 0 0x0102 (withEntry none false .sections)).map Entry.role = some .sections ∧ lookedUp 0 0x0102 := by
  unfold lookedUp
  decide +kernel

/-! ### Witnesses: clock, deadlines and contexts -/

/-- A section of 12 bytes that waits in the delivery queue. -/
def waiting : Delivery :=
  ⟨1, 0, 0x0100, false, List.replicate 12 0, 1, 0, none, 0⟩

theorem test_hyps_DeliveryTimeout :
    State.reset.sections.queue = [] ∧ ({ ready.sections with queue := [waiting] } : Sections).queue = waiting :: [] ∧
      State.reset.sections.released = false := by decide +kernel

/-- The clock at N with an offset change pending at N2. -/
def clockAt (n : Nat) (change : Option OffsetChange) : State :=
  { ready with clock := { ready.clock with net := some ⟨n, 60⟩, minute := some 0, change := change } }

theorem test_hyps_UptimeSecond :
    State.reset.clock.net = none ∧ (clockAt top32 none).clock.net = some ⟨top32, 60⟩ ∧ top32 - 1 < top32 ∧
      (clockAt 100 (some ⟨102, 120⟩)).clock.change = some ⟨102, 120⟩ ∧ 100 + 1 < 102 ∧
      (clockAt 100 (some ⟨101, 120⟩)).clock.change = some ⟨101, 120⟩ ∧ 101 ≤ 100 + 1 := by decide +kernel

/-- At N = 50 the record that ends at 50 goes and the one that ends at 51 stays (R75). -/
theorem test_hyps_Expiry :
    (clockAt 50 none).clock.net = some ⟨50, 60⟩ ∧ (⟨1, 0, some 50, none⟩ : Entitlement).expiredAt 50 = true ∧
      (⟨1, 0, some 51, none⟩ : Entitlement).expiredAt 50 = false ∧
      (⟨1, 0, none, none⟩ : Entitlement).expiredAt 50 = false := by
  decide +kernel

theorem test_lockout_ends_at_its_second :
    (getAt (endLockouts { (withPin 0 (some 600)) with clock := { ready.clock with uptime := 600 } }).parental.profiles 0).lockoutEnd =
        none ∧
      (getAt (endLockouts { (withPin 0 (some 601)) with clock := { ready.clock with uptime := 600 } }).parental.profiles 0).lockoutEnd =
        some 601 := by decide +kernel

theorem test_hyps_WaitDeadlines :
    (bound01.binding 0).pending = some ⟨1, 3000, .none⟩ ∧ (bound01.context 1).state = .running ∧
      (ready.binding 0).pending = none ∧
      hasDestination (bound01.setBinding 0 ⟨some ⟨0, .none⟩, none⟩) 1 = false ∧
      hasDestination ((bound01.setBinding 0 ⟨some ⟨0, .none⟩, none⟩).setTag 2 (.bound 1 none .none)) 1 = true ∧
      (bound01.setTag 2 (.bound 1 (some 3000) .none)).tag 2 = .bound 1 (some 3000) .none ∧ ready.tag 2 = .idle := by
  decide +kernel

/-- An event of service 5. -/
def event (id start : Nat) : Event :=
  ⟨5, id, start, 30, none, []⟩

/-- Service 5 with a RUNNING context and an event from 0 to 1,800, tracked with the id given, the clock at N. -/
def tracking (n : Nat) (id : Option Nat) : State :=
  { withCtx 0 (ctxIn .running none 0) (clockAt n none) with guide :=
    { ready.guide with events := [event 7 0], tracked := [⟨5, id⟩] } }

/-- The current event at both ends of its interval, a tracked service and one that is not, judged to the id recorded and to
another (R63). -/
theorem test_hyps_CurrentEvents :
    ready.clock.net = none ∧ currentEvent (tracking 0 none) 5 = some (event 7 0) ∧
      currentEvent (tracking 1799 none) 5 = some (event 7 0) ∧ currentEvent (tracking 1800 none) 5 = none ∧
      (∃ t ∈ (tracking 0 none).guide.tracked, t.service = 5) ∧ (∀ t ∈ (tracking 0 none).guide.tracked, t.service ≠ 6) ∧
      runningOn (tracking 0 none) 5 0 = true ∧ (∀ c, runningOn ready 5 c = false) ∧
      (tracking 0 none).guide.tracked.find? (fun t => t.service == 5) = some ⟨5, none⟩ ∧
      (currentEvent (tracking 0 (some 7)) 5).map Event.id = (⟨5, some 7⟩ : Tracked).id ∧
      (currentEvent (tracking 0 none) 5).map Event.id ≠ (⟨5, none⟩ : Tracked).id := by decide +kernel

/-- The grants that a change to event 7 outlives (R141). -/
theorem test_hyps_CurrentEvents_grants :
    ∃ ended : Grant → Bool, ∀ g, ended g = true ↔
      g.key = .tuner 5 ∧ ∃ id, g.scope = .event (some id) ∧ (some 7 : Option Nat) ≠ some id := by
  refine ⟨fun g => g.key == .tuner 5 && match g.scope with
    | .event (some id) => id != 7
    | .event none => false
    | .minutes _ => false, fun g => ?_⟩
  rcases g with ⟨o, k, p, scope⟩
  rcases scope with ⟨_ | id⟩ | m
  · constructor
    · intro h; simp at h
    · rintro ⟨-, id, h, -⟩; cases h
  · constructor
    · intro h
      have h := Bool.and_eq_true_iff.1 h
      exact ⟨eq_of_beq h.1, id, rfl, fun e => by cases e; exact absurd h.2 (by change ¬ (((7 : Nat) != 7) = true); decide)⟩
    · rintro ⟨h, k, hk, hn⟩
      cases hk
      refine Bool.and_eq_true_iff.2 ⟨beq_iff_eq.2 h, bne_iff_ne.2 fun e => hn (by rw [e])⟩
  · constructor
    · intro h; simp at h
    · rintro ⟨-, id, h, -⟩; cases h

theorem test_hyps_AcquisitionDeadline :
    ((withCtx 2 (ctxIn .key (some 3000) 0) ready).context 2).deadline = some 3000 ∧
      (CtxState.locate, FailReason.noIndex) ∈
        [(CtxState.locate, FailReason.noIndex), (.map, .noMap), (.key, .noKey), (.entry, .noEntry)] ∧
      (CtxState.entry, FailReason.noEntry) ∈
        [(CtxState.locate, FailReason.noIndex), (.map, .noMap), (.key, .noKey), (.entry, .noEntry)] ∧
      (ready.context 2).state = .free ∧ ((withCtx 2 (ctxIn .running none 0) ready).context 2).state = .running := by
  decide +kernel

theorem test_hyps_ContextsRetire :
    (ready.context 0).state = .free ∧ ((withCtx 0 (ctxIn .retiring none 1) ready).context 0).drain = 1 ∧
      ((withCtx 0 (ctxIn .retiring none 2) ready).context 0).drain = 2 ∧
      ((withCtx 0 (ctxIn .running none 3) ready).context 0).drain ≠ 0 ∧
      ((withCtx 0 (ctxIn .entry (some 9) 0) ready).context 0).drain = 0 ∧
      ((withCtx 0 (ctxIn .running none 3) ready).context 0).input ≠ pb := by decide +kernel

/-! ### Witnesses: outputs and HL-out -/

/-- An output with one packet behind a marker. -/
def queued (ahead : Nat) : Output :=
  { Output.initial with queue := [⟨unit 0 0 0x10 0, 0, 0⟩], marker := some ⟨0, 0, 5, [], ahead⟩ }

theorem test_hyps_PresentationOpportunity :
    (queued 0).marker = some ⟨0, 0, 5, [], 0⟩ ∧ (queued 1).marker.map Marker.ahead = some 1 ∧
      (queued 1).queue = ⟨unit 0 0 0x10 0, 0, 0⟩ :: [] ∧ (ready.output 0).queue = [] ∧
      (ready.output 0).marker = none := by
  decide +kernel

theorem test_hyps_StampsCorrected :
    (stamped 299).length = 188 ∧ clockStamp (stamped 299) = some (0, 299) ∧ clockStamp (stamped 300) = some (0, 300) ∧
      (unit 0 0 0x10 0).length = 188 ∧ clockStamp (unit 0 0 0x10 0) = none := by decide +kernel

theorem test_hyps_AnswersAndNotices :
    ({ ready.mgmt with answers := [⟨0x60, 1, .done, false, []⟩] } : Mgmt).answers = ⟨0x60, 1, .done, false, []⟩ :: [] ∧
      ready.mgmt.answers = [] ∧ (notices 1 ready).notices.queue = .overflow :: [] ∧ ready.mgmt.ready = true ∧
      (Notice.ready .pinReset none).isReady = true := by decide +kernel

theorem test_hyps_CaptureAndDelivery :
    ready.mgmt.answers = [] ∧ ready.notices.queue = [] ∧ State.reset.mgmt.ready = false ∧
      Notice.overflow.isReady = false ∧
      ready.out.capture = [] ∧ ready.sections.released = false ∧ ready.out.run < 3 ∧
      (waiting.bytes.length + 175) / 176 ≤ waiting.sentPackets + 1 ∧
      ({ waiting with bytes := List.replicate 177 0 }.sentPackets + 1 <
        (({ waiting with bytes := List.replicate 177 0 } : Delivery).bytes.length + 175) / 176) ∧
      waiting.number.getD ready.sections.nextNumber = 0 := by decide +kernel

/-- A READY part with packets in the capture queue, sections in the delivery queue, and the capture run count given. -/
def arbitrating (capture : List CapturePacket) (queue : List Delivery) (released : Bool) (run : Nat) : State :=
  { ready with
    sections := { ready.sections with queue := queue, released := released }
    out := { ready.out with capture := capture, run := run } }

/-- A packet of tag 2 and context 3 that waits in the capture queue. -/
def captured : CapturePacket :=
  ⟨unit 0x10 0x83 0x10 0, 2, 3⟩

/-- Capture alone, delivery alone, and both at the run counts 2 and 3, where the two clauses part (R163). -/
theorem test_hyps_CaptureAndDelivery_queues :
    (arbitrating [captured] [] false 3).out.capture = captured :: [] ∧
      (arbitrating [captured] [] false 3).sections.queue = [] ∧
      (arbitrating [captured] [waiting] false 3).sections.released = false ∧
      (arbitrating [] [waiting] true 0).sections.released = true ∧ (arbitrating [] [waiting] true 0).out.capture = [] ∧
      (arbitrating [] [waiting] true 0).sections.queue = waiting :: [] ∧
      (arbitrating [captured] [waiting] true 2).out.run < 3 ∧ 3 ≤ (arbitrating [captured] [waiting] true 3).out.run ∧
      (arbitrating [captured] [waiting] true 3).mgmt.answers = [] ∧
      (arbitrating [captured] [waiting] true 3).notices.queue = [] := by decide +kernel

/-- Both queues wait: at the run count 2 the capture packet goes and the count is 3, at 3 the section goes and it is 0. -/
theorem test_arbiter_at_three :
    ((arbitrate (arbitrating [captured] [waiting] true 2)).out.run,
        (arbitrate (arbitrating [captured] [waiting] true 2)).out.capture) = (3, []) ∧
      ((arbitrate (arbitrating [captured] [waiting] true 3)).out.run,
        (arbitrate (arbitrating [captured] [waiting] true 3)).sections.queue) = (0, []) := by decide +kernel

/-! ### Witnesses: orders -/

/-- The part with one order packet that holds a payload. -/
def decoding (payload : List Byte) : State :=
  { ready with mgmt := { ready.mgmt with buffer := [⟨payload, 0⟩] } }

theorem test_hyps_OrdersAreDecoded :
    State.reset.mgmt.ready = false ∧ dropEnded (decoding [0]).mgmt.buffer = [] ∧
      dropEnded (decoding [0x60, 1, 0, 0]).mgmt.buffer = ⟨[0x60, 1, 0, 0], 0⟩ :: [] ∧
      frameOrder [0x60, 1, 0, 0] = .framed 0x60 1 [] ∧ readOrder 0x60 1 [] = .order (.identify 1) ∧
      frameOrder [0x60, 1, 0] = .headerOverrun 0x60 1 ∧ frameOrder [0x60, 1, 0, 1] = .paramOverrun 0x60 1 ∧
      readOrder 0x60 1 [0] = .malformed ∧ readOrder 0x7F 1 [] = .unknown ∧
      readOrder 0x10 1 [9, 0, 0, 0, 0, 0] = .badForm ∧ ready.handsOn = true := by decide +kernel

theorem test_hyps_Filters :
    ready.handsOn = true ∧ (24 : Nat) ≤ (24 : Byte).toNat ∧ filterPort 5 = none ∧ filterPort 255 = some none ∧
      filterPort 4 = some (some pb) ∧ filterStreamOk none 0x1FEF = true ∧ filterStreamOk none 0x1FF0 = false ∧
      filterStreamOk (some pb) 0x0FFF = false ∧
      (addFilterPins 23 0x0100 (filterInputs (some 0) 0x0100) ready).1 = .granted ∧
      (addFilterPins 23 0x0102 (filterInputs (some 0) 0x0102) (withEntry none false .component)).1 = .conflict ∧
      getAt ready.sections.filters 23 = none := by decide +kernel

/-- An entry in use by context 0, by contexts 0 and 1, and by a filter: what context 0 leaves behind (R18). -/
theorem test_hyps_UsersAreRemoved :
    (findEntry 0 0x0102 (withEntry none false .component)).map Entry.users = some [⟨0, [.component 0]⟩] ∧
      (removeContext 0 (withEntry none false .component)).table = fixedTable ∧
      (removePurpose 0 0x0102 0 (.component 0) (withEntry none false .component)).table = fixedTable ∧
      dropPurpose 0 (.component 0) [⟨0, [.component 0, .map]⟩, ⟨1, [.map]⟩] = [⟨0, [.map]⟩, ⟨1, [.map]⟩] ∧
      (removePin 0 0x0010 .index ready).table = fixedTable ∧
      (removePin 0 0x0100 .time (addUser 0 0x0100 .sections (.pin .time) ready).2).table = fixedTable := by decide +kernel

theorem test_hyps_UsersAreAdded :
    (findEntry 0 0x0010 ready).map Entry.role = some .sections ∧
      (findEntry 0 0x0102 (withEntry none false .component)).map Entry.role = some .component ∧
      findEntry pb 0x0FFF ready = none ∧ admissible pb 0x0FFF = false ∧ admissible pb 0x1000 = true ∧
      admissible 0 0x1FEF = true ∧ admissible 0 0x1FF0 = false ∧ ready.table.length < 192 ∧
      192 ≤ (List.replicate 192 (Entry.fixed 0)).length ∧ findEntry 0 0x1FEF ready = none ∧
      ({ Entry.fixed 0 with users := [⟨0,
      [.keys 3]⟩] } : Entry).slotConflict (.ctx 1 (.keys 4)) = true := by decide +kernel

theorem test_hyps_Sources :
    ready.handsOn = true ∧ SourceKind.held .guide ready = none ∧ SourceKind.barred (.access 0) ready = none ∧
      (SourceKind.put (.access 1) (some (0, 0x20)) ready |> SourceKind.barred (.access 0)) = some (0, 0x20) ∧
      (SourceKind.put .time (some (3, 0x1FEF)) ready |> SourceKind.held .time) = some (3, 0x1FEF) ∧
      0x1FEF < (0x1FF0 : Word16).toNat ∧ (0x1FEF : Word16).toNat ≤ 0x1FEF ∧ (2 : Nat) ≤ (2 : Byte).toNat ∧
      (addUser 0 0x1FEF .sections (.pin .guide) ready).1 = .granted ∧
      (addUser 0 0x0102 .sections (.pin .guide) (withEntry none false .component)).1 = .conflict := by decide +kernel

theorem test_hyps_Settings :
    ready.handsOn = true ∧ (2 : Byte).toNat ∉ [1, 4, 8, 16] ∧ (16 : Byte).toNat ∈ [1, 4, 8, 16] ∧
      max 1 (min 100 (0 : Word16).toNat) = 1 ∧ max 500 (min 10000 (599 : Word16).toNat) / 100 * 100 = 500 ∧
      max 1000 (min 60000 (65535 : Word16).toNat) = 60000 ∧ (ready.output 1).rate = 20000 ∧ ready.access.home = none ∧
      ({ ready.access with home := some 65535 } : Access).home = some 65535 := by decide +kernel

/-- QUERY_CAPTURE clears the loss-since-query mark and answers it as it stood (R166). -/
theorem test_query_capture_clears :
    (getAt (takeQueryCapture 3 (ready.setCaptureRec 3 ⟨1, 2, 0,
      true⟩)).2.out.records 3).lossMark = false := by decide +kernel

theorem test_hyps_Queries :
    ready.handsOn = true ∧ (15 : Byte).toNat ≤ 15 ∧ (3 : PortNo).val = (3 : Byte).toNat ∧
      (15 : SlotNo).val = (15 : Byte).toNat ∧
      pb.val = (4 : Byte).toNat ∧ (15 : CtxNo).val = (15 : Byte).toNat ∧ (1 : OutputNo).val = (1 : Byte).toNat ∧
      (7 : TagNo).val = (7 : Byte).toNat ∧ (ready.context 15).state = .free ∧
      (0x1FFF : Word16).toNat ≤ 0x1FFF := by decide +kernel

def stale21 : ExceptionRec :=
  ⟨.stale, 0, 0x21, none, none, none, 0, 1⟩

/-- A log of two exceptions. -/
def logged : List ExceptionRec :=
  List.replicate 2 stale21

/-- CLEAR_EXCEPTIONS of 1, of 16 and of ALL against two records (R81). -/
theorem test_hyps_ClearExceptions :
    16 < (17 : Byte).toNat ∧ (17 : Byte).toNat ≠ 255 ∧
      (if (1 : Byte).toNat = 255 ∨ logged.length ≤ (1 : Byte).toNat then logged.length else (1 : Byte).toNat) = 1 ∧
      (if (16 : Byte).toNat = 255 ∨ logged.length ≤ (16 : Byte).toNat then logged.length else (16 : Byte).toNat) = 2 ∧
      (if (255 : Byte).toNat = 255 ∨ logged.length ≤ (255 : Byte).toNat then logged.length else (255 : Byte).toNat) = 2 := by
  decide +kernel

/-- The part with a log of exceptions. -/
def logging (l : List ExceptionRec) (overflow : Bool) : State :=
  { ready with access := { ready.access with log := l, overflow := overflow } }

/-- An empty log, one whose newest record agrees and one whose does not, with a free place and without (R78, R79). -/
theorem test_hyps_Exceptions :
    ready.access.log = [] ∧ (logging logged false).access.log = [stale21] ++ [stale21] ∧
      (∃ l x, (logging (List.replicate 15 stale21) false).access.log = l ++ [x] ∧ x.kind ≠ .integrity) ∧
      (logging (List.replicate 15 stale21) false).access.log.length < 16 ∧
      16 ≤ (logging (List.replicate 16 stale21) true).access.log.length ∧
      (logging (List.replicate 16 stale21) true).access.overflow = true ∧
      (logging (List.replicate 16 stale21) false).access.overflow = false :=
  ⟨by decide, by decide, ⟨List.replicate 14 stale21, stale21, by decide, by decide⟩, by decide, by decide, by decide,
    by decide⟩

/-- A log of two records of different kinds has no two consecutive ones alike (R78). -/
theorem test_hyps_Exceptions_apart :
    (logging [stale21, { stale21 with kind := .integrity }] false).access.log.length ≤ 16 ∧
      ∀ a x y b, (logging [stale21, { stale21 with kind := .integrity }] false).access.log = a ++ x :: y :: b →
        ¬(x.kind = y.kind ∧ x.input = y.input ∧ x.stream = y.stream ∧ x.tier = y.tier) := by
  refine ⟨by decide, fun a x y b h => ?_⟩
  have h : [stale21, { stale21 with kind := .integrity }] = a ++ x :: y :: b := h
  rcases a with _ | ⟨a₁, _ | ⟨a₂, a⟩⟩
  · cases h; decide
  · simp at h
  · simp at h

/-- Every context taken. -/
def crowded : State :=
  { ready with ctl := { ready.ctl with contexts := Vector.replicate 16 (ctxIn .retiring none 1) } }

theorem test_hyps_Tune :
    ready.handsOn = true ∧ crowded.handsOn = true ∧ currentIs bound01 0 (inputOf 0) 5 = true ∧
      pendingOf bound01 0 (inputOf 0) 6 = some 1 ∧ currentIs bound01 0 (inputOf 0) 6 = false ∧
      pendingOf bound01 1 (inputOf 0) 6 = none ∧ findContext (inputOf 0) 6 bound01 = some 1 ∧
      findContext (inputOf 0) 7 bound01 = none ∧ freeCtx bound01 = some 2 ∧ currentIs crowded 0 (inputOf 0) 5 = false ∧
      findContext (inputOf 0) 5 crowded = none ∧ freeCtx crowded = none := by decide +kernel

/-- A playback context of tag 7. -/
def playing : State :=
  withCtx 4 { ctxIn .entry (some 3000) 0 with input := pb, service := 7 } ready

theorem test_hyps_CaptureAndPlay :
    ready.tag 7 = .idle ∧ (ready.setTag 7 (.draining 0)).tag 7 ≠ .idle ∧ findContext pb 7 playing = some 4 ∧
      currentIs playing 1 pb 7 = false ∧ findContext pb 7 ready = none ∧ freeCtx ready = some 0 ∧
      currentIs (playing.setBinding 1 ⟨some ⟨4, .none⟩, none⟩) 1 pb 7 = true ∧
      freeCtx crowded = none := by decide +kernel

theorem test_hyps_Bindings :
    (ready.binding 0).pending = none ∧ (bound01.binding 0).pending = some ⟨1, 3000, .none⟩ ∧
      (playing.context 4).deadline = some 3000 ∧ (playing.context 4).state ∈ [.locate, .map, .key, .entry] ∧
      (bound01.context 0).deadline = none := by decide +kernel

/-- TP0 with an index of one service. -/
def indexed : State :=
  (withCtx 0 (ctxIn .locate (some 3000) 0) ready).setPortIndex 0 ⟨some ⟨1, 0, 0, [(5, 0x0100)]⟩, none, 0, 0⟩

/-- A map of two components with ratings, and its key stream where one is given. -/
def mapOf (key : Option Nat) (streams : List Nat) : MapBody :=
  ⟨key, [], streams.map (fun st => ⟨.video, st⟩)⟩

/-- Context 0 in a stage, with the entry of stream 0x0102 of TP0 a COMPONENT or SECTIONS one of context 0. -/
def staged (st : CtxState) (role : Role) : State :=
  withCtx 0 (ctxIn st (some 3000) 0) (withEntry none false role)

/-- A part whose 16 slots are taken, the one of (TP0, 0x0300) with no key, with one, or refused. -/
def slotted (even : Option Key) (refused : Bool) : State :=
  (List.finRange 16).foldl
    (fun s k => s.setSlot k (some
      { newSlot 0 0 (0x0300 + k.val) with even := even, refused := refused }))
    (staged .key .component)

/-- A map whose components find room and one that meets a SECTIONS entry; tiers that are held and that are not; a slot that
opens and slots that do not (R104, R105). -/
theorem test_hyps_Stages :
    (addComponents 0 0 (componentStreams (usedComponents (ctxIn .map none 0) (mapOf none [0x0200, 0x0201])))
        (staged .map .component)).1 = true ∧
      (addComponents 0 0 (componentStreams (usedComponents (ctxIn .map none 0) (mapOf none [0x0102])))
        (staged .map .sections)).1 = false ∧
      usedKeyStream (ctxIn .map none 0) (mapOf none [1]) = none ∧
      usedKeyStream (ctxIn .map none 0) (mapOf (some 0x0300) [1]) = some 0x0300 ∧
      (∀ r ∈ (staged .key .component).guide.list, r.service ≠ 5) ∧ currentEvent (staged .key .component) 5 = none ∧
      [(⟨5, 1, some 20, false, true⟩ : ServiceRec)].find? (fun r => r.service == 5) = some ⟨5, 1, some 20, false, true⟩ ∧
      (staged .key .component).access.entitlements = [] ∧
      (joinSlot 0 0 0x0300 (staged .key .component)).1 = some 0 ∧ (joinSlot 0 0 0x0400 (slotted none false)).1 = none ∧
      (addUser 0 0x0300 .sections (.ctx 0 (.keys 0)) (staged .key .component)).1 = .granted ∧
      (addUser 0 0x0102 .sections (.ctx 0 (.keys 0)) (staged .key .component)).1 = .conflict := by decide +kernel

theorem test_hyps_Stages_key :
    opensFor (slotted (some 1) false) { ctxIn .key none 0 with slot := some 0 } ∧
      ¬ opensFor (slotted none false) { ctxIn .key none 0 with slot := some 0 } ∧
      ¬ opensFor (slotted (some 1) true) { ctxIn .key none 0 with slot := some 0 } := by
  refine ⟨⟨0, _, rfl, rfl, .inl rfl, rfl⟩, ?_, ?_⟩ <;> rintro ⟨k, y, hk, hy, h, hr⟩ <;> cases hk <;> cases hy
  · rcases h with h | h <;> cases h
  · cases hr

/-- The pair of a slot, FREE slots and none; a leave that keeps the slot, one that frees it, and one by another context. -/
theorem test_hyps_KeySlots :
    (∃ y, (slotted none false).slot 3 = some y ∧ y.input = 0 ∧ y.stream = 0x0303) ∧
      (∀ j < 3, ¬∃ y, (slotted none false).slot j = some y ∧ y.input = 0 ∧ y.stream = 0x0303) ∧
      (∀ j, ready.slot j = none) ∧ (∀ j : SlotNo, (slotted none false).slot j ≠ none) ∧
      hasBit (newSlot 0 0 0x0300).users 0 = true ∧ dropBit (newSlot 0 0 0x0300).users 0 = 0 ∧
      hasBit (newSlot 0 0 0x0300).users 1 = false ∧ dropBit (addBit (newSlot 0 0 0x0300).users 1) 0 ≠ 0 := by
  refine ⟨⟨_, rfl, by decide, by decide⟩, ?_, by decide +kernel, by decide +kernel, by decide, by decide, by decide, by decide⟩
  rintro ⟨j, hj⟩ hlt ⟨y, hy, -, hs⟩
  have h3 : j < 3 := hlt
  obtain rfl | rfl | rfl : j = 0 ∨ j = 1 ∨ j = 2 := by omega
  all_goals cases hy; exact absurd hs (by decide)

/-- A map of service 5 with one component on stream 0x0200, usable on TP0; one with none; a map on an extension that is not
the service; a map of the version held and of another. -/
theorem test_hyps_MapSections :
    (usableMap (ctxIn .running none 0) [0, 0, 0, 1, 1, 2, 0]).isSome = true ∧
      usableMap (ctxIn .running none 0) [0, 0, 0, 0] = none ∧
      (usableMap (ctxIn .running none 0) [0, 0, 0, 2, 1, 2, 0, 2, 2, 0]).isSome = false ∧
      (ctxIn .running none 0).service ≠ 6 ∧ (ctxIn .running none 0).input ≠ pb ∧
      ({ ctxIn .running none 0 with mapVersion := some 4 } : Context).mapVersion = some 4 ∧
      (ctxIn .running none 0).mapVersion ≠ some 4 ∧ CtxState.running ≠ .map ∧
      CtxState.running ∈ [CtxState.map, .key, .entry, .running] := by decide +kernel

/-- Changes of a map that are granted and refused, of the key stream and of the map stream (R119 to R121). -/
theorem test_hyps_MapChanges :
    (addComponents 0 0 (componentStreams (usedComponents (ctxIn .running none 0) (mapOf none [0x0200, 0x0102])))
        (staged .running .component)).1 = true ∧
      (addComponents 0 0 (componentStreams (usedComponents (ctxIn .running none 0) (mapOf none [0x0200, 0x0102])))
        (staged .running .sections)).1 = false ∧
      holdsPurpose 0 0x0102 0 (.component 0) (staged .running .component) = true ∧
      holdsPurpose 0 0x0200 0 (.component 0) (staged .running .component) = false ∧
      usedKeyStream (ctxIn .running none 0) (mapOf none [1]) = (ctxIn .running none 0).keyStream ∧
      usedKeyStream (ctxIn .running none 0) (mapOf (some 2) [1]) ≠ (ctxIn .running none 0).keyStream ∧
      (getAt ready.guide.index 0).inUse.bind (IndexRec.lists · 5) = none ∧
      (getAt indexed.guide.index 0).inUse.bind (IndexRec.lists · 5) = some 0x0100 ∧
      (ctxIn .running none 0).mapStream ≠ some 0x0100 ∧
      ({ ctxIn .running none 0 with mapStream := some 0x0100 } : Context).mapStream = some 0x0100 := by decide +kernel

theorem test_hyps_Locate :
    (indexed.context 0).state = .locate ∧ (indexed.context 0).input = inputOf 0 ∧
      (getAt ready.guide.index 0).inUse = none ∧
      (getAt indexed.guide.index 0).inUse.bind (IndexRec.lists · 5) = some 0x0100 ∧
      (∀ e ∈ [((5 : Nat), (0x0100 : Nat))], e.1 ≠ 6) ∧
      (addUser 0 0x0100 .sections (.ctx 0 .map) indexed).1 = .granted ∧
      (addUser 0 0x0102 .sections (.ctx 0 .map) (withEntry none false .component)).1 ≠ .granted := by decide +kernel

/-- Entry to MAP on PB, with the entry of its map stream free and taken by COMPONENT purposes (R102, R104); a component list
whose first VIDEO component is the second, and one without any (Table 6-2). -/
theorem test_hyps_Locate_playback :
    (playing.context 4).input = pb ∧ (addUser pb 0x11C0 .sections (.ctx 4 .map) playing).1 = .granted ∧
      (addUser pb 0x11C0 .sections (.ctx 4 .map)
        { playing with table := [newEntry pb 0x11C0 .component (.ctx 4 (.component 0))] }).1 = .conflict ∧
      entryComponentOf [⟨.audio, 1⟩, ⟨.video, 2⟩, ⟨.video, 3⟩] = some 1 ∧ entryComponentOf [⟨.audio, 1⟩] = some 0 ∧
      entryComponentOf [] = none := by decide +kernel

theorem test_hyps_Release :
    ready.binding 1 = ⟨none, none⟩ ∧ bound01.binding 0 = ⟨some ⟨0, .none⟩, some ⟨1, 3000, .none⟩⟩ ∧
      (bound01.setBinding 0 ⟨none, some ⟨1, 3000, .none⟩⟩).binding 0 = ⟨none, some ⟨1, 3000, .none⟩⟩ ∧
      (bound01.setBinding 0 ⟨some ⟨0, .none⟩, none⟩).binding 0 = ⟨some ⟨0, .none⟩, none⟩ ∧ ready.tag 0 = .idle ∧
      (ready.setTag 7 (.draining 0)).tag 7 = .draining 0 ∧
      (ready.setTag 7 (.bound 0 none .none)).tag 7 = .bound 0 none .none := by
  decide +kernel

/-- Service 5 in MAP, pending on output 0 with ENTITLEMENT judged before its current event got the tier 9, which is not
held. -/
def staleTier : State :=
  (withCtx 0 (ctxIn .map (some 3000) 0)
    { clockAt 0 none with guide := { ready.guide with events := [{ event 7 0 with tier := some 9 }] } }).setBinding 0
      ⟨none, some ⟨0, 3000, .none⟩⟩

/-- The binding of an output, and that of a tag, judge ENTITLEMENT on the other destinations of the context too (R116). -/
theorem test_binding_judges_every_destination :
    ((bindPending 1 0 staleTier).binding 0).pending = some ⟨0, 3000, ⟨false, true, false, .none⟩⟩ ∧
      ((bindTag 2 0 staleTier).binding 0).pending = some ⟨0, 3000, ⟨false, true, false, .none⟩⟩ := by decide +kernel

/-! ### Witnesses: verdicts, PINs and gated orders -/

/-- A clock that is SET keeps a minute of week (R50); the start minute of a window is inside it and its end is not (R134). -/
theorem test_hyps_QuietWindows :
    (clockAt 0 none).clock.net = some ⟨0, 60⟩ ∧ (clockAt 0 none).clock.minute = some 0 ∧ ready.clock.net = none ∧
      ((10079 : Int) - 10079) % 10080 < 2 ∧ ((0 : Int) - 10079) % 10080 < 2 ∧ ¬((1 : Int) - 10079) % 10080 < 2 := by
  decide +kernel

/-- Code 64 lies beyond the table and has level 15, system 8 counts for no reason (R132). -/
theorem test_levels :
    aboveLimit ready { Profile.initial with limits := Vector.replicate 8 14 } ⟨7, 64⟩ = true ∧
      aboveLimit ready Profile.initial ⟨7, 64⟩ = false ∧
      aboveLimit ready { Profile.initial with limits := Vector.replicate 8 0 } ⟨8, 0⟩ = false := by decide +kernel

theorem test_hyps_VerdictsAreComputedAgain :
    (bound01.binding 0).current = some ⟨0, .none⟩ ∧ (bound01.binding 1).current = none ∧
      getAt bound01.parental.binding 0 = none ∧
      getAt ({ bound01.parental with binding := setAt bound01.parental.binding 0 (some 3) } : Parental).binding 0 = some 3 := by
  decide +kernel

/-- A context on slot 3 of tier 20, current on output 0, and capturing on tags 2 (started) and 3 (not started). -/
def onSlot (x : Slot) (l : List Entitlement) : State :=
  { (withCtx 0 { ctxIn .running none 0 with slot := some 3 } ready).setBinding 0 ⟨some ⟨0, .none⟩, none⟩
      |>.setTag 2 (.bound 0 none .none) |>.setTag 3 (.bound 0 (some 3000) .none)
    with access := { ready.access with slots := setAt ready.access.slots 3 (some x), entitlements := l } }

/-- A slot of TP0 with tier 20, a key, and context 0 as its user. -/
def slot20 : Slot :=
  { newSlot 0 0 0x0300 with tier := some 20, even := some 1 }

/-- ENTITLEMENT by a tier of the service list or of the event, by a refused slot and by the tier of a slot, and KEY_LAPSE,
present and absent (R115, R116). -/
theorem test_hyps_HoldReasons :
    entitlementReason (onSlot slot20 [⟨20, 0, none, none⟩]) ((onSlot slot20 []).context 0) = false ∧
      entitlementReason (onSlot slot20 []) ((onSlot slot20 []).context 0) = true ∧
      entitlementReason (onSlot { slot20 with refused := true } [⟨20, 0, none, none⟩]) ((onSlot slot20 []).context 0) = true ∧
      entitlementReason { ready with guide := { ready.guide with list := [⟨5, 1, some 20, false, true⟩] } }
        (ctxIn .running none 0) = true ∧
      entitlementReason
        { clockAt 0 none with guide := { ready.guide with events := [{ event 7 0 with tier := some 20 }] } }
        (ctxIn .running none 0) = true ∧
      entitlementReason { ready with guide := { ready.guide with list := [⟨5, 1, some 20, false, true⟩] } }
        { ctxIn .running none 0 with input := pb } = false ∧
      keyLapseReason (onSlot { slot20 with lapsed := true } []) ((onSlot slot20 []).context 0) = true ∧
      keyLapseReason (onSlot slot20 []) ((onSlot slot20 []).context 0) = false := by decide +kernel

/-- Hold sets judged again, changed and unchanged, on a current binding, a pending one, a started tag and one that has not
started (R118). -/
theorem test_hyps_HoldsAreJudgedAgain :
    judged (onSlot slot20 []) judgeEntitlement 0 (.output 0) .none ≠ .none ∧
      judged (onSlot slot20 [⟨20, 0, none, none⟩]) judgeEntitlement 0 (.output 0) .none = .none ∧
      (onSlot slot20 []).tag 2 = .bound 0 none .none ∧ (onSlot slot20 []).tag 3 = .bound 0 (some 3000) .none ∧
      (rejudgeTag judgeEntitlement (fun _ => true) 2 (onSlot slot20 [])).notices.queue.length = 1 ∧
      (rejudgeTag judgeEntitlement (fun _ => true) 3 (onSlot slot20 [])).notices.queue = [] ∧
      (ready.setTag 2 (.draining 0)).tag 2 = .draining 0 ∧ ready.tag 2 = .idle ∧ (bound01.binding 1).pending = none ∧
      (bound01.setBinding 1 ⟨none, some ⟨1, 3000, .none⟩⟩).binding 1 = ⟨none, some ⟨1, 3000, .none⟩⟩ ∧
      ready.binding 0 = ⟨none, none⟩ := by decide +kernel

/-- The event of a RUNNING context is the tracked one, that of a context in acquisition the one of the store (R131). -/
theorem test_hyps_VerdictEvent :
    verdictEvent (tracking 0 none) (ctxIn .running none 0) = none ∧
      verdictEvent (tracking 1800 (some 7)) (ctxIn .running none 0) = some (event 7 0) ∧
      (∀ t ∈ ready.guide.tracked, t.service ≠ 5) ∧
      verdictEvent (tracking 0 none) (ctxIn .map none 0) = some (event 7 0) ∧
      verdictEvent (tracking 1800 (some 7)) (ctxIn .map none 0) = none := by decide +kernel

/-- A tier lost with a slot on it: KEY_LAPSE and ENTITLEMENT join on the output, ENTITLEMENT alone on the tags (R76). -/
theorem test_tier_lost :
    ((removeTiers (fun r => r.tier == 20) (onSlot slot20 [⟨20, 0, none, none⟩])).binding 0).current =
        some ⟨0, { HoldSet.none with entitlement := true, keyLapse := true }⟩ ∧
      (removeTiers (fun r => r.tier == 20) (onSlot slot20 [⟨20, 0, none, none⟩])).tag 2 =
        .bound 0 none { HoldSet.none with entitlement := true } ∧
      (removeTiers (fun r => r.tier == 20) (onSlot slot20 [⟨20, 0, none, none⟩])).slot 3 =
        some { slot20 with even := none, lapsed := true } := by decide +kernel

theorem test_hyps_PinChecks :
    (ready.profile 0).pin = none ∧ ((withPin 2 none).profile 0).pin = some pinned ∧
      ((withPin 1 none).profile 0).failures < 2 ∧
      2 ≤ ((withPin 2 none).profile 0).failures ∧ (withPin 0 (some 1)).clock.uptime < 1 ∧
      (pinCheck 0 pinned (withPin 0 (some 1))).1 = .lockedOut 1 ∧ (pinCheck 0 pinned (withPin 2 (some 0))).1 = .right ∧
      (pinCheck 0 #v[0, 0, 0, 0] (withPin 1 none)).1 = .wrong 2 false ∧
      (pinCheck 0 #v[0, 0, 0, 0] (withPin 2 none)).1 = .wrong 0 true := by decide +kernel

/-- Both sides of the gate (R144). -/
theorem test_hyps_PassesGate : PassesGate 0 none ready ready := ⟨nofun, .inl ⟨by decide, rfl⟩⟩

theorem test_hyps_PassesGate_with_pin :
    PassesGate 0 (some pinned) (locked (withPin 0 none)) (pinCheck 0 pinned (locked (withPin 0 none))).2 := by
  have h : (pinCheck 0 pinned (locked (withPin 0 none))).1 = .right := by decide +kernel
  exact ⟨fun d hd => by cases hd; decide, .inr ⟨rfl, pinned, rfl, by rw [← h]⟩⟩

theorem test_hyps_FailsGate_without_pin : FailsGate 0 none (locked ready) (refuse .badParam) (locked ready) :=
  .inl ⟨.inr ⟨by decide, rfl⟩, rfl, rfl⟩

/-- A digit above 9 is refused while the lock is clear too (R185). -/
theorem test_hyps_FailsGate_digits : FailsGate 0 (some #v[1, 2, 3, 10]) ready (refuse .badParam) ready :=
  .inl ⟨.inl ⟨_, rfl, by decide⟩, rfl, rfl⟩

theorem test_hyps_FailsGate_wrong_pin :
    FailsGate 0 (some #v[0, 0, 0, 0]) (locked (withPin 2 none)) (pinReply (.wrong 0 true))
      (pinCheck 0 #v[0, 0, 0, 0] (locked (withPin 2 none))).2 := by
  have h : (pinCheck 0 #v[0, 0, 0, 0] (locked (withPin 2 none))).1 = .wrong 0 true := by decide +kernel
  exact .inr ⟨rfl, #v[0, 0, 0, 0], .wrong 0 true, rfl, by decide, by rw [← h], by decide, rfl⟩

theorem test_hyps_RatingRowsAndProfiles :
    (7 : Fin 8).val = (7 : Byte).toNat ∧ (∀ l ∈ (Vector.replicate 64 (15 : Byte)).toList, l.toNat ≤ 15) ∧
      15 < (16 : Byte).toNat ∧ (3 : ProfileNo).val = (3 : Byte).toNat ∧ (ready.profile 3).pin.isSome = false := by
  decide +kernel

theorem test_hyps_Windows :
    ((10079 : Word16).toNat ≤ 10079 ∧ 1 ≤ (10080 : Word16).toNat ∧ (10080 : Word16).toNat ≤ 10080) ∧
      10079 < (10080 : Word16).toNat ∧ (0 : Word16).toNat = 0 ∧ 10080 < (10081 : Word16).toNat := by decide +kernel

theorem test_hyps_ProfilesAreBound :
    getAt ready.parental.binding 1 = none ∧ getAt ready.parental.binding 1 ≠ some 3 ∧ (255 : Byte).toNat = 255 ∧
      4 ≤ (254 : Byte).toNat ∧ (254 : Byte).toNat ≠ 255 := by decide +kernel

theorem test_hyps_Services :
    (15 : Byte).toNat ≤ 15 ∧ 15 < (16 : Byte).toNat ∧ (∀ l ∈ ready.parental.locked, l.service ≠ 5) ∧
      (∃ l ∈ [(⟨5, 1⟩ : LockedService)], l.service = 5) ∧ (List.replicate 31 (⟨5, 1⟩ : LockedService)).length < 32 ∧
      32 ≤ (List.replicate 32 (⟨5, 1⟩ : LockedService)).length ∧
      ∀ l ∈ List.replicate 32 (⟨5, 1⟩ : LockedService), l.service ≠ 6 := by decide +kernel

theorem test_hyps_Pins :
    ready.handsOn = true ∧ digitsOk pinned = true ∧ digitsOk #v[1, 2, 3, 10] = false ∧ (ready.profile 0).pin = none ∧
      ready.parental.lock = false ∧ ((withPin 0 none).profile 0).pin.isSome = true ∧
      (locked (withPin 0 none)).parental.lock = true := by decide +kernel

/-- The part with a profile bound to output 0, and grants. -/
def granting (l : List Grant) : State :=
  { bound01 with parental :=
    { (withPin 0 none).parental with binding := setAt ready.parental.binding 0 (some 0), grants := l } }

theorem test_hyps_Unlock :
    (bound01.binding 1).current = none ∧ getAt bound01.parental.binding 0 = none ∧
      ((granting []).binding 0).current = some ⟨0, .none⟩ ∧ getAt (granting []).parental.binding 0 = some 0 ∧
      (pinCheck 0 pinned (granting [])).1 = .right ∧ (pinCheck 0 #v[0, 0, 0, 0] (granting [])).1 ≠ .right ∧
      max 1 (min 720 (0 : Word16).toNat) = 1 ∧ max 1 (min 720 (721 : Word16).toNat) = 720 ∧
      (granting (List.replicate 8 ⟨1, .pb 2, 3, .minutes 9⟩)).parental.grants.length = 8 := by decide +kernel

/-- REVOKE_GRANTS of output 2 is out of range; of 1 and of ALL it ends the grants of output 1 (R142). -/
theorem test_hyps_Revoke :
    (2 : Nat) ≤ (2 : Byte).toNat ∧ (2 : Byte).toNat ≠ 255 ∧ (1 : Byte).toNat < 2 ∧ (255 : Byte).toNat = 255 ∧
      (takeRevokeGrants 255 (granting [⟨1, .pb 2, 3, .minutes 9⟩])).2.parental.grants = [] := by decide +kernel

/-! ### Witnesses: packets, key messages, sections and events -/

theorem test_hyps_PacketsJoin :
    (List.replicate 63 (QueuedPacket.mk [] 0 0)).length < 64 ∧
      64 ≤ (List.replicate 64 (QueuedPacket.mk [] 0 0)).length ∧
      (ready.output 0).queue.length < 64 ∧ ready.out.capture.length < 128 ∧ getAt ready.out.captureCount 0 < 64 ∧
      128 ≤ (List.replicate 128 (CapturePacket.mk [] 0 0)).length ∧ 3 ≤ (unit 0 0 0 0).length := by decide +kernel

/-- The part ENABLED with unit address 7 and home network 812, in group 9, and with the records given. -/
def enabled (seq : Option Nat) (l : List Entitlement) : State :=
  { ready with access :=
    { ready.access with
      fuses := some ⟨7, 1, 0⟩, home := some 812, unitSeq := seq, groups := [⟨9, 2, seq⟩], entitlements := l } }

/-- A key slot on TP0 that has taken sequence number 65535. -/
def slot0 (last : Option Nat) : Slot :=
  ⟨0, 0x0300, some 20, none, none, last, false, 0, false, 1, 0, 0, 0, 0, 0, 0, 0⟩

/-- The sequence test at its boundaries (R89): d is 0, 1, 32767 and 32768, and on PB it is skipped. -/
theorem test_hyps_KeyMessages_sequence :
    keySeqTest (slot0 none) 7 = .accepted ∧ keySeqTest (slot0 (some 65535)) 65535 = .duplicate ∧
      keySeqTest (slot0 (some 65535)) 0 = .accepted ∧ keySeqTest (slot0 (some 65535)) 32766 = .accepted ∧
      keySeqTest (slot0 (some 65535)) 32767 = .stale ∧
      keySeqTest { slot0 (some 5) with input := pb } 5 = .accepted := by
  decide +kernel

theorem test_hyps_KeyMessages_state :
    (ready.setSlot 3 (some (slot0 none))).slot 3 = some (slot0 none) ∧
      [(⟨20, 1, none, none⟩ : Entitlement)].find? (fun r => r.tier == 20) = some ⟨20, 1, none, none⟩ ∧
      (∀ r ∈ ready.access.entitlements, r.tier ≠ 20) ∧ (813 : Nat) ≠ 812 := by decide +kernel

/-- The refused flag clear and set; installs that change what the slot shows and one that does not (R85). -/
theorem test_hyps_KeyMessages_condition :
    (slot0 none).refused = false ∧ ({ slot0 none with refused := true } : Slot).refused = true ∧
      (slot0 none).tier = some 20 ∧ (slot0 none).tier ≠ some 21 ∧ ((slot0 none).even.isSome || (slot0 none).odd.isSome) = false := by
  decide +kernel

/-- The gates, a FREE slot, a slot of another pair, a body that cannot be read and one whose tier is not its extension (R86). -/
theorem test_hyps_KeyMessages_form :
    State.reset.access.fuses = none ∧ ready.access.home = none ∧ (enabled none []).access.fuses ≠ none ∧
      (enabled none []).access.home = some 812 ∧ (enabled none []).slot 3 = none ∧
      ((enabled none []).setSlot 3 (some (slot0 none))).slot 3 = some (slot0 none) ∧ (slot0 none).stream ≠ 0x0301 ∧
      readKeyMessage (List.replicate 45 0) = none ∧
      (readKeyMessage (List.replicate 46 0)).map KeyBody.tier = some 0 := by decide +kernel

/-- A check value that agrees, and one that differs. -/
theorem test_hyps_KeyMessages_check (k : Key) (l : List Byte) :
    ∃ good bad : BitVec 64, Config.checkValue k l = good ∧ Config.checkValue k l ≠ bad := by
  refine ⟨_, ~~~(Config.checkValue k l), rfl, fun h => ?_⟩
  have := congrArg (fun v => BitVec.getLsbD v 0) h
  simp at this

/-- Sections of kind 0x40 whose CRC checks: a current one, a next version, and one whose index is beyond its last index; and one
whose CRC does not (R29, R30). -/
theorem test_hyps_CompletedSections :
    crc32 [0x40, 0, 9, 0, 1, 1, 0, 0, 0xC8, 0x39, 0x4F, 0x93] = 0 ∧
      (sectionHeader [0x40, 0, 9, 0, 1, 1, 0, 0, 0xC8, 0x39, 0x4F, 0x93]).current = true ∧
      crc32 [0x40, 0, 9, 0, 1, 0, 0, 0, 0xC9, 0xE1, 0xE3, 0x14] = 0 ∧
      (sectionHeader [0x40, 0, 9, 0, 1, 0, 0, 0, 0xC9, 0xE1, 0xE3, 0x14]).current = false ∧
      crc32 [0x40, 0, 9, 0, 1, 1, 1, 0, 0x1A, 0x20, 0x8E, 0x4F] = 0 ∧
      (sectionHeader [0x40, 0, 9, 0, 1, 1, 1, 0, 0x1A, 0x20, 0x8E, 0x4F]).lastIndex <
        (sectionHeader [0x40, 0, 9, 0, 1, 1, 1, 0, 0x1A, 0x20, 0x8E, 0x4F]).index ∧
      crc32 [0x40, 0, 9, 0, 1, 1, 0, 0, 0, 0, 0, 0] ≠ 0 := by decide +kernel

/-- The consumers of Table 2-4 on an entry, present and absent. -/
theorem test_hyps_CompletedSections_offers :
    (Entry.fixed 3).pins.index = true ∧ (Entry.fixed 3).input = inputOf 3 ∧ (Entry.fixed 0).pins.guide = false ∧
      (Entry.fixed 0).pins.time = false ∧ (Entry.fixed 0).pins.access = false ∧ (Entry.fixed 0).keysSlot = none ∧
      (newEntry 0 0x0100 .sections (.pin .guide)).pins.guide = true ∧
      (newEntry 0 0x0100 .sections (.pin .time)).pins.time = true ∧
      (newEntry 0 0x0100 .sections (.pin .access)).pins.access = true ∧
      (newEntry 0 0x0100 .sections (.ctx 2 (.keys 9))).keysSlot = some 9 ∧
      (newEntry 0 0x0100 .sections (.pin .index)).pins.index = true ∧ 0x40 ∉ [0x10, 0x12, 0x30, 0x31, 0x32, 0x90, 0x94] := by
  decide +kernel

theorem test_hyps_CompletedSections_filters :
    hasBit (0 : BitVec 24) 23 = false ∧ hasBit (addBit (0 : BitVec 24) 23) 23 = true ∧
      getAt ready.sections.filters 23 = none ∧
      (findEntry 0 0x0010 ready).map (fun e => e.pins.filters) = some 0 ∧ findEntry 0 0x0011 ready = none := by
  decide +kernel

/-- A filter for kind 0x80, and the header bytes of a section. -/
def kind80 (suppress : Bool) (seen : List SeenSet) : Filter :=
  ⟨some 0, 0x0100, #v[0x80, 0, 0, 0, 0, 0], #v[0xFF, 0, 0, 0, 0, 0], true, suppress, seen⟩

theorem test_hyps_Filters_match :
    (kind80 false []).agrees [0x80, 0, 9, 1, 2, 3, 4, 5] = true ∧
      (kind80 false []).agrees [0x81, 0, 9, 1, 2, 3, 4, 5] = false ∧
      (kind80 true []).suppress = true ∧ (kind80 false []).suppress = false := by decide +kernel

/-- The seen sets: an index seen is suppressed, another is added, a new version empties the set,
      and the ninth instance takes
the place of the oldest (R34). -/
theorem test_hyps_Filters_seen :
    seenAfter ⟨0x80, 1, 2, true, 4, 5⟩ [⟨0x80, 1, 2, addIndex 0 4⟩] = none ∧
      seenAfter ⟨0x80, 1, 2, true, 5, 5⟩ [⟨0x80, 1, 2, addIndex 0 4⟩] = some [⟨0x80, 1, 2, addIndex (addIndex 0 4) 5⟩] ∧
      seenAfter ⟨0x80, 1, 3, true, 5, 5⟩ [⟨0x80, 1, 2, addIndex 0 4⟩] = some [⟨0x80, 1, 3, addIndex 0 5⟩] ∧
      (seenAfter ⟨0x80, 1, 3, true, 5, 5⟩ (⟨0x81, 0, 0, 0⟩ :: List.replicate 7 ⟨0x81, 9, 0,
      0⟩)).map (fun l => l.map SeenSet.extension) =
        some [9, 9, 9, 9, 9, 9, 9, 1] := by decide +kernel

/-- The window at N = 1000: an event that ends at N is outside, one that starts at the horizon is inside (R60). -/
theorem test_hyps_Events_window :
    outsideWindow (clockAt 1000 none) ⟨5, 1, 940, 1, none, []⟩ = true ∧
      outsideWindow (clockAt 1000 none) ⟨5, 1, 941, 1, none, []⟩ = false ∧
      outsideWindow (clockAt 1000 none) (event 1 173800) = false ∧
      outsideWindow (clockAt 1000 none) (event 1 173801) = true ∧
      outsideWindow ready (event 1 0) = false := by decide +kernel

theorem test_hyps_Events_store :
    (event 1 0).overlaps (event 2 (30 * 60)) = false ∧ (event 1 0).overlaps (event 2 (30 * 60 - 1)) = true ∧
      latestEvent [event 1 10, ⟨6, 0, 10, 1, none, []⟩, event 2 9] = some ⟨6, 0, 10, 1, none, []⟩ ∧
      (insertEvent (event 1 10) (ready.setEvents [event 1 50, event 2 20])).guide.events = [event 1 10] ∧
      (removeEvents [event 1 50] (ready.setEvents [event 1 50, event 2 20])).guide.events = [event 2 20] := by decide +kernel

/-- Event bodies: one that is cut short, one of 11 bytes; durations 0, 1,440 and 1,441; a full store that holds a later
event; a copy that is stored and the change of its tier (R59 to R61, R63). -/
theorem test_hyps_Events_bodies :
    eventBodies 10 (List.replicate 10 0) = none ∧ (eventBodies 11 (List.replicate 11 0)).isSome = true ∧
      (∃ x ∈ [event 1 50], x.service = (event 1 10).service ∧ x.id = (event 1 10).id) ∧
      (∀ x ∈ [event 2 50], ¬(x.service = (event 1 10).service ∧ x.id = (event 1 10).id)) ∧
      (event 1 10).start < (event 2 11).start ∧ (event 2 11).start ≤ (event 1 11).start ∧
      contentChanged (some (event 1 0)) (some { event 1 0 with tier := some 20 }) = true ∧
      contentChanged (some (event 1 0)) (some (event 1 0)) = false := by decide +kernel

/-! ### Witnesses: index and list sections -/

/-- An index of the multiplex 1, version 0, that holds index 0, as the index in use or as the collection. -/
def index1 : IndexRec :=
  ⟨1, 0, addIndex 0 0, [(5, 0x0100)]⟩

/-- Index sections that cannot be read, that the record owns, with an index it holds and one it does not, and that begin a new
collection (R53). -/
theorem test_hyps_IndexSections :
    indexPairs [0, 5, 0x1F] = none ∧ indexPairs [0, 5, 0x1F, 0xEF] = some [(5, 0x1FEF)] ∧ (0x1FEF ≤ 0x1FEF ∧ ¬ 0x1FF0 ≤ 0x1FEF) ∧
      index1.version = 0 ∧ index1.multiplex = 1 ∧ hasIndex index1.received 0 = true ∧ hasIndex index1.received 1 = false ∧
      (⟨some index1, none, 0, 0⟩ : PortIndex).inUse = some index1 ∧ (⟨none, some index1, 0, 0⟩ : PortIndex).collection = some index1 ∧
      (getAt ready.guide.index 2).inUse = none ∧ (getAt ready.guide.index 2).collection = none := by decide +kernel

/-- A pair that is listed with its stream, with another, and that is not, with room and without; contexts on the port and not. -/
theorem test_hyps_IndexPairs :
    index1.entries.find? (fun y => y.1 == 5) = some (5, 0x0100) ∧ (∀ y ∈ index1.entries, y.1 ≠ 6) ∧
      (List.replicate 63 ((5, 1) : Nat × Nat)).length < 64 ∧ 64 ≤ (List.replicate 64 ((5, 1) : Nat × Nat)).length ∧
      (indexed.context 0).input = inputOf 0 ∧ (indexed.context 0).input ≠ inputOf 1 ∧ (indexed.context 0).state = .locate ∧
      (bound01.context 0).input = inputOf 0 ∧ (bound01.context 0).state ∈ [.map, .key, .entry, .running] := by decide +kernel

/-- List sections that cannot be read, of the version held and of another, that complete the list and that do not; records that
are known, and that are not with room and without (R56). -/
theorem test_hyps_ListSections :
    serviceRecords [0, 5, 1] = none ∧ serviceRecords [0, 5, 1, 3, 20] = some [⟨5, 1, some 20, true, true⟩] ∧
      ready.guide.listVersion = none ∧ (⟨9, 2, addIndex 0 0, 1⟩ : ListVersion).network = 9 ∧
      (∀ k ≤ 1, hasIndex (addIndex (addIndex 0 0) 1) k = true) ∧ (∃ k ≤ 1, hasIndex (addIndex 0 0) k = false) ∧
      [(⟨5, 1, some 20, false, true⟩ : ServiceRec)].find? (fun x => x.service == 5) = some ⟨5, 1, some 20, false, true⟩ ∧
      (∀ x ∈ List.replicate 255 (⟨5, 1, none, false, true⟩ : ServiceRec), x.service ≠ 6) ∧
      (List.replicate 255 (⟨5, 1, none, false, true⟩ : ServiceRec)).length < 256 ∧
      256 ≤ (List.replicate 256 (⟨5, 1, none, false, true⟩ : ServiceRec)).length := by decide +kernel

theorem test_hyps_Events_full : 2048 ≤ (List.replicate 2048 (event 1 10)).length :=
  Nat.le_of_eq List.length_replicate.symm

/-! ### Witnesses: time sections -/

/-- The time body for N with offset 840, and a change to −720 at N2 where one is given. -/
def timeBody (n : Nat) (n2 : Option Nat) : List Byte :=
  enc32 n ++ encSigned16 840 ++ encBool n2.isSome ++ (match n2 with
    | some n2 => enc32 n2 ++ encSigned16 (-720)
    | none => List.replicate 6 0)

/-- Offsets at both ends of −720..840 are good, the steps past them are not; a change is over at N2 and not before. -/
theorem test_hyps_TimeSections :
    readTime (timeBody 50 none) = some ⟨50, 840, none⟩ ∧ readTime (timeBody 50 (some 50)) = some ⟨50, 840, some ⟨50, -720⟩⟩ ∧
      readTime (timeBody 50 (some 51)) = some ⟨50, 840, some ⟨51, -720⟩⟩ ∧ readTime (List.replicate 12 0) = none ∧
      (-720 ≤ (840 : Int) ∧ (840 : Int) ≤ 840 ∧ (840 : Int) % 15 = 0) ∧ (-720 : Int) % 15 = 0 ∧ (840 : Int) < 855 ∧
      (839 : Int) % 15 ≠ 0 ∧ (50 : Nat) ≤ 50 ∧ (50 : Nat) < 51 := by decide +kernel

/-- Beside N = 46 the value 50 lies within 4 s and 51 does not; beside the candidate 49 of uptime 0 the value 51 agrees
within 2 s at uptime 0 and 60 s on, not at 61. -/
theorem test_hyps_TimeSections_candidate :
    (clockAt 46 none).clock.net = some ⟨46, 60⟩ ∧ 50 ≤ 46 + 4 ∧ 46 + 4 < 51 ∧ State.reset.clock.net = none ∧
      State.reset.clock.candidate = none ∧
      (⟨49, 0⟩ : Candidate).confirms 0 51 = true ∧ (⟨48, 0⟩ : Candidate).confirms 0 51 = false ∧
      (⟨49, 0⟩ : Candidate).confirms 60 111 = true ∧ (⟨49, 0⟩ : Candidate).confirms 61 110 = false := by decide +kernel

/-! ### Witnesses: entitlement messages and the descrambler -/

/-- The body of a PURGE message for network 812, before its check value. -/
def purgeBody (kind address : Nat) : List Byte :=
  enc16 812 ++ enc8 kind ++ enc32 address ++ enc32 5 ++ enc8 4

theorem test_hyps_EntitlementMessages :
    State.reset.access.home = none ∧ (enabled none []).access.fuses = some ⟨7, 1, 0⟩ ∧
      (enabled none []).access.home = some 812 ∧ readAccess (List.replicate 19 0) = none ∧
      (readAccess (purgeBody 1 7 ++ List.replicate 8 0)).map AccessBody.address = some (.unit 7) ∧
      (readAccess (purgeBody 2 9 ++ List.replicate 8 0)).map AccessBody.address = some (.group 9) ∧
      (readAccess (purgeBody 1 8 ++ List.replicate 8 0)).map AccessBody.address = some (.unit 8) ∧
      (readAccess (purgeBody 2 8 ++ List.replicate 8 0)).map AccessBody.address = some (.group 8) ∧
      (readAccess (purgeBody 1 7 ++ List.replicate 8 0)).map (fun m => (m.network, m.seq)) = some (812, 5) ∧
      (enabled (some 5) []).access.groups.find? (fun x => x.id == 9) = some ⟨9, 2, some 5⟩ ∧ (5 : Nat) ≤ 5 ∧ 4 < 5 := by
  decide +kernel

/-- Whatever the check value is, a body carries it, and another body carries a wrong one. -/
theorem test_hyps_EntitlementMessages_check (k : Key) :
    (∃ c : BitVec 64, Config.checkValue k (purgeBody 1 7) = c) ∧ ∃ c : BitVec 64, Config.checkValue k (purgeBody 1 7) ≠ c :=
  ⟨⟨_, rfl⟩, (test_hyps_KeyMessages_check k _).elim fun _ h => h.elim fun bad h => ⟨bad, h.2⟩⟩

/-- GRANT meets a held tier, a full list and one with a last place, and an expiry at N and past it (R72). -/
theorem test_hyps_Instructions :
    (∃ x ∈ (enabled none [⟨1, 0, none, none⟩]).access.entitlements, x.tier = 1) ∧
      (∀ x ∈ List.replicate 63 (⟨1, 0, none, none⟩ : Entitlement), x.tier ≠ 2) ∧
      (List.replicate 63 (⟨1, 0, none, none⟩ : Entitlement)).length < 64 ∧
      64 ≤ (List.replicate 64 (⟨1, 0, none, none⟩ : Entitlement)).length ∧
      (clockAt 50 none).clock.net = some ⟨50, 60⟩ ∧ 50 ≤ 50 ∧ 50 < 51 ∧
      (List.replicate 5 ((1, 0) : Nat × Key)).length = 5 ∧ ([(1, 0), (2, 0), (3, 0), (4, 0)] : List (Nat × Key)).length ≤ 4 ∧
      ([(1, 0), (2, 0), (3, 0), (4, 0)] : List (Nat × Key)).map Prod.fst = [1, 2, 3, 4] ∧
      ¬ (([(1, 0), (1, 1)] : List (Nat × Key)).map Prod.fst).Nodup := by decide +kernel

/-- The four key phases, a packet without payload, and a slot whose run is one short of 64 (R92 to R94). -/
theorem test_hyps_Descrambler :
    keyPhase (unit 0 0 0x1F 0) = 0 ∧ keyPhase (unit 0 0 0x5F 0) = 1 ∧ keyPhase (unit 0 0 0x9F 0) = 2 ∧
      keyPhase (unit 0 0 0xDF 0) = 3 ∧ payloadPresent (unit 0 0 0x9F 0) = true ∧ payloadPresent (unit 0 0 0xA0 0) = false ∧
      4 ≤ (unit 0 0 0x9F 0).length ∧ (ready.setSlot 3 (some (slot0 none))).slot 3 = some (slot0 none) ∧
      bump 64 ({ slot0 none with run := 63 } : Slot).run = 64 ∧ bump 64 ({ slot0 none with run := 62 } : Slot).run = 63 ∧
      (ctxIn .running none 0).slot = none := by decide +kernel

/-! ### Witnesses: entry packets and sections -/

/-- A packet with the entry mark in an adaptation area of 1 byte. -/
def entryMarked : List Byte :=
  [0x47, 0, 0, 0x30, 1, 0x80] ++ List.replicate 182 0

/-- Context 0 ENTRY, pending on output 0 and BOUND to tag 0 with its capture not started. -/
def entering : State :=
  ((ready.setContext 0 { ctxIn .entry (some 3) 0 with entryComponent := some 1 }).setBinding 0
    ⟨none, some ⟨0, 3000, .none⟩⟩).setTag 0 (.bound 0 (some 3000) .none)

theorem test_hyps_EntryPackets :
    (entering.context 0).state = .entry ∧ (entering.context 0).input ≠ pb ∧ (entering.context 0).entryComponent = some 1 ∧
      entryMark entryMarked = true ∧ entryMark (unit 0 0 0x10 0) = false ∧ canSwitch entering 0 0 = true ∧
      canSwitch entering 0 1 = false ∧ (entering.binding 0).current = none ∧
      entering.tag 0 = .bound 0 (some 3000) .none ∧ entering.tag 1 = .idle ∧
      (bound01.context 0).state = .running ∧ (bound01.binding 0).current = some ⟨0, .none⟩ ∧
      (bound01.binding 1).current ≠ some ⟨0, .none⟩ := by decide +kernel

/-- The packet that switches output 0 from context 0 to context 1 leaves context 0 without a destination (R107, R114). -/
theorem test_switch_leaves_the_old_context :
    (switchOutput 0 1 none 0 bound01).binding 0 = ⟨some ⟨1, ⟨true, false, false, .none⟩⟩, none⟩ ∧
      ((switchOutput 0 1 none 0 bound01).context 0).state = .free := by decide +kernel

/-- The part with the section in progress given on entry (TP0, 0x0102), and so many free blocks. -/
def assembling (a : Assembly) (free : Nat) : State :=
  { withEntry none false .sections with
    table := updateFirst (isAt 0 0x0102) (fun e => { e with users := [], assembly := a })
      (withEntry none false .sections).table
    sections := { ready.sections with freeBlocks := free } }

/-- Lengths at both ends of 9..1021, the last byte, block claims with 64 and 65 free blocks, and a lead run past its payload. -/
theorem test_hyps_SectionsAreAssembled :
    (findEntry 0 0x0102 (assembling (.collecting 1 [0x80, 0] none) 64)).map Entry.assembly =
        some (.collecting 1 [0x80, 0] none) ∧
      (findEntry 0 0x0102 (assembling .skipping 64)).map Entry.assembly = some .skipping ∧
      (findEntry 0 0x0102 (assembling .idle 64)).map Entry.restricted = some true ∧
      sectionLength [0x80, 0, 9] = 9 ∧ sectionLength [0x80, 3, 253] = 1021 ∧ sectionLength [0x80, 0, 8] = 8 ∧
      sectionLength [0x80, 3, 254] = 1022 ∧
      (appendByte 0 0x0102 0x80 (assembling .idle 64)).1 = .abandoned ∧
      (appendByte 0 0x0102 0x80 (assembling .idle 65)).1 = .inProgress ∧
      (appendByte 0 0x0102 0 (assembling (.collecting 1 (List.replicate 11 0) (some 12)) 64)).1 = .completed ∧
      (0 : Nat) < (1 : Byte).toNat ∧ ([0] : List Byte).length ≤ (1 : Byte).toNat := by decide +kernel

theorem test_hyps_SectionsMove :
    ready.sections.queue = [] ∧ ready.sections.trigger ≤ [waiting].length ∧ (1 : BitVec 24) ≠ 0 ∧
      [waiting].length < ({ ready.sections with trigger := 2 } : Sections).trigger ∧
      [waiting].head? = some waiting ∧ ready.time.cycles < waiting.joined + ready.sections.timeout * cyclesPerMs := by
  decide +kernel

/-! ### Witnesses: invariants -/

theorem test_hyps_Invariants :
    State.reset.blocksTotal = 512 ∧ State.reset.table.length ≤ 192 ∧ (State.reset.context 0).state = .free ∧
      State.reset.slot 0 = none := by decide +kernel

/-- One section one byte short of the largest and one waiting that is the largest, context 0 RUNNING with 8 components, its
service tracked, and a marker of it placed. -/
def sized : State :=
  { ready with
    pending := [.hlOutOpportunity]
    table := updateFirst (isAt 0 0x0010)
      (fun e => { e with assembly := .collecting 16 (List.replicate 1023 0) (some 1024) }) fixedTable
    sections := { ready.sections with
      freeBlocks := 480, queue := [{ waiting with bytes := List.replicate 1024 0, blocks := 16 }] }
    guide := { ready.guide with tracked := [⟨5, none⟩] }
    ctl := { ready.ctl with
      contexts := setAt ready.ctl.contexts 0 { ctxIn .running none 0 with components := List.replicate 8 ⟨.audio, 0x0101⟩ } }
    out := { ready.out with
      outputs := setAt ready.out.outputs 0
        { Output.initial with marker := some ⟨0, 0, 5, List.replicate 8 ⟨.audio, 0x0101⟩, 0⟩ } } }

/-- What the section in progress changes of its entry leaves the entry in its place. -/
theorem sized_step : EntryStep (fun e => { e with assembly := .collecting 16 (List.replicate 1023 0) (some 1024) }) :=
  EntryStep.of_same (fun _ => rfl) (fun _ => rfl) (fun _ => rfl) (fun _ => rfl) (fun _ => rfl)

theorem sized_assemblies : AssembliesSmall sized.table := by
  intro e he
  rcases mem_updateFirst_hit he with he | ⟨x, _, _, _, rfl⟩
  · exact fixedTable_assemblies e he
  · refine ⟨by rw [List.length_replicate]; decide, by rw [List.length_replicate], nofun, fun n hn => ?_⟩
    obtain rfl := Option.some.inj hn
    rw [List.length_replicate]
    decide

/-- A state at the sizes of Table 2-2, R35, R153 and R63 meets the bounds, and a step of it answers. -/
theorem test_hyps_ListsBounded :
    ListsBounded sized ∧ LinkQueuesBounded sized ∧ ∃ t, step sized = .next t := by
  have ho : UsersOrdered sized.table := fixedTable_ordered.updateFirst sized_step (isAt 0 0x0010)
  refine ⟨?_, ⟨by decide, by decide⟩, _, rfl⟩
  exact
    { forming := fun i u h => by
        change getAt State.reset.intake.forming i = some u at h
        simp [State.reset, Intake.ofLocks] at h
      table := fixedTable_sound.updateFirst sized_step (isAt 0 0x0010)
      assemblies := sized_assemblies
      deliveries := fun d hd => by
        obtain rfl := List.mem_singleton.1 hd
        exact ⟨by rw [List.length_replicate]; decide, by rw [List.length_replicate]⟩
      markers := fun o m h => by
        simp only [sized, getAt_setAt] at h
        split at h
        · obtain rfl := Option.some.inj h
          exact Nat.le_refl 8
        · change (getAt State.reset.out.outputs o).marker = some m at h
          simp [State.reset, Output.initial] at h
      tracking := ⟨List.nodup_singleton _, fun t ht => ⟨0, by
        obtain rfl := List.mem_singleton.1 ht
        decide⟩⟩
      tracked := by decide
      order := ho
      users := UsersOrdered.length ho
      contexts := ContextsSmall.setAt
        (fun c => by
          change (getAt State.reset.ctl.contexts c).small
          simp [State.reset, contextEmpty_small]) 0 _
        fun _ => ⟨Nat.le_refl 8, by decide, fun _ h => by cases h⟩
      ratings := fun _ h => by cases h
      windows := fun p => by
        change (getAt State.reset.parental.profiles p).windows.length ≤ 4
        simp [State.reset, Profile.initial]
      share := fun c => by
        change getAt State.reset.out.captureCount c ≤ 64
        simp [State.reset]
      seen := fun f x h => by
        change getAt State.reset.sections.filters f = some x at h
        simp [State.reset] at h
      index := fun p => by
        change (getAt State.reset.guide.index p).small
        simp [State.reset, PortIndex.small, PortIndex.empty]
      services := by decide
      events := by decide
      entitlements := by decide
      groups := by decide
      log := by decide
      locked := by decide
      grants := by decide
      presentation := by
        show ∀ o : OutputNo, (getAt sized.out.outputs o).queue.length ≤ 64
        decide
      capture := by decide
      notices := by decide }

/-- A chain of 17 blocks, a section left full between steps, a length unknown at the third byte, and a tracked service without
a RUNNING context are outside the bounds (Table 2-2, R24, R63). -/
theorem test_bounds_refuse :
    ¬(Assembly.collecting 17 (List.replicate 1023 0) (some 1024)).small ∧
      ¬(Assembly.collecting 16 (List.replicate 1024 0) (some 1024)).small ∧
      ¬(Assembly.collecting 1 [0x80, 0, 9] none).small ∧
      ¬TracksRunning State.reset.ctl.contexts [⟨5, none⟩] := by
  refine ⟨fun h => ?_, fun h => ?_, fun h => ?_, fun h => ?_⟩
  · exact absurd h.2.chain (by rw [List.length_replicate]; decide)
  · exact absurd (h.2.known _ rfl).2.2.2 (by rw [List.length_replicate]; decide)
  · exact absurd (h.2.unknown rfl) (by decide)
  · obtain ⟨c, hc, _⟩ := h.running _ (List.mem_singleton_self _)
    simp [State.reset, Context.empty] at hc

theorem test_hyps_OrdersWritten :
    Instr.wellFormed (.tune 7 0 2 0x0305) = true ∧
      orderBytes (.tune 7 0 2 0x0305) = some [0x30, 7, 0, 4, 0, 2, 0x03, 0x05] := by
  decide +kernel

end Sys2Proof.Tests
end

/-! Every step carries the invariants over: the stream table (O48) and the sizes of the lists (O49). -/

namespace Sys2Proof.Machine

/-! ### Every command carries the invariants -/

/-- The commands that wait play no part in any invariant. -/
theorem Carries.setPending (s : State) (l : List Instr) : Carries s { s with pending := l } where
  blocks := id
  table := id
  lists h := { h with }
  links h := ⟨h.answers, h.buffer⟩
  drains := id
  idents := id
  keys := id

/-- A command that is no order carries the invariants over. -/
theorem exec_carries_event {i : Instr} {s t : State} (hi : orderParts i = none) (h : exec i s = .next t) : Carries s t := by
  have hk := Kept.refl s
  cases i
  case pinReset locks => cases h; exact pinReset_carries locks s
  case fuseReadEnd fuses => cases h; exact (hk.endFuseRead (fun _ _ _ => rfl) fuses).carries
  case lockLineFalls p => cases h; exact (hk.lockFalls p (fun _ _ => rfl) (fun _ _ => rfl)).carries
  case lockLineRises p => cases h; exact (hk.lockRises p (fun _ _ => rfl) (fun _ _ => rfl)).carries
  case unitTaken p bytes => cases h; exact takeLinkBytes_carries _ bytes s
  case hlInUnitTaken bytes => cases h; exact takeLinkBytes_carries _ bytes s
  case deliveryTimeout => cases h; exact (hk.deliveryTimedOut fun _ _ => rfl).carries
  case uptimeSecond => cases h; exact (hk.uptimeSecond (fun _ _ => rfl) (fun _ _ => rfl) fun _ _ => rfl).carries
  case expiry => cases h; exact hk.expireTiers.carries
  case waitDeadline d =>
    cases h
    cases d with
    | output o => exact (hk.outputWaitOver (fun _ _ => rfl) o).carries
    | tag k => exact (hk.tagWaitOver (fun _ _ => rfl) k).carries
  case acquisitionDeadline c => cases h; exact (hk.acquisitionOver (fun _ _ => rfl) c).carries
  case lockoutEnd => cases h; exact (hk.endLockouts fun _ _ => rfl).carries
  case grantMinutesEnd => cases h; exact hk.endMinuteGrants.carries
  case poSendOpportunity o =>
    cases h
    exact (hk.sendPresentation (fun _ _ => rfl) (fun _ _ => rfl) (fun _ _ => rfl) o).carries
  case hlOutOpportunity => cases h; exact arbitrate_carries s
  case decodeOrder => cases h; exact decodeNext_carries s
  case restartEffect => cases h; exact restartEffect_carries s
  all_goals simp [orderParts] at hi

/-- Every command carries the invariants over: an order by what its owner keeps, any other by what it keeps itself. -/
theorem exec_carries {i : Instr} {s t : State} (h : exec i s = .next t) : Carries s t := by
  cases hi : orderParts i with
  | none => exact exec_carries_event hi h
  | some parts =>
    obtain ⟨code, tag, params⟩ := parts
    rw [exec_order i s code tag params hi] at h
    cases h
    exact handOver_carries code tag _ s (takeOrder_step i s)

/-- Every step carries the invariants over. -/
theorem step_carries {s t : State} (h : step s = .next t) : Carries s t := by
  unfold step at h
  split at h
  · cases h
    exact ((Kept.refl s).passCycles (fun _ _ => rfl) 1).carries
  · next c rest _ => exact (Carries.setPending s rest).trans (exec_carries h)

/-- Settles O48: every step carries the soundness of the stream table over. -/
theorem stepsKeepTheStreamTable : Obligations.StepsKeepTheStreamTable :=
  fun _ _ hs h => (step_carries h).table hs

/-- Settles O49: every step carries the sizes of the lists and of the management unit's queues over. -/
theorem stepsKeepTheListsBounded : Obligations.StepsKeepTheListsBounded :=
  fun _ _ hs h => hs.imp (step_carries h).lists (step_carries h).links

end Sys2Proof.Machine

/-! The values after a pin reset (O5). -/

namespace Sys2Proof.Machine

/-! ### The values after a pin reset (R7, R8, R167) -/

/-- The sync record of a tuner port follows its lock line (R7). -/
theorem ofLocks_sync (locks : Vector Bool 4) (p : PortNo) :
    getAt (Intake.ofLocks locks).sync (inputOf p) = .ofLock (getAt locks p) := by
  fin_cases p <;> rfl

theorem ofLocks_stats (locks : Vector Bool 4) (i : Input) : getAt (Intake.ofLocks locks).stats i = .zero := by
  fin_cases i <;> rfl

/-- State.reset is what PIN_RESET leaves where every lock line is low (log 4). -/
theorem pinReset_of_low : pinResetState (Vector.replicate 4 false) State.reset = State.reset := rfl

/-- Settles O5: State.reset and the part after PIN_RESET are both a `pinResetState`, whose fields are the book's values. -/
theorem resetValues : Obligations.ResetValues := by
  refine ⟨rfl, fun locks s => ⟨_, rfl, rfl⟩, fun t locks ht => ?_⟩
  obtain ⟨s, rfl⟩ : ∃ s, t = pinResetState locks s := by
    rcases ht with ⟨rfl, rfl⟩ | ⟨s, h⟩
    · exact ⟨_, pinReset_of_low.symm⟩
    · cases h; exact ⟨s, rfl⟩
  have hfree : ∀ c : CtxNo, (pinResetState locks s).context c = .empty := fun c => getAt_replicate _ c
  refine ⟨rfl, rfl, ofLocks_sync locks, rfl, fun i => ⟨getAt_replicate _ i, ofLocks_stats locks i⟩,
    rfl, rfl, rfl, rfl, rfl, fun c => ?_, fun o => getAt_replicate _ o, fun k => getAt_replicate _ k, rfl, rfl, fun o => getAt_replicate _ o, rfl,
    fun c => getAt_replicate _ c, fun k => getAt_replicate _ k, rfl, rfl, rfl, rfl, rfl⟩
  rw [hfree]
  exact ⟨rfl, rfl, rfl⟩

end Sys2Proof.Machine

/-! Lock lines, and what entering and leaving UP brings (O7). -/

namespace Sys2Proof.Machine

/-! ### An input enters and leaves UP (R4, R5) -/

/-- The PORT notice of an input that entered UP, before its SIGNAL report (log 49). -/
theorem enterUp_holds (i : Input) (s : State) :
    HoldsOnly (offer (.port i .up) (s.setSync i { getAt s.intake.sync i with state := .up, badRun := 0 })) (enterUp i s) :=
  HoldsOnly.signalReport i _

/-- No destination of an input's contexts holds SIGNAL after it entered UP (R4). -/
theorem enterUp_signal (i : Input) (s : State) : SignalOn (enterUp i s) i false := by
  have h := signalReport_on i (offer (.port i .up) (s.setSync i { getAt s.intake.sync i with state := .up, badRun := 0 }))
  rwa [up_offer_setSync] at h

/-- An entry whose port left UP: an assembly in progress is abandoned, any other stays (R5, log 21). -/
theorem leftUp_eq (e : Entry) :
    e.leftUp = { e with
      lastCount := none, duplicate := false,
      assembly := match e.assembly with
        | .collecting _ _ _ => .skipping
        | .idle => .idle
        | .skipping => .skipping } := by
  unfold Entry.leftUp
  cases e.assembly <;> rfl

/-- What leaving UP does to the records of an input's entries (R5). -/
theorem clearPortRecords_eq (i : Input) (s : State) :
    clearPortRecords i s =
      { s with
        table := s.table.map fun e =>
          if e.input = i then
            { e with
              lastCount := none, duplicate := false,
              assembly := match e.assembly with
                | .collecting _ _ _ => .skipping
                | .idle => .idle
                | .skipping => .skipping }
          else e
        sections :=
          { s.sections with
            freeBlocks := s.sections.freeBlocks + blocksOf (s.table.filter (fun e => e.input == i)) } } := by
  simp only [clearPortRecords, leftUp_eq, beq_iff_eq]

/-- The PORT notice and the cleared records of an input that left UP, before its SIGNAL report (log 49). -/
theorem leaveUp_holds (i : Input) (x : SyncRec) (s : State) :
    HoldsOnly (clearPortRecords i (offer (.port i x.state) (s.setSync i x))) (leaveUp i x s) :=
  HoldsOnly.signalReport i _

/-- Every destination of an input's contexts holds SIGNAL after it left UP (R5). -/
theorem leaveUp_signal (i : Input) (x : SyncRec) (s : State) (hx : x.state ≠ .up) : SignalOn (leaveUp i x s) i true := by
  have h := signalReport_on i (clearPortRecords i (offer (.port i x.state) (s.setSync i x)))
  have hup : (clearPortRecords i (offer (.port i x.state) (s.setSync i x))).up i = (x.state == .up) :=
    up_offer_setSync s i _ x
  rw [hup, beq_false_of_ne hx] at h
  exact h

/-! ### Lock lines (R2) -/

/-- A port that is DOWN stays so when its lock line falls. -/
theorem lockFalls_down (p : PortNo) (s : State) (h : (getAt s.intake.sync (inputOf p)).state = .down) :
    lockFalls p s = (s.setLock p false).setForming (inputOf p) none := by
  simp only [lockFalls, h]

/-- A SEEKING port goes DOWN and clears its service index when its lock line falls. -/
theorem lockFalls_seeking (p : PortNo) (s : State) (h : (getAt s.intake.sync (inputOf p)).state = .seeking) :
    lockFalls p s =
      clearIndex p (((s.setLock p false).setForming (inputOf p) none).setSync (inputOf p)
        { getAt s.intake.sync (inputOf p) with state := .down }) := by
  simp only [lockFalls, h]

/-- A port that is UP leaves it and clears its service index when its lock line falls. -/
theorem lockFalls_up (p : PortNo) (s : State) (h : (getAt s.intake.sync (inputOf p)).state = .up) :
    lockFalls p s =
      clearIndex p (leaveUp (inputOf p) { getAt s.intake.sync (inputOf p) with state := .down }
        ((s.setLock p false).setForming (inputOf p) none)) := by
  simp only [lockFalls, h]

/-- A rising lock line moves a DOWN port to SEEKING and no other. -/
theorem lockRises_eq (p : PortNo) (s : State) :
    lockRises p s =
      { s with intake :=
        { s.intake with
          lock := setAt s.intake.lock p true
          sync :=
            if (getAt s.intake.sync (inputOf p)).state = .down then
              setAt s.intake.sync (inputOf p) { getAt s.intake.sync (inputOf p) with state := .seeking, goodRun := 0 }
            else s.intake.sync } } := by
  cases h : (getAt s.intake.sync (inputOf p)).state <;> simp only [lockRises, h] <;> rfl

theorem HoldsOnly.setGuide {s t : State} (h : HoldsOnly s t) (g : Guide) :
    HoldsOnly { s with guide := g } { t with guide := g } :=
  ⟨congrArg (fun u : State => { u with guide := g }) h.bare, h.notices⟩

/-- Clearing a port's service index goes along with a change of hold sets. -/
theorem HoldsOnly.clearIndex {s t : State} (h : HoldsOnly s t) (p : PortNo) :
    HoldsOnly (clearIndex p s) (clearIndex p t) := by
  rw [clearIndex_eq, clearIndex_eq, h.guide]
  exact h.setGuide _

theorem SignalOn.clearIndex {s : State} {i : Input} {v : Bool} (h : SignalOn s i v) (p : PortNo) :
    SignalOn (clearIndex p s) i v := by
  rw [clearIndex_eq]
  exact ⟨h.current, h.pending, h.tag⟩

/-- Settles O7, by the state of the port: DOWN, SEEKING and UP. -/
theorem lockLinesMoveThePort : Obligations.LockLinesMoveThePort := by
  refine ⟨?_, ?_⟩
  · rintro p s x v rfl rfl
    refine ⟨fun h => congrArg Host.Outcome.next (lockFalls_down p s h),
      fun h => congrArg Host.Outcome.next ((lockFalls_seeking p s h).trans (clearIndex_eq p _)),
      fun h => ⟨_, congrArg Host.Outcome.next (lockFalls_up p s h),
        (leaveUp_signal _ _ _ (by exact nofun)).clearIndex p, ?_⟩⟩
    have hh := (leaveUp_holds (inputOf p) { getAt s.intake.sync (inputOf p) with state := .down }
      ((s.setLock p false).setForming (inputOf p) none)).clearIndex p
    rwa [clearIndex_eq, clearPortRecords_eq, offer_join] at hh
  · rintro p s x rfl
    exact congrArg Host.Outcome.next (lockRises_eq p s)

end Sys2Proof.Machine

/-! Bytes form units, and a unit moves the sync of its input (O8). -/

namespace Sys2Proof.Machine

/-! ### Bytes form units (R1, R8) -/

/-- An input that is DOWN ignores the bytes that arrive. -/
theorem takeLinkByte_down {i : Input} {s : State} (b : LinkByte) (h : (getAt s.intake.sync i).state = .down) :
    takeLinkByte i s b = s := by
  simp [takeLinkByte, h]

/-- A start byte cuts the unit in progress short and begins a unit. -/
theorem takeLinkByte_start {i : Input} {s : State} (b : Byte) (h : (getAt s.intake.sync i).state ≠ .down) :
    takeLinkByte i s ⟨b, true⟩ = (cutShort i s).setForming i (some [b]) := by
  simp [takeLinkByte, h]

/-- A byte outside a unit is ignored (log 6). -/
theorem takeLinkByte_outside {i : Input} {s : State} (b : Byte) (h : s.forming i = none) :
    takeLinkByte i s ⟨b, false⟩ = s := by
  simp [takeLinkByte, h]

/-- A byte joins the unit in progress, and ends it as its 188th byte. -/
theorem takeLinkByte_inside {i : Input} {s : State} {unit : List Byte} (b : Byte)
    (hd : (getAt s.intake.sync i).state ≠ .down) (h : s.forming i = some unit) :
    takeLinkByte i s ⟨b, false⟩ =
      if unit.length + 1 = 188 then takeUnit i (unit ++ [b]) (s.setForming i none)
      else s.setForming i (some (unit ++ [b])) := by
  simp [takeLinkByte, hd, h]

theorem cutShort_none {i : Input} {s : State} (h : s.forming i = none) : cutShort i s = s := by
  simp only [cutShort, h]

theorem cutShort_some {i : Input} {s : State} {unit : List Byte} (h : s.forming i = some unit) :
    cutShort i s = takeUnit i unit (s.setForming i none) := by
  simp only [cutShort, h]

/-! ### A unit moves the sync of its input (R3, R4, R5) -/

/-- A good-sync unit is 188 bytes of which the first is the sync byte (R3). -/
theorem goodSync_iff (unit : List Byte) : goodSync unit = true ↔ unit.length = 188 ∧ unit.head? = some 0x47 := by
  cases unit <;> simp [goodSync, byteAt, BitVec.toNat_eq]

theorem takeUnit_down {i : Input} {s : State} (unit : List Byte) (h : (getAt s.intake.sync i).state = .down) :
    takeUnit i unit s = s := by
  simp only [takeUnit, h]

theorem takeUnit_seeking {i : Input} {s : State} (unit : List Byte) (h : (getAt s.intake.sync i).state = .seeking) :
    takeUnit i unit s = takeSeeking i (goodSync unit) s := by
  simp only [takeUnit, h]

theorem takeUnit_bad {i : Input} {s : State} {unit : List Byte} (h : (getAt s.intake.sync i).state = .up)
    (hg : goodSync unit = false) : takeUnit i unit s = takeBadSync i s := by
  simp [takeUnit, h, hg]

/-- A bad-sync unit ends the run of good ones. -/
theorem takeSeeking_bad (i : Input) (s : State) :
    takeSeeking i false s = s.setSync i { getAt s.intake.sync i with goodRun := 0 } := rfl

/-- A good-sync unit short of the third is counted. -/
theorem takeSeeking_early {i : Input} {s : State} (h : (getAt s.intake.sync i).goodRun < 2) :
    takeSeeking i true s = s.setSync i { getAt s.intake.sync i with goodRun := (getAt s.intake.sync i).goodRun + 1 } := by
  have : ¬3 ≤ (getAt s.intake.sync i).goodRun + 1 := by omega
  simp [takeSeeking, this]

/-- The third good-sync unit brings the input UP. -/
theorem takeSeeking_third {i : Input} {s : State} (h : 2 ≤ (getAt s.intake.sync i).goodRun) :
    takeSeeking i true s =
      enterUp i (s.setSync i { getAt s.intake.sync i with goodRun := (getAt s.intake.sync i).goodRun + 1 }) := by
  have : 3 ≤ (getAt s.intake.sync i).goodRun + 1 := by omega
  simp [takeSeeking, this]

/-- The first bad-sync unit of an input that is UP is counted. -/
theorem takeBadSync_first {i : Input} {s : State} (h : (getAt s.intake.sync i).badRun = 0) :
    takeBadSync i s = s.setSync i { getAt s.intake.sync i with badRun := 1 } := by
  simp [takeBadSync, h]

/-- The second one in a row ends UP and counts a sync loss. -/
theorem takeBadSync_second {i : Input} {s : State} (h : 1 ≤ (getAt s.intake.sync i).badRun) :
    takeBadSync i s =
      leaveUp i ⟨.seeking, 0, 0⟩ (countPort i (fun r => { r with syncLosses := bump top32 r.syncLosses }) s) := by
  have : 2 ≤ (getAt s.intake.sync i).badRun + 1 := by omega
  simp [takeBadSync, this]

/-- Settles O8: the bytes of the links, units on an input that is not UP, and bad-sync units on one that is. -/
theorem unitsMoveTheSync : Obligations.UnitsMoveTheSync := by
  refine ⟨fun i s => ⟨fun bytes => exec_takenOn i bytes s, fun b h => takeLinkByte_down b h,
    fun b hd => ⟨fun h => ?_, fun unit h => ?_⟩, fun unit hu h => exec_marked i unit s h hu⟩, ?_, ?_⟩
  · rw [takeLinkByte_start b hd, cutShort_none h]
    exact ⟨rfl, takeLinkByte_outside b h⟩
  · rw [takeLinkByte_start b hd, cutShort_some h, takeLinkByte_inside b hd h]
    exact ⟨rfl, fun hu => if_neg hu, fun hu => if_pos hu⟩
  · rintro i unit s x rfl
    refine ⟨goodSync_iff unit, takeUnit_down unit, fun h hg => ?_, fun h hg hr => ?_, fun h hg hr => ?_⟩ <;>
      rw [takeUnit_seeking unit h, hg]
    · exact takeSeeking_bad i s
    · exact takeSeeking_early hr
    · rw [takeSeeking_third hr]
      refine ⟨enterUp_signal i _, ?_⟩
      have hh := enterUp_holds i
        (s.setSync i { getAt s.intake.sync i with goodRun := (getAt s.intake.sync i).goodRun + 1 })
      rwa [setSync_setSync, getAt_setSync, offer_join] at hh
  · rintro i unit s x rfl h hg
    rw [takeUnit_bad h hg]
    refine ⟨takeBadSync_first, fun hr => ?_⟩
    rw [takeBadSync_second hr]
    refine ⟨leaveUp_signal i _ _ (by exact nofun), ?_⟩
    have hh := leaveUp_holds i ⟨.seeking, 0, 0⟩
      (countPort i (fun r => { r with syncLosses := bump top32 r.syncLosses }) s)
    rwa [clearPortRecords_eq, offer_join] at hh

end Sys2Proof.Machine

/-! Packets that go no further, and the sorting of HL-in (O9). -/

namespace Sys2Proof.Machine

/-! ### A good-sync unit is a packet of its input -/

theorem takenOn_inputOf (p : PortNo) (bytes : List LinkByte) : takenOn (inputOf p) bytes = .unitTaken p bytes := by
  fin_cases p <;> rfl

/-- A whole good-sync unit on an input that is UP is used as a packet, and ends the run of bad ones. -/
theorem exec_good {i : Input} {unit : List Byte} {s : State} (hup : (getAt s.intake.sync i).state = .up)
    (hn : s.forming i = none) (hg : goodSync unit = true) :
    exec (takenOn i (marked unit)) s = .next (usePacket i (asTaken unit) s.time.counter (takeGoodSync i s)) := by
  rw [exec_marked i unit s hn (goodSync_length hg)]
  simp only [takeUnit, hup, hg, if_true]

theorem usePacket_tuner {i : Input} (h : i ≠ pb) (q : List Byte) (t : BitVec 32) (s : State) :
    usePacket i q t s = examine i q t s := by
  simp [usePacket, h]

theorem usePacket_pb (q : List Byte) (t : BitVec 32) (s : State) : usePacket pb q t s = sortHlIn q t s := by
  simp [usePacket]

/-! ### Examination of what finds no entry (R11) -/

/-- Filler is counted and goes no further. -/
theorem examine_filler {q : List Byte} (i : Input) (t : BitVec 32) (s : State) (h : streamNumber q = 0x1FFF) :
    examine i q t s = countPacket i q s := by
  simp [examine, h]

/-- A stray packet is counted twice and goes no further. -/
theorem examine_stray {i : Input} {q : List Byte} (t : BitVec 32) (s : State) (hi : i ≠ pb) (h : 0x1FF0 ≤ streamNumber q)
    (hf : streamNumber q ≠ 0x1FFF) : examine i q t s = countStray i (countPacket i q s) := by
  simp [examine, h, hf, hi]

/-- A packet without an entry is counted and goes no further. -/
theorem examine_missing {i : Input} {q : List Byte} (t : BitVec 32) {s : State} (hl : i ≠ pb → streamNumber q < 0x1FF0)
    (h : findEntry i (streamNumber q) s = none) : examine i q t s = countPacket i q s := by
  have hc : findEntry i (streamNumber q) (countPacket i q s) = none := h
  have hs : ¬(i ≠ pb ∧ 0x1FF0 ≤ streamNumber q) := fun ⟨hi, hn⟩ => by have := hl hi; omega
  by_cases hf : streamNumber q = 0x1FFF
  · exact examine_filler i t s hf
  · simp only [examine, hf, if_false, hc, Bool.and_eq_true, decide_eq_true_eq, hs]

/-- Two counts of one input are one. -/
theorem countPort_countPort (i : Input) (f g : PortStats → PortStats) (s : State) :
    countPort i g (countPort i f s) = countPort i (fun r => g (f r)) s := by
  simp only [countPort, modAt, setAt_setAt, getAt_setAt_self]

/-- A packet of a tuner port that is filler, is stray or finds no entry is counted, a stray one as stray too. -/
theorem examine_unused {i : Input} {q : List Byte} (t : BitVec 32) {s : State} (hi : i ≠ pb)
    (h : 0x1FF0 ≤ streamNumber q ∨ findEntry i (streamNumber q) s = none) :
    examine i q t s =
      countPort i (fun r =>
        { r with
          packets := bump top32 r.packets
          errored := if errorFlag q then bump top32 r.errored else r.errored
          stray := if 0x1FF0 ≤ streamNumber q ∧ streamNumber q ≠ 0x1FFF then bump top32 r.stray else r.stray }) s := by
  by_cases hf : streamNumber q = 0x1FFF
  · simp only [examine_filler i t s hf, countPacket, hf, ne_eq, not_true, and_false, if_false]
  by_cases hs : 0x1FF0 ≤ streamNumber q
  · simp only [examine_stray t s hi hs hf, countStray, countPacket, countPort_countPort, hs, hf, ne_eq, not_false_eq_true,
      and_self, if_true]
  · simp only [examine_missing t (fun _ => by omega) (h.resolve_left hs), countPacket, hs, false_and, if_false]

/-! ### Order packets (R167, R169) -/

/-- A buffer of packets with orders left loses none of them. -/
theorem dropEnded_of_open {l : List OrderPacket} (h : ∀ y ∈ l, y.listEnded = false) : dropEnded l = l := by
  cases l with
  | nil => rfl
  | cons p l => simp [dropEnded, h p List.mem_cons_self]

/-- A packet whose first byte is an order's code has an order. -/
theorem listEnded_of_code {l : List Byte} (h : byteAt l 0 ≠ 0) : (OrderPacket.mk l 0).listEnded = false := by
  cases l with
  | nil => exact absurd rfl h
  | cons b l => simpa [OrderPacket.listEnded, OrderPacket.rest] using h

/-- An order packet is discarded while STARTING. -/
theorem takeOrderPacket_starting (q : List Byte) {s : State} (h : s.mgmt.ready = false) : takeOrderPacket q s = s := by
  simp [takeOrderPacket, h]

/-- An order packet for which the buffer has no room is counted. -/
theorem takeOrderPacket_overrun (q : List Byte) {s : State} (h : s.mgmt.ready = true) (hb : 4 ≤ s.mgmt.buffer.length) :
    takeOrderPacket q s = { s with mgmt := { s.mgmt with overrun := bump top32 s.mgmt.overrun } } := by
  have : ¬s.mgmt.buffer.length < 4 := by omega
  simp [takeOrderPacket, h, this]

/-- An order packet with an order joins a buffer in which every packet has one left. -/
theorem takeOrderPacket_buffered {q : List Byte} {s : State} (h : s.mgmt.ready = true) (hb : s.mgmt.buffer.length < 4)
    (ho : ∀ y ∈ s.mgmt.buffer, y.listEnded = false) (hq : byteAt (payload q) 0 ≠ 0) :
    takeOrderPacket q s = s.setBuffer (s.mgmt.buffer ++ [⟨payload q, 0⟩]) := by
  have hd : dropEnded (s.mgmt.buffer ++ [⟨payload q, 0⟩]) = s.mgmt.buffer ++ [⟨payload q, 0⟩] :=
    dropEnded_of_open fun y hy => (List.mem_append.1 hy).elim (ho y) fun hy => by
      rw [List.mem_singleton.1 hy]; exact listEnded_of_code hq
  simp only [takeOrderPacket, h, hb, if_true, pruneBuffer, setBuffer_mgmt_buffer, hd]
  split
  · next hr => simp at hr
  · split <;> rfl

/-! ### HL-in (Table 1-2) -/

theorem sortHlIn_order {q : List Byte} (t : BitVec 32) (s : State) (h : streamNumber q = 0x1FF0) :
    sortHlIn q t s =
      if errorFlag q then countPort pb (fun r => { r with errored := bump top32 r.errored }) s
      else takeOrderPacket q s := by
  simp [sortHlIn, h]

theorem sortHlIn_playback {q : List Byte} (t : BitVec 32) (s : State) (h : 0x1000 ≤ streamNumber q)
    (h' : streamNumber q ≤ 0x11FF) : sortHlIn q t s = examine pb q t s := by
  have : streamNumber q ≠ 0x1FF0 := by omega
  simp [sortHlIn, this, h, h']

theorem sortHlIn_filler {q : List Byte} (t : BitVec 32) (s : State) (h : streamNumber q = 0x1FFF) :
    sortHlIn q t s = countPacket pb q s := by
  simp [sortHlIn, h]

theorem sortHlIn_stray {q : List Byte} (t : BitVec 32) (s : State) (ho : streamNumber q ≠ 0x1FF0)
    (hf : streamNumber q ≠ 0x1FFF) (hp : ¬(0x1000 ≤ streamNumber q ∧ streamNumber q ≤ 0x11FF)) :
    sortHlIn q t s = countStray pb (countPacket pb q s) := by
  simp only [sortHlIn, ho, hf, if_false, Bool.and_eq_true, decide_eq_true_eq, hp]

/-- A packet of HL-in outside the order packets that is filler, is stray or finds no entry is counted, a stray one as stray
too. -/
theorem sortHlIn_unused {q : List Byte} (t : BitVec 32) {s : State} (ho : streamNumber q ≠ 0x1FF0)
    (h : streamNumber q < 0x1000 ∨ 0x11FF < streamNumber q ∨ findEntry pb (streamNumber q) s = none) :
    sortHlIn q t s =
      countPort pb (fun r =>
        { r with
          packets := bump top32 r.packets
          errored := if errorFlag q then bump top32 r.errored else r.errored
          stray :=
            if streamNumber q = 0x1FFF ∨ 0x1000 ≤ streamNumber q ∧ streamNumber q ≤ 0x11FF then r.stray
            else bump top32 r.stray }) s := by
  by_cases hp : 0x1000 ≤ streamNumber q ∧ streamNumber q ≤ 0x11FF
  · have hm : findEntry pb (streamNumber q) s = none := (h.resolve_left (by omega)).resolve_left (by omega)
    simp only [sortHlIn_playback t s hp.1 hp.2, examine_missing t (absurd rfl) hm, countPacket, hp, and_self, or_true,
      if_true]
  by_cases hf : streamNumber q = 0x1FFF
  · simp only [sortHlIn_filler t s hf, countPacket, hf, true_or, if_true]
  · simp only [sortHlIn_stray t s ho hf hp, countStray, countPacket, countPort_countPort, hf, hp, or_self, if_false]

/-- Settles O9: on a tuner port filler, strays and what finds no entry; on HL-in the rows of Table 1-2. -/
theorem packetsAreSorted : Obligations.PacketsAreSorted := by
  refine ⟨?_, ?_⟩
  · rintro p unit s x q n r rfl hup hn hg rfl rfl rfl hno
    have hp : inputOf p ≠ pb := by fin_cases p <;> decide
    rw [← takenOn_inputOf, exec_good hup hn hg, usePacket_tuner hp]
    exact congrArg Host.Outcome.next (examine_unused (s := takeGoodSync (inputOf p) s) _ hp hno)
  · rintro unit s x q n r u rfl hup hn hg rfl rfl rfl rfl
    have hx : exec (.hlInUnitTaken (marked unit)) s =
        .next (sortHlIn (asTaken unit) s.time.counter (takeGoodSync pb s)) := by
      rw [← usePacket_pb]
      exact exec_good hup hn hg
    rw [hx]
    refine ⟨fun h he => ?_, fun h he hr => ?_, fun h he hr hb => ?_, fun h he hr hb ho hq => ?_, fun h hno => ?_⟩
    · rw [sortHlIn_order _ _ h, if_pos he]
      rfl
    · rw [sortHlIn_order _ _ h, if_neg (by simp [he]), takeOrderPacket_starting (s := takeGoodSync pb s) _ hr]
      rfl
    · rw [sortHlIn_order _ _ h, if_neg (by simp [he]), takeOrderPacket_overrun (s := takeGoodSync pb s) _ hr hb]
      rfl
    · rw [sortHlIn_order _ _ h, if_neg (by simp [he]), takeOrderPacket_buffered (s := takeGoodSync pb s) hr hb ho hq]
      rfl
    · exact congrArg Host.Outcome.next (sortHlIn_unused (s := takeGoodSync pb s) _ h hno)

end Sys2Proof.Machine

/-! The continuity check (O10). -/

namespace Sys2Proof.Machine

/-! ### The continuity check (R12) -/

theorem continuity_first {e : Entry} (k : Nat) (h : e.lastCount = none) : continuity e k = .accepted := by
  simp [continuity, h]

theorem continuity_next {e : Entry} {k last : Nat} (h : e.lastCount = some last) (hk : k = (last + 1) % 16) :
    continuity e k = .accepted := by
  simp [continuity, h, hk]

/-- The first repeat of the last count, which no count follows itself modulo 16, is dropped. -/
theorem continuity_repeat {e : Entry} {k : Nat} (h : e.lastCount = some k) (hd : e.duplicate = false) :
    continuity e k = .dropped := by
  have : k ≠ (k + 1) % 16 := by omega
  simp [continuity, h, hd, this]

theorem continuity_gap {e : Entry} {k last : Nat} (h : e.lastCount = some last) (hn : k ≠ (last + 1) % 16)
    (hd : k ≠ last ∨ e.duplicate = true) : continuity e k = .gap := by
  have : ¬(k = last ∧ e.duplicate = false) := fun ⟨h1, h2⟩ => hd.elim (· h1) fun h3 => by simp [h2] at h3
  simp [continuity, h, hn, this]

section
variable {e : Entry} {q : List Byte} (i : Input) (t : BitVec 32) (s : State)

/-- A packet without payload is not checked. -/
theorem takeChecked_bare (h : payloadPresent q = false) : takeChecked i e q t s = handOff i e q t s := by
  simp [takeChecked, h]

theorem takeChecked_accepted (h : payloadPresent q = true) (hc : continuity e (continuityCount q) = .accepted) :
    takeChecked i e q t s =
      handOff i e q t (modifyEntry i e.stream (Entry.afterCheck (continuityCount q) .accepted) s) := by
  simp [takeChecked, h, hc]

theorem takeChecked_dropped (h : payloadPresent q = true) (hc : continuity e (continuityCount q) = .dropped) :
    takeChecked i e q t s = modifyEntry i e.stream (Entry.afterCheck (continuityCount q) .dropped) s := by
  simp [takeChecked, h, hc]

theorem takeChecked_gap (h : payloadPresent q = true) (hc : continuity e (continuityCount q) = .gap) :
    takeChecked i e q t s =
      handOff i e q t
        (match e.role with
          | .component =>
            countPort i (fun r => { r with gaps := bump top32 r.gaps })
              (modifyEntry i e.stream (Entry.afterCheck (continuityCount q) .gap) s)
          | .sections =>
            abandon i e.stream (countPort i (fun r => { r with gaps := bump top32 r.gaps })
              (modifyEntry i e.stream (Entry.afterCheck (continuityCount q) .gap) s))) := by
  cases hr : e.role <;> simp [takeChecked, h, hc, hr]

end

/-- Settles O10: each case of the check, by what it finds in the entry's record. -/
theorem continuityCheck : Obligations.ContinuityCheck := by
  rintro i unit s e q n k u record hup hn hg rfl rfl rfl hl he hf rfl rfl
  have hx : exec (takenOn i (marked unit)) s =
      .next (takeChecked i e (asTaken unit) s.time.counter (s.counted i (asTaken unit))) := by
    rw [exec_counted i unit s hn hup hg e hl he, hf]
    rfl
  rw [hx, ← (findEntry_at he).2]
  refine ⟨fun hp => ?_, fun hp h => ?_, fun last hp h hk => ?_, fun hp h hd => ?_, fun last g hp h hk hd hgap => ?_⟩
  · rw [takeChecked_bare i _ _ hp]
  · rw [takeChecked_accepted i _ _ hp (continuity_first _ h)]
    rfl
  · rw [takeChecked_accepted i _ _ hp (continuity_next h hk)]
    rfl
  · rw [takeChecked_dropped i _ _ hp (continuity_repeat h hd)]
    rfl
  · subst hgap
    rw [takeChecked_gap i _ _ hp (continuity_gap h hk hd)]
    cases e.role <;> rfl

end Sys2Proof.Machine

/-! Errored packets and the hand-off (O11). -/

namespace Sys2Proof.Machine

/-! ### Hand-off (R13, R14) -/

theorem takeErrored_component {e : Entry} (i : Input) (q : List Byte) (t : BitVec 32) (s : State)
    (h : e.role = .component) : takeErrored i e q t s = handOff i e q t s := by
  simp only [takeErrored, h]

theorem takeErrored_sections {e : Entry} (i : Input) (q : List Byte) (t : BitVec 32) (s : State)
    (h : e.role = .sections) :
    takeErrored i e q t s =
      offerRaw e q (modifyEntry i e.stream (fun e => { e with lastCount := none }) (abandon i e.stream s)) := by
  simp only [takeErrored, h]

theorem handOff_component {e : Entry} (i : Input) (q : List Byte) (t : BitVec 32) (s : State)
    (h : e.role = .component) : handOff i e q t s = showPacket i e q t s := by
  simp only [handOff, h]

theorem handOff_sections {e : Entry} (i : Input) (q : List Byte) (t : BitVec 32) (s : State)
    (h : e.role = .sections) :
    handOff i e q t s =
      offerRaw e q (if payloadPresent q then handPayload i e.stream (startFlag q) (payload q) s else s) := by
  simp only [handOff, h]

/-- A packet without payload is not classified (R92). -/
theorem classify_bare {q : List Byte} (i : Input) (users : List CtxNo) (s : State) (h : payloadPresent q = false) :
    classify i q users s = s := by
  simp [classify, h]

/-- The slots of the contexts a packet is shown to, in ascending number (log 11). -/
theorem slots_eq {s : State} {users : List CtxNo} {slots : List SlotNo} (hs : slots.Pairwise (· < ·))
    (hm : ∀ k, k ∈ slots ↔ ∃ c ∈ users, (s.context c).slot = some k) :
    slotNos.filter (fun k => users.any (fun c => (s.context c).slot == some k)) = slots := by
  have hall : ∀ k, k ∈ slotNos := by decide
  have hn : slotNos.Pairwise (· < ·) := by decide
  refine (hn.filter _).eq_of_mem_iff hs fun k => ?_
  simp [hall, hm]

/-- A packet with payload is classified by the slots of its contexts, and then for those without one (logs 11, 37). -/
theorem classify_payload {q : List Byte} (i : Input) {s : State} {shown : List (CtxNo × Fin 8)} {slots : List SlotNo}
    (hp : payloadPresent q = true) (hs : slots.Pairwise (· < ·))
    (hm : ∀ k, k ∈ slots ↔ ∃ u ∈ shown, (s.context u.1).slot = some k) :
    classify i q (shown.map Prod.fst) s =
      (shown.filter (fun u => (s.context u.1).slot.isNone)).foldl (fun s _ => classifySlotless i q s)
        (slots.foldl (fun s k => classifySlot i q k s) s) := by
  have hk := slots_eq (s := s) (users := shown.map Prod.fst) hs fun k => by simp [hm]
  simp only [classify, hp, if_true, hk, List.filter_map, List.foldl_map]
  rfl

/-- The KEYS purposes of a user, told by their slots. -/
theorem holdsKeys_iff (l : List Purpose) : l.any (fun q => q.slot?.isSome) = true ↔ ∃ k, .keys k ∈ l := by
  rw [List.any_eq_true]
  refine ⟨fun ⟨q, hq, hk⟩ => ?_, fun ⟨k, hk⟩ => ⟨_, hk, rfl⟩⟩
  cases q with
  | keys k => exact ⟨k, hq⟩
  | component _ | map => cases hk

/-- Settles O11: errored packets by role, the hand-off by role, and the raw offers user by user. -/
theorem packetsAreHandedOn : Obligations.PacketsAreHandedOn := by
  refine ⟨?_, ?_, ?_⟩
  · rintro i unit s e q n u hup hn hg rfl rfl hl he hf rfl
    have hx : exec (takenOn i (marked unit)) s =
        .next (takeErrored i e (asTaken unit) s.time.counter (s.counted i (asTaken unit))) := by
      rw [exec_counted i unit s hn hup hg e hl he, hf]
      rfl
    rw [hx, ← (findEntry_at he).2]
    exact ⟨fun h => by rw [takeErrored_component _ _ _ _ h], fun h => by rw [takeErrored_sections _ _ _ _ h]⟩
  · rintro i e q arrival s shown show1 hshown rfl
    have hu : shown = e.componentUsers := hshown
    subst hu
    refine ⟨fun h hp => ?_, fun slots h hp hs hm => ?_, fun h hp => ?_, fun h hp => ?_⟩
    · rw [handOff_component _ _ _ _ h, showPacket, classify_bare _ _ _ hp]
    · rw [handOff_component _ _ _ _ h, showPacket, classify_payload i hp hs hm]
    · rw [handOff_sections _ _ _ _ h, hp]
      rfl
    · rw [handOff_sections _ _ _ _ h, if_pos hp]
  · rintro e q s raw rfl
    unfold offerRaw
    congr 1
    funext s u
    simp only [List.contains_iff_mem, holdsKeys_iff]
    rfl

end Sys2Proof.Machine

/-! Users of the stream table (O23). -/

namespace Sys2Proof.Machine

/-! ### The stream table takes a user (R17) -/

section
variable {i : Input} {stream : Nat} {role : Role} {r : UserReq} {s : State}

theorem addUser_joins {e : Entry} (h : findEntry i stream s = some e) (hr : e.role = role) (hc : e.slotConflict r = false) :
    addUser i stream role r s = (.granted, { s with table := updateFirst (isAt i stream) (Entry.add r) s.table }) := by
  simp [addUser, h, hr, hc, modifyEntry]

theorem addUser_conflict {e : Entry} (h : findEntry i stream s = some e) (hc : e.role ≠ role ∨ e.slotConflict r = true) :
    addUser i stream role r s = (.conflict, s) := by
  by_cases hr : e.role = role
  · simp [addUser, h, hc.resolve_left (not_not_intro hr)]
  · simp [addUser, h, hr]

theorem addUser_inadmissible (h : findEntry i stream s = none) (ha : admissible i stream = false) :
    addUser i stream role r s = (.inadmissible, s) := by
  simp [addUser, h, ha]

theorem addUser_full (h : findEntry i stream s = none) (ha : admissible i stream = true) (hs : 192 ≤ s.table.length) :
    addUser i stream role r s = (.tableFull, s) := by
  simp [addUser, h, ha, hs]

theorem addUser_new (h : findEntry i stream s = none) (ha : admissible i stream = true) (hs : s.table.length < 192) :
    addUser i stream role r s = (.granted, { s with table := s.table ++ [newEntry i stream role r] }) := by
  have : ¬192 ≤ s.table.length := by omega
  simp [addUser, h, ha, this]

end

/-- A request conflicts with an entry when its KEYS purpose names another slot than the entry's. -/
theorem slotConflict_iff (e : Entry) (r : UserReq) :
    e.slotConflict r = true ↔ ∃ c k k', r = .ctx c (.keys k) ∧ e.keysSlot = some k' ∧ k' ≠ k := by
  unfold Entry.slotConflict
  split
  · next c k =>
    cases e.keysSlot <;> simp
  all_goals simp

theorem slot?_eq_some {p : Purpose} {k : SlotNo} : p.slot? = some k ↔ p = .keys k := by
  cases p <;> simp [Purpose.slot?]

theorem slot?_eq_none {p : Purpose} : p.slot? = none ↔ ∀ k, p ≠ .keys k := by
  cases p <;> simp [Purpose.slot?]

/-- The KEYS slot of an entry is one of its users' purposes. -/
theorem keysSlot_some {e : Entry} {k : SlotNo} (h : e.keysSlot = some k) : ∃ u ∈ e.users, .keys k ∈ u.purposes := by
  obtain ⟨u, hu, h⟩ := List.exists_of_findSome?_eq_some h
  obtain ⟨p, hp, h⟩ := List.exists_of_findSome?_eq_some h
  exact ⟨u, hu, slot?_eq_some.1 h ▸ hp⟩

/-- Without a KEYS slot no user of the entry has a KEYS purpose. -/
theorem keysSlot_none {e : Entry} (h : e.keysSlot = none) : ∀ u ∈ e.users, ∀ k, .keys k ∉ u.purposes := by
  intro u hu k hk
  have hn := List.findSome?_eq_none_iff.1 h u hu
  exact slot?_eq_none.1 (List.findSome?_eq_none_iff.1 hn _ hk) k rfl

/-! ### The stream table loses a user (R18, R19) -/

/-- An entry is unused when it has neither a context user nor a pin consumer. -/
theorem unused_iff (e : Entry) : e.unused = true ↔ e.users = [] ∧ e.pins = ⟨false, false, false, false, 0⟩ := by
  obtain ⟨_, _, _, _, ⟨index, access, time, guide, filters⟩, _⟩ := e
  simp [Entry.unused, Entry.pinned, and_assoc]

/-- A removal leaves every entry it does not reach, and removes those it leaves unused with their blocks. -/
theorem removeUsers_eq {hit gone : Entry → Bool} {left : Entry → Entry} (s : State)
    (hg : ∀ e, gone e = true ↔ hit e = true ∧ (left e).users = [] ∧ (left e).pins = ⟨false, false, false, false, 0⟩) :
    removeUsers hit left s =
      { s with
        table := (s.table.filter (fun e => !gone e)).map (fun e => if hit e then left e else e)
        sections := { s.sections with freeBlocks := s.sections.freeBlocks + blocksOf (s.table.filter gone) } } := by
  have : gone = fun e => hit e && (left e).unused := by
    funext e
    rw [Bool.eq_iff_iff, hg, Bool.and_eq_true, unused_iff]
  subst this
  rfl

/-- The purposes of a context's record after one is taken away. -/
theorem dropPurpose_eq (c : CtxNo) (q : Purpose) (us : List CtxUser) :
    dropPurpose c q us = us.filterMap (fun u =>
      if u.ctx = c then
        if u.purposes.filter (· != q) = [] then none else some ⟨c, u.purposes.filter (· != q)⟩
      else some u) := by
  simp only [dropPurpose, List.isEmpty_iff]

/-- Settles O23: the results of an addition, the KEYS slot of an entry, and the three removals as one. -/
theorem usersAreAddedAndRemoved : Obligations.UsersAreAddedAndRemoved := by
  refine ⟨fun i stream role r s => ⟨fun e => addUser_joins, fun e => addUser_conflict, addUser_inadmissible, addUser_full,
    addUser_new⟩, fun e r => ⟨slotConflict_iff e r, fun k => keysSlot_some, keysSlot_none⟩, ?_⟩
  rintro s t hit gone left (⟨i, stream, c, q, rfl, rfl, rfl⟩ | ⟨c, rfl, rfl, rfl⟩ | ⟨i, stream, q, rfl, rfl, rfl⟩) hg <;>
    rw [← removeUsers_eq s hg]
  · simp only [removePurpose, dropPurpose_eq]
    rfl
  · rfl
  · unfold removePin Pins.drop
    rfl

end Sys2Proof.Machine

/-! The query orders (O26). -/

namespace Sys2Proof.Machine

/-! ### Queries -/

/-- An order that is handed on is answered with its owner's reply, on the part as its owner leaves it. -/
theorem exec_answered {i : Instr} {s t : State} {code tag : Byte} {params : List Byte} {r : Reply} (hh : s.handsOn = true)
    (hi : orderParts i = some (code, tag, params)) (ht : takeOrder i s = (r, t)) :
    exec i s = .next (pushAnswer code tag r t) := by
  rw [exec_handed i s code tag params hi hh, ht]

theorem takeReadExceptions_eq (first : Byte) (s : State) :
    takeReadExceptions first s =
      (if first.toNat ≤ 15 then done (exceptionResults first.toNat s.access) else refuse .badParam, s) := by
  by_cases h : first.toNat ≤ 15
  · simp only [takeReadExceptions, not_lt.2 h, h, if_true, if_false]
  · simp only [takeReadExceptions, not_le.1 h, h, if_true, if_false]

theorem takeQueryGuideService_place {p : PortNo} {port : Byte} (h : p.val = port.toNat) (service : Word16) (s : State) :
    takeQueryGuideService port service s =
      (if guideKnows s p service.toNat then done (guideResults s p service.toNat) else refuse .notFound, s) := by
  simp only [takeQueryGuideService, place_some p h]
  split <;> rfl

theorem takeQuerySlotSlot_place {k : SlotNo} {slot : Byte} (h : k.val = slot.toNat) (s : State) :
    takeQuerySlotSlot slot s =
      (match s.slot k with
        | none => refuse .notFound
        | some x => done (slotResults s x), s) := by
  simp only [takeQuerySlotSlot, place_some k h]
  cases s.slot k <;> rfl

theorem takeQueryEntry_range {port : Byte} {stream : Word16} (h : 5 ≤ port.toNat ∨ 0x1FFF < stream.toNat) (s : State) :
    takeQueryEntry port stream s = (refuse .badParam, s) := by
  unfold takeQueryEntry
  split
  · rfl
  · next i hi =>
    have hp : ¬5 ≤ port.toNat := fun hp => by rw [place_none hp] at hi; cases hi
    rw [if_pos (h.resolve_left hp)]

theorem takeQueryEntry_place {i : Input} {port : Byte} {stream : Word16} (h : i.val = port.toNat)
    (hs : stream.toNat ≤ 0x1FFF) (s : State) :
    takeQueryEntry port stream s =
      (match findEntry i stream.toNat s with
        | none => refuse .notFound
        | some e => done (entryResults e), s) := by
  simp only [takeQueryEntry, place_some i h, not_lt.2 hs, if_false]
  cases findEntry i stream.toNat s <;> rfl

/-- Settles O26: each query by its parameters in and out of range. -/
theorem queries : Obligations.Queries := by
  refine ⟨fun tag s hh => ⟨?clock, ?identify, fun first => ?exceptions, fun port service h => ?guideRange,
    fun p port service h => ?guide, fun slot h => ?slotRange, fun k slot h => ?slot, fun input h => ⟨?inputRange, ?portRange⟩,
    fun i input h => ⟨?input, ?port⟩, fun ctx h => ?contextRange, fun c ctx head h hhead => ?context,
    fun port stream h => ?entryRange, fun i port stream h hs => ?entry⟩,
    fun tag b s hh => ⟨fun h => ?outputRange, fun o h => ?output, fun h => ?captureRange, fun t h => ?capture⟩⟩
  case clock => exact exec_answered hh rfl rfl
  case identify => exact exec_answered hh rfl rfl
  case exceptions => exact exec_answered hh rfl (takeReadExceptions_eq first s)
  case guideRange => exact exec_answered hh rfl (by simp only [takeOrder, takeQueryGuideService, place_none h])
  case guide => exact exec_answered hh rfl (takeQueryGuideService_place h service s)
  case slotRange => exact exec_answered hh rfl (by simp only [takeOrder, takeQuerySlotSlot, place_none h])
  case slot => exact exec_answered hh rfl (takeQuerySlotSlot_place h s)
  case inputRange => exact exec_answered hh rfl (by simp only [takeOrder, takeQuerySlotInput, place_none h])
  case portRange => exact exec_answered hh rfl (by simp only [takeOrder, takeQueryPort, place_none h])
  case input => exact exec_answered hh rfl (by simp only [takeOrder, takeQuerySlotInput, place_some i h])
  case port => exact exec_answered hh rfl (by simp only [takeOrder, takeQueryPort, place_some i h])
  case contextRange => exact exec_answered hh rfl (by simp only [takeOrder, takeQueryContext, place_none h])
  case context =>
    subst hhead
    exact exec_answered hh rfl (by simp only [takeOrder, takeQueryContext, place_some c h])
  case entryRange => exact exec_answered hh rfl (takeQueryEntry_range h s)
  case entry => exact exec_answered hh rfl (takeQueryEntry_place h hs s)
  case outputRange => exact exec_answered hh rfl (by simp only [takeOrder, takeQueryOutput, place_none h])
  case output => exact exec_answered hh rfl (by simp only [takeOrder, takeQueryOutput, place_some o h]; rfl)
  case captureRange => exact exec_answered hh rfl (by simp only [takeOrder, takeQueryCapture, place_none h])
  case capture => exact exec_answered hh rfl (by simp only [takeOrder, takeQueryCapture, place_some t h]; rfl)

end Sys2Proof.Machine

/-! The section blocks through every step (O47), and the part right after reset (O53). -/

namespace Sys2Proof.Machine

/-- Settles O47: every step carries the total of the section blocks over. -/
theorem stepsKeepTheSectionBlocks : Obligations.StepsKeepTheSectionBlocks :=
  fun _ _ hs h => (step_carries h).blocks hs

/-! ### The part right after reset -/

/-- The fixed table within its sizes, every store and queue empty, every vector full of one initial value. -/
theorem listsBounded_reset : ListsBounded State.reset where
  forming i u h := by simp [State.reset, Intake.ofLocks] at h
  table := fixedTable_sound
  assemblies := fixedTable_assemblies
  deliveries := nofun
  markers o m h := by simp [State.reset, Output.initial] at h
  tracking := tracksRunning_nil _
  tracked := Nat.zero_le _
  order := fixedTable_ordered
  users := UsersOrdered.length fixedTable_ordered
  contexts c := by simp [State.reset, contextEmpty_small]
  ratings := nofun
  windows p := by simp [State.reset, Profile.initial]
  share c := by simp [State.reset]
  seen f x h := by simp [State.reset] at h
  index p := by simp [State.reset, PortIndex.small, PortIndex.empty]
  services := Nat.zero_le _
  events := Nat.zero_le _
  entitlements := Nat.zero_le _
  groups := Nat.zero_le _
  log := Nat.zero_le _
  locked := Nat.zero_le _
  grants := Nat.zero_le _
  presentation o := by simp [State.reset, Output.initial]
  capture := Nat.zero_le _
  notices := Nat.zero_le _

theorem context_reset (c : CtxNo) : getAt State.reset.ctl.contexts c = .empty := getAt_replicate _ c

theorem drainsCounted_reset : DrainsCounted State.reset :=
  drainsAgree_empty _ _ _ context_reset (fun o => congrArg Output.queue (getAt_replicate Output.initial o)) (getAt_replicate 0)

/-- No key slot is in use after reset. -/
theorem keysHeld_reset : KeysHeld State.reset.access.slots State.reset.access.entitlements :=
  fun k _ h => nomatch (getAt_replicate none k).symm.trans h

/-- Settles O53: the fixed table, empty queues, FREE contexts and free slots meet each invariant. -/
theorem resetMeetsTheInvariants : Obligations.ResetMeetsTheInvariants :=
  ⟨rfl, fixedTable_sound, listsBounded_reset, ⟨Nat.zero_le _, Nat.zero_le _⟩, drainsCounted_reset,
    identities_empty _ context_reset, keysHeld_reset⟩

end Sys2Proof.Machine

/-! The orders that set a value in a range, and the home network (O25). -/

namespace Sys2Proof.Machine

/-! ### The delivery queue is judged (R36) -/

/-- Whether a delivery queue is due at a moment: it holds the trigger count or its oldest section has waited the timeout. -/
def deliveryDue (trigger timeout now : Nat) (queue : List Delivery) : Bool :=
  match queue with
  | [] => false
  | d :: rest => decide (trigger ≤ rest.length + 1 ∨ d.joined + timeout * cyclesPerMs ≤ now)

/-- A queue that is due is released, and a released one stays so. -/
theorem judgeDelivery_eq (s : State) :
    judgeDelivery s =
      { s with sections :=
        { s.sections with
          released := s.sections.released ||
            deliveryDue s.sections.trigger s.sections.timeout s.time.cycles s.sections.queue } } := by
  have hd : (!s.sections.queue.isEmpty && (decide (s.sections.trigger ≤ s.sections.queue.length) || oldestTimedOut s)) =
      deliveryDue s.sections.trigger s.sections.timeout s.time.cycles s.sections.queue := by
    unfold oldestTimedOut deliveryDue
    cases s.sections.queue <;> simp
  rw [judgeDelivery, hd]
  cases deliveryDue s.sections.trigger s.sections.timeout s.time.cycles s.sections.queue <;> simp

/-! ### Settings with a range (R41, R122, R164) -/

theorem bne_eq_decide_ne (a b : Nat) : (a != b) = decide (a ≠ b) := by
  simp [bne, beq_eq_decide]

theorem takeSetDelivery_refused {trigger : Byte} (ms : Word16) (s : State) (h : trigger.toNat ∉ [1, 4, 8, 16]) :
    takeSetDelivery trigger ms s = (refuse .badParam, s) :=
  if_neg (by rwa [List.contains_iff_mem])

theorem takeSetDelivery_taken {trigger : Byte} (ms : Word16) (s : State) (h : trigger.toNat ∈ [1, 4, 8, 16]) :
    takeSetDelivery trigger ms s =
      (⟨.done, decide (clamp 1 100 ms.toNat ≠ ms.toNat), [trigger, BitVec.ofNat 8 (clamp 1 100 ms.toNat)]⟩,
        judgeDelivery { s with sections :=
          { s.sections with trigger := trigger.toNat, timeout := clamp 1 100 ms.toNat } }) := by
  have hb : enc8 trigger.toNat = [trigger] := congrArg (fun b => [b]) (BitVec.ofNat_toNat 8 trigger)
  simp only [takeSetDelivery, if_pos (List.contains_iff_mem.2 h), bne_eq_decide_ne, hb]
  rfl

theorem takeSetAcquisitionLimit_eq (ms : Word16) (s : State) :
    takeSetAcquisitionLimit ms s =
      (⟨.done, decide (clampLimit ms.toNat ≠ ms.toNat), enc16 (clampLimit ms.toNat)⟩,
        { s with ctl := { s.ctl with limit := clampLimit ms.toNat } }) := by
  rw [takeSetAcquisitionLimit, bne_eq_decide_ne]

theorem takeSetOutputRate_range {output : Byte} (rate : Word16) (s : State) (h : 2 ≤ output.toNat) :
    takeSetOutputRate output rate s = (refuse .badParam, s) := by
  rw [takeSetOutputRate, place_none h]

theorem takeSetOutputRate_place {o : OutputNo} {output : Byte} (rate : Word16) (s : State) (h : o.val = output.toNat) :
    takeSetOutputRate output rate s =
      (⟨.done, decide (clamp 1000 60000 rate.toNat ≠ rate.toNat), enc16 (clamp 1000 60000 rate.toNat)⟩,
        setRate o (clamp 1000 60000 rate.toNat) s) := by
  rw [takeSetOutputRate, place_some o h, ← bne_eq_decide_ne]

theorem setRate_same {o : OutputNo} {r : Nat} {s : State} (h : (s.output o).rate = r) : setRate o r s = s := if_pos h

theorem setRate_new {o : OutputNo} {r : Nat} {s : State} (h : (s.output o).rate ≠ r) :
    setRate o r s = s.setOutput o { s.output o with rate := r, paceStart := s.time.cycles, paceIndex := 0 } := if_neg h

/-! ### The home network (R66) -/

theorem takeSetHomeNetwork_unset (network : Word16) {s : State} (h : s.access.home = none) :
    takeSetHomeNetwork network s = (done [], { s with access := { s.access with home := some network.toNat } }) := by
  rw [takeSetHomeNetwork, h]

theorem takeSetHomeNetwork_set (network : Word16) {s : State} {n : Nat} (h : s.access.home = some n) :
    takeSetHomeNetwork network s = (refuse .writeOnce, s) := by
  rw [takeSetHomeNetwork, h]

/-- Settles O25: each order by its parameters in and out of range, SET_DELIVERY by what the queue holds. -/
theorem settingsAreTaken : Obligations.SettingsAreTaken := by
  refine ⟨fun tag s hh => ⟨fun trigger ms h => ?otherTrigger, fun trigger ms t h ht => ?delivery, fun ms t ht => ?limit,
    fun output rate h => ?otherOutput, fun o output rate r x ho hr hx => ⟨fun h => ?sameRate, fun h => ?newRate⟩⟩,
    fun tag network s hh => ⟨fun h => ?unset, fun n h => ?set⟩⟩
  case otherTrigger => exact exec_answered hh rfl (takeSetDelivery_refused ms s h)
  case delivery =>
    obtain rfl := ht.trans (clamp_eq 1 100 ms.toNat (by decide)).symm
    refine exec_answered hh rfl ((takeSetDelivery_taken ms s h).trans (congrArg _ ?_))
    rw [judgeDelivery_eq]
    dsimp only
    cases s.sections.queue with
    | nil => rw [deliveryDue, Bool.or_false]
    | cons d rest => rfl
  case limit =>
    obtain rfl : t = clampLimit ms.toNat := by rw [ht, clampLimit, clamp_eq _ _ _ (by decide)]
    exact exec_answered hh rfl (takeSetAcquisitionLimit_eq ms s)
  case otherOutput => exact exec_answered hh rfl (takeSetOutputRate_range rate s h)
  case sameRate =>
    obtain rfl := hr.trans (clamp_eq 1000 60000 rate.toNat (by decide)).symm
    subst hx
    exact exec_answered hh rfl ((takeSetOutputRate_place rate s ho).trans (congrArg _ (setRate_same h)))
  case newRate =>
    obtain rfl := hr.trans (clamp_eq 1000 60000 rate.toNat (by decide)).symm
    subst hx
    exact exec_answered hh rfl ((takeSetOutputRate_place rate s ho).trans (congrArg _ (setRate_new h)))
  case unset => exact exec_answered hh rfl (takeSetHomeNetwork_unset network h)
  case set => exact exec_answered hh rfl (takeSetHomeNetwork_set network h)

end Sys2Proof.Machine

/-! Capture, delivery and filler on HL-out, and the delivery timeout (O20). -/

namespace Sys2Proof.Machine

/-! ### The arbiter where neither an answer nor a notice goes (R162) -/

/-- Only READY goes before the unit is READY (log 16). -/
theorem waitingNotice_none {s : State}
    (h : ∀ n rest, s.notices.queue = n :: rest → s.mgmt.ready = false ∧ n.isReady = false) : waitingNotice s = none := by
  unfold waitingNotice
  split
  · rfl
  · next n rest hq =>
    obtain ⟨hr, hn⟩ := h n rest hq
    simp [hr, hn]

theorem exec_hlOut_idle {s : State} (ha : s.mgmt.answers = [])
    (hn : ∀ n rest, s.notices.queue = n :: rest → s.mgmt.ready = false ∧ n.isReady = false) :
    exec .hlOutOpportunity s = .next (sendCaptureOrDelivery s) := by
  change Host.Outcome.next (arbitrate s) = _
  simp only [arbitrate, ha, waitingNotice_none hn]

/-- The sections that wait for HL-out: those of a released queue. -/
theorem waiting_nil {s : State} (h : s.sections.released = false ∨ s.sections.queue = []) :
    (if s.sections.released then s.sections.queue else []) = [] := by
  rcases h with h | h <;> simp [h]

theorem sendCaptureOrDelivery_filler {s : State} (hc : s.out.capture = [])
    (hd : s.sections.released = false ∨ s.sections.queue = []) : sendCaptureOrDelivery s = sendFiller s := by
  simp only [sendCaptureOrDelivery, hc, waiting_nil hd]

theorem sendCaptureOrDelivery_capture {s : State} {q : CapturePacket} {rest : List CapturePacket}
    (hc : s.out.capture = q :: rest) (hd : s.sections.released = false ∨ s.sections.queue = [] ∨ s.out.run < 3) :
    sendCaptureOrDelivery s = sendCapture q rest s := by
  unfold sendCaptureOrDelivery
  rw [hc]
  cases hw : (if s.sections.released then s.sections.queue else []) with
  | nil => rfl
  | cons d ds =>
    have hrun : s.out.run < 3 := by
      by_contra hr
      have hd' : s.sections.released = false ∨ s.sections.queue = [] := by tauto
      rw [waiting_nil hd'] at hw
      cases hw
    simp only [hrun, if_true]

theorem sendCaptureOrDelivery_delivery {s : State} {d : Delivery} {rest : List Delivery}
    (hr : s.sections.released = true) (hq : s.sections.queue = d :: rest) (hc : s.out.capture = [] ∨ 3 ≤ s.out.run) :
    sendCaptureOrDelivery s = sendDelivery d rest s := by
  unfold sendCaptureOrDelivery
  rw [hr, hq]
  cases hcap : s.out.capture with
  | nil => rfl
  | cons q qs =>
    have hrun : ¬s.out.run < 3 := not_lt.2 (hc.resolve_left (by simp [hcap]))
    simp only [hrun, if_true, if_false]

/-! ### The head section's next packet (R36, R37, R188) -/

theorem sendDelivery_last {d : Delivery} {s : State} (rest : List Delivery)
    (h : (d.bytes.length + 175) / 176 ≤ d.sentPackets + 1) (hr : s.sections.released = true) :
    (sendDelivery d rest s).sections.queue = rest ∧
      (sendDelivery d rest s).sections.freeBlocks = s.sections.freeBlocks + d.blocks ∧
      (sendDelivery d rest s).sections.released = !rest.isEmpty := by
  have hl : deliveryPackets d ≤ d.sentPackets + 1 := h
  simp [sendDelivery, hl, hr]

theorem sendDelivery_more {d : Delivery} {s : State} (rest : List Delivery)
    (h : d.sentPackets + 1 < (d.bytes.length + 175) / 176) (hr : s.sections.released = true) :
    (sendDelivery d rest s).sections.queue =
        { d with number := some (d.number.getD s.sections.nextNumber), sentPackets := d.sentPackets + 1 } :: rest ∧
      (sendDelivery d rest s).sections.freeBlocks = s.sections.freeBlocks ∧
      (sendDelivery d rest s).sections.released = true := by
  have hl : ¬deliveryPackets d ≤ d.sentPackets + 1 := not_le.2 h
  simp [sendDelivery, hl, hr]

/-! ### DELIVERY_TIMEOUT (R36) -/

theorem deliveryTimedOut_idle {s : State} (h : s.sections.queue = [] ∨ s.sections.released = true) :
    deliveryTimedOut s = s := by
  unfold deliveryTimedOut
  split
  · rfl
  · next d rest hq => rw [if_pos (h.resolve_left (by simp [hq]))]

theorem deliveryTimedOut_waiting {s : State} {d : Delivery} {rest : List Delivery} (hq : s.sections.queue = d :: rest)
    (hr : s.sections.released = false) :
    deliveryTimedOut s =
      { s with
        time := (advanceTo (d.joined + s.sections.timeout * cyclesPerMs) s).time
        sections := { s.sections with released := true } } := by
  simp [deliveryTimedOut, hq, hr]

/-- Settles O20: the arbiter's choice, what the chosen packet changes, and the timeout of a waiting queue. -/
theorem captureAndDeliveryAreSent : Obligations.CaptureAndDeliveryAreSent := by
  refine ⟨fun s ha hn => ?_, fun s => ⟨fun h => congrArg _ (deliveryTimedOut_idle h),
    fun d rest hq hr => congrArg _ (deliveryTimedOut_waiting hq hr)⟩⟩
  rw [exec_hlOut_idle ha hn]
  refine ⟨fun hc hd => ?filler, fun q rest r hc hd hr => ?capture, fun d rest k hr hq hc hk => ?delivery⟩
  case filler => rw [sendCaptureOrDelivery_filler hc hd]; rfl
  case capture => rw [sendCaptureOrDelivery_capture hc hd, hr]; rfl
  case delivery =>
    rw [sendCaptureOrDelivery_delivery hr hq hc, hk]
    exact ⟨_, rfl, rfl, fun h => sendDelivery_last rest h hr, fun h => sendDelivery_more rest h hr, rfl⟩

end Sys2Proof.Machine

/-! SET_FILTER and CLEAR_FILTER (O22). -/

namespace Sys2Proof.Machine

/-! ### The pins of a filter (R39) -/

section
variable {f : FilterNo} {stream : Nat} {i : Input} {s v : State}

theorem addFilterPins_refused {r : AddResult} (h : addUser i stream .sections (.pin (.filter f)) s = (r, v))
    (hr : r ≠ .granted) (l : List Input) : addFilterPins f stream (i :: l) s = (r, [], v) := by
  cases r with
  | granted => exact absurd rfl hr
  | tableFull => simp only [addFilterPins, h]
  | conflict => simp only [addFilterPins, h]
  | inadmissible => simp only [addFilterPins, h]

theorem addFilterPins_granted {a : AddResult} {l added : List Input} {w : State}
    (h : addUser i stream .sections (.pin (.filter f)) s = (.granted, v)) (hl : addFilterPins f stream l v = (a, added, w)) :
    addFilterPins f stream (i :: l) s = (a, if holdsPin i stream (.filter f) s then added else i :: added, w) := by
  simp only [addFilterPins, h, hl]

end

/-! ### SET_FILTER -/

section
variable {f : FilterNo} {x : Filter} {s u : State} {added : List Input}

/-- The filter as it stood is still there once its new pins are granted. -/
theorem filters_of_granted {r : AddResult} (h : addFilterPins f x.stream (filterInputs x.port x.stream) s = (r, added, u)) :
    u.sections.filters = s.sections.filters := by
  have := addFilterPins_sections f x.stream (filterInputs x.port x.stream) s
  rw [h] at this
  exact congrArg Sections.filters this

theorem installFilter_new (h : addFilterPins f x.stream (filterInputs x.port x.stream) s = (.granted, added, u))
    (hn : getAt s.sections.filters f = none) : installFilter f x s = (done [], u.setFilter f (some x)) := by
  simp only [installFilter, h, filters_of_granted h, hn]

theorem installFilter_replace {old : Filter}
    (h : addFilterPins f x.stream (filterInputs x.port x.stream) s = (.granted, added, u))
    (ho : getAt s.sections.filters f = some old) :
    installFilter f x s = (done [], (removeFilterPins f old.stream (staleInputs old x) u).setFilter f (some x)) := by
  simp only [installFilter, h, filters_of_granted h, ho]

theorem installFilter_refused {r : AddResult}
    (h : addFilterPins f x.stream (filterInputs x.port x.stream) s = (r, added, u)) (hr : r ≠ .granted) :
    installFilter f x s = (refuse r.outcome, removeFilterPins f x.stream added u) := by
  cases r with
  | granted => exact absurd rfl hr
  | tableFull => simp only [installFilter, h]
  | conflict => simp only [installFilter, h]
  | inadmissible => simp only [installFilter, h]

end

/-- A port byte outside 0..4 and 0xFF names no port (R185). -/
theorem filterPort_none {port : Byte} (h : 5 ≤ port.toNat) (hany : port.toNat ≠ 255) : filterPort port = none := by
  rw [filterPort, if_neg hany, place_none h, Option.map_none]

section
variable {filter port : Byte} {stream : Word16} (pattern mask : Vector Byte 6) (options : Byte) (s : State)

theorem takeSetFilter_refused
    (h : 24 ≤ filter.toNat ∨ (5 ≤ port.toNat ∧ port.toNat ≠ 255) ∨
      ∀ i, filterPort port = some i → filterStreamOk i stream.toNat = false) :
    takeSetFilter filter port stream pattern mask options s = (refuse .badParam, s) := by
  unfold takeSetFilter
  split
  · next f i hf hi =>
    rcases h with h | ⟨h, hany⟩ | h
    · rw [place_none h] at hf; cases hf
    · rw [filterPort_none h hany] at hi; cases hi
    · rw [h i hi]; rfl
  · rfl

theorem takeSetFilter_checked {f : FilterNo} {i : Option Input} (hf : f.val = filter.toNat)
    (hi : filterPort port = some i) (hs : filterStreamOk i stream.toNat = true) :
    takeSetFilter filter port stream pattern mask options s =
      installFilter f ⟨i, stream.toNat, pattern, mask, options.getLsbD 0, options.getLsbD 1, []⟩ s := by
  simp only [takeSetFilter, place_some f hf, hi, hs, if_true]

end

/-! ### CLEAR_FILTER (R40) -/

theorem takeClearFilter_range {filter : Byte} (h : 24 ≤ filter.toNat) (s : State) :
    takeClearFilter filter s = (refuse .badParam, s) := by
  simp only [takeClearFilter, place_none h]

theorem takeClearFilter_none {f : FilterNo} {filter : Byte} {s : State} (hf : f.val = filter.toNat)
    (hn : getAt s.sections.filters f = none) : takeClearFilter filter s = (refuse .notFound, s) := by
  simp only [takeClearFilter, place_some f hf, hn]

theorem takeClearFilter_set {f : FilterNo} {filter : Byte} {s : State} {x : Filter} (hf : f.val = filter.toNat)
    (hx : getAt s.sections.filters f = some x) :
    takeClearFilter filter s =
      (done [], (removeFilterPins f x.stream (filterInputs x.port x.stream) s).setFilter f none) := by
  simp only [takeClearFilter, place_some f hf, hx]

/-- Settles O22: the pins of one order input by input, then each order by its checks and by what the filter held. -/
theorem filtersAreSetAndCleared : Obligations.FiltersAreSetAndCleared := by
  refine ⟨fun f stream i l s => ⟨rfl, rfl, rfl, fun r v h => ⟨fun hr => addFilterPins_refused h hr l, ?granted⟩, rfl⟩,
    fun tag filter port stream pattern mask options s hh => ⟨fun h => ?checks, fun f i x r added u hf hi hs hx ha =>
      ⟨fun hr hn => ?new, fun old hr ho => ?replace, fun hr => ?refused⟩, fun h => ?range, fun f hf hn => ?absent,
      fun f x hf hx => ?clear⟩⟩
  case granted =>
    rintro a added w rfl hl
    exact addFilterPins_granted h hl
  case checks => exact exec_answered hh rfl (takeSetFilter_refused pattern mask options s h)
  case new =>
    subst hx hr
    exact exec_answered hh rfl ((takeSetFilter_checked pattern mask options s hf hi hs).trans (installFilter_new ha hn))
  case replace =>
    subst hx hr
    exact exec_answered hh rfl ((takeSetFilter_checked pattern mask options s hf hi hs).trans (installFilter_replace ha ho))
  case refused =>
    subst hx
    exact exec_answered hh rfl ((takeSetFilter_checked pattern mask options s hf hi hs).trans (installFilter_refused ha hr))
  case range => exact exec_answered hh rfl (takeClearFilter_range h s)
  case absent => exact exec_answered hh rfl (takeClearFilter_none hf hn)
  case clear => exact exec_answered hh rfl (takeClearFilter_set hf hx)

end Sys2Proof.Machine

/-! The completion of a section, its offers, and its match against host filters (O44). -/

namespace Sys2Proof.Machine

/-! ### The tests of a completed section (R29, R30) -/

section
variable {e : Entry} {bytes : List Byte} {s : State}

/-- A section whose CRC checks, counted as good. -/
def countedGood (e : Entry) (s : State) : State :=
  countSection e.input (fun r => { r with good := bump top32 r.good }) s

theorem takeGoodSection_beyond (h : (sectionHeader bytes).lastIndex < (sectionHeader bytes).index) :
    takeGoodSection e bytes s =
      countSection e.input (fun r => { r with header := bump top32 r.header }) (countedGood e s) := by
  simp only [takeGoodSection, countedGood, h, if_true]

theorem takeGoodSection_next (h : (sectionHeader bytes).index ≤ (sectionHeader bytes).lastIndex)
    (hc : (sectionHeader bytes).current = false) : takeGoodSection e bytes s = countedGood e s := by
  simp only [takeGoodSection, countedGood, not_lt.2 h, if_false, hc, Bool.not_false, if_true]

theorem takeGoodSection_offered (h : (sectionHeader bytes).index ≤ (sectionHeader bytes).lastIndex)
    (hc : (sectionHeader bytes).current = true) :
    takeGoodSection e bytes s = offerSection e (sectionHeader bytes) (sectionBody bytes) (countedGood e s) := by
  simp [takeGoodSection, countedGood, not_lt.2 h, hc]

theorem presentFilters_eq {i : Input} {stream : Nat} {u : State} {present : BitVec 24}
    (h : (∃ e, findEntry i stream u = some e ∧ present = e.pins.filters) ∨ findEntry i stream u = none ∧ present = 0) :
    presentFilters i stream u = present := by
  rcases h with ⟨e, he, rfl⟩ | ⟨he, rfl⟩ <;> simp only [presentFilters, he]

theorem completeSection_bad (h : crc32 bytes ≠ 0) {u : State}
    (hu : u = countSection e.input (fun r => { r with badCrc := bump top32 r.badCrc }) s) {r : BitVec 24 × State}
    (hr : r = filterNos.foldl
      (fun a f => matchFilter (presentFilters e.input e.stream u) (crc32 bytes != 0) bytes f a) (0, u)) :
    completeSection e bytes s = moveSection e.input e.stream (crc32 bytes != 0) bytes r.1 r.2 := by
  subst hu hr
  have hb : (crc32 bytes != 0) = true := bne_iff_ne.2 h
  simp only [completeSection, hb, if_true]

theorem completeSection_good (h : crc32 bytes = 0) {u : State} (hu : u = takeGoodSection e bytes s)
    {r : BitVec 24 × State}
    (hr : r = filterNos.foldl
      (fun a f => matchFilter (presentFilters e.input e.stream u) (crc32 bytes != 0) bytes f a) (0, u)) :
    completeSection e bytes s = moveSection e.input e.stream (crc32 bytes != 0) bytes r.1 r.2 := by
  subst hu hr
  have hb : (crc32 bytes != 0) = false := by simp [h]
  simp only [completeSection, hb, Bool.false_eq_true, if_false]

end

/-! ### The consumer of a section's kind (R30, Table 2-4) -/

section
variable {e : Entry} {h : SectionHeader} (body : List Byte) (s : State)

theorem offerSection_index {p : PortNo} (hk : h.kind = 0x10) (hi : e.pins.index = true) (hp : e.input = inputOf p) :
    offerSection e h body s = indexSection p h body s := by
  have hpl : place 4 e.input.val = some p := place_some p (by rw [hp]; rfl)
  simp only [offerSection, hk, hpl, hi, if_true]

theorem offerSection_keys {k : SlotNo} (hk : h.kind = 0x90) (hs : e.keysSlot = some k) :
    offerSection e h body s = keySection k e.input e.stream h body s := by
  simp only [offerSection, hk, hs]

theorem offerSection_index_none (hk : h.kind = 0x10) (hi : e.pins.index = false ∨ e.input = pb) :
    offerSection e h body s = s := by
  rcases hi with hi | hi
  · simp only [offerSection, hk, hi]
    split <;> rfl
  · have hpl : place 4 e.input.val = none := place_none (by rw [hi]; decide)
    simp only [offerSection, hk, hpl]

theorem offerSection_keys_none (hk : h.kind = 0x90) (hs : e.keysSlot = none) : offerSection e h body s = s := by
  simp only [offerSection, hk, hs]

theorem offerSection_other (hk : h.kind ∉ [0x10, 0x12, 0x30, 0x31, 0x32, 0x90, 0x94]) : offerSection e h body s = s := by
  simp only [List.mem_cons, not_or] at hk
  obtain ⟨h10, h12, h30, h31, h32, h90, h94, -⟩ := hk
  unfold offerSection
  split <;> first | rfl | contradiction

end

/-! ### One filter against a section (R31, R33) -/

theorem matchFilter_absent {present : BitVec 24} {f : FilterNo} {s : State}
    (h : hasBit present f = false ∨ getAt s.sections.filters f = none) (bad : Bool) (bytes : List Byte) (a : BitVec 24) :
    matchFilter present bad bytes f (a, s) = (a, s) := by
  unfold matchFilter
  rcases h with h | h
  · simp only [h, Bool.false_eq_true, if_false]
  · simp only [h, ite_self]

theorem matchFilter_present {present : BitVec 24} {f : FilterNo} {s : State} {x : Filter} (hp : hasBit present f = true)
    (hx : getAt s.sections.filters f = some x) (bad : Bool) (bytes : List Byte) (a : BitVec 24) :
    (x.matchSection bad bytes = none → matchFilter present bad bytes f (a, s) = (a, s)) ∧
      ∀ y, x.matchSection bad bytes = some y →
        matchFilter present bad bytes f (a, s) =
          (addBit a f, { s with sections := { s.sections with filters := setAt s.sections.filters f (some y) } }) := by
  constructor
  · intro hm
    simp only [matchFilter, hp, hx, hm, if_true]
  · intro y hm
    simp only [matchFilter, hp, hx, hm, if_true]

theorem toList_getElem?_eq_some {α : Type} {n : Nat} (v : Vector α n) (j : Nat) (a : α) :
    v.toList[j]? = some a ↔ ∃ h : j < n, getAt v ⟨j, h⟩ = a := by
  rw [Vector.getElem?_toList, Vector.getElem?_eq_some_iff]
  rfl

/-- The header pattern is compared byte by byte, in the bits of the mask. -/
theorem agrees_iff (x : Filter) (l : List Byte) :
    x.agrees l = true ↔ ∀ (j : Fin 6) (b : Byte), (matchedBytes l)[j.val]? = some b →
      ∀ k < 8, (getAt x.mask j).getLsbD k = true → (getAt x.pattern j).getLsbD k = b.getLsbD k := by
  simp only [Filter.agrees, List.all_eq_true, List.mem_iff_getElem?, List.getElem?_zip_eq_some, toList_getElem?_eq_some,
    beq_iff_eq, and_mask_eq_iff]
  constructor
  · intro h j b hb
    exact h ((getAt x.pattern j, getAt x.mask j), b) ⟨j.val, ⟨⟨j.isLt, rfl⟩, ⟨j.isLt, rfl⟩⟩, hb⟩
  · rintro h ⟨⟨p, m⟩, b⟩ ⟨j, ⟨⟨hj, rfl⟩, ⟨_, rfl⟩⟩, hb⟩
    exact h ⟨j, hj⟩ b hb

section
variable {x : Filter} {bad : Bool} {l : List Byte}

theorem matchSection_disagrees (h : x.agrees l = false) : x.matchSection bad l = none := by
  simp only [Filter.matchSection, h, Bool.not_false, if_true]

theorem matchSection_bad (h : x.agrees l = true) : x.matchSection true l = if x.deliverBad then some x else none := by
  simp only [Filter.matchSection, h, Bool.not_true, Bool.false_eq_true, if_false, if_true]

theorem matchSection_plain (h : x.agrees l = true) (hs : x.suppress = false) : x.matchSection false l = some x := by
  simp only [Filter.matchSection, h, hs, Bool.not_true, Bool.false_eq_true, if_false]

theorem matchSection_suppressing (h : x.agrees l = true) (hs : x.suppress = true) :
    x.matchSection false l = (seenAfter (sectionHeader l) x.seen).map (fun seen => { x with seen := seen }) := by
  simp only [Filter.matchSection, h, hs, Bool.not_true, Bool.false_eq_true, if_false, if_true]

end

/-! ### Seen sets (R34) -/

/-- The seen set of a section: its kind and its extension. -/
def SeenSet.isOf (h : SectionHeader) (y : SeenSet) : Bool :=
  y.kind == h.kind && y.extension == h.extension

theorem SeenSet.isOf_iff (h : SectionHeader) (y : SeenSet) :
    y.isOf h = true ↔ y.kind = h.kind ∧ y.extension = h.extension := by
  simp [SeenSet.isOf]

section
variable {h : SectionHeader} {l a b : List SeenSet} {y : SeenSet}

theorem find?_isOf (hy : y.isOf h = true) (ha : ∀ z ∈ a, z.isOf h = false) :
    (a ++ y :: b).find? (SeenSet.isOf h) = some y := by
  rw [List.find?_append, List.find?_eq_none.2 (fun z hz => by simp [ha z hz]), Option.none_or, List.find?_cons_of_pos hy]

theorem map_isOf (hy : y.isOf h = true) (ha : ∀ z ∈ a, z.isOf h = false) (hb : ∀ z ∈ b, z.isOf h = false)
    (g : SeenSet → SeenSet) :
    (a ++ y :: b).map (fun z => if z.isOf h then g z else z) = a ++ g y :: b := by
  have hid : ∀ c : List SeenSet, (∀ z ∈ c, z.isOf h = false) → c.map (fun z => if z.isOf h then g z else z) = c := by
    intro c hc
    exact (List.map_congr_left fun z hz => if_neg (by simp [hc z hz])).trans (List.map_id' c)
  rw [List.map_append, List.map_cons, if_pos hy, hid a ha, hid b hb]

/-- What a section with a seen set of the same version, or of another one, leaves of it. -/
theorem seenAfter_found (hy : y.isOf h = true) (ha : ∀ z ∈ a, z.isOf h = false) (hb : ∀ z ∈ b, z.isOf h = false) :
    seenAfter h (a ++ y :: b) =
      if y.version = h.version then
        if hasIndex y.indices h.index then none
        else some (a ++ { y with indices := addIndex y.indices h.index } :: b)
      else some (a ++ { y with version := h.version, indices := addIndex 0 h.index } :: b) := by
  rw [← map_isOf hy ha hb (fun y => { y with indices := addIndex y.indices h.index }),
    ← map_isOf hy ha hb (fun y => { y with version := h.version, indices := addIndex 0 h.index })]
  have hf := find?_isOf (b := b) hy ha
  unfold SeenSet.isOf at hf
  simp only [seenAfter, hf]
  rfl

theorem seenAfter_new (hn : ∀ z ∈ l, z.isOf h = false) :
    seenAfter h l =
      some ((if l.length < 8 then l else l.tail) ++ [⟨h.kind, h.extension, h.version, addIndex 0 h.index⟩]) := by
  have hf : l.find? (SeenSet.isOf h) = none := List.find?_eq_none.2 fun z hz => by simp [hn z hz]
  unfold SeenSet.isOf at hf
  simp only [seenAfter, hf]

end

/-- Settles O44: the tests and the match of a completed section, the consumer of each kind, one filter, and seen sets. -/
theorem completedSectionsAreOfferedAndMatched : Obligations.CompletedSectionsAreOfferedAndMatched := by
  refine ⟨fun e bytes s good u h present r hh hg hu hp hr => ?complete,
    fun e h body s => ⟨fun p hk hi hp => offerSection_index body s hk hi hp, fun hk hg => ?list, fun hk hg => ?event,
      fun hk ht => ?time, fun hk ha => ?entitlement, fun k hk hs => offerSection_keys body s hk hs, fun hk => ?map,
      fun hn => ?nobody⟩,
    fun present bad bytes f a s => ⟨fun hn => matchFilter_absent hn bad bytes a,
      fun x hp hx => matchFilter_present hp hx bad bytes a⟩,
    agrees_iff,
    fun x bad l => ⟨matchSection_disagrees, fun h hb => ?bad, fun h hb hs => ?plain, fun h hb hs => ?suppress⟩,
    fun h l a b ours ho => ?seen⟩
  case complete =>
    subst hh hg
    rw [← presentFilters_eq hp] at hr
    rcases hu with ⟨hc, hu⟩ | ⟨hc, hi, hu⟩ | ⟨hc, hi, hn, hu⟩ | ⟨hc, hi, hn, hu⟩
    · exact completeSection_bad hc hu hr
    · exact completeSection_good hc (hu.trans (takeGoodSection_beyond hi).symm) hr
    · exact completeSection_good hc (hu.trans (takeGoodSection_next hi hn).symm) hr
    · exact completeSection_good hc (hu.trans (takeGoodSection_offered hi hn).symm) hr
  case list => simp only [offerSection, hk, hg, if_true]
  case event => simp only [offerSection, hk, hg, if_true]
  case time => simp only [offerSection, hk, ht, if_true]
  case entitlement => simp only [offerSection, hk, ha, if_true]
  case map => simp only [offerSection, hk, Entry.mapUsers]
  case nobody =>
    rcases hn with ⟨hk, hi⟩ | ⟨hk | hk, hg⟩ | ⟨hk, ht⟩ | ⟨hk, ha⟩ | ⟨hk, hs⟩ | hk
    · exact offerSection_index_none body s hk hi
    · simp only [offerSection, hk, hg, Bool.false_eq_true, if_false]
    · simp only [offerSection, hk, hg, Bool.false_eq_true, if_false]
    · simp only [offerSection, hk, ht, Bool.false_eq_true, if_false]
    · simp only [offerSection, hk, ha, Bool.false_eq_true, if_false]
    · exact offerSection_keys_none body s hk hs
    · exact offerSection_other body s hk
  case bad => subst hb; exact matchSection_bad h
  case plain => subst hb; exact matchSection_plain h hs
  case suppress =>
    subst hb
    rw [matchSection_suppressing h hs]
    cases seenAfter (sectionHeader l) x.seen <;> rfl
  case seen =>
    subst ho
    have hnot : ∀ z : SeenSet, ¬(z.kind = h.kind ∧ z.extension = h.extension) → z.isOf h = false :=
      fun z hz => Bool.eq_false_iff.2 fun hz' => hz ((SeenSet.isOf_iff h z).1 hz')
    refine ⟨fun y hl hy ha hb => ?_, fun hn hlen => ?_, fun y hl hn hlen => ?_⟩
    · have hfound := seenAfter_found ((SeenSet.isOf_iff h y).2 hy) (fun z hz => hnot z (ha z hz)) (fun z hz => hnot z (hb z hz))
      rw [hl, hfound]
      exact ⟨fun hv hx => by rw [if_pos hv, if_pos hx], fun hv hx => by rw [if_pos hv, if_neg (by simp [hx])],
        fun hv => if_neg hv⟩
    · rw [seenAfter_new fun z hz => hnot z (hn z hz), if_pos hlen]
    · rw [seenAfter_new fun z hz => hnot z (hn z hz), if_neg (not_lt.2 hlen), hl, List.tail_cons]

end Sys2Proof.Machine

/-! How sections are assembled: block claims, the bytes of a section, lead runs and stuffing, the way of its blocks (O60). -/

namespace Sys2Proof.Machine

/-! ### The entry of a pair is changed in place -/

theorem updateFirst_updateFirst {α : Type} {hit : α → Bool} {f g : α → α} (hf : ∀ x, hit (f x) = hit x) (l : List α) :
    updateFirst hit g (updateFirst hit f l) = updateFirst hit (fun x => g (f x)) l := by
  induction l with
  | nil => rfl
  | cons x l ih => cases hx : hit x <;> simp [updateFirst, hx, hf, ih]

/-- The part with another assembly on the entry of a pair and another number of free blocks. -/
def State.assembled (s : State) (i : Input) (stream : Nat) (a : Assembly) (free : Nat) : State :=
  { s with
    table := updateFirst (isAt i stream) (fun e => { e with assembly := a }) s.table
    sections := { s.sections with freeBlocks := free } }

section
variable {i : Input} {stream : Nat} {s : State} {e : Entry}

theorem findEntry_assembled (h : findEntry i stream s = some e) (a : Assembly) (n : Nat) :
    findEntry i stream (s.assembled i stream a n) = some { e with assembly := a } := by
  have hm := findEntry_modifyEntry i stream (f := fun e => { e with assembly := a }) (fun _ => rfl) s
  rw [h] at hm
  exact hm

theorem abandon_found (h : findEntry i stream s = some e) :
    abandon i stream s = s.assembled i stream .skipping (s.sections.freeBlocks + e.blocks) := by
  simp only [abandon, h]
  rfl

/-- An assembly that is set and then abandoned gives back its blocks and leaves SKIPPING. -/
theorem abandon_assembled (h : findEntry i stream s = some e) (blocks : Nat) (bytes : List Byte) (x : Option Nat) (n : Nat) :
    abandon i stream (s.assembled i stream (.collecting blocks bytes x) n) =
      s.assembled i stream .skipping (n + blocks) := by
  rw [abandon_found (findEntry_assembled h _ _)]
  unfold State.assembled
  dsimp only
  rw [updateFirst_updateFirst (by exact fun _ => rfl)]
  rfl

end

/-! ### Block claims (R28) -/

theorem mapUsers_isEmpty_iff (e : Entry) : e.mapUsers.isEmpty = true ↔ ∀ x ∈ e.users, Purpose.map ∉ x.purposes := by
  simp [Entry.mapUsers, List.isEmpty_iff]

theorem keysSlot_isNone_iff (e : Entry) :
    e.keysSlot.isNone = true ↔ ∀ x ∈ e.users, ∀ k, Purpose.keys k ∉ x.purposes := by
  refine ⟨fun h => keysSlot_none (Option.isNone_iff_eq_none.1 h), fun h => ?_⟩
  cases hk : e.keysSlot with
  | none => rfl
  | some k =>
    obtain ⟨u, hu, hk⟩ := keysSlot_some hk
    exact absurd hk (h u hu k)

/-- Only GUIDE and host filters consume the entry: no context holds MAP or KEYS, and no other pin is there. -/
theorem restricted_iff (e : Entry) :
    e.restricted = true ↔ (∀ x ∈ e.users, Purpose.map ∉ x.purposes ∧ ∀ k, Purpose.keys k ∉ x.purposes) ∧
      e.pins.index = false ∧ e.pins.access = false ∧ e.pins.time = false := by
  simp only [Entry.restricted, Bool.and_eq_true, mapUsers_isEmpty_iff, keysSlot_isNone_iff, Bool.not_eq_true', and_assoc,
    forall_and]

theorem claimGranted_iff (e : Entry) (s : State) :
    claimGranted e s = true ↔ e.restricted = true ∧ 64 < s.sections.freeBlocks ∨
      ¬e.restricted = true ∧ 1 ≤ s.sections.freeBlocks := by
  unfold claimGranted
  split
  · next h => simp [h]
  · next h => simp [h]

/-! ### One byte (R24, R28, R29) -/

/-- What an entry has of a section in progress: its blocks, its bytes and their expected number. -/
def Entry.holdsPart (e : Entry) (blocks : Nat) (bytes : List Byte) (expected : Option Nat) : Prop :=
  e.assembly = .collecting blocks bytes expected ∨
    (e.assembly = .idle ∨ e.assembly = .skipping) ∧ blocks = 0 ∧ bytes = [] ∧ expected = none

section
variable {i : Input} {stream : Nat} {s : State} {e : Entry} {blocks : Nat} {bytes : List Byte} {expected : Option Nat}

theorem blocks_of_holdsPart (h : e.holdsPart blocks bytes expected) : e.blocks = blocks := by
  rcases h with h | ⟨h | h, rfl, -, -⟩ <;> simp only [Entry.blocks, h]

theorem starve_found (h : findEntry i stream s = some e) (hp : e.holdsPart blocks bytes expected) :
    starve i stream s =
      { s with
        table := updateFirst (isAt i stream)
          (fun e => { e with assembly := .skipping, starve := bump top16 e.starve }) s.table
        sections :=
          { s.sections with
            freeBlocks := s.sections.freeBlocks + blocks
            stats := setAt s.sections.stats i
              { getAt s.sections.stats i with starved := bump top32 (getAt s.sections.stats i).starved } } } := by
  rw [starve, abandon_found h, blocks_of_holdsPart hp, modifyEntry, State.assembled]
  dsimp only
  rw [updateFirst_updateFirst (by exact fun _ => rfl)]
  rfl

/-- A byte on a block boundary whose claim is refused. -/
theorem appendByte_starved (h : findEntry i stream s = some e) (hp : e.holdsPart blocks bytes expected) (b : Byte)
    (hb : bytes.length % 64 = 0) (hg : ¬claimGranted e s = true) :
    appendByte i stream b s = (.abandoned, starve i stream s) := by
  rcases hp with ha | ⟨ha | ha, rfl, rfl, rfl⟩ <;>
    simp only [appendByte, h, ha, hb, hg, if_true, if_false, Bool.false_eq_true]

/-- A byte that has its block, one claimed with it on a block boundary. -/
theorem appendByte_stored (h : findEntry i stream s = some e) (hp : e.holdsPart blocks bytes expected) (b : Byte)
    (hg : bytes.length % 64 = 0 → claimGranted e s = true) {claimed : Nat}
    (hc : claimed = if bytes.length % 64 = 0 then 1 else 0) :
    appendByte i stream b s =
      storeByte e (blocks + claimed) (bytes ++ [b]) expected
        { s with sections := { s.sections with freeBlocks := s.sections.freeBlocks - claimed } } := by
  subst hc
  by_cases hb : bytes.length % 64 = 0
  · rcases hp with ha | ⟨ha | ha, rfl, rfl, rfl⟩ <;> simp only [appendByte, h, ha, hb, hg hb, if_true]
  · have ha : e.assembly = .collecting blocks bytes expected :=
      hp.resolve_right fun ⟨_, _, hnil, _⟩ => hb (by rw [hnil]; rfl)
    simp only [appendByte, h, ha, hb, if_false]
    rfl

/-- A granted claim finds its block among the free ones. -/
theorem claimed_le (hg : bytes.length % 64 = 0 → claimGranted e s = true) {claimed : Nat}
    (hc : claimed = if bytes.length % 64 = 0 then 1 else 0) : claimed ≤ s.sections.freeBlocks := by
  split at hc
  · next hb =>
    have := (claimGranted_iff e s).1 (hg hb)
    omega
  · omega

theorem expectedSize_inside {l : List Byte} (h9 : 9 ≤ sectionLength l) (h1021 : sectionLength l ≤ 1021) :
    expectedSize l = some (sectionLength l + 3) := by
  simp [expectedSize, h9, h1021]

theorem expectedSize_outside {l : List Byte} (h : sectionLength l < 9 ∨ 1021 < sectionLength l) : expectedSize l = none := by
  have : ¬(9 ≤ sectionLength l ∧ sectionLength l ≤ 1021) := by omega
  simpa [expectedSize] using this

/-- The third byte gives a length (R24). -/
theorem storeByte_length (hi : e.input = i) (hst : e.stream = stream) (hl : bytes.length = 3) {n : Nat}
    (hn : expectedSize bytes = some n) :
    storeByte e blocks bytes expected s =
      (.inProgress, s.assembled i stream (.collecting blocks bytes (some n)) s.sections.freeBlocks) := by
  subst hi hst
  simp only [storeByte, hl, hn, if_true]
  rfl

/-- The third byte gives a length outside 9..1021 (R24). -/
theorem storeByte_badLength (h : findEntry i stream s = some e) (hl : bytes.length = 3) (hn : expectedSize bytes = none) :
    storeByte e blocks bytes expected s =
      (.abandoned, countFraming i (s.assembled i stream .skipping (s.sections.freeBlocks + blocks))) := by
  obtain ⟨hi, hst⟩ := findEntry_at h
  simp only [storeByte, hl, hn, hi, hst, if_true]
  exact congrArg (fun t => (Appended.abandoned, countFraming i t)) (abandon_assembled h blocks bytes none _)

theorem storeByte_inside (hi : e.input = i) (hst : e.stream = stream) (hl : bytes.length ≠ 3)
    (hx : expected ≠ some bytes.length) :
    storeByte e blocks bytes expected s =
      (.inProgress, s.assembled i stream (.collecting blocks bytes expected) s.sections.freeBlocks) := by
  subst hi hst
  simp only [storeByte, hl, hx, if_false]
  rfl

/-- The last byte of a section (R29). -/
theorem storeByte_last (hi : e.input = i) (hst : e.stream = stream) (hl : bytes.length ≠ 3)
    (hx : expected = some bytes.length) :
    storeByte e blocks bytes expected s =
      (.completed, completeSection e bytes
        (s.assembled i stream (.collecting blocks bytes expected) s.sections.freeBlocks)) := by
  subst hi hst
  simp only [storeByte, hl, hx, if_false, if_true]
  rfl

end

/-! ### Payloads, lead runs and stuffing (R22, R23, R25) -/

section
variable {i : Input} {stream : Nat} {s : State} {e : Entry}

theorem collecting_found (h : findEntry i stream s = some e) : collecting i stream s = e.assembly.inProgress := by
  simp only [collecting, h]

theorem notCollecting (h : findEntry i stream s = some e) (ha : e.assembly = .idle ∨ e.assembly = .skipping) :
    collecting i stream s = false := by
  rcases ha with ha | ha <;> simp only [collecting_found h, ha, Assembly.inProgress]

theorem isCollecting (h : findEntry i stream s = some e) {blocks : Nat} {bytes : List Byte} {x : Option Nat}
    (ha : e.assembly = .collecting blocks bytes x) : collecting i stream s = true := by
  rw [collecting_found h, ha]
  rfl

theorem handPayload_leadless (l : List Byte) :
    handPayload i stream false l s = if collecting i stream s then takeBytes i stream false l s else s := rfl

theorem handPayload_leadLong {p : Byte} {l : List Byte} (h : l.length < p.toNat) :
    handPayload i stream true (p :: l) s = countFraming i (abandon i stream s) := if_pos h

theorem handPayload_lead {p : Byte} {l : List Byte} (h : p.toNat ≤ l.length) :
    handPayload i stream true (p :: l) s =
      takeBytes i stream true (l.drop p.toNat)
        (if collecting i stream s then leadBytes i stream (l.take p.toNat) s else s) := if_neg (not_lt.2 h)

/-- A byte that is no stuffing joins the section in progress or begins one. -/
theorem takeBytes_unstuffed {between : Bool} {b : Byte} (hb : between = false ∨ b ≠ 0xFF) (l : List Byte) (s : State) :
    takeBytes i stream between (b :: l) s =
      match appendByte i stream b s with
      | (.inProgress, s) => takeBytes i stream false l s
      | (.completed, s) => takeBytes i stream true l s
      | (.abandoned, s) => s := by
  have hstuff : ¬(between && b == 0xFF) = true := fun h =>
    have ⟨hbetween, hff⟩ := Bool.and_eq_true_iff.1 h
    hb.elim (Bool.eq_false_iff.1 · hbetween) (· (beq_iff_eq.1 hff))
  exact (takeBytes_cons i stream between b l s).trans (if_neg hstuff)

end

/-! ### The way of a completed section's blocks (R35, R36) -/

theorem deliveryDue_iff {trigger timeout now : Nat} {queue : List Delivery} (hq : queue ≠ []) :
    deliveryDue trigger timeout now queue = true ↔
      trigger ≤ queue.length ∨ ∃ d, queue.head? = some d ∧ d.joined + timeout * cyclesPerMs ≤ now := by
  cases queue with
  | nil => exact absurd rfl hq
  | cons d rest => simp [deliveryDue]

section
variable {i : Input} {stream : Nat} {s : State} {e : Entry}

theorem moveSection_unmatched (h : findEntry i stream s = some e) (bad : Bool) (bytes : List Byte) :
    moveSection i stream bad bytes 0 s = s.assembled i stream .idle (s.sections.freeBlocks + e.blocks) := by
  simp only [moveSection, h, if_true]
  rfl

/-- A matched section joins the delivery queue with its blocks, and the queue is judged. -/
theorem moveSection_matched (h : findEntry i stream s = some e) (bad : Bool) (bytes : List Byte) {matched : BitVec 24}
    (hm : matched ≠ 0) {queue : List Delivery}
    (hq : queue = s.sections.queue ++
      [{ filters := matched, input := i, stream := stream, bad := bad, bytes := bytes, blocks := e.blocks,
         joined := s.time.cycles, number := none, sentPackets := 0 }]) :
    moveSection i stream bad bytes matched s =
      { s with
        table := updateFirst (isAt i stream) (fun e => { e with assembly := .idle }) s.table
        sections :=
          { s.sections with
            queue := queue
            released := s.sections.released ||
              deliveryDue s.sections.trigger s.sections.timeout s.time.cycles queue } } := by
  subst hq
  simp only [moveSection, h, hm, if_false, judgeDelivery_eq]
  rfl

end

/-- Settles O60: one byte by its claim and its place, payloads by the lead byte and the assembly, lead runs and stuffing byte
by byte, and a completed section by whether a filter matched. -/
theorem sectionsAreAssembled : Obligations.SectionsAreAssembled := by
  refine ⟨fun i stream b s e blocks claimed bytes expected restricted granted after h hp hr hg => ?byte,
    fun i stream s e l h => ⟨fun ha => ?discarded, fun blocks bytes expected ha => ?within,
      fun p hp => handPayload_leadLong hp, rfl, fun p hp ha => ?lead, fun p blocks bytes expected hp ha => ?leadRun⟩,
    fun i stream b l s t => ⟨rfl, fun h => ?leadOn, fun h => ?leadEnd, fun h => ?leadLost, rfl, rfl, rfl,
      fun between hb => ⟨fun h => ?on, fun h => ?ended, fun h => ?lost⟩⟩,
    fun i stream bad bytes taken matched s u e blocks expected h ha hu => ⟨fun hm => ?unmatched,
      fun queue hq hm => ⟨fun hd => ?due, fun hn ht => ?waits⟩⟩⟩
  case byte =>
    obtain ⟨hi, hst⟩ := findEntry_at h
    have hclaim : claimGranted e s = true ↔ granted := by rw [claimGranted_iff, restricted_iff, ← hr, hg]
    refine ⟨fun hb hn => ?starved, fun hc hgr ha => ?stored⟩
    case starved => rw [appendByte_starved h hp b hb (hclaim.not.2 hn), starve_found h hp]
    case stored =>
      have hle := claimed_le (fun hb => hclaim.2 (hgr hb)) hc
      have hlen : (bytes ++ [b]).length = bytes.length + 1 := List.length_append
      rw [appendByte_stored h hp b (fun hb => hclaim.2 (hgr hb)) hc, ha]
      refine ⟨fun hl => ⟨fun h9 h1021 => ?length, fun hout => ?badLength⟩, fun hl hx => ?inside, fun hl hx => ?last⟩
      case length =>
        rw [storeByte_length hi hst (by rw [hlen, hl]) (expectedSize_inside h9 h1021)]
        rfl
      case badLength =>
        rw [storeByte_badLength (by exact h) (by rw [hlen, hl]) (expectedSize_outside hout)]
        dsimp only
        rw [show s.sections.freeBlocks - claimed + (blocks + claimed) = s.sections.freeBlocks + blocks by omega]
        rfl
      case inside =>
        rw [storeByte_inside hi hst (by omega) (by rwa [hlen])]
        rfl
      case last =>
        rw [storeByte_last hi hst (by omega) (by rwa [hlen])]
        rfl
  case discarded => rw [handPayload_leadless, notCollecting h ha, if_neg Bool.false_ne_true]
  case within => rw [handPayload_leadless, isCollecting h ha, if_pos rfl]
  case lead => rw [handPayload_lead hp, notCollecting h ha, if_neg Bool.false_ne_true]
  case leadRun => rw [handPayload_lead hp, isCollecting h ha, if_pos rfl]
  case leadOn => simp only [leadBytes, h]
  case leadEnd => simp only [leadBytes, h, List.isEmpty_iff]
  case leadLost => simp only [leadBytes, h]
  case on => simp only [takeBytes_unstuffed hb, h]
  case ended => simp only [takeBytes_unstuffed hb, h]
  case lost => simp only [takeBytes_unstuffed hb, h]
  case unmatched =>
    subst hm hu
    rw [moveSection_unmatched h, blocks_of_holdsPart (.inl ha)]
    rfl
  case due =>
    subst hu
    rw [← blocks_of_holdsPart (.inl ha)] at hq
    have hne : queue ≠ [] := by simp [hq]
    rw [moveSection_matched h bad bytes hm hq, (deliveryDue_iff hne).2 hd, Bool.or_true]
  case waits =>
    subst hu
    rw [← blocks_of_holdsPart (.inl ha)] at hq
    have hne : queue ≠ [] := by simp [hq]
    have hdue : ¬(s.sections.trigger ≤ queue.length ∨
        ∃ d, queue.head? = some d ∧ d.joined + s.sections.timeout * cyclesPerMs ≤ s.time.cycles) := by
      rintro (hd | ⟨d, hd, hj⟩)
      · omega
      · exact absurd hj (not_le.2 (ht d hd))
    rw [moveSection_matched h bad bytes hm hq, Bool.eq_false_iff.2 ((deliveryDue_iff hne).not.2 hdue), Bool.or_false]

end Sys2Proof.Machine

/-! The uptime second (O12). -/

namespace Sys2Proof.Machine

/-! ### The clock at a time update (R47, R48, R50) -/

/-- Without a change that is due, a time update computes the minute of week only. -/
theorem settled_early {c : Clock} {t : NetTime} (hn : c.net = some t) (h : ∀ x, c.change = some x → t.n < x.n2) :
    c.settled = { c with minute := some (minuteOfWeek t.n t.offset) } := by
  have ha : c.applyChange = c := by
    unfold Clock.applyChange
    rw [hn]
    cases hc : c.change with
    | none => rfl
    | some x => exact if_neg (not_le.2 (h x hc))
  rw [Clock.settled, ha, hn]
  rfl

/-- A change that is due gives its offset, and is gone. -/
theorem settled_due {c : Clock} {t : NetTime} {x : OffsetChange} (hn : c.net = some t) (hc : c.change = some x)
    (h : x.n2 ≤ t.n) :
    c.settled =
      { c with net := some ⟨t.n, x.l2⟩, change := none, minute := some (minuteOfWeek t.n x.l2) } := by
  have ha : c.applyChange = { c with net := some ⟨t.n, x.l2⟩, change := none } := by
    unfold Clock.applyChange
    rw [hn, hc]
    exact if_pos h
  rw [Clock.settled, ha]
  rfl

section
variable {s : State} {t : NetTime}

theorem clockAdvance_unset (h : s.clock.net = none) : clockAdvance s = s := by
  simp only [clockAdvance, h]

theorem clockAdvance_top (h : s.clock.net = some t) (ht : top32 ≤ t.n) : clockAdvance s = s := by
  simp only [clockAdvance, h, ht, if_true]

theorem clockAdvance_runs (h : s.clock.net = some t) (ht : t.n < top32) :
    clockAdvance s =
      announceTime s.clock.minute (s.setClock (Clock.settled { s.clock with net := some { t with n := t.n + 1 } })) := by
  simp only [clockAdvance, h, not_le.2 ht, if_false]

end

/-! ### The parts of an uptime second (R42, R138, R141) -/

/-- Time moves on to `moment`, uptime rises to `up`, and the lockouts that have reached it end. -/
def riseTo (moment up : Nat) (s : State) : State :=
  endLockouts { s with time := (advanceTo moment s).time, clock := { s.clock with uptime := up } }

/-- Of what stands, time, uptime and the lockout ends change. -/
theorem riseTo_standing (moment up : Nat) (s : State) :
    (riseTo moment up s).standing =
      { s.standing with
        time := (advanceTo moment s).time
        uptime := up
        profiles := s.parental.profiles.map fun p =>
          { p with lockoutEnd := p.lockoutEnd.filter (fun e => decide (up < e)) } } := rfl

theorem endLockouts_setUptime (moment up : Nat) (s : State) :
    endLockouts ((advanceTo moment s).setClock { (advanceTo moment s).clock with uptime := up }) = riseTo moment up s := rfl

/-- The uptime second: uptime and lockouts, MINUTES grants, and the clock (log 12). -/
theorem uptimeSecond_eq (s : State) :
    uptimeSecond s =
      clockAdvance (endMinuteGrants (riseTo ((s.clock.uptime + 1) * cyclesPerSecond) (bump top32 s.clock.uptime) s)) := by
  have hrise (moment : Nat) :
      riseTo moment (bump top32 (advanceTo moment s).clock.uptime) s = riseTo moment (bump top32 s.clock.uptime) s :=
    congrArg (fun c : Clock => riseTo moment (bump top32 c.uptime) s) (advanceTo_clock s moment)
  exact congrArg (fun t => clockAdvance (endMinuteGrants t)) ((endLockouts_setUptime _ _ s).trans (hrise _))

/-- The MINUTES grants that end once uptime has risen (R141). -/
theorem endMinuteGrants_riseTo (moment up : Nat) (s : State) :
    endMinuteGrants (riseTo moment up s) =
      endGrantsAndJudge
        (fun g => match g.scope with
          | .minutes e => decide (e ≤ up)
          | .event _ => false) .minutes
        { s with
          time := (advanceTo moment s).time
          clock := { s.clock with uptime := up }
          parental := { s.parental with profiles := s.parental.profiles.map fun p =>
            { p with lockoutEnd := p.lockoutEnd.filter (fun e => decide (up < e)) } } } := rfl

/-- Until the clock advances, uptime is all that has changed in the clock unit. -/
theorem endMinuteGrants_riseTo_clock (moment up : Nat) (s : State) :
    (endMinuteGrants (riseTo moment up s)).clock = { s.clock with uptime := up } :=
  endGrantsAndJudge_clock _ _ _

/-- The whole second leaves the rest of what stands as it is, whatever the announcements reach. -/
theorem clockAdvance_riseTo_keeps (moment up : Nat) (s : State) :
    let t := clockAdvance (endMinuteGrants (riseTo moment up s))
    t.pending = s.pending ∧ t.mgmt = s.mgmt ∧
      t.standing =
        { s.standing with
          time := (advanceTo moment s).time
          uptime := up
          profiles := s.parental.profiles.map fun p =>
            { p with lockoutEnd := p.lockoutEnd.filter (fun e => decide (up < e)) } } := by
  have hk : Keeps id (riseTo moment up s) (clockAdvance (endMinuteGrants (riseTo moment up s))) :=
    (Keeps.refl _).endMinuteGrants.clockAdvance
  exact ⟨hk.pending, hk.mgmt, hk.standing.trans (riseTo_standing moment up s)⟩

theorem exec_uptimeSecond (s : State) : exec .uptimeSecond s = .next (uptimeSecond s) := rfl

end Sys2Proof.Machine

namespace Sys2Proof

open Machine

/-- Settles O12: the cases of the clock after the grants have ended, and the frame. -/
theorem uptimeSecond : Obligations.UptimeSecond := by
  refine ⟨fun s u hu => ?cases, fun s => ⟨_, exec_uptimeSecond s, ?frame⟩⟩
  case frame =>
    rw [uptimeSecond_eq]
    exact clockAdvance_riseTo_keeps _ _ s
  case cases =>
    replace hu := hu.trans (endMinuteGrants_riseTo _ _ s).symm
    have hc := (congrArg State.clock hu).trans (endMinuteGrants_riseTo_clock _ _ s)
    have hnet : u.clock.net = s.clock.net := by rw [hc]
    have hchange : u.clock.change = s.clock.change := by rw [hc]
    have hminute : u.clock.minute = s.clock.minute := by rw [hc]
    rw [exec_uptimeSecond, uptimeSecond_eq, ← hu]
    refine ⟨fun h => ?unset, fun n l h hn => ?top, fun n l h hn hx => ?early, fun n l x h hn hx hd => ?due⟩ <;>
      rw [← hnet] at h
    case unset => rw [clockAdvance_unset h]
    case top => rw [clockAdvance_top h hn]
    case early =>
      rw [clockAdvance_runs h hn, hminute, settled_early rfl (by exact hchange ▸ hx)]
      rfl
    case due =>
      rw [clockAdvance_runs h hn, hminute, settled_due rfl (by exact hchange.trans hx) (by exact hd)]
      rfl

end Sys2Proof

/-! The announcement of a time update, and the judging of current events (O13). -/

namespace Sys2Proof.Machine

/-! ### The current event (R63) -/

section
variable {s : State} {service n : Nat} {l : Int}

theorem currentEvent_unset (h : s.clock.net = none) : currentEvent s service = none := by
  simp only [currentEvent, h]

/-- The current event is a stored event of the service whose interval contains N. -/
theorem currentEvent_some (h : s.clock.net = some ⟨n, l⟩) {e : Event} (he : currentEvent s service = some e) :
    e ∈ s.guide.events ∧ e.service = service ∧ e.start ≤ n ∧ n < e.start + 60 * e.duration := by
  simp only [currentEvent, h] at he
  have hp := List.find?_some he
  simp only [Bool.and_eq_true, beq_iff_eq, decide_eq_true_eq, and_assoc] at hp
  exact ⟨List.mem_of_find?_eq_some he, hp⟩

/-- Without a current event every stored event of the service is still to come or over. -/
theorem currentEvent_none (h : s.clock.net = some ⟨n, l⟩) (hn : currentEvent s service = none) :
    ∀ e ∈ s.guide.events, e.service = service → n < e.start ∨ e.start + 60 * e.duration ≤ n := by
  intro e he hs
  simp only [currentEvent, h] at hn
  have hp := List.find?_eq_none.1 hn e he
  simp only [Bool.and_eq_true, beq_iff_eq, decide_eq_true_eq, hs, true_and] at hp
  unfold Event.stop at hp
  omega

end

/-! ### Tracking (R63) -/

theorem runningOn_context (s : State) (service : Nat) (c : CtxNo) :
    runningOn s service c = true ↔
      (s.context c).input ≠ pb ∧ (s.context c).service = service ∧ (s.context c).state = .running :=
  runningOn_iff.trans ⟨fun ⟨hr, hi, hs⟩ => ⟨hi, hs, hr⟩, fun ⟨hi, hs, hr⟩ => ⟨hr, hi, hs⟩⟩

theorem trackedRec_none {s : State} {service : Nat} (h : ∀ t ∈ s.guide.tracked, t.service ≠ service) :
    trackedRec s service = none :=
  List.find?_eq_none.2 (by simpa using h)

section
variable {s : State} {service : Nat}

theorem startTracking_tracked (h : ∃ t ∈ s.guide.tracked, t.service = service) : startTracking service s = s := by
  obtain ⟨t, ht⟩ : ∃ t, trackedRec s service = some t :=
    Option.isSome_iff_exists.1 (List.find?_isSome.2 (by simpa using h))
  simp only [startTracking, ht]

theorem startTracking_new (h : ∀ t ∈ s.guide.tracked, t.service ≠ service) :
    startTracking service s =
      { s with guide :=
        { s.guide with tracked := s.guide.tracked ++ [⟨service, (currentEvent s service).map Event.id⟩] } } := by
  simp only [startTracking, trackedRec_none h]

theorem endTracking_running (h : ∃ c, runningOn s service c = true) : endTracking service s = s := by
  obtain ⟨c, hc⟩ := h
  exact if_pos (List.any_eq_true.2 ⟨c, mem_ctxNos c, hc⟩)

theorem endTracking_last (h : ∀ c, ¬runningOn s service c = true) :
    endTracking service s =
      { s with guide := { s.guide with tracked := s.guide.tracked.filter (fun t => t.service != service) } } :=
  if_neg fun ha => by
    obtain ⟨c, -, hc⟩ := List.any_eq_true.1 ha
    exact h c hc

end

/-! ### Judging a current event (R63, R136, R141) -/

section
variable {s : State} {service : Nat} {t : Tracked}

theorem judgeService_untracked (content : Bool) (h : ∀ t ∈ s.guide.tracked, t.service ≠ service) :
    judgeService content service s = s := by
  simp only [judgeService, trackedRec_none h]

theorem judgeService_same (ht : trackedRec s service = some t) (hn : (currentEvent s service).map Event.id = t.id) :
    judgeService false service s = s := by
  simp only [judgeService, ht, hn, if_true, Bool.false_eq_true, if_false]

theorem judgeService_content (ht : trackedRec s service = some t) (hn : (currentEvent s service).map Event.id = t.id) :
    judgeService true service s = reportEvent service (fun _ => false) s := by
  simp only [judgeService, ht, hn, if_true]

/-- The part with the current event id of a service recorded, and its change announced by an EVENT notice. -/
def recordEvent (service : Nat) (old new : Option Nat) (s : State) : State :=
  { s with
    guide :=
      { s.guide with
        tracked := s.guide.tracked.map (fun r => if r.service = service then ⟨service, new⟩ else r) }
    notices := s.notices.join (.event service old new) }

theorem judgeService_changed {new : Option Nat} (content : Bool) (ht : trackedRec s service = some t)
    (hnew : new = (currentEvent s service).map Event.id) (hn : new ≠ t.id) :
    judgeService content service s =
      reportEvent service (Grant.outlived service new) (recordEvent service t.id new s) := by
  subst hnew
  simp only [judgeService, ht, hn, if_false, offer_join, beq_iff_eq]
  rfl

end

/-- A grant that a new current event outlives is an EVENT grant of the service for another event (R141). -/
theorem outlived_iff (service : Nat) (new : Option Nat) (g : Grant) :
    Grant.outlived service new g = true ↔
      g.key = .tuner service ∧ ∃ id, g.scope = .event (some id) ∧ new ≠ some id := by
  unfold Grant.outlived
  rcases g.scope with (_ | id) | e <;> simp

/-- No grant ends where none is named. -/
theorem endGrants_nothing (cause : GrantEnd) (s : State) : endGrants (fun _ => false) cause s = s := by
  rw [endGrants_eq]
  simp only [Bool.not_false, List.filter_true, List.filter_false, List.map_nil]
  rfl

/-- A change of content is reported, and no grant ends. -/
theorem reportEvent_content (service : Nat) (s : State) :
    HoldsOnly s (reportEvent service (fun _ => false) s) ∧
      JudgedOn (reportEvent service (fun _ => false) s) judgeEntitlement (fun c => runningOn s service c = true) ∧
      VerdictsOn (reportEvent service (fun _ => false) s) (fun c _ => runningOn s service c = true) := by
  obtain ⟨v, hh, -, hr, hj, hv⟩ := reportEvent_reported service (fun _ => false) s
  rw [endGrants_nothing] at hr
  exact ⟨hh.trans hr, hj, hv.mono fun _ _ => .inl⟩

/-! ### The clock stays as it is while events are judged -/

theorem reportEvent_clock (service : Nat) (ended : Grant → Bool) (s : State) :
    (reportEvent service ended s).clock = s.clock := by
  obtain ⟨v, hh, -, hr, -, -⟩ := reportEvent_reported service ended s
  rw [hr.clock, endGrants_eq, hh.clock]

theorem judgeService_clock (content : Bool) (service : Nat) (s : State) :
    (judgeService content service s).clock = s.clock := by
  unfold judgeService
  split
  · rfl
  · dsimp only
    split
    · split
      · exact reportEvent_clock _ _ s
      · rfl
    · rw [reportEvent_clock, offer_join]

theorem judgeTracked_clock (s : State) : (judgeTracked s).clock = s.clock :=
  foldl_inv (g := State.clock) (fun s service => judgeService_clock false service s) _ s

/-! ### The announcement of a time update (R49, R62, R75) -/

/-- The store without the events whose end N has reached, its tracked services judged. -/
def sweptAndJudged (n : Nat) (s : State) : State :=
  judgeTracked (s.setEvents (s.guide.events.filter (fun e => decide (n < e.stop))))

theorem sweptAndJudged_clock (n : Nat) (s : State) : (sweptAndJudged n s).clock = s.clock :=
  judgeTracked_clock _

theorem clockSecond_set {s : State} {t : NetTime} (h : s.clock.net = some t) :
    clockSecond s = removeTiers (Entitlement.expiredAt t.n) (sweptAndJudged t.n s) := by
  have hg : guideClockSecond s = sweptAndJudged t.n s := by simp only [guideClockSecond, h, sweptAndJudged]
  have hc : (sweptAndJudged t.n s).clock.net = some t := by rw [sweptAndJudged_clock, h]
  rw [clockSecond, hg]
  simp only [expireTiers, hc]

/-- A record is lost at N when its expiry is present and N has reached it. -/
theorem expiredAt_eq (n : Nat) (r : Entitlement) :
    r.expiredAt n = match r.expiry with
      | some e => decide (e ≤ n)
      | none => false := by
  unfold Entitlement.expiredAt
  cases r.expiry <;> rfl

theorem TiersLost.congr {f g : Entitlement → Bool} {s t : State} (h : TiersLost f s t) (e : ∀ r, f r = g r) :
    TiersLost g s t :=
  (funext e : f = g) ▸ h

/-- Settles O13: the announcement, the current event, tracking, and the judging of a tracked service by its event id. -/
theorem currentEventsAreJudged : Obligations.CurrentEventsAreJudged := by
  refine ⟨?announce, fun s => rfl, fun s service => ⟨currentEvent_unset, fun n l h => ⟨fun e => currentEvent_some h,
    currentEvent_none h⟩⟩, fun s service => ?tracking, ?judging⟩
  case announce =>
    intro old s v n l hn hv
    replace hv : v = sweptAndJudged n s := hv
    refine ⟨removeTiers (Entitlement.expiredAt n) v, (removeTiers_lost _ v).congr (expiredAt_eq n), ?_⟩
    rw [announceTime, clockSecond_set hn, hv]
  case tracking =>
    simp only [← runningOn_context]
    exact ⟨startTracking_tracked, startTracking_new, endTracking_running, endTracking_last⟩
  case judging =>
    rintro content service s on rfl
    simp only [← runningOn_context]
    refine ⟨judgeService_untracked content, fun t new ht hnew => ⟨fun hsame hc => ?_, fun hsame hc => ?_,
      fun ended hne hended => ?_⟩⟩
    · subst hc
      exact judgeService_same ht (hnew ▸ hsame)
    · subst hc
      rw [judgeService_content ht (hnew ▸ hsame)]
      exact reportEvent_content service s
    · have he : ended = Grant.outlived service new :=
        funext fun g => Bool.eq_iff_iff.2 ((hended g).trans (outlived_iff service new g).symm)
      subst he
      rw [judgeService_changed content ht hnew hne]
      obtain ⟨v, hh, hj, hr, -, hv⟩ := reportEvent_reported service (Grant.outlived service new)
        (recordEvent service t.id new s)
      rw [endGrants_eq] at hr
      exact ⟨v, hh, hj, hr, hv⟩

end Sys2Proof.Machine

/-! The three SET_SOURCE orders (O24). -/

namespace Sys2Proof.Machine

/-! ### Source orders (R43, R54, R67) -/

theorem sourcePair_range {raw : Byte × Word16} (h : 4 ≤ raw.1.toNat ∨ 0x1FEF < raw.2.toNat) : sourcePair raw = none := by
  unfold sourcePair
  rcases h with h | h
  · rw [place_none h, Option.bind_none]
  · cases place 4 raw.1.toNat <;> simp [not_le.2 h]

theorem sourcePair_place {raw : Byte × Word16} {p : PortNo × Nat} (h1 : p.1.val = raw.1.toNat) (h2 : p.2 = raw.2.toNat)
    (h : p.2 ≤ 0x1FEF) : sourcePair raw = some p := by
  rw [sourcePair, place_some p.1 h1, Option.bind_some, ← h2, if_pos h]

section
variable (c : PinConsumer) {old : Option (PortNo × Nat)} (put : Option (PortNo × Nat) → State → State) {raw : Byte × Word16}
  {p : PortNo × Nat} {s u : State}

/-- A pair out of range is refused. -/
theorem changeSource_range (h : sourcePair raw = none) : changeSource c old put (some raw) s = (refuse .badParam, s) := by
  simp only [changeSource, h]

/-- The pair already held stays. -/
theorem changeSource_held (h : sourcePair raw = some p) (ho : old = some p) :
    changeSource c old put (some raw) s = (done [], s) := by
  simp only [changeSource, h, ho, if_true]

/-- A new pair is pinned, and only then does the old one lose its pin. -/
theorem changeSource_granted (h : sourcePair raw = some p) (ho : old ≠ some p)
    (ha : addUser (inputOf p.1) p.2 .sections (.pin c) s = (.granted, u)) :
    changeSource c old put (some raw) s = (done [], put (some p) (unpin c old u)) := by
  simp only [changeSource, h, ho, if_false, ha]

/-- A new pair that gets no pin leaves the source as it is. -/
theorem changeSource_refused {r : AddResult} (h : sourcePair raw = some p) (ho : old ≠ some p)
    (ha : addUser (inputOf p.1) p.2 .sections (.pin c) s = (r, u)) (hr : r ≠ .granted) :
    changeSource c old put (some raw) s = (refuse r.outcome, s) := by
  have hs : u = s := by
    have := (addUser_keeps (inputOf p.1) p.2 .sections (.pin c) s).2
    rw [ha] at this
    exact this hr
  subst hs
  simp only [changeSource, h, ho, if_false, ha]

end

/-- The place of an access source order names its place. -/
theorem place_ofNat (k : Fin 2) : place 2 (BitVec.ofNat 8 k.val).toNat = some k := by
  fin_cases k <;> rfl

theorem takeSetSourceAccess_range {b : Byte} (h : 2 ≤ b.toNat) (param : SourceParam) (s : State) :
    takeSetSourceAccess b param s = (refuse .badParam, s) := by
  simp only [takeSetSourceAccess, place_none h]

/-- A pair that the other place holds is refused; any other order on a place is a source order. -/
theorem takeSetSourceAccess_place (k : Fin 2) (param : SourceParam) (s : State) :
    takeSetSourceAccess (BitVec.ofNat 8 k.val) param s =
      if ∃ p, (SourceKind.access k).barred s = some p ∧ param.bind sourcePair = some p then (refuse .badParam, s)
      else changeSource .access (getAt s.access.sources k) (putAccessSource k) param s := by
  simp only [takeSetSourceAccess, place_ofNat]
  refine if_congr ?_ rfl rfl
  rw [show (SourceKind.access k).barred s = getAt s.access.sources (otherPlace k) from rfl]
  cases getAt s.access.sources (otherPlace k) <;> simp

/-- A source order of a kind is its SET_SOURCE, past the test against the other access place. -/
theorem takeOrder_source (k : SourceKind) (tag : Byte) (param : SourceParam) (s : State) :
    takeOrder (k.order tag param) s =
      if ∃ p, k.barred s = some p ∧ param.bind sourcePair = some p then (refuse .badParam, s)
      else changeSource k.pin (k.held s) k.put param s := by
  cases k with
  | guide => exact (if_neg (by simp [SourceKind.barred])).symm
  | time => exact (if_neg (by simp [SourceKind.barred])).symm
  | access k => exact takeSetSourceAccess_place k param s

theorem takeOrder_source_free {k : SourceKind} {param : SourceParam} {s : State}
    (h : ∀ p, param.bind sourcePair = some p → k.barred s ≠ some p) (tag : Byte) :
    takeOrder (k.order tag param) s = changeSource k.pin (k.held s) k.put param s := by
  rw [takeOrder_source, if_neg]
  rintro ⟨p, hb, hp⟩
  exact h p hp hb

theorem orderParts_source (k : SourceKind) (tag : Byte) (param : SourceParam) :
    ∃ params, orderParts (k.order tag param) = some (0x10, tag, params) := by
  cases k <;> exact ⟨_, rfl⟩

/-- A source order that is handed on is answered with code 0x10. -/
theorem exec_source {k : SourceKind} {tag : Byte} {param : SourceParam} {s t : State} {r : Reply} (hh : s.handsOn = true)
    (h : takeOrder (k.order tag param) s = (r, t)) : exec (k.order tag param) s = .next (pushAnswer 0x10 tag r t) := by
  obtain ⟨params, hi⟩ := orderParts_source k tag param
  exact exec_answered hh hi h

/-- Settles O24: removal, a pair out of range, and a pair in range by what the places hold and what the table answers. -/
theorem sourcesAreSet : Obligations.SourcesAreSet := by
  rintro k tag s freed hh rfl
  refine ⟨?removal, fun raw h => ?range, fun raw p h1 h2 hp => ?_, fun place source h => ?place⟩
  case removal => exact exec_source hh (takeOrder_source_free (by simp) tag)
  case range =>
    have hn := sourcePair_range h
    exact exec_source hh ((takeOrder_source_free (by simp [hn]) tag).trans (changeSource_range _ _ hn))
  case place => exact exec_answered hh rfl (takeSetSourceAccess_range h source s)
  have hs := sourcePair_place h1 h2 hp
  have hfree (hb : k.barred s ≠ some p) :
      takeOrder (k.order tag (some raw)) s = changeSource k.pin (k.held s) k.put (some raw) s :=
    takeOrder_source_free (fun q hq => by rw [← hq, Option.bind_some, hs]; exact hb) tag
  refine ⟨fun hb => exec_source hh ?_, fun hb ho => exec_source hh ((hfree hb).trans (changeSource_held _ _ hs ho)),
    fun r u hb ho ha => ⟨?_, ?_, ?_⟩⟩
  · rw [takeOrder_source, if_pos ⟨p, hb, hs⟩]
  · rintro rfl
    exact exec_source hh ((hfree hb).trans (changeSource_granted _ _ hs ho ha))
  · rintro rfl
    exact exec_source hh ((hfree hb).trans (changeSource_refused _ _ hs ho ha (by decide)))
  · rintro rfl
    exact exec_source hh ((hfree hb).trans (changeSource_refused _ _ hs ho ha (by decide)))

end Sys2Proof.Machine

/-! Events are read, placed in the guide store or removed (O45). -/

namespace Sys2Proof.Machine

/-! ### Event sections (R59) -/

section
variable (h : SectionHeader) {body : List Byte} (s : State)

theorem eventSection_malformed (hb : eventBodies body.length body = none) :
    eventSection h body s = { s with guide := { s.guide with malformed := bump top16 s.guide.malformed } } := by
  simp only [eventSection, hb]

theorem eventSection_events {l : List EventBody} (hb : eventBodies body.length body = some l) :
    eventSection h body s = l.foldl (takeEvent h.extension) s := by
  simp only [eventSection, hb]

end

theorem takeEvent_malformed {b : EventBody} (h : b.duration = 0 ∨ 1440 < b.duration ∨ 3 < b.ratings.length)
    (service : Nat) (s : State) :
    takeEvent service s b = { s with guide := { s.guide with malformed := bump top16 s.guide.malformed } } :=
  if_pos (by simpa [or_assoc] using h)

theorem takeEvent_good {b : EventBody} (h0 : b.duration ≠ 0) (h1 : b.duration ≤ 1440) (h2 : b.ratings.length ≤ 3)
    (service : Nat) (s : State) :
    takeEvent service s b = insertEvent ⟨service, b.id, b.start, b.duration, b.tier, b.ratings⟩ s :=
  if_neg (by simp [h0, h1, h2])

/-! ### The tests of an insertion (R60) -/

/-- An event is outside the window while the clock is SET and N has reached its end, or it starts past the horizon. -/
theorem outsideWindow_iff (s : State) (e : Event) :
    outsideWindow s e = true ↔
      ∃ n l, s.clock.net = some ⟨n, l⟩ ∧ (e.start + 60 * e.duration ≤ n ∨ n + 172800 < e.start) := by
  unfold outsideWindow Event.stop
  cases s.clock.net with
  | none => simp
  | some t => cases t; simp

theorem sameEvent_eq (x e : Event) : sameEvent x e = decide (x.service = e.service ∧ x.id = e.id) := by
  rw [Bool.eq_iff_iff]
  simp [sameEvent]

theorem displacedBy_eq (e x : Event) :
    e.displacedBy x = decide (x.service = e.service ∧ x.id ≠ e.id ∧ x.start < e.start + 60 * e.duration ∧
      e.start < x.start + 60 * x.duration) := by
  rw [Bool.eq_iff_iff]
  simp only [Event.displacedBy, Event.overlaps, Bool.and_eq_true, beq_iff_eq, bne_iff_ne, decide_eq_true_eq, and_assoc]
  rfl

/-- The current event keeps its id and changes in tier or ratings (R63). -/
theorem contentChanged_iff (old new : Option Event) :
    contentChanged old new = true ↔
      ∃ a b, old = some a ∧ new = some b ∧ a.id = b.id ∧ (a.tier ≠ b.tier ∨ a.ratings ≠ b.ratings) := by
  unfold contentChanged
  cases old <;> cases new <;> simp

/-! ### Places in the store (R58, R61) -/

theorem removeEvents_cons (x : Event) (l : List Event) (s : State) :
    removeEvents (x :: l) s =
      removeEvents l (judgeService false x.service
        { s with guide :=
          { s.guide with
            events := s.guide.events.filter (fun y => !decide (y.service = x.service ∧ y.id = x.id)) } }) := by
  simp only [← sameEvent_eq]
  rfl

/-- An event is put after those of lower services and those of its own that start no later, and before the first other. -/
theorem insertOrdered_split (e : Event) (l : List Event) :
    ∃ a b : List Event, l = a ++ b ∧ insertOrdered e l = a ++ e :: b ∧
      (∀ x ∈ a, x.service < e.service ∨ x.service = e.service ∧ x.start ≤ e.start) ∧
      ∀ x ∈ b.head?, e.service < x.service ∨ x.service = e.service ∧ e.start < x.start := by
  induction l with
  | nil => exact ⟨[], [], rfl, rfl, by simp, by simp⟩
  | cons x l ih =>
    by_cases hx : x.service < e.service ∨ x.service = e.service ∧ x.start ≤ e.start
    · obtain ⟨a, b, hl, hi, ha, hb⟩ := ih
      refine ⟨x :: a, b, congrArg (x :: ·) hl, ?_, List.forall_mem_cons.2 ⟨hx, ha⟩, hb⟩
      rw [insertOrdered, if_pos (by simpa using hx), hi]
      rfl
    · refine ⟨[], x :: l, rfl, if_neg (by simpa using hx), by simp, fun y hy => ?_⟩
      cases hy
      omega

/-- A store that holds an event has a latest-starting one. -/
theorem latestEvent_some {l : List Event} (h : l ≠ []) :
    ∃ last ∈ l, latestEvent l = some last ∧ ∀ x ∈ l, x.notAfter last := by
  cases l with
  | nil => exact absurd rfl h
  | cons e l =>
    have hl : latestEvent (e :: l) = some (l.foldl laterStarting e) := rfl
    obtain ⟨h1, h2⟩ := foldl_laterStarting l e
    exact ⟨_, latestEvent_mem hl, hl, List.forall_mem_cons.2 ⟨h1, h2⟩⟩

section
variable {e last : Event} {s : State}

theorem storeFull_evicts (hl : latestEvent s.guide.events = some last) (h : e.start < last.start) :
    storeFull e s =
      storeEvent e (removeEvents [last] { s with guide := { s.guide with evicted := bump top16 s.guide.evicted } }) := by
  simp only [storeFull, hl, h, if_true]

theorem storeFull_drops (hl : latestEvent s.guide.events = some last) (h : last.start ≤ e.start) :
    storeFull e s = { s with guide := { s.guide with droppedFull := bump top16 s.guide.droppedFull } } := by
  simp only [storeFull, hl, not_lt.2 h, if_false]

end

/-! ### An insertion (R60) -/

section
variable {e : Event} {s v : State}

theorem insertEvent_outside (h : outsideWindow s e = true) :
    insertEvent e s =
      removeEvents (s.guide.events.filter (fun x => sameEvent x e))
        { s with guide := { s.guide with outside := bump top16 s.guide.outside } } :=
  if_pos h

/-- What follows the removal of the events that an event inside the window overlaps. -/
theorem insertEvent_inside (h : outsideWindow s e = false) (hv : removeEvents (s.guide.events.filter e.displacedBy) s = v) :
    insertEvent e s =
      if v.guide.events.any (fun x => sameEvent x e) then updateEvent e v
      else if v.guide.events.length < 2048 then storeEvent e v
      else storeFull e v := by
  subst hv
  exact if_neg (by simp [h])

theorem insertEvent_copy (h : outsideWindow s e = false) (hv : removeEvents (s.guide.events.filter e.displacedBy) s = v)
    (hc : ∃ x ∈ v.guide.events, sameEvent x e = true) : insertEvent e s = updateEvent e v :=
  (insertEvent_inside h hv).trans (if_pos (List.any_eq_true.2 hc))

theorem insertEvent_new (h : outsideWindow s e = false) (hv : removeEvents (s.guide.events.filter e.displacedBy) s = v)
    (hc : ∀ x ∈ v.guide.events, ¬sameEvent x e = true) :
    insertEvent e s = if v.guide.events.length < 2048 then storeEvent e v else storeFull e v :=
  (insertEvent_inside h hv).trans (if_neg (by simpa [List.any_eq_true] using hc))

end

/-- Settles O45: sections and bodies, an insertion by window, copy and room, removals, and the order of the store. -/
theorem eventsArePlaced : Obligations.EventsArePlaced := by
  refine ⟨fun h body s => ⟨eventSection_malformed h s, fun l => eventSection_events h s,
      fun b => ⟨fun hb => takeEvent_malformed hb _ s, fun h0 h1 h2 => takeEvent_good h0 h1 h2 _ s⟩⟩,
    ?insertion, fun x l s => ⟨rfl, removeEvents_cons x l s⟩, insertOrdered_split⟩
  rintro e s v out copy stored rfl rfl hv rfl
  have hcopy (x : Event) : sameEvent x e = true ↔ x.service = e.service ∧ x.id = e.id := by
    rw [sameEvent_eq, decide_eq_true_eq]
  simp only [← outsideWindow_iff, ← hcopy, Bool.decide_eq_true, Bool.not_eq_true]
  replace hv : removeEvents (s.guide.events.filter e.displacedBy) s = v := by
    rw [hv]
    exact congrArg (fun p => removeEvents (s.guide.events.filter p) s) (funext (displacedBy_eq e))
  refine ⟨insertEvent_outside, fun u content ho hc hu hch => ?copy, fun ho hc hroom => ?room, fun ho hc hfull => ?full⟩
  case copy =>
    rw [← contentChanged_iff, ← Bool.eq_iff_iff] at hch
    rw [insertEvent_copy ho hv hc, hch, hu]
    rfl
  case room =>
    rw [insertEvent_new ho hv (by simpa using hc), if_pos hroom]
    rfl
  case full =>
    rw [insertEvent_new ho hv (by simpa using hc), if_neg (not_lt.2 hfull)]
    have hne : v.guide.events ≠ [] := List.ne_nil_of_length_pos (by omega)
    obtain ⟨last, hmem, hlast, hmax⟩ := latestEvent_some hne
    refine ⟨last, hmem, hmax, fun w hlt hw => ?_, fun hle => storeFull_drops hlast hle⟩
    rw [storeFull_evicts hlast hlt, ← hw]
    rfl

end Sys2Proof.Machine

/-! Service index sections and service list sections (O46). -/

namespace Sys2Proof.Machine

/-! ### Pairs (R53) -/

section
variable {a : PairsAcc} {e : Nat × Nat}

theorem addPair_same {old : Nat × Nat} (h : a.entries.find? (fun y => y.1 == e.1) = some old) (hs : old.2 = e.2) :
    addPair a e = a := by
  simp only [addPair, h, hs, if_true]

theorem addPair_replaces {old : Nat × Nat} (h : a.entries.find? (fun y => y.1 == e.1) = some old) (hs : old.2 ≠ e.2) :
    addPair a e = { a with entries := a.entries.map (fun y => if y.1 = e.1 then e else y), changed := true } := by
  simp only [addPair, h, hs, if_false, beq_iff_eq]

theorem addPair_joins (h : ∀ y ∈ a.entries, y.1 ≠ e.1) (hl : a.entries.length < 64) :
    addPair a e = { a with entries := a.entries ++ [e], changed := true } := by
  have hn : a.entries.find? (fun y => y.1 == e.1) = none := List.find?_eq_none.2 (by simpa using h)
  simp only [addPair, hn, hl, if_true]

theorem addPair_overflows (h : ∀ y ∈ a.entries, y.1 ≠ e.1) (hl : 64 ≤ a.entries.length) :
    addPair a e = { a with overflow := bump top16 a.overflow } := by
  have hn : a.entries.find? (fun y => y.1 == e.1) = none := List.find?_eq_none.2 (by simpa using h)
  simp only [addPair, hn, not_lt.2 hl, if_false]

end

/-! ### The index in use and the collection (R53) -/

/-- A section belongs to the record of its version and multiplex. -/
theorem owns_iff (h : SectionHeader) (r : IndexRec) :
    r.owns h = true ↔ r.version = h.version ∧ r.multiplex = h.extension := by
  simp [IndexRec.owns]

/-- The streams that are admissible on a tuner port. -/
theorem admissible_port (p : PortNo) (n : Nat) : admissible (inputOf p) n = decide (n ≤ 0x1FEF) :=
  if_neg (by fin_cases p <;> decide)

section
variable {h : SectionHeader} (pairs : List (Nat × Nat)) {x : PortIndex} {r : IndexRec}

theorem filter_owns_some {o : Option IndexRec} (hr : o = some r) (ho : r.owns h = true) :
    o.filter (IndexRec.owns h) = some r :=
  Option.filter_eq_some_iff.2 ⟨hr, ho⟩

theorem filter_owns_none {o : Option IndexRec} (hn : ∀ r, o = some r → ¬r.owns h = true) :
    o.filter (IndexRec.owns h) = none :=
  Option.filter_eq_none_iff.2 hn

/-- An index that the index in use holds brings nothing. -/
theorem takePairs_held (hr : x.inUse = some r) (ho : r.owns h = true) (hi : hasIndex r.received h.index = true) :
    takePairs h pairs x = (x, false) := by
  simp only [takePairs, filter_owns_some hr ho, hi, if_true]

/-- An index that is new to the index in use joins it. -/
theorem takePairs_joins (hr : x.inUse = some r) (ho : r.owns h = true) (hi : hasIndex r.received h.index = false) :
    takePairs h pairs x =
      ({ x with
          inUse := some (addPairs r h.index pairs x.overflow).1
          overflow := (addPairs r h.index pairs x.overflow).2.overflow },
        (addPairs r h.index pairs x.overflow).2.changed) := by
  simp only [takePairs, filter_owns_some hr ho, hi, Bool.false_eq_true, if_false]

/-- An index that the collection holds brings nothing. -/
theorem takePairs_collected (hn : ∀ r, x.inUse = some r → ¬r.owns h = true) (hr : x.collection = some r)
    (ho : r.owns h = true) (hi : hasIndex r.received h.index = true) : takePairs h pairs x = (x, false) := by
  simp only [takePairs, filter_owns_none hn, filter_owns_some hr ho, hi, if_true]

/-- The record that a section's pairs are collected in: the collection it belongs to, or a new one. -/
def CollectedIn (h : SectionHeader) (x : PortIndex) (r : IndexRec) : Prop :=
  x.collection = some r ∧ r.owns h = true ∧ hasIndex r.received h.index = false ∨
    (∀ c, x.collection = some c → ¬c.owns h = true) ∧ r = ⟨h.extension, h.version, 0, []⟩

theorem takePairs_collects (hn : ∀ r, x.inUse = some r → ¬r.owns h = true) (hr : CollectedIn h x r) :
    takePairs h pairs x =
      settleCollection h (addPairs r h.index pairs x.overflow).1 (addPairs r h.index pairs x.overflow).2.overflow x := by
  rcases hr with ⟨hr, ho, hi⟩ | ⟨hc, rfl⟩
  · simp only [takePairs, filter_owns_none hn, filter_owns_some hr ho, hi, Bool.false_eq_true, if_false]
  · simp only [takePairs, filter_owns_none hn, filter_owns_none hc]

/-- The section with the last index brings the collection into use. -/
theorem settleCollection_last (hl : h.index = h.lastIndex) (n : Nat) :
    settleCollection h r n x = ({ x with inUse := some r, collection := none, overflow := n }, true) :=
  if_pos hl

theorem settleCollection_more (hl : h.index ≠ h.lastIndex) (n : Nat) :
    settleCollection h r n x = ({ x with collection := some r, overflow := n }, false) :=
  if_neg hl

end

/-! ### Service index sections (R53) -/

section
variable {p : PortNo} {h : SectionHeader} {body : List Byte} {s : State} {pairs : List (Nat × Nat)} {y : PortIndex}

theorem indexSection_malformed (hb : indexPairs body = none) :
    indexSection p h body s =
      s.setPortIndex p
        { getAt s.guide.index p with malformed := bump top16 (getAt s.guide.index p).malformed } := by
  simp only [indexSection, hb]

/-- The pairs of a section whose stream is admissible on a tuner port. -/
def usablePairs (pairs : List (Nat × Nat)) : List (Nat × Nat) :=
  pairs.filter (fun e => decide (e.2 ≤ 0x1FEF))

/-- A port's index state with the other pairs counted. -/
def droppedCounted (pairs : List (Nat × Nat)) (x : PortIndex) : PortIndex :=
  { x with malformed := bumpBy top16 x.malformed (pairs.length - (usablePairs pairs).length) }

/-- What a port's index state takes of a section is stored, and then a change is reported. -/
theorem indexSection_pairs {changed : Bool} (hb : indexPairs body = some pairs)
    (ht : takePairs h (usablePairs pairs) (droppedCounted pairs (getAt s.guide.index p)) = (y, changed)) :
    indexSection p h body s =
      if changed then indexChanged p (s.setPortIndex p y) else s.setPortIndex p y := by
  have hu : pairs.filter (fun e => admissible (inputOf p) e.2) = usablePairs pairs := by
    simp only [admissible_port, usablePairs]
  unfold droppedCounted at ht
  simp only [indexSection, hb, hu, ht]

theorem indexSection_unreported (hb : indexPairs body = some pairs)
    (ht : takePairs h (usablePairs pairs) (droppedCounted pairs (getAt s.guide.index p)) = (y, false)) :
    indexSection p h body s = s.setPortIndex p y :=
  (indexSection_pairs hb ht).trans (if_neg Bool.false_ne_true)

theorem indexSection_reported (hb : indexPairs body = some pairs)
    (ht : takePairs h (usablePairs pairs) (droppedCounted pairs (getAt s.guide.index p)) = (y, true)) :
    indexSection p h body s = indexChanged p (s.setPortIndex p y) :=
  (indexSection_pairs hb ht).trans (if_pos rfl)

end

/-! ### The report of an index (R103, R121) -/

section
variable {p : PortNo} {c : CtxNo} {s : State}

theorem indexReport_other
    (h : (s.context c).input ≠ inputOf p ∨ (s.context c).state = .free ∨ (s.context c).state = .retiring) :
    indexReport p c s = s := by
  by_cases hi : (s.context c).input = inputOf p
  · rcases h.resolve_left (not_not_intro hi) with hs | hs <;> simp only [indexReport, hi, hs, if_true]
  · simp only [indexReport, hi, if_false]

theorem indexReport_locate (hi : (s.context c).input = inputOf p) (hs : (s.context c).state = .locate) :
    indexReport p c s = locate c s := by
  simp only [indexReport, hi, hs, if_true]

theorem indexReport_moves (hi : (s.context c).input = inputOf p)
    (hs : (s.context c).state ∈ [CtxState.map, .key, .entry, .running]) : indexReport p c s = moveMapStream c s := by
  simp only [List.mem_cons, List.not_mem_nil, or_false] at hs
  rcases hs with hs | hs | hs | hs <;> simp only [indexReport, hi, hs, if_true]

end

/-! ### Records of the service list (R56) -/

section
variable {a : ListAcc} {r : ServiceRec}

theorem mergeRecord_known {old : ServiceRec} (h : a.list.find? (fun x => x.service == r.service) = some old) :
    mergeRecord a r =
      { a with
        list := a.list.map (fun x => if x.service = r.service then r else x)
        reports := if old.tier = r.tier ∧ old.adult = r.adult then a.reports else a.reports ++ [r.service] } := by
  simp only [mergeRecord, h, beq_iff_eq, Bool.and_eq_true, decide_eq_true_eq]

theorem mergeRecord_new (h : ∀ x ∈ a.list, x.service ≠ r.service) (hl : a.list.length < 256) :
    mergeRecord a r = { a with list := a.list ++ [r], reports := a.reports ++ [r.service] } := by
  have hn : a.list.find? (fun x => x.service == r.service) = none := List.find?_eq_none.2 (by simpa using h)
  simp only [mergeRecord, hn, hl, if_true]

theorem mergeRecord_overflow (h : ∀ x ∈ a.list, x.service ≠ r.service) (hl : 256 ≤ a.list.length) :
    mergeRecord a r = { a with overflow := bump top16 a.overflow } := by
  have hn : a.list.find? (fun x => x.service == r.service) = none := List.find?_eq_none.2 (by simpa using h)
  simp only [mergeRecord, hn, not_lt.2 hl, if_false]

end

/-! ### Service list sections (R56) -/

/-- The list and the version state under which a section is merged: those of its own version, or a received set begun
anew with the seen marks cleared. -/
def MergedUnder (h : SectionHeader) (g : Guide) (held : List ServiceRec) (v : ListVersion) : Prop :=
  (∃ w, g.listVersion = some w ∧ (w.network = h.extension ∧ w.version = h.version) ∧ held = g.list ∧
      v = { w with received := addIndex w.received h.index, lastIndex := h.lastIndex }) ∨
    (∀ w, g.listVersion = some w → ¬(w.network = h.extension ∧ w.version = h.version)) ∧
      held = g.list.map (fun r => { r with seen := false }) ∧
      v = { network := h.extension, version := h.version, received := addIndex 0 h.index, lastIndex := h.lastIndex }

/-- The records kept after a merge and those swept: with every index received the seen ones stay. -/
def SweptTo (v : ListVersion) (list kept swept : List ServiceRec) : Prop :=
  (∀ k ≤ v.lastIndex, hasIndex v.received k = true) ∧ kept = list.filter (fun r => r.seen) ∧
      swept = list.filter (fun r => !r.seen) ∨
    (∃ k ≤ v.lastIndex, hasIndex v.received k = false) ∧ kept = list ∧ swept = []

theorem complete_iff (v : ListVersion) : v.complete = true ↔ ∀ k ≤ v.lastIndex, hasIndex v.received k = true := by
  simp [ListVersion.complete]

theorem sweptTo_eq {v : ListVersion} {list kept swept : List ServiceRec} (h : SweptTo v list kept swept) :
    kept = (if v.complete then list.filter ServiceRec.seen else list) ∧
      swept = if v.complete then list.filter (fun r => !r.seen) else [] := by
  rcases h with ⟨hc, rfl, rfl⟩ | ⟨⟨k, hk, hn⟩, rfl, rfl⟩
  · rw [if_pos ((complete_iff v).2 hc), if_pos ((complete_iff v).2 hc)]
    exact ⟨rfl, rfl⟩
  · have hc : ¬v.complete = true := fun hc => by
      rw [(complete_iff v).1 hc k hk] at hn
      cases hn
    simp only [hc, Bool.false_eq_true, if_false, and_self]

/-- A version state is that of a section when network id and version equal. -/
def ListVersion.isOf (h : SectionHeader) (v : ListVersion) : Bool :=
  v.network == h.extension && v.version == h.version

theorem isOf_iff (h : SectionHeader) (v : ListVersion) :
    ListVersion.isOf h v = true ↔ v.network = h.extension ∧ v.version = h.version := by
  simp [ListVersion.isOf]

theorem sectionListVersion_same {h : SectionHeader} {v : Option ListVersion} {w : ListVersion}
    (hw : v.filter (ListVersion.isOf h) = some w) :
    sectionListVersion h v = { w with received := addIndex w.received h.index, lastIndex := h.lastIndex } := by
  unfold ListVersion.isOf at hw
  simp only [sectionListVersion, hw]

theorem sectionListVersion_new {h : SectionHeader} {v : Option ListVersion} (hn : v.filter (ListVersion.isOf h) = none) :
    sectionListVersion h v =
      { network := h.extension, version := h.version, received := addIndex 0 h.index, lastIndex := h.lastIndex } := by
  unfold ListVersion.isOf at hn
  simp only [sectionListVersion, hn]

theorem mergedUnder_eq {h : SectionHeader} {g : Guide} {held : List ServiceRec} {v : ListVersion}
    (hv : MergedUnder h g held v) :
    held =
        (if g.listVersion.any (ListVersion.isOf h) then g.list else g.list.map (fun r => { r with seen := false })) ∧
      v = sectionListVersion h g.listVersion := by
  rcases hv with ⟨w, hw, hv, rfl, rfl⟩ | ⟨hn, rfl, rfl⟩
  · have hs := (isOf_iff h w).2 hv
    have ha : g.listVersion.any (ListVersion.isOf h) = true := by rw [hw]; exact hs
    exact ⟨(if_pos ha).symm, (sectionListVersion_same (Option.filter_eq_some_iff.2 ⟨hw, hs⟩)).symm⟩
  · simp only [← isOf_iff] at hn
    have ha : ¬g.listVersion.any (ListVersion.isOf h) = true := by
      rw [Option.any_eq_true]
      rintro ⟨w, hw, hs⟩
      exact hn w hw hs
    exact ⟨(if_neg ha).symm, (sectionListVersion_new (Option.filter_eq_none_iff.2 hn)).symm⟩

section
variable {h : SectionHeader} {body : List Byte} {s : State}

theorem serviceListSection_malformed (hb : serviceRecords body = none) :
    serviceListSection h body s =
      { s with guide := { s.guide with listMalformed := bump top16 s.guide.listMalformed } } := by
  simp only [serviceListSection, hb]

theorem serviceListSection_merged {records held kept swept : List ServiceRec} {v : ListVersion} {a : ListAcc}
    (hb : serviceRecords body = some records) (hv : MergedUnder h s.guide held v)
    (ha : a = records.foldl mergeRecord ⟨held, s.guide.listOverflow, []⟩) (hk : SweptTo v a.list kept swept) :
    serviceListSection h body s =
      (a.reports ++ swept.map ServiceRec.service).foldl (fun s n => serviceReport n s)
        { s with guide := { s.guide with list := kept, listVersion := some v, listOverflow := a.overflow } } := by
  obtain ⟨rfl, rfl⟩ := sweptTo_eq hk
  obtain ⟨rfl, rfl⟩ := mergedUnder_eq hv
  subst ha
  unfold ListVersion.isOf
  simp only [serviceListSection, hb]

end

/-! ### The report of a service (R57) -/

/-- ENTITLEMENT of the contexts on the service, and then their verdicts (log 52). -/
theorem serviceReport_eq (n : Nat) (s : State) :
    serviceReport n s = rejudgeVerdicts (onService s n) (rejudge judgeEntitlement (onService s n) s) := by
  have hc : onService (rejudge judgeEntitlement (onService s n) s) n = onService s n := by
    unfold onService State.context
    rw [rejudge_contexts]
  simp only [serviceReport, hc]

theorem serviceReport_holds (n : Nat) (s : State) : HoldsOnly s (serviceReport n s) := by
  rw [serviceReport_eq]
  exact (HoldsOnly.rejudge _ _ s).trans (HoldsOnly.rejudgeVerdicts _ _)

theorem serviceReport_judged (n : Nat) (s : State) :
    JudgedOn (serviceReport n s) judgeEntitlement (fun c => onService s n c = true) ∧
      VerdictsOn (serviceReport n s) (fun c _ => onService s n c = true) := by
  rw [serviceReport_eq]
  obtain ⟨-, hv, hj⟩ := rejudgeEach_on (fun _ => onService s n) (rejudge judgeEntitlement (onService s n) s) _ rfl
  exact ⟨hj _ _ rfl (rejudge_judgedOn _ _ s), hv⟩

/-- Settles O46: index sections by the record they belong to, and list sections by their version and completion. -/
theorem indexAndListSectionsAreTaken : Obligations.IndexAndListSectionsAreTaken := by
  refine ⟨?index, fun a e => ⟨fun old h => ⟨addPair_same h, addPair_replaces h⟩,
      fun h => ⟨addPair_joins h, addPair_overflows h⟩⟩,
    fun p s => ⟨rfl, fun c => ⟨indexReport_other, indexReport_locate, indexReport_moves⟩⟩,
    fun h body s => ⟨serviceListSection_malformed, ?list⟩,
    fun a r => ⟨fun old => mergeRecord_known, fun h => ⟨mergeRecord_new h, mergeRecord_overflow h⟩⟩, ?report⟩
  case index =>
    rintro p h body s x rfl
    refine ⟨indexSection_malformed, ?_⟩
    rintro pairs usable bad mine taken next hb rfl rfl hmine rfl rfl
    have ho (r : IndexRec) : mine r ↔ r.owns h = true := by rw [hmine, owns_iff]
    have hcollects {r : IndexRec} := takePairs_collects (h := h) (usablePairs pairs)
      (x := droppedCounted pairs (getAt s.guide.index p)) (r := r)
    simp only [ho]
    refine ⟨fun r hr hown => ⟨fun hi => ?_, fun u hi hu => ?_⟩, fun hn => ⟨fun r hr hown hi => ?_, fun r hr => ⟨fun hl => ?_,
      fun hl => ?_⟩⟩⟩
    · exact indexSection_unreported hb (takePairs_held _ hr hown hi)
    · subst hu
      exact indexSection_pairs hb (takePairs_joins _ hr hown hi)
    · exact indexSection_unreported hb (takePairs_collected _ hn hr hown hi)
    · exact indexSection_reported hb ((hcollects hn hr).trans (settleCollection_last hl _))
    · exact indexSection_unreported hb ((hcollects hn hr).trans (settleCollection_more hl _))
  case list =>
    rintro records held kept swept same v a hb rfl hv ha hk
    have hlast : v.lastIndex = h.lastIndex := by
      rcases hv with ⟨w, -, -, -, rfl⟩ | ⟨-, -, rfl⟩ <;> rfl
    exact serviceListSection_merged hb hv ha (by rwa [SweptTo, hlast])
  case report =>
    rintro n s on rfl
    have hon (c : CtxNo) : onService s n c = true ↔ (s.context c).input ≠ pb ∧ (s.context c).service = n := by
      simp [onService]
    obtain ⟨hj, hv⟩ := serviceReport_judged n s
    refine ⟨fun concerned hc => ?_, serviceReport_holds n s, hj.mono fun c => (hon c).2, hv.mono fun c _ => (hon c).2⟩
    have he : concerned = onService s n := funext fun c => Bool.eq_iff_iff.2 ((hc c).trans (hon c).symm)
    rw [he, serviceReport_eq]

end Sys2Proof.Machine

/-! Time sections, and the minute event (O55). -/

namespace Sys2Proof.Machine

/-! ### The form of a time section (R44) -/

theorem offsetOk_iff (z : Int) : offsetOk z = true ↔ -720 ≤ z ∧ z ≤ 840 ∧ z % 15 = 0 := by
  simp [offsetOk, and_assoc]

/-- A section is well-formed when its extension is 0 and each offset it carries is one R44 allows. -/
theorem wellFormedTime_eq_some {h : SectionHeader} {body : List Byte} {t : TimeBody} :
    wellFormedTime h body = some t ↔
      readTime body = some t ∧ h.extension = 0 ∧ offsetOk t.offset = true ∧ ∀ c, t.change = some c → offsetOk c.l2 = true := by
  simp [wellFormedTime, Option.filter_eq_some_iff, Option.all_eq_true, and_assoc]

section
variable {h : SectionHeader} {body : List Byte} {t : TimeBody} {s : State}

theorem timeSection_malformed (hw : ∀ t, wellFormedTime h body ≠ some t) :
    timeSection h body s = { s with clock := { s.clock with malformed := bump top32 s.clock.malformed } } := by
  simp only [timeSection, Option.eq_none_iff_forall_ne_some.2 hw]
  rfl

theorem timeSection_unset (hw : wellFormedTime h body = some t) (hn : s.clock.net = none) :
    timeSection h body s = setFirst t s := by
  simp only [timeSection, hw, hn]

theorem timeSection_set {now : NetTime} (hw : wellFormedTime h body = some t) (hn : s.clock.net = some now) :
    timeSection h body s = compareTime t now s := by
  simp only [timeSection, hw, hn]

end

/-! ### The clock takes a value (R46, R48, R50) -/

/-- The offset `l` and the pending change `left` that the test of R48 leaves at N = `n`, where the clock holds the offset
`held` and the change `pending`. -/
def ChangeTested (n : Nat) (held : Int) (pending : Option OffsetChange) (l : Int) (left : Option OffsetChange) : Prop :=
  (∃ c, pending = some c ∧ c.n2 ≤ n ∧ l = c.l2 ∧ left = none) ∨
    (∀ c, pending = some c → n < c.n2) ∧ l = held ∧ left = pending

/-- A time update leaves N, the tested offset and change, and the minute of week. -/
theorem settled_tested {c : Clock} {t : NetTime} {l : Int} {left : Option OffsetChange} (hn : c.net = some t)
    (h : ChangeTested t.n t.offset c.change l left) :
    c.settled = { c with net := some ⟨t.n, l⟩, change := left, minute := some (minuteOfWeek t.n l) } := by
  rcases h with ⟨x, hc, hd, rfl, rfl⟩ | ⟨he, rfl, rfl⟩
  · exact settled_due hn hc hd
  · rw [settled_early hn he]
    obtain ⟨_, _, _, _, _, _, _, _, _⟩ := c
    cases hn
    rfl

theorem absDiff_le (a b k : Nat) : absDiff a b ≤ k ↔ a ≤ b + k ∧ b ≤ a + k := by
  unfold absDiff
  split <;> omega

/-- A candidate of at most 60 s confirms a value within 2 s of what it has come to (R46). -/
theorem confirms_iff (uptime value : Nat) (k : Candidate) :
    k.confirms uptime value = true ↔
      uptime ≤ k.uptime + 60 ∧ value ≤ k.value + (uptime - k.uptime) + 2 ∧ k.value + (uptime - k.uptime) ≤ value + 2 := by
  simp [Candidate.confirms, absDiff_le]

section
variable {t : TimeBody} {now : NetTime} {l : Int} {left : Option OffsetChange} {s : State}

theorem setFirst_tested (h : ChangeTested t.n t.offset t.change l left) :
    setFirst t s =
      announceTime s.clock.minute (rejudgeVerdicts (fun _ => true) (judgeTracked
        { s with
          clock := { s.clock with net := some ⟨t.n, l⟩, change := left, minute := some (minuteOfWeek t.n l) }
          notices := s.notices.join (.clockSet t.n l) })) := by
  unfold setFirst
  rw [settled_tested (t := ⟨t.n, t.offset⟩) rfl h]
  dsimp only
  rw [offer_join]
  rfl

theorem compareTime_same (h : ChangeTested t.n t.offset t.change l left) (hn : t.n = now.n) :
    compareTime t now s =
      minuteEvent s.clock.minute
        { s with clock :=
          { s.clock with
            net := some ⟨t.n, l⟩, change := left, minute := some (minuteOfWeek t.n l), candidate := none } } := by
  unfold compareTime
  rw [if_pos ((absDiff_le _ _ _).2 (by omega)), settled_tested (t := ⟨t.n, t.offset⟩) rfl h]
  exact if_pos hn

theorem compareTime_step (h : ChangeTested t.n t.offset t.change l left) (hu : t.n ≤ now.n + 4) (hd : now.n ≤ t.n + 4)
    (hn : t.n ≠ now.n) :
    compareTime t now s =
      announceTime s.clock.minute
        { s with clock :=
          { s.clock with
            net := some ⟨t.n, l⟩, change := left, minute := some (minuteOfWeek t.n l), candidate := none,
            steps := bump top32 s.clock.steps } } := by
  unfold compareTime
  rw [if_pos ((absDiff_le _ _ _).2 ⟨hu, hd⟩), settled_tested (t := ⟨t.n, t.offset⟩) rfl h]
  exact if_neg hn

theorem compareTime_jump {k : Candidate} (h : ChangeTested t.n t.offset t.change l left)
    (hn : now.n + 4 < t.n ∨ t.n + 4 < now.n) (hk : s.clock.candidate = some k)
    (hc : k.confirms s.clock.uptime t.n = true) :
    compareTime t now s =
      announceTime s.clock.minute
        { s with
          clock :=
            { s.clock with
              net := some ⟨t.n, l⟩, change := left, minute := some (minuteOfWeek t.n l), candidate := none,
              jumps := bump top32 s.clock.jumps }
          notices := s.notices.join (.clockJump t.n l now.n) } := by
  unfold compareTime
  rw [if_neg (mt (absDiff_le _ _ _).1 (by omega)), if_pos (by rw [hk]; exact hc),
    settled_tested (t := ⟨t.n, t.offset⟩) rfl h]
  dsimp only
  rw [offer_join]
  rfl

theorem compareTime_candidate (h : ChangeTested now.n now.offset t.change l left) (hs : s.clock.net = some now)
    (hn : now.n + 4 < t.n ∨ t.n + 4 < now.n)
    (hc : ∀ k, s.clock.candidate = some k → k.confirms s.clock.uptime t.n = false) :
    compareTime t now s =
      minuteEvent s.clock.minute
        { s with clock :=
          { s.clock with
            net := some ⟨now.n, l⟩, change := left, minute := some (minuteOfWeek now.n l),
            candidate := some ⟨t.n, s.clock.uptime⟩ } } := by
  unfold compareTime
  rw [if_neg (mt (absDiff_le _ _ _).1 (by omega)), if_neg (by simpa [Option.any_eq_true] using hc),
    settled_tested (t := now) (by exact hs) h]
  rfl

end

/-! ### The minute of week and its event (R50, R136) -/

theorem minuteOfWeek_cast (n : Nat) (l : Int) : (minuteOfWeek n l : Int) = (((n : Int) + 60 * l) / 60) % 10080 :=
  Int.toNat_of_nonneg (Int.emod_nonneg _ (by decide))

theorem minuteEvent_same {old : Option Nat} {s : State} (h : s.clock.minute = old) : minuteEvent old s = s :=
  if_pos h

theorem minuteEvent_changed {old : Option Nat} {s : State} (h : s.clock.minute ≠ old) :
    minuteEvent old s = rejudgeVerdicts (fun _ => true) s :=
  if_neg h

/-- Settles O55: malformed sections, then a well-formed one by the clock state, its distance from N and the candidate. -/
theorem timeSections : Obligations.TimeSections := by
  refine ⟨fun h body s good hgood => ⟨fun hbad => timeSection_malformed fun t hw => ?malformed,
    fun t he hr ho hch => ?wellFormed⟩, minuteOfWeek_cast, fun old s => ⟨minuteEvent_same, fun h => ?event⟩⟩
  case event =>
    rw [minuteEvent_changed h]
    exact ⟨HoldsOnly.rejudgeVerdicts _ s, (rejudgeVerdicts_on _ s).mono fun _ _ _ => rfl⟩
  all_goals
    have hok (z : Int) : offsetOk z = true ↔ good z := by rw [hgood]; exact offsetOk_iff z
  case malformed =>
    obtain ⟨hr, he, ho, hch⟩ := wellFormedTime_eq_some.1 hw
    rw [hr] at hbad
    rcases hbad with hb | hb | ⟨u, hu, hb⟩ | ⟨u, c, hu, hc, hb⟩
    · exact hb he
    · cases hb
    · cases hu
      exact hb ((hok _).1 ho)
    · cases hu
      exact hb ((hok _).1 (hch c hc))
  case wellFormed =>
    have hw : wellFormedTime h body = some t :=
      wellFormedTime_eq_some.2 ⟨hr, he, (hok _).2 ho, fun c hc => (hok _).2 (hch c hc)⟩
    refine ⟨fun l change htest => ⟨fun hn => ?_, fun now hn hu hd => ⟨fun heq => ?_, fun hne => ?_⟩,
      fun now k hn hfar hk hage hle hge => ?_⟩, fun now l change hn hfar hk htest => ?_⟩
    · rw [timeSection_unset hw hn, setFirst_tested htest]
    · rw [timeSection_set hw hn, compareTime_same htest heq]
    · rw [timeSection_set hw hn, compareTime_step htest hu hd hne]
    · rw [timeSection_set hw hn, compareTime_jump htest hfar hk ((confirms_iff _ _ _).2 ⟨hage, hle, hge⟩)]
    · rw [timeSection_set hw hn, compareTime_candidate htest hn hfar]
      intro k hc
      rw [Bool.eq_false_iff, ne_eq, confirms_iff]
      have := hk k hc
      omega

end Sys2Proof.Machine

/-! Keys behind their tier through every step (O52), and EXPIRY (O14). -/

namespace Sys2Proof.Machine

/-- Settles O52: every step carries it over that a slot with a key has its tier held. -/
theorem stepsKeepKeysBehindTheirTier : Obligations.StepsKeepKeysBehindTheirTier :=
  fun _ _ hs h => (step_carries h).keys hs

/-! ### EXPIRY (R75) -/

theorem expireTiers_unset {s : State} (h : s.clock.net = none) : expireTiers s = s := by
  simp only [expireTiers, h]

theorem expireTiers_set {s : State} {n : NetTime} (h : s.clock.net = some n) :
    expireTiers s = removeTiers (Entitlement.expiredAt n.n) s := by
  simp only [expireTiers, h]

theorem exec_expiry (s : State) : exec .expiry s = .next (expireTiers s) := rfl

/-- Settles O14: where the clock is SET, EXPIRY is the removal of the records whose expiry N has reached. -/
theorem expiryRemovesRecords : Obligations.ExpiryRemovesRecords := by
  refine fun s => ⟨fun h => ?unset, fun n l gone h hgone => ⟨_, exec_expiry s, ?set⟩⟩
  case unset => rw [exec_expiry, expireTiers_unset h]
  case set =>
    rw [expireTiers_set h]
    exact (removeTiers_lost _ s).congr fun r => (expiredAt_eq n r).trans (congrFun hgone r).symm

end Sys2Proof.Machine

/-! The end of the fuse read, and RESTART (O6). -/

namespace Sys2Proof.Machine

/-! ### The end of the fuse read (R65, R168) -/

theorem endFuseRead_over {s : State} (fuses : Option Fuses) (h : s.access.reading = false) : endFuseRead fuses s = s := by
  simp [endFuseRead, h]

theorem endFuseRead_ends {s : State} (fuses : Option Fuses) (h : s.access.reading = true) :
    endFuseRead fuses s = placeReady { s with access := { s.access with reading := false, fuses := fuses } } :=
  if_pos h

theorem placeReady_room {s : State} (h : s.notices.queue.length < 32) :
    placeReady s =
      { s with notices := { s.notices with queue := .ready s.mgmt.cause s.access.fuses :: s.notices.queue } } :=
  if_pos h

theorem placeReady_full {s : State} (h : 32 ≤ s.notices.queue.length) :
    placeReady s =
      { s with notices :=
        { queue := .ready s.mgmt.cause s.access.fuses :: s.notices.queue.take 31, missed := true } } :=
  if_neg (Nat.not_lt.2 h)

theorem exec_fuseReadEnd (fuses : Option Fuses) (s : State) : exec (.fuseReadEnd fuses) s = .next (endFuseRead fuses s) :=
  rfl

/-! ### RESTART (R176) -/

theorem exec_restart (tag : Byte) (s : State) (h : s.handsOn = true) :
    exec (.restart tag) s =
      .next (pushAnswer 0x61 tag (done []) { s with mgmt := { s.mgmt with restarting := true } }) :=
  exec_handed (.restart tag) s 0x61 tag [] rfl h

theorem exec_restartEffect (s : State) : exec .restartEffect s = .next (restartEffect s) := rfl

theorem restartEffect_waits {s : State} (h : s.mgmt.restarting = false ∨ s.mgmt.answers ≠ []) : restartEffect s = s :=
  if_neg (by rcases h with h | h <;> simp [h])

theorem restartEffect_acts {s : State} (hr : s.mgmt.restarting = true) (ha : s.mgmt.answers = []) :
    restartEffect s = restartState s :=
  if_pos (by simp [hr, ha])

/-! ### What RESTART leaves in the intake and the output unit -/

theorem restartIntake_hlIn (x : Intake) : getAt (restartIntake x).sync pb = getAt x.sync pb :=
  getAt_setAt_self _ _ _

/-- A tuner port goes by its lock line (R7). -/
theorem restartIntake_tuner (x : Intake) (p : PortNo) :
    getAt (restartIntake x).sync (inputOf p) = .ofLock (getAt x.lock p) := by
  have hp : pb ≠ inputOf p := by fin_cases p <;> decide
  rw [restartIntake, getAt_setAt_ne _ _ hp, ofLocks_sync]

theorem restartOut_output (x : Out) (o : OutputNo) : getAt (restartOut x).outputs o = restartOutput (getAt x.outputs o) :=
  getAt_map _ _ o

/-- Settles O6: READY by the room in the notice queue; RESTART's answer; its effect, when due, block by block. -/
theorem fuseReadEndsAndRestartTakesEffect : Obligations.FuseReadEndsAndRestartTakesEffect := by
  refine ⟨fun fuses s => ⟨fun h => ?_, fun h hroom => ?_, fun h hfull => ?_⟩, fun tag s h => exec_restart tag s h,
    fun s => ⟨fun h => ?waits, fun hr ha => ⟨restartState s, ?acts, ?effect⟩⟩⟩
  · rw [exec_fuseReadEnd, endFuseRead_over fuses h]
  · exact congrArg Host.Outcome.next ((endFuseRead_ends fuses h).trans (placeReady_room hroom))
  · exact congrArg Host.Outcome.next ((endFuseRead_ends fuses h).trans (placeReady_full hfull))
  case waits => rw [exec_restartEffect, restartEffect_waits h]
  case acts => rw [exec_restartEffect, restartEffect_acts hr ha]
  case effect =>
    exact ⟨rfl, rfl, rfl, rfl, rfl, restartIntake_hlIn _, restartIntake_tuner _, ofLocks_stats s.intake.lock, rfl, rfl, rfl, rfl,
      rfl, fun c => getAt_replicate _ c, fun o => getAt_replicate _ o, fun k => getAt_replicate _ k, rfl, rfl,
      restartOut_output _, rfl, fun c => getAt_replicate _ c, fun k => getAt_replicate _ k, rfl, rfl, rfl, rfl⟩

end Sys2Proof.Machine

/-! The exception log: exceptions that are logged, and CLEAR_EXCEPTIONS (O27). -/

namespace Sys2Proof.Machine

/-! ### Exceptions of one kind, port, stream number and tier (R78) -/

def ExceptionRec.isOf (x : ExceptionRec) (kind : ExceptionKind) (i : Input) (stream : Nat) (tier : Option Nat) : Prop :=
  x.kind = kind ∧ x.input = i ∧ x.stream = stream ∧ x.tier = tier

/-- The record of an exception that is logged now. -/
def exceptionNow (kind : ExceptionKind) (i : Input) (stream : Nat) (tier : Option Nat) (seq : Nat) (s : State) :
    ExceptionRec :=
  { kind := kind, input := i, stream := stream, tier := tier, seq := some seq, netTime := s.clock.net.map NetTime.n,
    uptime := s.clock.uptime, repeats := 1 }

section
variable {kind : ExceptionKind} {i : Input} {stream : Nat} {tier : Option Nat} {s : State} {x : ExceptionRec}
  {l : List ExceptionRec}

/-! ### Merge, append, overflow (R78, R79) -/

theorem logException_merged (seq : Nat) (hl : s.access.log = l ++ [x]) (hx : x.isOf kind i stream tier) :
    logException kind i stream tier seq s =
      { s with access :=
        { s.access with
          log := l ++ [{ exceptionNow kind i stream tier seq s with repeats := bump 255 x.repeats }] } } := by
  obtain ⟨hk, hi, hs, ht⟩ := hx
  simp [logException, exceptionNow, hl, hk, hi, hs, ht]

theorem logException_first (seq : Nat) (hl : s.access.log = []) :
    logException kind i stream tier seq s =
      { s with
        access := { s.access with log := [exceptionNow kind i stream tier seq s] }
        notices := s.notices.join (.exception kind i stream tier) } := by
  simp [logException, exceptionNow, hl, offer_join]

/-- The newest record does not take an exception it differs from. -/
theorem newest_differs (hl : s.access.log = l ++ [x]) (hx : ¬x.isOf kind i stream tier) :
    ¬s.access.log.getLast?.any
      (fun y => y.kind == kind && y.input == i && y.stream == stream && y.tier == tier) = true := by
  simpa [hl, ExceptionRec.isOf, and_assoc] using hx

theorem logException_appended (seq : Nat) (hl : s.access.log = l ++ [x]) (hx : ¬x.isOf kind i stream tier)
    (hroom : s.access.log.length < 16) :
    logException kind i stream tier seq s =
      { s with access := { s.access with log := s.access.log ++ [exceptionNow kind i stream tier seq s] } } := by
  have hne : s.access.log.isEmpty = false := by simp [hl]
  simp only [logException, if_neg (newest_differs hl hx), if_pos hroom, hne]
  rfl

theorem logException_marked (seq : Nat) (hl : s.access.log = l ++ [x]) (hx : ¬x.isOf kind i stream tier)
    (hfull : 16 ≤ s.access.log.length) (hm : s.access.overflow = true) :
    logException kind i stream tier seq s = s := by
  simp only [logException, if_neg (newest_differs hl hx), if_neg (Nat.not_lt.2 hfull), if_pos hm]

theorem logException_overflows (seq : Nat) (hl : s.access.log = l ++ [x]) (hx : ¬x.isOf kind i stream tier)
    (hfull : 16 ≤ s.access.log.length) (hm : s.access.overflow = false) :
    logException kind i stream tier seq s =
      { s with
        access := { s.access with overflow := true }
        notices := s.notices.join .overflow } := by
  simp only [logException, if_neg (newest_differs hl hx), if_neg (Nat.not_lt.2 hfull), hm, offer_join]
  rfl

end

/-! ### A sound log: at most 16 records, no two neighbours to be merged (R78) -/

def ExceptionRec.apart (x y : ExceptionRec) : Prop :=
  ¬x.isOf y.kind y.input y.stream y.tier

def LogSound (l : List ExceptionRec) : Prop :=
  l.length ≤ 16 ∧ l.IsChain ExceptionRec.apart

theorem logSound_iff (l : List ExceptionRec) :
    LogSound l ↔ l.length ≤ 16 ∧ ∀ a x y b, l = a ++ x :: y :: b →
      ¬(x.kind = y.kind ∧ x.input = y.input ∧ x.stream = y.stream ∧ x.tier = y.tier) :=
  and_congr_right fun _ => List.isChain_iff_forall_rel_of_append_cons_cons.trans
    ⟨fun h _ _ _ _ e => h e, fun h _ _ _ _ e => h _ _ _ _ e⟩

theorem LogSound.drop {l : List ExceptionRec} (h : LogSound l) (k : Nat) : LogSound (l.drop k) :=
  ⟨List.length_drop.trans_le ((Nat.sub_le ..).trans h.1), h.2.drop k⟩

theorem LogSound.append {l : List ExceptionRec} (h : LogSound l) {r : ExceptionRec} (hroom : l.length < 16)
    (hr : ∀ x ∈ l.getLast?, x.apart r) : LogSound (l ++ [r]) :=
  ⟨by simpa using hroom, h.2.append (.singleton r) (by simpa using hr)⟩

/-- The newest record takes new contents, its kind, port, stream number and tier as they were. -/
theorem LogSound.renew {l : List ExceptionRec} {x r : ExceptionRec} (h : LogSound (l ++ [x]))
    (hr : x.isOf r.kind r.input r.stream r.tier) : LogSound (l ++ [r]) := by
  obtain ⟨hk, hi, hs, ht⟩ := hr
  refine ⟨by simpa using h.1, h.2.left_of_append.append (.singleton r) fun y hy z hz => ?_⟩
  have hyx : y.apart x := (List.isChain_append.1 h.2).2.2 y hy x rfl
  cases hz
  rwa [ExceptionRec.apart, ← hk, ← hi, ← hs, ← ht]

/-- What an exception leaves in the log: the newest record renewed, one record more, or the log as it was. -/
theorem LogSound.logException (kind : ExceptionKind) (i : Input) (stream : Nat) (tier : Option Nat) (seq : Nat) {s : State}
    (h : LogSound s.access.log) : LogSound (logException kind i stream tier seq s).access.log := by
  rcases List.eq_nil_or_concat' s.access.log with hl | ⟨l, x, hl⟩
  · rw [logException_first seq hl]
    exact ⟨Nat.one_le_ofNat, .singleton _⟩
  by_cases hx : x.isOf kind i stream tier
  · rw [logException_merged seq hl hx]
    exact (hl ▸ h).renew hx
  rcases Nat.lt_or_ge s.access.log.length 16 with hroom | hfull
  · rw [logException_appended seq hl hx hroom]
    have hnew : x.apart (exceptionNow kind i stream tier seq s) := hx
    exact h.append hroom (by simpa [hl] using hnew)
  cases hm : s.access.overflow with
  | true => rwa [logException_marked seq hl hx hfull hm]
  | false => rwa [logException_overflows seq hl hx hfull hm]

/-! ### CLEAR_EXCEPTIONS (R81) -/

theorem takeClearExceptions_range {n : Byte} (s : State) (h : 16 < n.toNat) (hn : n.toNat ≠ 255) :
    takeClearExceptions n s = (refuse .badParam, s) :=
  if_pos (by simp [h, hn])

/-- How many records CLEAR_EXCEPTIONS removes from a log of a given length (R81). -/
def clearedCount (n held : Nat) : Nat :=
  if n = 255 ∨ held ≤ n then held else n

theorem takeClearExceptions_clears {n : Byte} (s : State) (h : n.toNat ≤ 16 ∨ n.toNat = 255) {k : Nat}
    (hk : k = clearedCount n.toNat s.access.log.length) :
    takeClearExceptions n s =
      (done [BitVec.ofNat 8 k, BitVec.ofNat 8 (s.access.log.length - k)],
        { s with access :=
          { s.access with
            log := s.access.log.drop k
            overflow := if k = s.access.log.length then false else s.access.overflow } }) := by
  have hin : ¬(16 < n.toNat && n.toNat != 255) = true := by
    rcases h with h | h <;> simp [h]
  have hmin : (if n.toNat = 255 then s.access.log.length else min n.toNat s.access.log.length) = k := by
    rw [hk, clearedCount]
    split_ifs <;> omega
  have hle : k ≤ s.access.log.length := by
    rw [hk, clearedCount]
    split_ifs <;> omega
  have hmark : (s.access.overflow && !(s.access.log.drop k).isEmpty) =
      if k = s.access.log.length then false else s.access.overflow := by
    split_ifs with he
    · simp [he]
    · have hne : s.access.log.drop k ≠ [] := by
        rw [ne_eq, List.drop_eq_nil_iff]
        omega
      simp [hne]
  simp only [takeClearExceptions, if_neg hin, hmin, hmark, List.length_drop]
  rfl

theorem takeClearExceptions_log (n : Byte) (s : State) :
    ∃ k, (takeClearExceptions n s).2.access.log = s.access.log.drop k := by
  by_cases h : n.toNat ≤ 16 ∨ n.toNat = 255
  · exact ⟨_, by rw [takeClearExceptions_clears s h rfl]⟩
  · rw [not_or, Nat.not_le] at h
    exact ⟨0, by rw [takeClearExceptions_range s h.1 h.2]; rfl⟩

theorem exec_clearExceptions (tag n : Byte) (s : State) :
    exec (.clearExceptions tag n) s = .next (handOver 0x22 tag (takeClearExceptions n) s) := rfl

theorem LogSound.clearExceptions {tag n : Byte} {s t : State} (h : LogSound s.access.log)
    (ht : exec (.clearExceptions tag n) s = .next t) : LogSound t.access.log := by
  cases ht
  cases hh : s.handsOn with
  | true =>
    obtain ⟨k, hk⟩ := takeClearExceptions_log n s
    rw [handOver_on _ _ _ _ hh, pushAnswer_access, hk]
    exact h.drop k
  | false => rwa [handOver_off _ _ _ _ hh]

/-! ### The log at the two resets -/

theorem restartEffect_log (s : State) :
    (restartEffect s).access.log = s.access.log ∧ (restartEffect s).access.overflow = s.access.overflow := by
  unfold restartEffect
  split
  · exact ⟨rfl, rfl⟩
  · exact ⟨rfl, rfl⟩

/-- Settles O27: by what the newest record is and the room in the log, a sound log, the two resets, and CLEAR_EXCEPTIONS. -/
theorem exceptionsAreLoggedAndCleared : Obligations.ExceptionsAreLoggedAndCleared := by
  refine ⟨?logged, ?sound, fun s t => ⟨fun locks h => ?reset, fun h => ?restart⟩, fun tag n s hh => ⟨fun h hn => ?range,
    fun k h hk => ?clears⟩⟩
  case logged =>
    rintro kind i stream tier seq s r same logged rfl rfl rfl
    exact ⟨fun l x hl hx => logException_merged seq hl hx, logException_first seq, fun l x hl hx =>
      ⟨logException_appended seq hl hx, logException_marked seq hl hx, logException_overflows seq hl hx⟩⟩
  case sound =>
    rintro s t sound rfl hs
    rw [← logSound_iff] at hs
    simp only [← logSound_iff]
    exact ⟨fun kind i stream tier seq ht => ht ▸ hs.logException kind i stream tier seq, fun tag n => hs.clearExceptions⟩
  case reset => cases h; exact ⟨rfl, rfl⟩
  case restart => cases h; exact restartEffect_log s
  case range => rw [exec_clearExceptions, handOver_on _ _ _ _ hh, takeClearExceptions_range s h hn]
  case clears => rw [exec_clearExceptions, handOver_on _ _ _ _ hh, takeClearExceptions_clears s h hk]

end Sys2Proof.Machine

/-! Entitlement messages (O56). -/

namespace Sys2Proof.Machine

/-! ### Who a message is for (R68) -/

section
variable {s : State} {f : Fuses}

theorem opening_unit (hf : s.access.fuses = some f) :
    opening s (.unit f.unitAddress.toNat) = some (f.unitKey, s.access.unitSeq) := by
  simp [opening, hf]

theorem opening_group {g : Nat} {x : Group} (hx : s.access.groups.find? (fun x => x.id == g) = some x) :
    opening s (.group g) = some (x.key, x.seq) := by
  simp [opening, hx]

theorem opening_other {a : AccessAddress} (hf : s.access.fuses = some f) (hu : ∀ n, a = .unit n → n ≠ f.unitAddress.toNat)
    (hg : ∀ g, a = .group g → ∀ x ∈ s.access.groups, x.id ≠ g) : opening s a = none := by
  cases a with
  | unit n => simp only [opening, hf, if_neg (hu n rfl).symm]
  | group g => simpa [opening] using hg g rfl

end

/-! ### The tests of an addressed message (R69, R70) -/

theorem seqAccepted_iff (record : Option Nat) (seq : Nat) :
    seqAccepted record seq = true ↔ ∀ r, record = some r → r < seq := by
  cases record <;> simp [seqAccepted]

/-- The part with a message's sequence number recorded and the message counted as accepted. -/
def acceptedFrom (a : AccessAddress) (seq : Nat) (s : State) : State :=
  { recordSeq a seq s with access :=
    { (recordSeq a seq s).access with accepted := bump top32 (recordSeq a seq s).access.accepted } }

theorem acceptedFrom_unit (n seq : Nat) (s : State) :
    acceptedFrom (.unit n) seq s =
      { s with access := { s.access with unitSeq := some seq, accepted := bump top32 s.access.accepted } } :=
  rfl

theorem acceptedFrom_group (g seq : Nat) (s : State) :
    acceptedFrom (.group g) seq s =
      { s with access :=
        { s.access with
          groups := s.access.groups.map (fun y => if y.id = g then { y with seq := some seq } else y)
          accepted := bump top32 s.access.accepted } } := by
  simp [acceptedFrom, recordSeq]

section
variable {i : Input} {stream home : Nat} {m : AccessBody} {key : Key} {record : Option Nat} {s : State}

theorem openMessage_wrongNetwork (h : m.network ≠ home) :
    openMessage i stream home m key record s = logException .wrongNetwork i stream m.instr.tier? m.seq s :=
  if_pos h

theorem openMessage_integrity (h : m.network = home) (hc : Config.checkValue key m.plain ≠ m.check) :
    openMessage i stream home m key record s = logException .integrity i stream m.instr.tier? m.seq s := by
  rw [openMessage, if_neg (not_not.2 h), if_pos hc]

theorem openMessage_stale (h : m.network = home) (hc : Config.checkValue key m.plain = m.check)
    (hr : ∃ r, record = some r ∧ m.seq ≤ r) :
    openMessage i stream home m key record s = logException .stale i stream m.instr.tier? m.seq s := by
  obtain ⟨r, rfl, hr⟩ := hr
  have hs : (!seqAccepted (some r) m.seq) = true := by simpa [seqAccepted] using hr
  rw [openMessage, if_neg (not_not.2 h), if_neg (not_not.2 hc), if_pos hs]

theorem openMessage_accepted (h : m.network = home) (hc : Config.checkValue key m.plain = m.check)
    (hr : ∀ r, record = some r → r < m.seq) :
    openMessage i stream home m key record s =
      applyInstr i stream m.address.source m.seq key m.instr (acceptedFrom m.address m.seq s) := by
  have hs : ¬(!seqAccepted record m.seq) = true := by simpa using (seqAccepted_iff record m.seq).2 hr
  rw [openMessage, if_neg (not_not.2 h), if_neg (not_not.2 hc), if_neg hs]
  rfl

end

/-! ### A message offered to ACCESS (R65, R66, R68) -/

section
variable (i : Input) (stream : Nat) {h : SectionHeader} {body : List Byte} {s : State} {f : Fuses} {home : Nat}
  {m : AccessBody}

theorem entitlementSection_ignored (he : s.access.fuses = none ∨ s.access.home = none) :
    entitlementSection i stream h body s = s := by
  unfold entitlementSection
  rcases he with he | he <;> simp [he]

theorem entitlementSection_unreadable (hf : s.access.fuses = some f) (hh : s.access.home = some home)
    (hb : h.extension ≠ 0 ∨ readAccess body = none) :
    entitlementSection i stream h body s =
      { s with access := { s.access with unreadable := bump top32 s.access.unreadable } } := by
  have hr : (if h.extension = 0 then readAccess body else none) = none := by
    rcases hb with hb | hb <;> simp [hb]
  simp only [entitlementSection, hf, hh, hr]

theorem entitlementSection_notAddressed (hf : s.access.fuses = some f) (hh : s.access.home = some home)
    (he : h.extension = 0) (hm : readAccess body = some m) (ho : opening s m.address = none) :
    entitlementSection i stream h body s =
      { s with access := { s.access with notAddressed := bump top32 s.access.notAddressed } } := by
  simp only [entitlementSection, hf, hh, if_pos he, hm, ho]

theorem entitlementSection_opened (hf : s.access.fuses = some f) (hh : s.access.home = some home)
    (he : h.extension = 0) (hm : readAccess body = some m) {key : Key} {record : Option Nat}
    (ho : opening s m.address = some (key, record)) :
    entitlementSection i stream h body s = openMessage i stream home m key record s := by
  simp only [entitlementSection, hf, hh, if_pos he, hm, ho]

end

/-- Settles O56: by the access state, whether the message can be read, whom it is for, and the three tests in their order. -/
theorem entitlementMessagesAreOpened : Obligations.EntitlementMessagesAreOpened := by
  refine fun i stream h body s => ⟨entitlementSection_ignored i stream, fun f home hf hh =>
    ⟨entitlementSection_unreadable i stream hf hh, fun m he hm => ⟨fun hu hg => ?notAddressed,
      fun key record source tier u haddr htier => ?addressed⟩⟩⟩
  case notAddressed => exact entitlementSection_notAddressed i stream hf hh he hm (opening_other hf hu hg)
  case addressed =>
    obtain ⟨ho, rfl, rfl⟩ : opening s m.address = some (key, record) ∧ source = m.address.source ∧
        u = acceptedFrom m.address m.seq s := by
      rcases haddr with ⟨ha, rfl, rfl, rfl, rfl⟩ | ⟨g, x, ha, hx, rfl, rfl, rfl, rfl⟩
      · rw [ha]
        exact ⟨opening_unit hf, rfl, (acceptedFrom_unit _ _ _).symm⟩
      · rw [ha]
        exact ⟨opening_group hx, rfl, (acceptedFrom_group _ _ _).symm⟩
    obtain rfl : tier = m.instr.tier? := htier.trans (by cases m.instr <;> rfl)
    rw [entitlementSection_opened i stream hf hh he hm ho]
    exact ⟨openMessage_wrongNetwork, openMessage_integrity, openMessage_stale, openMessage_accepted⟩

end Sys2Proof.Machine

/-! The instructions of accepted entitlement messages (O57). -/

namespace Sys2Proof.Machine

/-! ### The count of applied instructions plays no part in what is lost -/

/-- The part with another count of applied instructions. -/
def State.withApplied (s : State) (n : Nat) : State :=
  { s with access := { s.access with applied := n } }

theorem countApplied_eq (s : State) : countApplied s = s.withApplied (bump top32 s.access.applied) := rfl

section
variable {s t : State} (n : Nat)

theorem ReportsOnly.withApplied (h : ReportsOnly s t) : ReportsOnly (s.withApplied n) (t.withApplied n) where
  bare := congrArg (State.withApplied · n) h.bare
  contexts := h.contexts
  notices := h.notices

theorem JudgedOn.withApplied {w : Which} {hit : CtxNo → Prop} (h : JudgedOn t w hit) :
    JudgedOn (t.withApplied n) w hit where
  current := h.current
  pending := h.pending
  tag := h.tag

theorem SlotsReported.withApplied {user : CtxNo → Prop} (h : SlotsReported user s t) :
    SlotsReported user (s.withApplied n) (t.withApplied n) where
  only := h.only.withApplied n
  reasons := h.reasons.withApplied n
  opened := h.opened
  stays := h.stays

theorem TiersLost.withApplied {gone : Entitlement → Bool} (h : TiersLost gone s t) :
    TiersLost gone (s.withApplied n) (t.withApplied n) where
  only := h.only.withApplied n
  erased := h.erased
  kept := h.kept
  none hn := congrArg (State.withApplied · n) (h.none hn)
  reported hr := (h.reported hr).withApplied n
  reasons hr := (h.reasons hr).withApplied n

theorem TiersLost.applied {gone : Entitlement → Bool} (h : TiersLost gone s t) : t.access.applied = s.access.applied :=
  (congrArg Access.applied h.only.access).trans rfl

end

/-- Tiers lost and the instruction counted after it: as if it had been counted before. -/
theorem TiersLost.countApplied {gone : Entitlement → Bool} {s t : State} (h : TiersLost gone s t) :
    TiersLost gone (countApplied s) (countApplied t) := by
  rw [countApplied_eq, countApplied_eq, h.applied]
  exact h.withApplied _

/-! ### GRANT (R72, R77) -/

theorem tierHeld_iff (s : State) (q : Nat) : tierHeld s q = true ↔ ∃ x ∈ s.access.entitlements, x.tier = q := by
  simp [tierHeld]

theorem tierHeld_false {s : State} {q : Nat} (h : ∀ x ∈ s.access.entitlements, x.tier ≠ q) : ¬tierHeld s q = true :=
  fun hq => by
    obtain ⟨x, hx, hxq⟩ := (tierHeld_iff s q).1 hq
    exact h x hx hxq

/-- A record's expiry is already reached; never while the clock is UNSET (R75). -/
def Entitlement.over (r : Entitlement) (s : State) : Prop :=
  ∃ n e, s.clock.net = some n ∧ r.expiry = some e ∧ e ≤ n.n

theorem over_iff (r : Entitlement) (s : State) : s.clock.net.any (fun t => r.expiredAt t.n) = true ↔ r.over s := by
  unfold Entitlement.over Entitlement.expiredAt
  cases s.clock.net <;> cases r.expiry <;> simp

section
variable (i : Input) (stream seq : Nat) {r : Entitlement} {s : State}

theorem applyGrant_full (hn : ∀ x ∈ s.access.entitlements, x.tier ≠ r.tier) (hfull : 64 ≤ s.access.entitlements.length) :
    applyGrant i stream seq r s = logException .listFull i stream (some r.tier) seq s := by
  simp only [applyGrant, if_neg (tierHeld_false hn), if_pos hfull]

theorem applyGrant_replaces (hh : ∃ x ∈ s.access.entitlements, x.tier = r.tier) (ho : ¬r.over s) :
    applyGrant i stream seq r s =
      { countApplied s with access :=
        { (countApplied s).access with
          entitlements := s.access.entitlements.map (fun x => if x.tier = r.tier then r else x) } } := by
  simp only [applyGrant, if_pos ((tierHeld_iff s r.tier).2 hh), if_neg (mt (over_iff r s).1 ho), beq_iff_eq]
  rfl

theorem applyGrant_lapses (hh : ∃ x ∈ s.access.entitlements, x.tier = r.tier) (ho : r.over s) :
    applyGrant i stream seq r s = removeTiers (fun x => x.tier == r.tier) (countApplied s) := by
  simp only [applyGrant, if_pos ((tierHeld_iff s r.tier).2 hh), if_pos ((over_iff r s).2 ho)]

/-- The part with one more entitlement record. -/
def State.withRecord (s : State) (r : Entitlement) : State :=
  { s with access := { s.access with entitlements := s.access.entitlements ++ [r] } }

theorem applyGrant_adds (hn : ∀ x ∈ s.access.entitlements, x.tier ≠ r.tier) (hroom : s.access.entitlements.length < 64)
    (ho : ¬r.over s) : applyGrant i stream seq r s = tierReport ((countApplied s).withRecord r) := by
  simp only [applyGrant, if_neg (tierHeld_false hn), if_neg (Nat.not_le.2 hroom), if_neg (mt (over_iff r s).1 ho)]
  rfl

/-- A new record that is over at once is the only one of its tier, and goes again with the tier (R72, R76). -/
theorem applyGrant_passes (hn : ∀ x ∈ s.access.entitlements, x.tier ≠ r.tier) (hroom : s.access.entitlements.length < 64)
    (ho : r.over s) :
    TiersLost (fun x => x.tier == r.tier) ((countApplied s).withRecord r) (applyGrant i stream seq r s) := by
  have hgone : (s.access.entitlements ++ [r]).filter (fun x => !(x.tier == r.tier)) = s.access.entitlements := by
    simpa [List.filter_append] using hn
  have hwithout : countApplied s =
      ((countApplied s).withRecord r).without (fun x => x.tier == r.tier) ((countApplied s).withRecord r).access.slots := by
    simp only [State.without, State.withRecord, countApplied, hgone]
  have hr : r ∈ ((countApplied s).withRecord r).access.entitlements := by simp [State.withRecord]
  simp only [applyGrant, if_neg (tierHeld_false hn), if_neg (Nat.not_le.2 hroom), if_pos ((over_iff r s).2 ho)]
  refine eraseTiers_lost _ [r.tier] _ (countApplied s) hwithout (fun q => ⟨fun hq => ?_, fun ⟨x, _, hx, hq⟩ => ?_⟩)
    ⟨r, hr, beq_self_eq_true _⟩
  · exact ⟨r, hr, beq_self_eq_true _, List.mem_singleton.1 hq⟩
  · exact List.mem_singleton.2 (hq.trans (beq_iff_eq.1 hx))

end

theorem tierReport_judged (s : State) : HoldsOnly s (tierReport s) ∧ JudgedOn (tierReport s) judgeEntitlement (fun _ => True) :=
  ⟨.tierReport s, (rejudge_judgedOn judgeEntitlement (fun _ => true) s).mono fun _ _ => rfl⟩

/-! ### REVOKE, PURGE and GROUPS (R73, R74) -/

section
variable (i : Input) (stream seq : Nat) (key : Key) {source : Option Nat} {pairs : List (Nat × Key)} (s : State)

theorem applyInstr_revoke (tier : Nat) :
    TiersLost (fun x => x.tier == tier) (countApplied s) (applyInstr i stream source seq key (.revoke tier) s) :=
  (removeTiers_lost _ s).countApplied

theorem applyInstr_purge (h : source = none) :
    TiersLost (fun _ => true) (countApplied s) (applyInstr i stream source seq key .purge s) := by
  subst h
  exact (removeTiers_lost _ s).countApplied

theorem applyInstr_purge_group (h : source ≠ none) :
    applyInstr i stream source seq key .purge s = logException .malformed i stream none seq s :=
  if_pos (Option.isSome_iff_ne_none.2 h)

theorem applyInstr_groups_malformed (h : source ≠ none ∨ 4 < pairs.length ∨ ¬(pairs.map Prod.fst).Nodup) :
    applyInstr i stream source seq key (.groups pairs) s = logException .malformed i stream none seq s :=
  if_pos (by simpa [Option.isSome_iff_ne_none, or_assoc] using h)

theorem applyInstr_groups (hs : source = none) (hl : pairs.length ≤ 4) (hd : (pairs.map Prod.fst).Nodup) :
    applyInstr i stream source seq key (.groups pairs) s =
      applyGroups (pairs.map (fun p => (p.1, Config.decipher key p.2))) s :=
  if_neg (by simp [hs, hl, hd])

/-- A record of a group that is held and that the new memberships leave out (R74). -/
def Entitlement.dropped (held : List Group) (pairs : List (Nat × Key)) (r : Entitlement) : Bool :=
  r.source.any fun g => held.any (fun x => x.id == g) && !pairs.any (fun p => p.1 == g)

theorem applyGroups_lost (pairs : List (Nat × Key)) :
    TiersLost (Entitlement.dropped s.access.groups pairs)
      { countApplied s with access :=
        { (countApplied s).access with groups := pairs.map (joinGroup s.access.groups) } }
      (applyGroups pairs s) := by
  refine (removeTiers_lost _ _).congr fun r => ?_
  cases hr : r.source with
  | none => simp [Entitlement.dropped, hr]
  | some g =>
    have hkept : (pairs.map Prod.fst).contains g = pairs.any (fun p => p.1 == g) := by
      rw [Bool.eq_iff_iff]
      simp only [List.contains_iff_mem, List.mem_map, List.any_eq_true, beq_iff_eq]
    rw [Bool.eq_iff_iff]
    simp only [hr, Entitlement.dropped, Option.any_some, List.contains_iff_mem, List.mem_filter, List.mem_map,
      Bool.and_eq_true, List.any_eq_true, beq_iff_eq, hkept]

end

/-- Settles O57: GRANT by whether the tier is held, the room and the expiry; the others by the records they remove. -/
theorem instructionsAreApplied : Obligations.InstructionsAreApplied := by
  rintro i stream source seq key s u rfl
  refine ⟨?grant, fun tier => applyInstr_revoke i stream seq key s tier, applyInstr_purge i stream seq key s,
    applyInstr_purge_group i stream seq key s, fun pairs => ⟨applyInstr_groups_malformed i stream seq key s, ?groups⟩⟩
  case grant =>
    intro tier expiry k r t hr ht
    obtain ⟨rfl, rfl⟩ : r.tier = tier ∧ r.expiry = expiry := by rw [hr]; exact ⟨rfl, rfl⟩
    rw [applyInstr, ← hr] at ht
    subst ht
    refine ⟨applyGrant_full i stream seq, fun hfuture => ?_, fun hover =>
      ⟨fun hh => ?_, fun hn hroom => applyGrant_passes i stream seq hn hroom hover⟩⟩
    · have ho : ¬r.over s := fun ⟨n, e, hn, he, hle⟩ => absurd (hfuture n e hn he) (Nat.not_lt.2 hle)
      refine ⟨fun hh => applyGrant_replaces i stream seq hh ho, fun hn hroom => ?_⟩
      rw [applyGrant_adds i stream seq hn hroom ho]
      exact tierReport_judged _
    · rw [applyGrant_lapses i stream seq hh hover]
      exact removeTiers_lost _ _
  case groups =>
    intro hs hl hd
    rw [applyInstr_groups i stream seq key s hs hl hd]
    have h := applyGroups_lost s (pairs.map (fun p => (p.1, Config.decipher key p.2)))
    rw [List.map_map] at h
    refine h.congr fun r => ?_
    cases hr : r.source with
    | none => simp only [Entitlement.dropped, hr, Option.any_none]
    | some g => simp only [Entitlement.dropped, hr, Option.any_some, List.any_map, Function.comp_def]

end Sys2Proof.Machine

/-! A slot that takes new contents (R85), and the descrambler (O58). -/

namespace Sys2Proof.Machine

/-! ### New contents of a slot, with and without a report (R85) -/

/-- Two contents of a slot show its users the same, whatever tiers are held. -/
structure Slot.Alike (x y : Slot) : Prop where
  keyed : (x.even.isSome || x.odd.isSome) = (y.even.isSome || y.odd.isSome)
  refused : x.refused = y.refused
  tier : x.tier = y.tier
  lapsed : x.lapsed = y.lapsed

/-- The condition of a slot changes with what it shows alone, as the tiers held stay the same. -/
theorem slotCondition_setSlot_iff {s : State} {k : SlotNo} {x : Slot} (h : s.slot k = some x) (y : Slot) :
    slotCondition (s.setSlot k (some y)) k = slotCondition s k ↔ x.Alike y := by
  have hheld : tierHeld (s.setSlot k (some y)) = tierHeld s := rfl
  simp only [slotCondition, slot_setSlot, if_true, h, Option.map_some, hheld, Option.some.injEq, Prod.mk.injEq]
  constructor
  · rintro ⟨hk, hr, ht, -, hl⟩
    exact ⟨hk.symm, hr.symm, ht.symm, hl.symm⟩
  · intro h
    exact ⟨h.keyed.symm, h.refused.symm, h.tier.symm, by rw [h.tier], h.lapsed.symm⟩

section
variable {s : State} {k : SlotNo} {x y : Slot}

theorem updateSlot_alike (h : s.slot k = some x) (hxy : x.Alike y) : updateSlot k y s = s.setSlot k (some y) :=
  (updateSlot_spec k y s _ rfl).1 ((slotCondition_setSlot_iff h y).2 hxy)

theorem updateSlot_reported (h : s.slot k = some x) (hu : y.users = x.users) (hxy : ¬x.Alike y) :
    SlotReported x.users (s.setSlot k (some y)) (updateSlot k y s) :=
  hu ▸ (updateSlot_spec k y s _ rfl).2 (mt (slotCondition_setSlot_iff h y).1 hxy)

end

/-! ### Presentation copies (R92 to R95) -/

theorem keyPhase_withClearPhase (p : List Byte) : keyPhase (withClearPhase p) = 0 := by
  have hle (b : Byte) : (b &&& 0x3F).toNat / 64 = 0 := by
    have : (b &&& 0x3F).toNat ≤ 63 := Nat.and_le_right
    omega
  unfold keyPhase withClearPhase byteAt
  rw [List.getD_eq_getElem?_getD, List.getElem?_modify_eq]
  cases p[3]? with
  | none => rfl
  | some b => exact hle b

section
variable {s : State} {x : Context} {p : List Byte}

theorem presentationCopy_bare (hp : payloadPresent p = false) : presentationCopy s x p = some (withClearPhase p) := by
  simp [presentationCopy, hp]

theorem presentationCopy_clear (hp : payloadPresent p = true) (h0 : keyPhase p = 0) :
    presentationCopy s x p = some p := by
  simp [presentationCopy, hp, h0]

theorem presentationCopy_scrambled (hp : payloadPresent p = true) (h0 : keyPhase p ≠ 0) :
    presentationCopy s x p =
      (slotOf s x).bind fun y => (y.keyFor (keyPhase p)).map fun key => descrambled key p := by
  simp only [presentationCopy, hp, Bool.not_true, Bool.false_eq_true, if_false, if_neg h0]
  cases slotOf s x <;> rfl

end

/-- A slot holds keys for the even and the odd phase only. -/
theorem keyFor_reserved (y : Slot) : y.keyFor 1 = none := rfl

/-- A packet of the even or the odd phase, with the key a slot holds for that phase. -/
def Slot.keyIs (y : Slot) (p : List Byte) (key : Option Key) : Prop :=
  keyPhase p = 2 ∧ key = y.even ∨ keyPhase p = 3 ∧ key = y.odd

theorem Slot.keyIs.keyFor {y : Slot} {p : List Byte} {key : Option Key} (h : y.keyIs p key) :
    y.keyFor (keyPhase p) = key := by
  rcases h with ⟨h, rfl⟩ | ⟨h, rfl⟩ <;> simp [Slot.keyFor, h]

theorem Slot.keyIs.phase {y : Slot} {p : List Byte} {key : Option Key} (h : y.keyIs p key) :
    keyPhase p ≠ 0 ∧ keyPhase p ≠ 1 := by
  rcases h with ⟨h, -⟩ | ⟨h, -⟩ <;> simp [h]

/-- No copy keeps a key phase: it is cleared, or clear as the packet arrived. -/
theorem keyPhase_presentationCopy {s : State} {x : Context} {p q : List Byte} (h : presentationCopy s x p = some q) :
    keyPhase q = 0 := by
  cases hp : payloadPresent p with
  | false =>
    cases (presentationCopy_bare hp).symm.trans h
    exact keyPhase_withClearPhase p
  | true =>
    by_cases h0 : keyPhase p = 0
    · cases (presentationCopy_clear hp h0).symm.trans h
      exact h0
    · rw [presentationCopy_scrambled hp h0] at h
      obtain ⟨y, -, hy⟩ := Option.bind_eq_some_iff.1 h
      obtain ⟨key, -, rfl⟩ := Option.map_eq_some_iff.1 hy
      exact keyPhase_withClearPhase _

/-! ### Classification (R92 to R95) -/

/-- The part with a descrambler record of an input put in. -/
def State.withStats (s : State) (i : Input) (r : DescramblerStats) : State :=
  { s with access := { s.access with stats := setAt s.access.stats i r } }

theorem countDescrambler_eq (i : Input) (f : DescramblerStats → DescramblerStats) (s : State) :
    countDescrambler i f s = s.withStats i (f (getAt s.access.stats i)) := rfl

/-- The part with a descrambler record of an input and the contents of a slot put in. -/
def State.classified (s : State) (i : Input) (k : SlotNo) (r : DescramblerStats) (x : Slot) : State :=
  { s with access :=
    { s.access with stats := setAt s.access.stats i r, slots := setAt s.access.slots k (some x) } }

section
variable {i : Input} {r : DescramblerStats} {s : State} {k : SlotNo} {x y : Slot}

theorem updateSlot_counted_alike (hs : s.slot k = some x) (hxy : x.Alike y) :
    updateSlot k y (s.withStats i r) = s.classified i k r y :=
  updateSlot_alike (s := s.withStats i r) hs hxy

theorem updateSlot_counted_reported (hs : s.slot k = some x) (hu : y.users = x.users) (hxy : ¬x.Alike y) :
    SlotReported x.users (s.classified i k r y) (updateSlot k y (s.withStats i r)) :=
  updateSlot_reported (s := s.withStats i r) hs hu hxy

end

theorem keyedSlot_alike_iff (x : Slot) : x.Alike (keyedSlot x) ↔ x.lapsed = false :=
  ⟨Slot.Alike.lapsed, fun hl => ⟨rfl, rfl, rfl, hl⟩⟩

theorem unkeyedSlot_stays {x : Slot} (h : x.lapsed = true ∨ bump 64 x.run < 64) :
    unkeyedSlot x = { x with run := bump 64 x.run, unkeyed := bump top32 x.unkeyed } :=
  if_neg (by rcases h with h | h <;> simp [h])

theorem unkeyedSlot_lapses {x : Slot} (hl : x.lapsed = false) (hr : 64 ≤ bump 64 x.run) :
    unkeyedSlot x =
      { x with
        run := bump 64 x.run, unkeyed := bump top32 x.unkeyed, lapsed := true, lapses := bump top16 x.lapses } :=
  if_pos (by simp [hl, hr])

section
variable (i : Input) {p : List Byte} {k : SlotNo} {s : State} {x : Slot}

theorem classifySlot_clear (hs : s.slot k = some x) (h0 : keyPhase p = 0) :
    classifySlot i p k s =
      s.withStats i { getAt s.access.stats i with clear := bump top32 (getAt s.access.stats i).clear } := by
  simp only [classifySlot, hs, h0, if_true, countDescrambler_eq]

theorem classifySlot_reserved (hs : s.slot k = some x) (h1 : keyPhase p = 1) :
    classifySlot i p k s =
      s.classified i k
        { getAt s.access.stats i with badPhase := bump top32 (getAt s.access.stats i).badPhase }
        { x with badPhase := bump top32 x.badPhase } := by
  simp only [classifySlot, hs, h1, if_neg Nat.one_ne_zero, if_true]
  rfl

theorem classifySlot_keyed (hs : s.slot k = some x) {key : Option Key} (hk : x.keyIs p key) (hn : key ≠ none) :
    classifySlot i p k s =
      updateSlot k (keyedSlot x)
        (s.withStats i { getAt s.access.stats i with keyed := bump top32 (getAt s.access.stats i).keyed }) := by
  have hsome : (x.keyFor (keyPhase p)).isSome = true := by rw [hk.keyFor, Option.isSome_iff_ne_none]; exact hn
  simp only [classifySlot, hs, if_neg hk.phase.1, if_neg hk.phase.2, if_pos hsome, countDescrambler_eq]

theorem classifySlot_unkeyed (hs : s.slot k = some x) (hk : x.keyIs p none) :
    classifySlot i p k s =
      updateSlot k (unkeyedSlot x)
        (s.withStats i { getAt s.access.stats i with unkeyed := bump top32 (getAt s.access.stats i).unkeyed }) := by
  have hnone : ¬(x.keyFor (keyPhase p)).isSome = true := by simp [hk.keyFor]
  simp only [classifySlot, hs, if_neg hk.phase.1, if_neg hk.phase.2, if_neg hnone, countDescrambler_eq]

theorem classifySlotless_eq {r : DescramblerStats}
    (h : keyPhase p = 0 ∧ r = { getAt s.access.stats i with clear := bump top32 (getAt s.access.stats i).clear } ∨
      keyPhase p = 1 ∧ r = { getAt s.access.stats i with badPhase := bump top32 (getAt s.access.stats i).badPhase } ∨
      (keyPhase p = 2 ∨ keyPhase p = 3) ∧
        r = { getAt s.access.stats i with withoutSlot := bump top32 (getAt s.access.stats i).withoutSlot }) :
    classifySlotless i p s = s.withStats i r := by
  rcases h with ⟨h, rfl⟩ | ⟨h, rfl⟩ | ⟨h | h, rfl⟩ <;> simp [classifySlotless, countDescrambler_eq, h]

end

/-- Settles O58: copies by payload, phase and key; a packet with a slot by phase and key, reported where the lapse changes. -/
theorem descramblerClassifies : Obligations.DescramblerClassifies := by
  refine ⟨fun s x p => ⟨presentationCopy_bare, presentationCopy_clear, fun hp h1 => ?reserved, fun hp h0 hx => ?slotless,
    fun k y key hp hx hy hkey => ?keyed, fun q _ hq => keyPhase_presentationCopy hq⟩, ?classified, ?uncounted⟩
  case reserved =>
    rw [presentationCopy_scrambled hp (by simp [h1]), h1]
    simp [keyFor_reserved]
  case slotless => simp [presentationCopy_scrambled hp h0, slotOf, hx]
  case keyed =>
    have hkey : y.keyIs p key := hkey
    simp [presentationCopy_scrambled hp hkey.phase.1, slotOf, hx, hy, hkey.keyFor]
  case uncounted =>
    rintro i p s r r' rfl hr
    exact classifySlotless_eq i hr
  case classified =>
    intro i p k s x r after hs hr hafter
    obtain rfl : after = s.classified i k := hafter
    subst hr
    refine ⟨classifySlot_clear i hs, classifySlot_reserved i hs, fun key v hkey => ⟨fun hn hv => ?_, fun hn hstay => ?_,
      fun hn hl hr => ?_⟩⟩
    · rw [classifySlot_keyed i hs hkey hn]
      subst hv
      exact ⟨fun hl => updateSlot_counted_alike hs ((keyedSlot_alike_iff x).2 hl), fun hl =>
        updateSlot_counted_reported hs rfl (mt (keyedSlot_alike_iff x).1 (by simp [hl]))⟩
    · subst hn
      rw [classifySlot_unkeyed i hs hkey, unkeyedSlot_stays hstay]
      exact updateSlot_counted_alike hs ⟨rfl, rfl, rfl, rfl⟩
    · subst hn
      rw [classifySlot_unkeyed i hs hkey, unkeyedSlot_lapses hl hr]
      exact updateSlot_counted_reported hs rfl fun h => Bool.false_ne_true (hl.symm.trans h.lapsed)

end Sys2Proof.Machine

/-! Key messages (O43). -/

namespace Sys2Proof.Machine

/-! ### A key message offered to a slot (R86) -/

section
variable {k : SlotNo} {i : Input} {stream : Nat} {h : SectionHeader} {body : List Byte} {s : State} {x : Slot} {home : Nat}

theorem keySection_gated (hg : s.access.fuses = none ∨ s.access.home = none ∨ s.slot k = none) :
    keySection k i stream h body s = s := by
  unfold keySection
  split
  · next hf hh hk => simp [hf, hh, hk] at hg
  · rfl

theorem keySection_otherPair (hk : s.slot k = some x) (hp : x.input ≠ i ∨ x.stream ≠ stream) :
    keySection k i stream h body s = s := by
  have hpair : ¬(x.input = i && x.stream = stream) = true := by
    simpa [Classical.or_iff_not_imp_left] using hp
  unfold keySection
  split
  · next y _ _ hy =>
    cases hk.symm.trans hy
    exact if_neg hpair
  · rfl

theorem keyMessage_unreadable
    (hm : readKeyMessage body = none ∨ ∃ m, readKeyMessage body = some m ∧ m.tier ≠ h.extension) :
    (readKeyMessage body).filter (fun m => m.tier == h.extension) = none := by
  rcases hm with hm | ⟨m, hm, ht⟩
  · simp [hm]
  · simp [hm, Option.filter, ht]

theorem keyMessage_readable {m : KeyBody} (hm : readKeyMessage body = some m) (ht : m.tier = h.extension) :
    (readKeyMessage body).filter (fun m => m.tier == h.extension) = some m := by
  simp [hm, Option.filter, ht]

theorem keySection_malformed (hf : s.access.fuses ≠ none) (hh : s.access.home = some home) (hk : s.slot k = some x)
    (hm : (readKeyMessage body).filter (fun m => m.tier == h.extension) = none) :
    keySection k x.input x.stream h body s = s.setSlot k (some { x with malformed := bump top16 x.malformed }) := by
  obtain ⟨f, hf⟩ := Option.ne_none_iff_exists'.1 hf
  simp [keySection, hf, hh, hk, hm]

theorem keySection_taken {m : KeyBody} (hf : s.access.fuses ≠ none) (hh : s.access.home = some home)
    (hk : s.slot k = some x) (hm : (readKeyMessage body).filter (fun m => m.tier == h.extension) = some m) :
    keySection k x.input x.stream h body s = takeKeyMessage k x home m s := by
  obtain ⟨f, hf⟩ := Option.ne_none_iff_exists'.1 hf
  simp [keySection, hf, hh, hk, hm]

end

/-! ### The sequence test (R89) -/

section
variable {x : Slot} {seq last : Nat}

theorem keySeqTest_duplicate (hi : x.input ≠ pb) (hl : x.lastSeq = some last) (h : seq % 65536 = last % 65536) :
    keySeqTest x seq = .duplicate := by
  have hd : ((seq : Int) - (last : Int)) % 65536 = 0 := by omega
  simp only [keySeqTest, if_neg hi, hl, hd, if_true]

theorem keySeqTest_stale (hi : x.input ≠ pb) (hl : x.lastSeq = some last)
    (h : 32768 ≤ (seq + 65536 - last % 65536) % 65536) : keySeqTest x seq = .stale := by
  have h0 : ¬((seq : Int) - (last : Int)) % 65536 = 0 := by omega
  have hd : ¬((seq : Int) - (last : Int)) % 65536 ≤ 32767 := by omega
  simp only [keySeqTest, if_neg hi, hl, if_neg h0, if_neg hd]

theorem keySeqTest_accepted
    (h : x.input = pb ∨ x.lastSeq = none ∨
      ∃ last, x.lastSeq = some last ∧ 1 ≤ (seq + 65536 - last % 65536) % 65536 ∧
        (seq + 65536 - last % 65536) % 65536 ≤ 32767) :
    keySeqTest x seq = .accepted := by
  by_cases hi : x.input = pb
  · exact if_pos hi
  rcases h.resolve_left hi with hl | ⟨last, hl, h1, hd⟩
  · simp only [keySeqTest, if_neg hi, hl]
  · have h0 : ¬((seq : Int) - (last : Int)) % 65536 = 0 := by omega
    have hd : ((seq : Int) - (last : Int)) % 65536 ≤ 32767 := by omega
    simp only [keySeqTest, if_neg hi, hl, if_neg h0, if_pos hd]

end

/-! ### Network, tier, check value and sequence (R87 to R90) -/

section
variable {k : SlotNo} {x : Slot} {home : Nat} {m : KeyBody} {s : State} {r : Entitlement}

theorem takeKeyMessage_wrongNetwork (hn : m.network ≠ home) :
    takeKeyMessage k x home m s = logException .wrongNetwork x.input x.stream (some m.tier) m.seq s :=
  if_pos hn

theorem takeKeyMessage_notEntitled (hn : m.network = home) (ht : ∀ r ∈ s.access.entitlements, r.tier ≠ m.tier) :
    takeKeyMessage k x home m s =
      updateSlot k { x with refused := true }
        (logException .notEntitled x.input x.stream (some m.tier) m.seq s) := by
  have hf : s.access.entitlements.find? (fun r => r.tier == m.tier) = none := by simpa using ht
  simp only [takeKeyMessage, if_neg (not_not.2 hn), hf]

theorem takeKeyMessage_integrity (hn : m.network = home)
    (hr : s.access.entitlements.find? (fun r => r.tier == m.tier) = some r)
    (hc : Config.checkValue r.key m.plain ≠ m.check) :
    takeKeyMessage k x home m s = logException .integrity x.input x.stream (some m.tier) m.seq s := by
  simp only [takeKeyMessage, if_neg (not_not.2 hn), hr, if_pos hc]

theorem takeKeyMessage_duplicate (hn : m.network = home)
    (hr : s.access.entitlements.find? (fun r => r.tier == m.tier) = some r)
    (hc : Config.checkValue r.key m.plain = m.check) (hs : keySeqTest x m.seq = .duplicate) :
    takeKeyMessage k x home m s = s.setSlot k (some { x with duplicates := bump top16 x.duplicates }) := by
  simp only [takeKeyMessage, if_neg (not_not.2 hn), hr, if_neg (not_not.2 hc), hs]

theorem takeKeyMessage_stale (hn : m.network = home)
    (hr : s.access.entitlements.find? (fun r => r.tier == m.tier) = some r)
    (hc : Config.checkValue r.key m.plain = m.check) (hs : keySeqTest x m.seq = .stale) :
    takeKeyMessage k x home m s = logException .stale x.input x.stream (some m.tier) m.seq s := by
  simp only [takeKeyMessage, if_neg (not_not.2 hn), hr, if_neg (not_not.2 hc), hs]

theorem takeKeyMessage_accepted (hn : m.network = home)
    (hr : s.access.entitlements.find? (fun r => r.tier == m.tier) = some r)
    (hc : Config.checkValue r.key m.plain = m.check) (hs : keySeqTest x m.seq = .accepted) :
    takeKeyMessage k x home m s = updateSlot k (installed x m r.key) s := by
  simp only [takeKeyMessage, if_neg (not_not.2 hn), hr, if_neg (not_not.2 hc), hs]

end

/-! ### What a message shows on its slot (R85) -/

theorem slot_logException (kind : ExceptionKind) (i : Input) (stream : Nat) (tier : Option Nat) (seq : Nat) (s : State)
    (k : SlotNo) : (logException kind i stream tier seq s).slot k = s.slot k :=
  congrArg (getAt · k) (logException_slots kind i stream tier seq s)

theorem refused_alike_iff (x : Slot) : x.Alike { x with refused := true } ↔ x.refused = true :=
  ⟨Slot.Alike.refused, fun hr => ⟨rfl, hr, rfl, rfl⟩⟩

/-- An install never touches the lapse. -/
theorem installed_alike_iff (x : Slot) (m : KeyBody) (key : Key) :
    x.Alike (installed x m key) ↔
      (x.even.isSome || x.odd.isSome) = ((installed x m key).even.isSome || (installed x m key).odd.isSome) ∧
        x.refused = false ∧ x.tier = some m.tier :=
  ⟨fun h => ⟨h.keyed, h.refused, h.tier⟩, fun ⟨hk, hr, ht⟩ => ⟨hk, hr, ht, rfl⟩⟩

/-- Settles O43: the gates and the form; then network, tier, check value and sequence, and the report by what the slot shows. -/
theorem keyMessages : Obligations.KeyMessages := by
  refine ⟨fun k i stream h body s => ⟨fun hg => ?gates, fun x home hf hh hk hi hst => ⟨fun hm => ?malformed,
    fun m hm ht => ?taken⟩⟩, fun k x home m s hk => ⟨takeKeyMessage_wrongNetwork, fun v hn ht hv => ?notHeld,
    fun r hn hr => ⟨takeKeyMessage_integrity hn hr, fun hc => ⟨fun last hi hl => ⟨fun hd => ?duplicate,
      fun hd => ?stale⟩, fun y hseq hy => ?installed⟩⟩⟩⟩
  case gates =>
    rcases hg with hg | hg | hg | ⟨x, hk, hp⟩
    · exact keySection_gated (.inl hg)
    · exact keySection_gated (.inr (.inl hg))
    · exact keySection_gated (.inr (.inr hg))
    · exact keySection_otherPair hk hp
  case malformed =>
    subst hi hst
    exact keySection_malformed hf hh hk (keyMessage_unreadable hm)
  case taken =>
    subst hi hst
    exact keySection_taken hf hh hk (keyMessage_readable hm ht)
  case notHeld =>
    subst hv
    rw [takeKeyMessage_notEntitled hn ht]
    have hk := (slot_logException .notEntitled x.input x.stream (some m.tier) m.seq s k).trans hk
    exact ⟨fun hr => updateSlot_alike hk ((refused_alike_iff x).2 hr), fun hr =>
      updateSlot_reported hk rfl (mt (refused_alike_iff x).1 (by simp [hr]))⟩
  case duplicate => exact takeKeyMessage_duplicate hn hr hc (keySeqTest_duplicate hi hl hd)
  case stale => exact takeKeyMessage_stale hn hr hc (keySeqTest_stale hi hl hd)
  case installed =>
    obtain rfl : y = installed x m r.key := by
      rw [hy]
      cases he : m.even <;> cases ho : m.odd <;> simp [installed, he, ho]
    rw [takeKeyMessage_accepted hn hr hc (keySeqTest_accepted hseq)]
    refine ⟨fun hkeyed href htier => updateSlot_alike hk ((installed_alike_iff x m r.key).2 ⟨hkeyed, href, htier⟩),
      fun hdiff => updateSlot_reported hk rfl fun h => ?_⟩
    obtain ⟨hkeyed, href, htier⟩ := (installed_alike_iff x m r.key).1 h
    rcases hdiff with hd | hd | hd
    · exact hd hkeyed
    · exact Bool.false_ne_true (href.symm.trans hd)
    · exact hd htier

end Sys2Proof.Machine

/-! Key slot joins and leaves, service maps, and the changes of map, key stream and map stream (O32). -/

namespace Sys2Proof.Machine

/-! ### The slot of a pair, and the lowest-numbered FREE slot (R82, R83) -/

/-- The first slot that meets a test is the one of lowest number. -/
theorem find?_slotNos {p : SlotNo → Bool} {k : SlotNo} (hk : p k = true) (hlow : ∀ j < k, p j = false) :
    slotNos.find? p = some k := by
  have hat (j : SlotNo) : slotNos[j.val]'j.isLt = j := by revert j; decide
  refine List.find?_eq_some_iff_getElem.2 ⟨hk, k.val, k.isLt, hat k, fun j hj => ?_⟩
  have hp : p (slotNos[j]'(hj.trans k.isLt)) = false :=
    (congrArg p (hat ⟨j, hj.trans k.isLt⟩)).trans (hlow ⟨j, hj.trans k.isLt⟩ hj)
  exact congrArg (! ·) hp

/-- A slot is that of a pair (input, key stream). -/
def State.slotServes (s : State) (i : Input) (stream : Nat) (k : SlotNo) : Prop :=
  ∃ y, s.slot k = some y ∧ y.input = i ∧ y.stream = stream

theorem slotServes_iff (s : State) (i : Input) (stream : Nat) (k : SlotNo) :
    (s.slot k).any (fun x => x.input == i && x.stream == stream) = true ↔ s.slotServes i stream k := by
  simp [State.slotServes, Option.any_eq_true]

theorem slotServes_eq_false {s : State} {i : Input} {stream : Nat} {k : SlotNo} (h : ¬s.slotServes i stream k) :
    (s.slot k).any (fun x => x.input == i && x.stream == stream) = false :=
  Bool.eq_false_iff.2 (mt (slotServes_iff s i stream k).1 h)

section
variable {i : Input} {stream : Nat} {s : State}

theorem findSlot_some {k : SlotNo} (hk : s.slotServes i stream k) (hlow : ∀ j < k, ¬s.slotServes i stream j) :
    findSlot i stream s = some k :=
  find?_slotNos ((slotServes_iff ..).2 hk) fun j hj => slotServes_eq_false (hlow j hj)

theorem findSlot_none (h : ∀ j, ¬s.slotServes i stream j) : findSlot i stream s = none :=
  List.find?_eq_none.2 fun j _ => Bool.eq_false_iff.1 (slotServes_eq_false (h j))

/-! ### Joins and leaves (R83, R84) -/

variable (c : CtxNo)

theorem joinSlot_held {k : SlotNo} {y : Slot} (hk : s.slotServes i stream k) (hlow : ∀ j < k, ¬s.slotServes i stream j)
    (hy : s.slot k = some y) :
    joinSlot c i stream s = (some k, s.setSlot k (some { y with users := addBit y.users c })) := by
  simp only [joinSlot, findSlot_some hk hlow, hy, Option.map_some]

theorem joinSlot_new {k : SlotNo} (hn : ∀ j, ¬s.slotServes i stream j) (hk : s.slot k = none)
    (hlow : ∀ j < k, s.slot j ≠ none) :
    joinSlot c i stream s = (some k, s.setSlot k (some (newSlot c i stream))) := by
  have hfree : slotNos.find? (fun k => (s.slot k).isNone) = some k :=
    find?_slotNos (by simp [hk]) fun j hj => Option.isNone_eq_false_iff.2 (Option.isSome_iff_ne_none.2 (hlow j hj))
  simp only [joinSlot, findSlot_none hn, hfree]

theorem joinSlot_full (hn : ∀ j, ¬s.slotServes i stream j) (hfull : ∀ j, s.slot j ≠ none) :
    joinSlot c i stream s = (none, s) := by
  have hfree : slotNos.find? (fun k => (s.slot k).isNone) = none :=
    List.find?_eq_none.2 fun j _ => by simpa using hfull j
  simp only [joinSlot, findSlot_none hn, hfree]

end

section
variable {c : CtxNo} {k : SlotNo} {s : State} {y : Slot}

theorem leaveSlot_free (hk : s.slot k = none) : leaveSlot c k s = s := by
  simp only [leaveSlot, hk]

theorem leaveSlot_stranger (hk : s.slot k = some y) (hu : hasBit y.users c = false) : leaveSlot c k s = s := by
  simp [leaveSlot, hk, hu]

theorem leaveSlot_last (hk : s.slot k = some y) (hu : hasBit y.users c = true) (he : dropBit y.users c = 0) :
    leaveSlot c k s = s.setSlot k none := by
  simp only [leaveSlot, hk, hu, he, if_true]

theorem leaveSlot_shared (hk : s.slot k = some y) (hu : hasBit y.users c = true) (he : dropBit y.users c ≠ 0) :
    leaveSlot c k s = s.setSlot k (some { y with users := dropBit y.users c }) := by
  simp only [leaveSlot, hk, hu, if_true, if_neg he]

end

/-! ### Usable maps, and what a context takes from one (R104) -/

theorem usableMap_iff (x : Context) (body : List Byte) (m : MapBody) :
    usableMap x body = some m ↔
      readMap body = some m ∧ m.components ≠ [] ∧ (m.components.map Component.stream).Nodup ∧
        (x.input ≠ pb → (∀ k ∈ m.components, admissible x.input k.stream = true) ∧
          ∀ k, m.keyStream = some k → admissible x.input k = true) := by
  have htests (m : MapBody) :
      (!m.components.isEmpty && decide ((m.components.map Component.stream).Nodup) &&
        (x.input == pb ||
          (m.components.all (fun k => admissible x.input k.stream) && m.keyStream.all (admissible x.input)))) = true ↔
      m.components ≠ [] ∧ (m.components.map Component.stream).Nodup ∧
        (x.input ≠ pb → (∀ k ∈ m.components, admissible x.input k.stream = true) ∧
          ∀ k, m.keyStream = some k → admissible x.input k = true) := by
    simp only [Bool.and_eq_true, Bool.or_eq_true, Bool.not_eq_true', List.isEmpty_eq_false_iff, decide_eq_true_eq,
      beq_iff_eq, List.all_eq_true, Option.all_eq_true, and_assoc, or_iff_not_imp_left]
  simp only [usableMap, Option.bind_eq_some_iff, Option.ite_none_right_eq_some, htests, Option.some.injEq]
  constructor
  · rintro ⟨n, hn, ht, rfl⟩
    exact ⟨hn, ht⟩
  · rintro ⟨hn, ht⟩
    exact ⟨m, hn, ht, rfl⟩

theorem usedComponents_length (x : Context) (m : MapBody) :
    (usedComponents x m).length = min 8 m.components.length := by
  simp [usedComponents, componentIndices, Nat.min_comm]

theorem componentIndices_getElem? {j : Nat} (h : j < 8) : componentIndices[j]? = some ⟨j, h⟩ := by
  have hall (j : Fin 8) : componentIndices[j.val]? = some j := by revert j; decide
  exact hall ⟨j, h⟩

theorem usedComponents_getElem? {x : Context} {m : MapBody} {j : Nat} {k : Component} (hj : j < 8)
    (hk : m.components[j]? = some k) :
    (usedComponents x m)[j]? =
      some (if x.input = pb then { k with stream := 0x1000 + x.service * 64 + (2 + j) } else k) := by
  have hz : (m.components.zip componentIndices)[j]? = some (k, ⟨j, hj⟩) :=
    List.getElem?_zip_eq_some.2 ⟨hk, componentIndices_getElem? hj⟩
  simp only [usedComponents, List.getElem?_map, hz, Option.map_some, captureStream]

theorem usedKeyStream_eq (x : Context) (m : MapBody) :
    usedKeyStream x m =
      if x.input = pb then m.keyStream.map (fun _ => 0x1000 + x.service * 64 + 1) else m.keyStream := by
  by_cases h : x.input = pb <;> simp [usedKeyStream, captureStream, h]

/-! ### A map section offered to a context (R104, R119) -/

/-- A context whose state and identity let it look at a map section. -/
structure Context.TakesMap (x : Context) (h : SectionHeader) : Prop where
  stage : x.state ∈ [CtxState.map, .key, .entry, .running]
  own : x.input = pb ∨ h.extension = x.service

section
variable {c : CtxNo} {h : SectionHeader} {body : List Byte} {s : State}

theorem mapSection_ignored
    (hx : (s.context c).state = .free ∨ (s.context c).state = .locate ∨ (s.context c).state = .retiring ∨
      (s.context c).input ≠ pb ∧ h.extension ≠ (s.context c).service) :
    mapSection c h body s = s := by
  rcases hx with hx | hx | hx | ⟨hi, he⟩
  · simp [mapSection, hx]
  · simp [mapSection, hx]
  · simp [mapSection, hx]
  · have hother : ((s.context c).input != pb && h.extension != (s.context c).service) = true := by simp [hi, he]
    simp only [mapSection, if_pos hother, ite_self]

/-- The two tests that come first are passed. -/
theorem Context.TakesMap.tests {x : Context} (hx : x.TakesMap h) :
    ¬(x.state = .free || x.state = .locate || x.state = .retiring) = true ∧
      ¬(x.input != pb && h.extension != x.service) = true := by
  have hstage := hx.stage
  simp only [List.mem_cons, List.not_mem_nil, or_false] at hstage
  refine ⟨by rcases hstage with hs | hs | hs | hs <;> simp [hs], ?_⟩
  rcases hx.own with hi | he
  · simp [hi]
  · simp [he]

theorem mapSection_unusable (hx : (s.context c).TakesMap h) (hu : usableMap (s.context c) body = none) :
    mapSection c h body s =
      s.setContext c { s.context c with malformed := bump top16 (s.context c).malformed } := by
  simp only [mapSection, if_neg hx.tests.1, if_neg hx.tests.2, hu]

theorem mapSection_usable (hx : (s.context c).TakesMap h) {m : MapBody} (hu : usableMap (s.context c) body = some m) :
    mapSection c h body s =
      if (s.context c).state = .map then takeMap c h.version m s
      else if (s.context c).mapVersion = some h.version then s else changeMap c h.version m s := by
  simp only [mapSection, if_neg hx.tests.1, if_neg hx.tests.2, hu]

end

/-! ### Adding component purposes (R104, R119) -/

section
variable {i : Input} {c : CtxNo} {stream : Nat} {k : Fin 8} {s v : State} {r : AddResult}

theorem addComponents_refused (l : List (Nat × Fin 8))
    (ha : addUser i stream .component (.ctx c (.component k)) s = (r, v)) (hr : r ≠ .granted) :
    addComponents i c ((stream, k) :: l) s = (false, [], s) := by
  have hv : v = s := by
    have hkeeps := (addUser_keeps i stream .component (.ctx c (.component k)) s).2
    rw [ha] at hkeeps
    exact hkeeps hr
  subst hv
  cases r with
  | granted => exact absurd rfl hr
  | tableFull | conflict | inadmissible => simp only [addComponents, ha]

theorem addComponents_granted {l added : List (Nat × Fin 8)} {a : Bool} {w : State}
    (ha : addUser i stream .component (.ctx c (.component k)) s = (.granted, v))
    (hl : addComponents i c l v = (a, added, w)) :
    addComponents i c ((stream, k) :: l) s =
      (a, if holdsPurpose i stream c (.component k) s then added else (stream, k) :: added, w) := by
  simp only [addComponents, ha, hl]

end

/-! ### A change of the map (R119, R120; log 45) -/

theorem setContext_self (s : State) (c : CtxNo) : s.setContext c (s.context c) = s := by
  have hsame : setAt s.ctl.contexts c (s.context c) = s.ctl.contexts := ext_getAt fun d => by
    rw [getAt_setAt]
    split_ifs with hd
    · exact hd ▸ rfl
    · rfl
  simp only [State.setContext, hsame]

/-- A context with the map overflow count raised where a map lists more than 8 components. -/
def Context.mapCounted (x : Context) (m : MapBody) : Context :=
  { x with overflow := if 8 < m.components.length then bump top16 x.overflow else x.overflow }

theorem countMapOverflow_eq (c : CtxNo) (m : MapBody) (s : State) :
    countMapOverflow c m s = s.setContext c ((s.context c).mapCounted m) := by
  unfold countMapOverflow Context.mapCounted
  split_ifs
  · rfl
  · exact (setContext_self s c).symm

/-- The component purposes of the list a context has that are not in the new one. -/
def Context.leavingPurposes (x : Context) (new : List (Nat × Fin 8)) : List (Nat × Fin 8) :=
  (componentStreams x.components).filter (fun r => !new.contains r)

/-- The part with a granted map recorded and the old purposes gone, before the verdicts. -/
def recordedMap (c : CtxNo) (version : Nat) (m : MapBody) (x : Context) (v : State) : State :=
  (removeComponents x.input c (x.leavingPurposes (componentStreams (usedComponents x m))) v).setContext c
    (recordMap x version m)

section
variable {c : CtxNo} {version : Nat} {m : MapBody} {s v : State} {x : Context} {added : List (Nat × Fin 8)}

theorem changeMap_refused (hx : x = (s.context c).mapCounted m)
    (ha : addComponents x.input c (componentStreams (usedComponents x m)) (s.setContext c x) = (false, added, v)) :
    changeMap c version m s =
      (removeComponents x.input c added v).setContext c { x with refused := bump top16 x.refused } := by
  simp only [changeMap, countMapOverflow_eq, ← hx, context_setContext, if_true, ha]

theorem changeMap_granted (hx : x = (s.context c).mapCounted m)
    (ha : addComponents x.input c (componentStreams (usedComponents x m)) (s.setContext c x) = (true, added, v)) :
    changeMap c version m s =
      if usedKeyStream x m = x.keyStream then rejudgeVerdicts (· == c) (recordedMap c version m x v)
      else moveKeyStream c (usedKeyStream x m) (rejudgeVerdicts (· == c) (recordedMap c version m x v)) := by
  simp only [changeMap, countMapOverflow_eq, ← hx, context_setContext, if_true, ha]
  rfl

end

/-! ### A change of the key stream (R120) -/

/-- One context's reasons judged again: only hold sets change, and those of its destinations are as the state gives them. -/
theorem rejudge_own (w : Which) (c : CtxNo) (s : State) :
    HoldsOnly s (rejudge w (· == c) s) ∧ JudgedOn (rejudge w (· == c) s) w (· = c) :=
  ⟨.rejudge w _ s, (rejudge_judgedOn w (· == c) s).mono fun _ hd => beq_iff_eq.2 hd⟩

theorem dropKeyStream_held {x : Context} {st : Nat} {k : SlotNo} (c : CtxNo) (hst : x.keyStream = some st)
    (hk : x.slot = some k) (s : State) :
    dropKeyStream c x s = leaveSlot c k (removePurpose x.input st c (.keys k) s) := by
  simp only [dropKeyStream, hst, hk]

theorem dropKeyStream_none {x : Context} (c : CtxNo) (h : x.keyStream = none ∨ x.slot = none) (s : State) :
    dropKeyStream c x s = s := by
  rcases h with h | h
  · simp only [dropKeyStream, h]
  · cases hst : x.keyStream <;> simp only [dropKeyStream, hst, h]

section
variable {c : CtxNo} {s v w : State} {stream : Nat} {k : SlotNo} {r : AddResult}

theorem moveKeyStream_gone (c : CtxNo) (s : State) :
    moveKeyStream c none s =
      rejudge judgeSlot (· == c) ((dropKeyStream c (s.context c) s).setContext c
        { s.context c with
          keyStream := none, slot := none
          state := if (s.context c).state = .key then .entry else (s.context c).state }) := rfl

theorem moveKeyStream_noSlot (hj : joinSlot c (s.context c).input stream s = (none, v)) :
    moveKeyStream c (some stream) s = v := by
  simp only [moveKeyStream, hj]

theorem moveKeyStream_refused (hj : joinSlot c (s.context c).input stream s = (some k, v))
    (ha : addUser (s.context c).input stream .sections (.ctx c (.keys k)) v = (r, w)) (hr : r ≠ .granted) :
    moveKeyStream c (some stream) s = leaveSlot c k w := by
  cases r with
  | granted => exact absurd rfl hr
  | tableFull | conflict | inadmissible => simp only [moveKeyStream, hj, ha]

theorem moveKeyStream_granted (hj : joinSlot c (s.context c).input stream s = (some k, v))
    (ha : addUser (s.context c).input stream .sections (.ctx c (.keys k)) v = (.granted, w)) :
    moveKeyStream c (some stream) s =
      judgeKey c (rejudge judgeSlot (· == c) ((dropKeyStream c (s.context c) w).setContext c
        { s.context c with
          keyStream := some stream, slot := some k
          state :=
            if (s.context c).state = .entry ∧ (s.context c).keyStream = none then .key
            else (s.context c).state })) := by
  simp only [moveKeyStream, hj, ha, Bool.and_eq_true, decide_eq_true_eq, Option.isNone_iff_eq_none]

end

/-! ### A change of the map stream (R121) -/

theorem indexInUse_port (s : State) (p : PortNo) : indexInUse s (inputOf p) = (getAt s.guide.index p).inUse := by
  have hp : place 4 (inputOf p).val = some p := place_some p rfl
  simp only [indexInUse, hp, Option.bind_some]

section
variable {c : CtxNo} {p : PortNo} {s v : State} {stream : Nat} {r : AddResult}

/-- The map stream that a port's index in use lists for a service. -/
def State.listedStream (s : State) (p : PortNo) (service : Nat) : Option Nat :=
  (getAt s.guide.index p).inUse.bind fun r => r.lists service

theorem listedStream_eq (hi : (s.context c).input = inputOf p) :
    s.listedStream p (s.context c).service =
      (indexInUse s (s.context c).input).bind fun r => r.lists (s.context c).service := by
  rw [hi, indexInUse_port, State.listedStream]

theorem moveMapStream_kept (hi : (s.context c).input = inputOf p)
    (hl : s.listedStream p (s.context c).service = none ∨
      s.listedStream p (s.context c).service = (s.context c).mapStream) : moveMapStream c s = s := by
  rw [listedStream_eq hi] at hl
  unfold moveMapStream
  dsimp only
  split
  · rfl
  · next st hst =>
    rw [hst] at hl
    exact if_pos (hl.resolve_left (Option.some_ne_none st)).symm

variable (hi : (s.context c).input = inputOf p) (hl : s.listedStream p (s.context c).service = some stream)
include hi hl

theorem moveMapStream_refused (hm : (s.context c).mapStream ≠ some stream)
    (ha : addUser (s.context c).input stream .sections (.ctx c .map) s = (r, v)) (hr : r ≠ .granted) :
    moveMapStream c s = v.setContext c { s.context c with refused := bump top16 (s.context c).refused } := by
  rw [listedStream_eq hi] at hl
  cases r with
  | granted => exact absurd rfl hr
  | tableFull | conflict | inadmissible => simp only [moveMapStream, hl, if_neg hm, ha]

theorem moveMapStream_first
    (ha : addUser (s.context c).input stream .sections (.ctx c .map) s = (.granted, v))
    (ho : (s.context c).mapStream = none) :
    moveMapStream c s = v.setContext c { s.context c with mapStream := some stream } := by
  rw [listedStream_eq hi] at hl
  simp [moveMapStream, hl, ha, ho]

theorem moveMapStream_moved (hm : (s.context c).mapStream ≠ some stream) {old : Nat}
    (ha : addUser (s.context c).input stream .sections (.ctx c .map) s = (.granted, v))
    (ho : (s.context c).mapStream = some old) :
    moveMapStream c s =
      (removePurpose (s.context c).input old c .map v).setContext c { s.context c with mapStream := some stream } := by
  rw [listedStream_eq hi] at hl
  simp only [moveMapStream, hl, if_neg hm, ha]
  rw [ho]

end

/-- Settles O32: joins and leaves by the slots there are, map sections by form and version, and the changes of map, key stream
and map stream by what the additions answer. -/
theorem keySlotsAndMapChanges : Obligations.KeySlotsAndMapChanges := by
  refine ⟨?joins, fun c k s => ⟨leaveSlot_free, fun y hk => ⟨leaveSlot_stranger hk, leaveSlot_last hk, leaveSlot_shared hk⟩⟩,
    fun x body m => ⟨usableMap_iff x body m, usedComponents_length x m, fun j k => usedComponents_getElem?,
      usedKeyStream_eq x m⟩, ?sections, fun i c stream k l s => ⟨rfl, fun r v ha => ⟨addComponents_refused l ha, ?adds⟩, rfl⟩,
    ?changes, ?keyStreams, ?mapStreams⟩
  case joins =>
    rintro c i stream s mine hmine
    obtain rfl : mine = s.slotServes i stream := hmine
    exact ⟨fun k y hk hlow hy => joinSlot_held c hk hlow hy, fun k hn hk hlow => joinSlot_new c hn hk hlow, joinSlot_full c⟩
  case sections =>
    rintro c h body s x rfl
    refine ⟨mapSection_ignored, fun hstage hown => ?_⟩
    have hx : (s.context c).TakesMap h := ⟨hstage, hown⟩
    refine ⟨mapSection_unusable hx, fun m hu => ?_⟩
    rw [mapSection_usable hx hu]
    exact ⟨fun hm => if_pos hm, fun hm hv => by rw [if_neg hm, if_pos hv], fun hm hv => by rw [if_neg hm, if_neg hv]⟩
  case adds =>
    rintro a w added rfl hl
    exact addComponents_granted ha hl
  case changes =>
    intro c version m s x new ok added v hx hnew ha
    subst hnew
    refine ⟨fun hok => ?_, fun hok => ?_⟩
    · subst hok
      exact changeMap_refused hx ha
    · subst hok
      rw [changeMap_granted hx ha]
      exact ⟨_, .rejudgeVerdicts _ (recordedMap c version m x v),
        (rejudgeVerdicts_on _ _).mono fun _ _ hd => beq_iff_eq.2 hd, fun hks => if_pos hks, fun hks => if_neg hks⟩
  case keyStreams =>
    rintro c s x left rfl hleft
    obtain rfl : left = dropKeyStream c (s.context c) := by
      rw [hleft]
      funext u
      cases hst : (s.context c).keyStream with
      | none => exact (dropKeyStream_none c (.inl hst) u).symm
      | some st =>
        cases hk : (s.context c).slot with
        | none => exact (dropKeyStream_none c (.inr hk) u).symm
        | some k => exact (dropKeyStream_held c hst hk u).symm
    refine ⟨⟨_, (rejudge_own judgeSlot c _).1, (rejudge_own judgeSlot c _).2, moveKeyStream_gone c s⟩, fun stream =>
      ⟨fun v => moveKeyStream_noSlot, fun k v r w hj ha => ⟨moveKeyStream_refused hj ha, ?_⟩⟩⟩
    rintro rfl
    exact ⟨_, (rejudge_own judgeSlot c _).1, (rejudge_own judgeSlot c _).2, moveKeyStream_granted hj ha⟩
  case mapStreams =>
    rintro c p s x rfl hi
    refine ⟨moveMapStream_kept hi, fun stream r v hl hm ha => ⟨moveMapStream_refused hi hl hm ha, ?_, ?_⟩⟩
    · rintro rfl ho
      exact moveMapStream_first hi hl ha ho
    · rintro old rfl ho
      exact moveMapStream_moved hi hl hm ha ho

end Sys2Proof.Machine

/-! Drain counts and identities through every step (O50, O51). -/

namespace Sys2Proof.Machine

/-- Settles O50: every step carries the agreement of the drain and capture counts with the queues over. -/
theorem stepsKeepTheDrainCounts : Obligations.StepsKeepTheDrainCounts :=
  fun _ _ hs h => (step_carries h).drains hs

/-- Settles O51: every step carries it over that identities are distinct. -/
theorem stepsKeepIdentitiesDistinct : Obligations.StepsKeepIdentitiesDistinct :=
  fun _ _ hs h => (step_carries h).idents hs

end Sys2Proof.Machine

/-! A context retires and is freed, and a departure that frees it (O17). -/

namespace Sys2Proof.Machine

/-! ### A context is freed (R114; logs 32, 41) -/

theorem leaveSlot_eq (c : CtxNo) (k : SlotNo) (s : State) :
    leaveSlot c k s = { s with access := { s.access with slots := (leaveSlot c k s).access.slots } } := by
  unfold leaveSlot
  split
  · rfl
  · split <;> rfl

/-- A leave reads and writes the slots alone. -/
theorem leaveSlot_access {s t : State} (h : t.access = s.access) (c : CtxNo) (k : SlotNo) :
    (leaveSlot c k t).access = (leaveSlot c k s).access := by
  have hk : t.slot k = s.slot k := congrArg (fun a : Access => getAt a.slots k) h
  unfold leaveSlot
  rw [hk]
  cases s.slot k with
  | none => exact h
  | some y =>
    dsimp only
    split
    · exact congrArg (fun a : Access => { a with
        slots := setAt a.slots k (if dropBit y.users c = 0 then none else some { y with users := dropBit y.users c }) }) h
    · exact h

/-- The slots once context `c` has left slot `k`, where it has one. -/
def State.slotsLeft (s : State) (c : CtxNo) (k : Option SlotNo) : Vector (Option Slot) 16 :=
  match k with
  | some k => (leaveSlot c k s).access.slots
  | none => s.access.slots

theorem slotsLeft_access {s t : State} (h : t.access = s.access) (c : CtxNo) (k : Option SlotNo) :
    t.slotsLeft c k = s.slotsLeft c k := by
  cases k with
  | none => exact congrArg Access.slots h
  | some k => exact congrArg Access.slots (leaveSlot_access h c k)

/-- The part once context `c`, whose record is `x`, has left its slot and is FREE, and the tags DRAINING from it are IDLE. -/
def State.freed (s : State) (c : CtxNo) (x : Context) : State :=
  { s with
    access := { s.access with slots := s.slotsLeft c x.slot }
    ctl :=
      { s.ctl with
        contexts := setAt s.ctl.contexts c { Context.empty with lastFailure := x.lastFailure }
        tags := s.ctl.tags.map (fun r =>
          match r with
          | .draining c' => if c' = c then .idle else .draining c'
          | .idle => .idle
          | .bound c' w h => .bound c' w h) }
    notices := s.notices.joinAll ((tagNos.filter (fun k => (s.tag k).drainingFrom c)).map (fun k => .tagFree k)) }

theorem freeContext_eq (c : CtxNo) (s : State) : freeContext c s = s.freed c (s.context c) := by
  unfold freeContext State.freed
  dsimp only
  rw [freeTags_eq]
  cases (s.context c).slot with
  | none => rfl
  | some k =>
    dsimp only
    rw [leaveSlot_eq c k s]
    rfl

/-- What was written to the context's own record before does not show in the part once it is freed. -/
theorem freed_setContext (s : State) (c : CtxNo) (x y : Context) : (s.setContext c y).freed c x = s.freed c x := by
  simp only [State.freed, slotsLeft_access (s := s) (t := s.setContext c y) rfl, setContext_ctl_contexts, setAt_setAt]
  rfl

theorem freeIfDrained_drained {c : CtxNo} {s : State} (hr : (s.context c).state = .retiring) (hd : (s.context c).drain = 0) :
    freeIfDrained c s = s.freed c (s.context c) := by
  simp only [freeIfDrained, hr, hd, decide_true, Bool.and_self, if_true, freeContext_eq]

theorem freeIfDrained_waits {c : CtxNo} {s : State} (h : (s.context c).state ≠ .retiring ∨ (s.context c).drain ≠ 0) :
    freeIfDrained c s = s := by
  refine if_neg fun hh => ?_
  obtain ⟨hr, hd⟩ := Bool.and_eq_true_iff.1 hh
  exact h.elim (fun h => h (of_decide_eq_true hr)) (fun h => h (of_decide_eq_true hd))

/-! ### A context retires (R114) -/

/-- The part once context `c` has left every entry and is RETIRING, and the guide store is told where it ran on a tuner port. -/
def State.retired (s : State) (c : CtxNo) : State :=
  if (s.context c).state = .running ∧ (s.context c).input ≠ pb then
    endTracking (s.context c).service
      ((removeContext c s).setContext c { s.context c with state := .retiring, deadline := none })
  else (removeContext c s).setContext c { s.context c with state := .retiring, deadline := none }

theorem retired_context (s : State) (c : CtxNo) :
    (s.retired c).context c = { s.context c with state := .retiring, deadline := none } := by
  have h : (s.retired c).ctl.contexts =
      setAt s.ctl.contexts c { s.context c with state := .retiring, deadline := none } := by
    unfold State.retired
    split
    · exact endTracking_contexts _ _
    · rfl
  rw [State.context, h, getAt_setAt_self]

theorem retire_gone {c : CtxNo} {s : State} (h : (s.context c).state = .free ∨ (s.context c).state = .retiring) :
    retire c s = s := by
  rcases h with h | h <;> simp [retire, h]

theorem retire_live {c : CtxNo} {s : State} (hf : (s.context c).state ≠ .free) (hr : (s.context c).state ≠ .retiring) :
    retire c s = freeIfDrained c (s.retired c) := by
  simp [retire, State.retired, hf, hr]

theorem retire_waits {c : CtxNo} {s : State} (hf : (s.context c).state ≠ .free) (hr : (s.context c).state ≠ .retiring)
    (hd : (s.context c).drain ≠ 0) : retire c s = s.retired c := by
  rw [retire_live hf hr, freeIfDrained_waits (.inr (by rwa [retired_context]))]

theorem retire_drained {c : CtxNo} {s : State} (hf : (s.context c).state ≠ .free) (hr : (s.context c).state ≠ .retiring)
    (hd : (s.context c).drain = 0) : retire c s = (s.retired c).freed c (s.context c) := by
  rw [retire_live hf hr, freeIfDrained_drained (by rw [retired_context]) (by rwa [retired_context]), retired_context]
  rfl

/-! ### A packet departs (R161) -/

theorem lowerDrain_waits {c : CtxNo} {s : State} (h : (s.context c).state ≠ .retiring ∨ 2 ≤ (s.context c).drain) :
    lowerDrain c s = s.setContext c { s.context c with drain := (s.context c).drain - 1 } := by
  refine freeIfDrained_waits ?_
  rw [context_setContext, if_pos rfl]
  exact h.imp_right fun hd => by dsimp only; omega

theorem lowerDrain_last {c : CtxNo} {s : State} (hr : (s.context c).state = .retiring) (hd : (s.context c).drain ≤ 1) :
    lowerDrain c s = s.freed c (s.context c) := by
  have hx : (s.setContext c { s.context c with drain := (s.context c).drain - 1 }).context c =
      { s.context c with drain := (s.context c).drain - 1 } := by rw [context_setContext, if_pos rfl]
  unfold lowerDrain
  rw [freeIfDrained_drained (by rw [hx]; exact hr) (by rw [hx]; dsimp only; omega), hx]
  exact freed_setContext s c _ _

/-- Settles O17: retirement by what state and drain count are, and a departure by whether it is the last of a RETIRING
context. -/
theorem contextsRetireAndAreFreed : Obligations.ContextsRetireAndAreFreed := by
  refine ⟨?retirement, ?departure⟩
  case retirement =>
    rintro c s x u rfl hu
    obtain rfl : u = s.retired c := hu
    exact ⟨retire_gone, retire_waits, retire_drained⟩
  case departure =>
    rintro c s x rfl
    exact ⟨lowerDrain_waits, lowerDrain_last⟩

end Sys2Proof.Machine

/-! Wait deadlines and acquisition deadlines (O16). -/

namespace Sys2Proof.Machine

/-! ### A context that may have lost its last destination (R114) -/

theorem retireIfUnbound_bound {c : CtxNo} {s : State} (h : hasDestination s c = true) : retireIfUnbound c s = s := if_pos h

theorem retireIfUnbound_unbound {c : CtxNo} {s : State} (h : hasDestination s c = false) :
    retireIfUnbound c s = retire c s :=
  if_neg (Bool.eq_false_iff.1 h)

/-! ### A wait deadline is reached (R109) -/

section
variable {o : OutputNo} {k : TagNo} {s : State}

theorem outputWaitOver_idle (h : ∀ b, (s.binding o).pending = some b → (s.context b.ctx).state ≠ .running) :
    outputWaitOver o s = s := by
  unfold outputWaitOver
  split
  · rfl
  · next b hb => exact if_neg (h b hb)

theorem outputWaitOver_running {b : PendingBinding} (hb : (s.binding o).pending = some b)
    (hr : (s.context b.ctx).state = .running) :
    outputWaitOver o s = retireIfUnbound b.ctx
      { s with
        time := (advanceTo (b.wait * cyclesPerMs) s).time
        ctl := { s.ctl with outputs := setAt s.ctl.outputs o { s.binding o with pending := none } }
        notices := s.notices.join
          (.tuneFailed (.output o) b.ctx (s.context b.ctx).input (s.context b.ctx).service .noEntry) } := by
  simp only [outputWaitOver, hb, hr, if_true, offer_join]
  rfl

theorem tagWaitOver_idle (h : ∀ c w x, s.tag k = .bound c (some w) x → (s.context c).state ≠ .running) :
    tagWaitOver k s = s := by
  unfold tagWaitOver
  split
  · next c w x hk => exact if_neg (h c w x hk)
  all_goals rfl

theorem tagWaitOver_running {c : CtxNo} {w : Nat} {h : HoldSet} (hk : s.tag k = .bound c (some w) h)
    (hr : (s.context c).state = .running) :
    tagWaitOver k s = retireIfUnbound c
      { s with
        time := (advanceTo (w * cyclesPerMs) s).time
        ctl := { s.ctl with tags := setAt s.ctl.tags k .idle }
        notices := s.notices.join (.tuneFailed (.tag k) c (s.context c).input (s.context c).service .noEntry) } := by
  simp only [tagWaitOver, hk, hr, if_true, offer_join]
  rfl

end

/-! ### An acquisition deadline is reached (R110; Table 6-4) -/

theorem stageReason_some {x : CtxState} {r : FailReason}
    (h : (x, r) ∈ [(CtxState.locate, FailReason.noIndex), (.map, .noMap), (.key, .noKey), (.entry, .noEntry)]) :
    stageReason x = some r := by
  simp only [List.mem_cons, Prod.mk.injEq, List.not_mem_nil, or_false] at h
  rcases h with ⟨rfl, rfl⟩ | ⟨rfl, rfl⟩ | ⟨rfl, rfl⟩ | ⟨rfl, rfl⟩ <;> rfl

section
variable {c : CtxNo} {s : State}

theorem acquisitionOver_idle
    (h : (s.context c).state = .free ∨ (s.context c).state = .running ∨ (s.context c).state = .retiring ∨
      (s.context c).deadline = none) : acquisitionOver c s = s := by
  rcases h with h | h | h | h
  · simp only [acquisitionOver, h, stageReason]
  · simp only [acquisitionOver, h, stageReason]
  · simp only [acquisitionOver, h, stageReason]
  · unfold acquisitionOver
    rw [h]
    split
    · contradiction
    · rfl

theorem acquisitionOver_fails {d : Nat} {r : FailReason} (hr : stageReason (s.context c).state = some r)
    (hd : (s.context c).deadline = some d) :
    acquisitionOver c s = failContext c r (advanceTo (d * cyclesPerMs) s) := by
  simp only [acquisitionOver, hr, hd]

end

theorem exec_waitDeadline_output (o : OutputNo) (s : State) :
    exec (.waitDeadline (.output o)) s = .next (outputWaitOver o s) := rfl

theorem exec_waitDeadline_tag (k : TagNo) (s : State) : exec (.waitDeadline (.tag k)) s = .next (tagWaitOver k s) := rfl

theorem exec_acquisitionDeadline (c : CtxNo) (s : State) :
    exec (.acquisitionDeadline c) s = .next (acquisitionOver c s) := rfl

/-- Settles O16: the two wait deadlines by the state of the context that waits, the acquisition deadline by its stage. -/
theorem deadlinesAreReached : Obligations.DeadlinesAreReached := by
  refine ⟨⟨fun o s => ⟨fun h => ?outputIdle, ?output⟩, fun k s => ⟨fun h => ?tagIdle, ?tag⟩⟩,
    fun c s => ⟨fun h => ?contextIdle, ?fails⟩⟩
  case outputIdle => rw [exec_waitDeadline_output, outputWaitOver_idle h]
  case output =>
    rintro b x u hb rfl hr rfl
    rw [exec_waitDeadline_output, outputWaitOver_running hb hr]
    exact ⟨fun hd => congrArg _ (retireIfUnbound_bound hd), fun hd => congrArg _ (retireIfUnbound_unbound hd)⟩
  case tagIdle => rw [exec_waitDeadline_tag, tagWaitOver_idle h]
  case tag =>
    rintro c w h x u hk rfl hr rfl
    rw [exec_waitDeadline_tag, tagWaitOver_running hk hr]
    exact ⟨fun hd => congrArg _ (retireIfUnbound_bound hd), fun hd => congrArg _ (retireIfUnbound_unbound hd)⟩
  case contextIdle => rw [exec_acquisitionDeadline, acquisitionOver_idle h]
  case fails =>
    rintro d r x rfl hd hr
    rw [exec_acquisitionDeadline, acquisitionOver_fails (stageReason_some hr) hd, failContext_eq]
    rfl

end Sys2Proof.Machine

/-! TUNE, CAPTURE and PLAY by what they find (O28, O29). -/

namespace Sys2Proof.Machine

/-! ### TUNE (R101; log 40) -/

theorem takeTune_range {output port : Byte} (h : 2 ≤ output.toNat ∨ 4 ≤ port.toNat) (service : Word16) (s : State) :
    takeTune output port service s = (refuse .badParam, s) := by
  rcases h with h | h
  · simp only [takeTune, place_none h]
  · simp only [takeTune, place_none h]
    split
    · contradiction
    · rfl

theorem takeTune_place {o : OutputNo} {p : PortNo} {output port : Byte} (ho : o.val = output.toNat)
    (hp : p.val = port.toNat) (service : Word16) (s : State) :
    takeTune output port service s = tuneTo o (inputOf p) service.toNat s := by
  simp only [takeTune, place_some o ho, place_some p hp]

section
variable {o : OutputNo} {i : Input} {service : Nat} {s : State}

theorem tuneTo_current (h : currentIs s o i service = true) :
    tuneTo o i service s = (refuse .already, dropSuperseded o s) := if_pos h

variable (hcur : currentIs s o i service = false)
include hcur

theorem tuneTo_pending {c : CtxNo} (hp : pendingOf s o i service = some c) : tuneTo o i service s = (acceptedFor c, s) := by
  simp [tuneTo, hcur, hp]

variable (hp : pendingOf s o i service = none)
include hp

theorem tuneTo_found {c : CtxNo} (hf : findContext i service s = some c) :
    tuneTo o i service s = (acceptedFor c, bindPending o c s) := by
  simp [tuneTo, hcur, hp, hf]

variable (hf : findContext i service s = none)
include hf

theorem tuneTo_new {c : CtxNo} (hc : freeCtx s = some c) :
    tuneTo o i service s =
      (acceptedFor c, locate c (bindPending o c (s.setContext c (allocated s c i service .locate)))) := by
  simp [tuneTo, hcur, hp, hf, hc]

theorem tuneTo_full (hc : freeCtx s = none) : tuneTo o i service s = (refuse .noRoom, s) := by
  simp [tuneTo, hcur, hp, hf, hc]

end

/-- Settles O28: TUNE by its parameters, and then by the bindings of the output and the contexts there are. -/
theorem tuneBindsAContext : Obligations.TuneBindsAContext := by
  refine fun tag output port service s hh => ⟨fun h => exec_answered hh rfl (takeTune_range h service s), ?_⟩
  rintro o p sv ho hp rfl
  have answered {r : Reply} {t : State} (h : tuneTo o (inputOf p) service.toNat s = (r, t)) :
      exec (.tune tag output port service) s = .next (pushAnswer 0x30 tag r t) :=
    exec_answered hh rfl ((takeTune_place ho hp service s).trans h)
  exact ⟨fun h => answered (tuneTo_current h), fun c h1 h2 => answered (tuneTo_pending h1 h2),
    fun c h1 h2 h3 => answered (tuneTo_found h1 h2 h3), fun c h1 h2 h3 h4 => answered (tuneTo_new h1 h2 h3 h4),
    fun h1 h2 h3 h4 => answered (tuneTo_full h1 h2 h3 h4)⟩

/-! ### CAPTURE (R102; log 54) -/

theorem takeCapture_range {captureTag port : Byte} (h : 8 ≤ captureTag.toNat ∨ 4 ≤ port.toNat) (service : Word16)
    (s : State) : takeCapture captureTag port service s = (refuse .badParam, s) := by
  rcases h with h | h
  · simp only [takeCapture, place_none h]
  · simp only [takeCapture, place_none h]
    split
    · contradiction
    · rfl

section
variable {k : TagNo} {p : PortNo} {captureTag port : Byte} (hk : k.val = captureTag.toNat) (hp : p.val = port.toNat)
variable (service : Word16) {s : State}
include hk hp

theorem takeCapture_busy (h : s.tag k ≠ .idle) : takeCapture captureTag port service s = (refuse .tagBusy, s) := by
  simp only [takeCapture, place_some k hk, place_some p hp]
  split
  · next hi => exact absurd hi h
  all_goals rfl

theorem takeCapture_idle (h : s.tag k = .idle) :
    takeCapture captureTag port service s = captureTo k (inputOf p) service.toNat s := by
  simp only [takeCapture, place_some k hk, place_some p hp, h]

end

section
variable {i : Input} {service : Nat} {s : State} {c : CtxNo} (k : TagNo)

theorem captureTo_found (hf : findContext i service s = some c) :
    captureTo k i service s = (acceptedFor c, bindTag k c s) := by
  simp only [captureTo, hf]

theorem captureTo_new (hf : findContext i service s = none) (hc : freeCtx s = some c) :
    captureTo k i service s =
      (acceptedFor c, locate c (bindTag k c (s.setContext c (allocated s c i service .locate)))) := by
  simp only [captureTo, hf, hc]

theorem captureTo_full (hf : findContext i service s = none) (hc : freeCtx s = none) :
    captureTo k i service s = (refuse .noRoom, s) := by
  simp only [captureTo, hf, hc]

end

/-! ### PLAY (R102; log 22) -/

section
variable {output captureTag adult : Byte} {ratings : List (Byte × Byte)}

theorem takePlay_range
    (h : 2 ≤ output.toNat ∨ 8 ≤ captureTag.toNat ∨ 3 < ratings.length ∨ 1 < adult.toNat) (s : State) :
    takePlay output captureTag adult ratings s = (refuse .badParam, s) := by
  rw [takePlay]
  split
  · next o k ho hk =>
    have hc : (3 < ratings.length || 1 < adult.toNat) = true := by
      rcases h with h | h | h | h
      · rw [place_none h] at ho
        contradiction
      · rw [place_none h] at hk
        contradiction
      · simp [h]
      · simp [h]
    exact if_pos hc
  · rfl

theorem takePlay_place {o : OutputNo} {k : TagNo} (ho : o.val = output.toNat) (hk : k.val = captureTag.toNat)
    (hr : ratings.length ≤ 3) (ha : adult.toNat ≤ 1) (s : State) :
    takePlay output captureTag adult ratings s =
      playTo o k.val ⟨ratings.map (fun r => ⟨r.1.toNat, r.2.toNat⟩), adult.toNat == 1⟩ s := by
  have hc : ¬(3 < ratings.length || 1 < adult.toNat) = true := by simp [hr, ha]
  simp only [takePlay, place_some o ho, place_some k hk, if_neg hc]

end

section
variable {o : OutputNo} {tag : Nat} {info : PlayInfo} {s : State} {c : CtxNo}

theorem playTo_current (h : currentIs s o pb tag = true) :
    playTo o tag info s = (refuse .already, dropSuperseded o s) := if_pos h

variable (hcur : currentIs s o pb tag = false)
include hcur

theorem playTo_found (hf : findContext pb tag s = some c) :
    playTo o tag info s =
      (acceptedFor c, if (setPlay c info s).isPending o c then setPlay c info s else bindPending o c (setPlay c info s)) := by
  simp [playTo, hcur, hf]

variable (hf : findContext pb tag s = none)
include hf

theorem playTo_new (hc : freeCtx s = some c) :
    playTo o tag info s =
      (acceptedFor c, enterMap c (captureStream tag 0) (bindPending o c (s.setContext c
        { allocated s c pb tag .map with play := some info, mapStream := some (captureStream tag 0) }))) := by
  simp [playTo, hcur, hf, hc]

theorem playTo_full (hc : freeCtx s = none) : playTo o tag info s = (refuse .noRoom, s) := by
  simp [playTo, hcur, hf, hc]

end

/-- Settles O29: CAPTURE by its parameters, its tag and the contexts there are, PLAY by its parameters, the current binding
and the contexts there are. -/
theorem captureAndPlayBindContexts : Obligations.CaptureAndPlayBindContexts := by
  refine fun tag t s hh => ⟨fun port service h => exec_answered hh rfl (takeCapture_range h service s), ?capture,
    fun output adult ratings h => exec_answered hh rfl (takePlay_range h s), ?play⟩
  case capture =>
    rintro k p port service sv hk hp rfl
    have answered {r : Reply} {u : State} (hi : s.tag k = .idle)
        (h : captureTo k (inputOf p) service.toNat s = (r, u)) :
        exec (.capture tag t port service) s = .next (pushAnswer 0x31 tag r u) :=
      exec_answered hh rfl ((takeCapture_idle hk hp service hi).trans h)
    exact ⟨fun h => exec_answered hh rfl (takeCapture_busy hk hp service h),
      fun c hi hf => answered hi (captureTo_found k hf), fun c hi hf hc => answered hi (captureTo_new k hf hc),
      fun hi hf hc => answered hi (captureTo_full k hf hc)⟩
  case play =>
    rintro o k output adult ratings info ho hk hr ha rfl
    have answered {r : Reply} {u : State}
        (h : playTo o k.val ⟨ratings.map (fun r => ⟨r.1.toNat, r.2.toNat⟩), adult.toNat == 1⟩ s = (r, u)) :
        exec (.play tag output t adult ratings) s = .next (pushAnswer 0x32 tag r u) :=
      exec_answered hh rfl ((takePlay_place ho hk hr ha s).trans h)
    refine ⟨fun h => answered (playTo_current h), ?found, fun c h1 h2 h3 => answered (playTo_new h1 h2 h3),
      fun h1 h2 h3 => answered (playTo_full h1 h2 h3)⟩
    case found =>
      rintro c u h1 h2 rfl
      exact answered (playTo_found h1 h2)

end Sys2Proof.Machine

/-! RELEASE of an output and of a tag (O33). -/

namespace Sys2Proof.Machine

/-! ### RELEASE of an output (R113; logs 44, 47) -/

theorem takeReleaseOutput_range {output : Byte} (h : 2 ≤ output.toNat) (s : State) :
    takeReleaseOutput output s = (refuse .badParam, s) := by
  simp only [takeReleaseOutput, place_none h]

section
variable {o : OutputNo} {output : Byte} {s : State} (ho : o.val = output.toNat)
include ho

theorem takeReleaseOutput_unbound (h : s.binding o = ⟨none, none⟩) :
    takeReleaseOutput output s = (refuse .notFound, s) := by
  simp only [takeReleaseOutput, place_some o ho, h]
  rfl

theorem takeReleaseOutput_pending {p : PendingBinding} (h : s.binding o = ⟨none, some p⟩) :
    takeReleaseOutput output s =
      (done [1, BitVec.ofNat 8 p.ctx.val], retireIfUnbound p.ctx (s.setBinding o ⟨none, none⟩)) := by
  simp only [takeReleaseOutput, place_some o ho, h]
  rfl

theorem takeReleaseOutput_current {a : Binding} (h : s.binding o = ⟨some a, none⟩) :
    takeReleaseOutput output s =
      (done [1, BitVec.ofNat 8 a.ctx.val],
        retireIfUnbound a.ctx (endGrants (fun g => g.output == o) .binding (s.setBinding o ⟨none, none⟩))) := by
  simp only [takeReleaseOutput, place_some o ho, h]
  rfl

theorem takeReleaseOutput_both {a : Binding} {p : PendingBinding} (h : s.binding o = ⟨some a, some p⟩) :
    takeReleaseOutput output s =
      (done [2, BitVec.ofNat 8 a.ctx.val, BitVec.ofNat 8 p.ctx.val],
        retireIfUnbound p.ctx (retireIfUnbound a.ctx
          (endGrants (fun g => g.output == o) .binding (s.setBinding o ⟨none, none⟩)))) := by
  simp only [takeReleaseOutput, place_some o ho, h]
  rfl

end

/-! ### RELEASE of a tag (R113) -/

theorem takeReleaseTag_range {captureTag : Byte} (h : 8 ≤ captureTag.toNat) (s : State) :
    takeReleaseTag captureTag s = (refuse .badParam, s) := by
  simp only [takeReleaseTag, place_none h]

section
variable {k : TagNo} {captureTag : Byte} {s : State} {c : CtxNo} (hk : k.val = captureTag.toNat)
include hk

theorem takeReleaseTag_idle (h : s.tag k = .idle) : takeReleaseTag captureTag s = (refuse .notFound, s) := by
  simp only [takeReleaseTag, place_some k hk, h]

theorem takeReleaseTag_draining (h : s.tag k = .draining c) : takeReleaseTag captureTag s = (refuse .already, s) := by
  simp only [takeReleaseTag, place_some k hk, h]

theorem takeReleaseTag_bound {w : Option Nat} {x : HoldSet} (h : s.tag k = .bound c w x) :
    takeReleaseTag captureTag s = (done [], retireIfUnbound c (s.setTag k (.draining c))) := by
  simp only [takeReleaseTag, place_some k hk, h]

end

/-- Settles O33: an output by which of its bindings are there, a tag by its state. -/
theorem releaseFreesDestinations : Obligations.ReleaseFreesDestinations := by
  refine fun tag b s hh => ⟨fun h => exec_answered hh rfl (takeReleaseOutput_range h s), ?outputs,
    fun h => exec_answered hh rfl (takeReleaseTag_range h s), fun k hk =>
      ⟨fun h => exec_answered hh rfl (takeReleaseTag_idle hk h),
        fun c h => exec_answered hh rfl (takeReleaseTag_draining hk h),
        fun c w x h => exec_answered hh rfl (takeReleaseTag_bound hk h)⟩⟩
  case outputs =>
    rintro o u g ho rfl hg
    obtain rfl : g = endGrants (fun x => x.output == o) .binding (s.setBinding o ⟨none, none⟩) :=
      hg.trans (endGrants_eq ..).symm
    exact ⟨fun h => exec_answered hh rfl (takeReleaseOutput_unbound ho h),
      fun p h => exec_answered hh rfl (takeReleaseOutput_pending ho h),
      fun a h => exec_answered hh rfl (takeReleaseOutput_current ho h),
      fun a p h => exec_answered hh rfl (takeReleaseOutput_both ho h)⟩

end Sys2Proof.Machine

/-! Hold reasons, hold sets judged again, and the verdict of a pair (O35). -/

namespace Sys2Proof.Machine

/-! ### When a reason holds (R105, R115, R116) -/

theorem mem_requiredTiers (s : State) (x : Context) (t : Nat) :
    t ∈ requiredTiers s x ↔ x.input ≠ pb ∧
      ((∃ r, s.guide.list.find? (fun r => r.service == x.service) = some r ∧ r.tier = some t) ∨
        ∃ e, currentEvent s x.service = some e ∧ e.tier = some t) := by
  by_cases hi : x.input = pb <;> simp [requiredTiers, serviceRec, hi, Option.bind_eq_some_iff]

theorem slotOf_some {s : State} {x : Context} {y : Slot} :
    slotOf s x = some y ↔ ∃ k, x.slot = some k ∧ s.slot k = some y := by
  simp [slotOf, Option.bind_eq_some_iff]

theorem keyLapseReason_iff (s : State) (x : Context) :
    keyLapseReason s x = true ↔ ∃ k y, x.slot = some k ∧ s.slot k = some y ∧ y.lapsed = true := by
  simp only [keyLapseReason, Option.any_eq_true, slotOf_some]
  constructor
  · rintro ⟨y, ⟨k, hk, hy⟩, hl⟩
    exact ⟨k, y, hk, hy, hl⟩
  · rintro ⟨k, y, hk, hy, hl⟩
    exact ⟨y, ⟨k, hk, hy⟩, hl⟩

/-- The slot of a context is refused, or its tier is not held. -/
def State.slotBars (s : State) (y : Slot) : Bool :=
  y.refused || y.tier.any (fun t => !tierHeld s t)

theorem slotBars_iff (s : State) (y : Slot) :
    s.slotBars y = true ↔ y.refused = true ∨ ∃ t, y.tier = some t ∧ ¬tierHeld s t = true := by
  simp [State.slotBars, Option.any_eq_true]

theorem entitlementReason_eq (s : State) (x : Context) :
    entitlementReason s x = ((requiredTiers s x).any (fun t => !tierHeld s t) || (slotOf s x).any s.slotBars) := by
  unfold entitlementReason
  cases slotOf s x <;> rfl

theorem entitlementReason_iff (s : State) (x : Context) :
    entitlementReason s x = true ↔
      (∃ t ∈ requiredTiers s x, ¬tierHeld s t = true) ∨
        ∃ k y, x.slot = some k ∧ s.slot k = some y ∧ (y.refused = true ∨ ∃ t, y.tier = some t ∧ ¬tierHeld s t = true) := by
  rw [entitlementReason_eq, Bool.or_eq_true]
  refine or_congr (by simp) ?_
  simp only [Option.any_eq_true, slotOf_some, slotBars_iff]
  constructor
  · rintro ⟨y, ⟨k, hk, hy⟩, hb⟩
    exact ⟨k, y, hk, hy, hb⟩
  · rintro ⟨k, y, hk, hy, hb⟩
    exact ⟨y, ⟨k, hk, hy⟩, hb⟩

/-! ### Hold sets judged again (R115, R118) -/

theorem up_eq (s : State) (i : Input) : (!s.up i) = decide ((getAt s.intake.sync i).state ≠ .up) := by
  simp [State.up, beq_eq_decide]

theorem setBinding_self {s : State} {o : OutputNo} {b : OutBind} (h : s.binding o = b) : s.setBinding o b = s := by
  have hsame : setAt s.ctl.outputs o b = s.ctl.outputs := ext_getAt fun d => by
    rw [getAt_setAt]
    split_ifs with hd
    · exact hd ▸ h.symm
    · rfl
  simp only [State.setBinding, hsame]

section
variable {w : Which} {p : CtxNo → Bool} {o : OutputNo} {s : State}

theorem rejudgeCurrent_none (h : (s.binding o).current = none) : rejudgeCurrent w p o s = s := by
  simp only [rejudgeCurrent, h]

theorem rejudgeCurrent_same {b : Binding} (hb : (s.binding o).current = some b)
    (h : p b.ctx = false ∨ judged s w b.ctx (.output o) b.hold = b.hold) : rejudgeCurrent w p o s = s := by
  simp only [rejudgeCurrent, hb]
  rcases h with h | h <;> simp [h]

theorem rejudgeCurrent_changed {b : Binding} (hb : (s.binding o).current = some b) (hp : p b.ctx = true)
    (h : judged s w b.ctx (.output o) b.hold ≠ b.hold) :
    rejudgeCurrent w p o s =
      { s with
        ctl := { s.ctl with
          outputs := setAt s.ctl.outputs o
            { s.binding o with current := some { b with hold := judged s w b.ctx (.output o) b.hold } } }
        notices := s.notices.join (.hold (.output o) b.ctx (judged s w b.ctx (.output o) b.hold)) } := by
  have hc : (p b.ctx && judged s w b.ctx (.output o) b.hold != b.hold) = true := by simp [hp, h]
  simp only [rejudgeCurrent, hb, if_pos hc, offer_join]
  rfl

theorem rejudgePending_none (h : (s.binding o).pending = none) : rejudgePending w p o s = s := by
  simp only [rejudgePending, h]

theorem rejudgePending_hit {b : PendingBinding} (hb : (s.binding o).pending = some b) (hp : p b.ctx = true) :
    rejudgePending w p o s =
      s.setBinding o { s.binding o with pending := some { b with hold := judged s w b.ctx (.output o) b.hold } } := by
  simp only [rejudgePending, hb, if_pos hp]

theorem rejudgePending_same {b : PendingBinding} (hb : (s.binding o).pending = some b)
    (h : p b.ctx = false ∨ judged s w b.ctx (.output o) b.hold = b.hold) : rejudgePending w p o s = s := by
  by_cases hp : p b.ctx = true
  · have hsame := h.resolve_left (by simp [hp])
    rw [rejudgePending_hit hb hp, hsame]
    refine setBinding_self ?_
    rw [← hb]
  · simp only [rejudgePending, hb, if_neg hp]

end

section
variable {w : Which} {p : CtxNo → Bool} {k : TagNo} {s : State} {c : CtxNo} {wait : Option Nat} {old : HoldSet}

theorem rejudgeTag_unbound (h : s.tag k = .idle ∨ ∃ c, s.tag k = .draining c) : rejudgeTag w p k s = s := by
  rcases h with h | ⟨c, h⟩ <;> simp only [rejudgeTag, h]

theorem rejudgeTag_same (hk : s.tag k = .bound c wait old) (h : p c = false ∨ judged s w c (.tag k) old = old) :
    rejudgeTag w p k s = s := by
  simp only [rejudgeTag, hk]
  rcases h with h | h <;> simp [h]

theorem rejudgeTag_changed (hk : s.tag k = .bound c wait old) (hp : p c = true) (h : judged s w c (.tag k) old ≠ old) :
    rejudgeTag w p k s =
      { s with
        ctl := { s.ctl with tags := setAt s.ctl.tags k (.bound c wait (judged s w c (.tag k) old)) }
        notices :=
          if wait = none then s.notices.join (.hold (.tag k) c (judged s w c (.tag k) old)) else s.notices } := by
  have hc : (p c && judged s w c (.tag k) old != old) = true := by simp [hp, h]
  simp only [rejudgeTag, hk, if_pos hc, offer_join]
  cases wait <;> rfl

end

/-! ### The verdict of a pair (R131, R135, R136) -/

section
variable {s : State} {c : CtxNo} {o : OutputNo}

theorem verdict_unbound (h : getAt s.parental.binding o = none) : verdict s c o = .none := by
  simp only [verdict, h]

variable {p : ProfileNo} (hp : getAt s.parental.binding o = some p)
include hp

theorem verdict_granted (h : ∃ g ∈ s.parental.grants, g.output = o ∧ g.key = grantKey (s.context c) ∧ g.profile = p) :
    verdict s c o = .none := by
  have hany : s.parental.grants.any (fun g => g.serves o (grantKey (s.context c)) p) = true := by
    simpa [Grant.serves, and_assoc] using h
  simp only [verdict, hp, if_pos hany]

theorem verdict_judged
    (h : ∀ g ∈ s.parental.grants, g.output = o → g.key = grantKey (s.context c) → g.profile ≠ p) :
    verdict s c o = profileReasons s (s.context c) p := by
  have hany : ¬s.parental.grants.any (fun g => g.serves o (grantKey (s.context c)) p) = true := by
    simpa [Grant.serves, and_assoc] using h
  simp only [verdict, hp, if_neg hany]

end

/-- A hold set whose verdict is computed again. -/
theorem judged_verdict (s : State) (c : CtxNo) (o : OutputNo) (h : HoldSet) :
    judged s judgeVerdict c (.output o) h = { h with parental := verdict s c o } := rfl

section
variable {s : State} {o : OutputNo}

/-- The pending pair of an output is computed again (R136). -/
theorem rejudgePending_pairs {current : Option Binding} {pend : Option PendingBinding} (h : s.binding o = ⟨current, pend⟩) :
    rejudgePending judgeVerdict (fun _ => true) o s =
      s.setBinding o
        ⟨current, pend.map (fun x => { x with hold := { x.hold with parental := verdict s x.ctx o } })⟩ := by
  cases pend with
  | none => rw [rejudgePending_none (congrArg OutBind.pending h), Option.map_none, setBinding_self h]
  | some b =>
    rw [rejudgePending_hit (congrArg OutBind.pending h) rfl, h]
    rfl

/-- The current pair of an output is computed again, with a HOLD notice where its verdict changes (R118, R136). -/
theorem rejudgeCurrent_pairs {b : Binding} {pend : Option PendingBinding} (h : s.binding o = ⟨some b, pend⟩) :
    rejudgeCurrent judgeVerdict (fun _ => true) o s =
      { s with
        ctl := { s.ctl with
          outputs := setAt s.ctl.outputs o ⟨some { b with hold := { b.hold with parental := verdict s b.ctx o } }, pend⟩ }
        notices :=
          if b.hold.parental = verdict s b.ctx o then s.notices
          else s.notices.join (.hold (.output o) b.ctx { b.hold with parental := verdict s b.ctx o }) } := by
  have hb : (s.binding o).current = some b := congrArg OutBind.current h
  by_cases hv : b.hold.parental = verdict s b.ctx o
  · have hsame : judged s judgeVerdict b.ctx (.output o) b.hold = b.hold := by rw [judged_verdict, ← hv]
    rw [rejudgeCurrent_same hb (.inr hsame), if_pos hv, ← judged_verdict, hsame]
    exact (setBinding_self h).symm
  · have hne : judged s judgeVerdict b.ctx (.output o) b.hold ≠ b.hold :=
      fun he => hv (congrArg HoldSet.parental he).symm
    rw [rejudgeCurrent_changed hb rfl hne, if_neg hv, h]
    rfl

theorem rejudgePairs_current {b : Binding} {pend : Option PendingBinding} (h : s.binding o = ⟨some b, pend⟩) :
    rejudgePairs o s =
      { s with
        ctl := { s.ctl with
          outputs := setAt s.ctl.outputs o
            ⟨some { b with hold := { b.hold with parental := verdict s b.ctx o } },
              pend.map (fun x => { x with hold := { x.hold with parental := verdict s x.ctx o } })⟩ }
        notices :=
          if b.hold.parental = verdict s b.ctx o then s.notices
          else s.notices.join (.hold (.output o) b.ctx { b.hold with parental := verdict s b.ctx o }) } := by
  have hb : (rejudgeCurrent judgeVerdict (fun _ => true) o s).binding o =
      ⟨some { b with hold := { b.hold with parental := verdict s b.ctx o } }, pend⟩ := by
    rw [rejudgeCurrent_pairs h]
    exact getAt_setAt_self s.ctl.outputs o _
  rw [rejudgePairs, rejudgeOutput, rejudgePending_pairs hb, rejudgeCurrent_pairs h]
  simp only [State.setBinding, setAt_setAt]
  rfl

theorem rejudgePairs_pending {pend : Option PendingBinding} (h : s.binding o = ⟨none, pend⟩) :
    rejudgePairs o s =
      s.setBinding o ⟨none, pend.map (fun x => { x with hold := { x.hold with parental := verdict s x.ctx o } })⟩ := by
  rw [rejudgePairs, rejudgeOutput, rejudgeCurrent_none (congrArg OutBind.current h), rejudgePending_pairs h]

end

/-- Settles O35: the reasons by the tiers and the slot they look at, hold sets by whether they change, and verdicts by the
profile of the output and its grants. -/
theorem verdictsAreComputedAgain : Obligations.VerdictsAreComputedAgain := by
  refine ⟨?reasons, ?judged, ⟨rfl, rfl, rfl, rfl, rfl⟩, fun w p s => ⟨fun o => ⟨rejudgeCurrent_none, ?current,
    rejudgePending_none, ?pending, rfl⟩, fun k => ⟨rejudgeTag_unbound, ?tag⟩, rfl, rfl⟩, fun s c o => ⟨verdict_unbound,
      fun p hp => ⟨verdict_granted hp, verdict_judged hp⟩, fun b pend h => rejudgePairs_current h,
      fun b h => rejudgePairs_pending h, fun h => (rejudgePairs_pending h).trans (setBinding_self h)⟩⟩
  case reasons =>
    intro s x required held hreq hheld
    have hr (t : Nat) : required t ↔ t ∈ requiredTiers s x := by rw [mem_requiredTiers, hreq]
    have hh (t : Nat) : held t ↔ tierHeld s t = true := by rw [tierHeld_iff, hheld]
    simp only [hr, hh]
    exact ⟨entitlementReason_iff s x, keyLapseReason_iff s x⟩
  case judged =>
    rintro s w c old signal entitlement rfl rfl
    rw [← up_eq]
    exact ⟨fun _ => rfl, fun _ => rfl⟩
  case current =>
    rintro b h hb rfl
    exact ⟨rejudgeCurrent_same hb, rejudgeCurrent_changed hb⟩
  case pending =>
    rintro b h hb rfl
    exact ⟨rejudgePending_same hb, rejudgePending_hit hb⟩
  case tag =>
    rintro c wait old h hk rfl
    exact ⟨rejudgeTag_same hk, rejudgeTag_changed hk⟩

end Sys2Proof.Machine

/-! Bindings of outputs and tags, the contexts that are found, and allocation (O30). -/

namespace Sys2Proof.Machine

/-! ### The contexts that are found (R99, R101) -/

/-- The first context that meets a test is the one of lowest number. -/
theorem find?_ctxNos_some {p : CtxNo → Bool} {c : CtxNo} :
    ctxNos.find? p = some c ↔ p c = true ∧ ∀ d < c, p d = false := by
  have hat (j : CtxNo) : ctxNos[j.val]'j.isLt = j := by revert j; decide
  refine ⟨fun h => ?_, fun ⟨hc, hlow⟩ => find?_slotNos hc hlow⟩
  obtain ⟨hc, i, hi, hic, hlow⟩ := List.find?_eq_some_iff_getElem.1 h
  obtain rfl : (⟨i, hi⟩ : CtxNo) = c := (hat ⟨i, hi⟩).symm.trans hic
  exact ⟨hc, fun d hd => (congrArg p (hat d)).symm.trans (Bool.not_inj (hlow d.val hd))⟩

theorem find?_ctxNos_none {p : CtxNo → Bool} : ctxNos.find? p = none ↔ ∀ c, p c = false := by
  simp [List.find?_eq_none, mem_ctxNos]

theorem Context.is_iff (x : Context) (i : Input) (service : Nat) : x.is i service = true ↔ x.input = i ∧ x.service = service := by
  simp [Context.is]

theorem currentIs_iff (s : State) (o : OutputNo) (i : Input) (service : Nat) :
    currentIs s o i service = true ↔
      ∃ b, (s.binding o).current = some b ∧ (s.context b.ctx).input = i ∧ (s.context b.ctx).service = service := by
  simp only [currentIs, Option.any_eq_true, Context.is_iff]

theorem pendingOf_iff (s : State) (o : OutputNo) (i : Input) (service : Nat) (c : CtxNo) :
    pendingOf s o i service = some c ↔
      ∃ b, (s.binding o).pending = some b ∧ b.ctx = c ∧ (s.context c).input = i ∧ (s.context c).service = service := by
  simp only [pendingOf, Option.filter_eq_some_iff, Option.map_eq_some_iff, Context.is_iff]
  constructor
  · rintro ⟨⟨b, hb, hc⟩, hi⟩
    exact ⟨b, hb, hc, hi⟩
  · rintro ⟨b, hb, hc, hi⟩
    exact ⟨⟨b, hb, hc⟩, hi⟩

/-- A context of an identity that a binding can take: it is neither FREE nor RETIRING. -/
def State.reusable (s : State) (i : Input) (service : Nat) (c : CtxNo) : Prop :=
  (s.context c).state ≠ .free ∧ (s.context c).state ≠ .retiring ∧
    (s.context c).input = i ∧ (s.context c).service = service

/-- The test by which `findContext` looks for a context. -/
theorem reusable_iff (s : State) (i : Input) (service : Nat) (c : CtxNo) :
    ((s.context c).state != .free && (s.context c).state != .retiring && (s.context c).input == i &&
      (s.context c).service == service) = true ↔ s.reusable i service c := by
  simp [State.reusable, and_assoc]

theorem findContext_some (s : State) (i : Input) (service : Nat) (c : CtxNo) :
    findContext i service s = some c ↔ s.reusable i service c ∧ ∀ d < c, ¬s.reusable i service d := by
  simp only [findContext, find?_ctxNos_some, ← Bool.not_eq_true, reusable_iff]

theorem findContext_none (s : State) (i : Input) (service : Nat) :
    findContext i service s = none ↔ ∀ c, ¬s.reusable i service c := by
  simp only [findContext, find?_ctxNos_none, ← Bool.not_eq_true, reusable_iff]

theorem freeCtx_some (s : State) (c : CtxNo) :
    freeCtx s = some c ↔ (s.context c).state = .free ∧ ∀ d < c, (s.context d).state ≠ .free := by
  simp only [freeCtx, find?_ctxNos_some, beq_iff_eq, beq_eq_false_iff_ne]

theorem freeCtx_none (s : State) : freeCtx s = none ↔ ∀ c, (s.context c).state ≠ .free := by
  simp only [freeCtx, find?_ctxNos_none, beq_eq_false_iff_ne]

/-! ### The destinations of a context (R100) -/

theorem isCurrent_iff (s : State) (o : OutputNo) (c : CtxNo) :
    s.isCurrent o c = true ↔ ∃ b, (s.binding o).current = some b ∧ b.ctx = c := by
  simp only [State.isCurrent, Option.any_eq_true, beq_iff_eq]

theorem isPending_iff (s : State) (o : OutputNo) (c : CtxNo) :
    s.isPending o c = true ↔ ∃ b, (s.binding o).pending = some b ∧ b.ctx = c := by
  simp only [State.isPending, Option.any_eq_true, beq_iff_eq]

theorem TagRec.boundTo_iff (t : TagRec) (c : CtxNo) : t.boundTo c = true ↔ ∃ w h, t = .bound c w h := by
  cases t with
  | idle | draining => simp [TagRec.boundTo]
  | bound c' w h => simp [TagRec.boundTo]

theorem hasDestination_iff (s : State) (c : CtxNo) :
    hasDestination s c = true ↔
      (∃ o b, (s.binding o).current = some b ∧ b.ctx = c) ∨ (∃ o b, (s.binding o).pending = some b ∧ b.ctx = c) ∨
        ∃ k w h, s.tag k = .bound c w h := by
  simp only [hasDestination, Bool.or_eq_true, List.any_eq_true, mem_outputNos, mem_tagNos, true_and, isCurrent_iff,
    isPending_iff, TagRec.boundTo_iff, exists_or, or_assoc]

/-! ### A binding is made (R101, R102, R115, R116; log 53) -/

theorem CtxState.acquiring_iff (t : CtxState) : t.acquiring = true ↔ t ∈ [CtxState.locate, .map, .key, .entry] := by
  cases t <;> decide

theorem waitDeadline_eq (s : State) (c : CtxNo) :
    waitDeadline s c =
      match (s.context c).deadline with
      | some d => if (s.context c).state ∈ [.locate, .map, .key, .entry] then d else s.time.cycles / cyclesPerMs + s.ctl.limit
      | none => s.time.cycles / cyclesPerMs + s.ctl.limit := by
  unfold waitDeadline
  cases (s.context c).deadline with
  | none => rfl
  | some d => simp only [CtxState.acquiring_iff, State.partTime]

/-- The pending binding of an output is replaced. -/
def State.withPending (s : State) (o : OutputNo) (c : CtxNo) : State :=
  s.setBinding o
    { s.binding o with
      pending := some { ctx := c, wait := waitDeadline s c, hold := judged s judgeAll c (.output o) .none } }

/-- The pending binding of an output is replaced, and ENTITLEMENT judged on the destinations of its context. -/
def State.pendingMade (s : State) (o : OutputNo) (c : CtxNo) : State :=
  rejudge judgeEntitlement (· == c) (s.withPending o c)

theorem pendingMade_context (s : State) (o : OutputNo) (c d : CtxNo) : (s.pendingMade o c).context d = s.context d :=
  context_of_contexts (rejudge_contexts ..) d

/-- A binding that was dropped: the notice, and the context's retirement where it has lost its last destination (R112). -/
theorem supersede_eq (o : OutputNo) (c : CtxNo) (s : State) :
    supersede o c s = retireIfUnbound c
      { s with notices := s.notices.join (.superseded o c (s.context c).input (s.context c).service) } := by
  rw [supersede, offer_join]

section
variable {o : OutputNo} {c : CtxNo} {s : State}

theorem bindPending_first (h : (s.binding o).pending = none) : bindPending o c s = s.pendingMade o c := by
  simp only [bindPending, h]
  rfl

theorem bindPending_again {b : PendingBinding} (h : (s.binding o).pending = some b) :
    bindPending o c s = retireIfUnbound b.ctx
      { s.pendingMade o c with
        notices := (s.pendingMade o c).notices.join
          (.superseded o b.ctx (s.context b.ctx).input (s.context b.ctx).service) } := by
  have hs : bindPending o c s = supersede o b.ctx (s.pendingMade o c) := by
    simp only [bindPending, h]
    rfl
  rw [hs, supersede_eq, pendingMade_context]

theorem dropSuperseded_none (h : (s.binding o).pending = none) : dropSuperseded o s = s := by
  simp only [dropSuperseded, h]

theorem dropSuperseded_some {b : PendingBinding} (h : (s.binding o).pending = some b) :
    dropSuperseded o s = retireIfUnbound b.ctx
      { s with
        ctl := { s.ctl with outputs := setAt s.ctl.outputs o { s.binding o with pending := none } }
        notices := s.notices.join (.superseded o b.ctx (s.context b.ctx).input (s.context b.ctx).service) } := by
  simp only [dropSuperseded, h, supersede_eq]
  rfl

end

/-- Settles O30: the binding of an output by whether one was pending, the dropped binding, the destinations of a context and
the contexts found by what they are. -/
theorem bindingsAreMade : Obligations.BindingsAreMade := by
  refine ⟨?bindings, fun c s => rejudge_own judgeEntitlement c s, fun o s => ⟨dropSuperseded_none, ?dropped⟩,
    hasDestination_iff, ?found, fun s => ⟨freeCtx_some s, freeCtx_none s⟩, fun _ _ _ _ _ => rfl⟩
  case bindings =>
    intro c s w hw
    obtain rfl : w = waitDeadline s c := hw.trans (waitDeadline_eq s c).symm
    refine ⟨?output, fun k u hu => hu ▸ rfl⟩
    case output =>
      intro o u made hu hmade
      obtain rfl : u = s.withPending o c := hu
      have hm : made = s.pendingMade o c := hmade
      rw [hm]
      refine ⟨bindPending_first, fun b v hb hv => ?_⟩
      rw [hv]
      exact bindPending_again hb
  case dropped =>
    rintro b v hb rfl
    exact dropSuperseded_some hb
  case found =>
    rintro s i sv named reusable rfl rfl
    exact ⟨fun o => currentIs_iff s o i sv, fun o c => pendingOf_iff s o i sv c, findContext_some s i sv,
      findContext_none s i sv⟩

end Sys2Proof.Machine

/-! The stages of acquisition: LOCATE, MAP, the entry component, and KEY (O31). -/

namespace Sys2Proof.Machine

/-! ### LOCATE (R103) -/

theorem lists_none {r : IndexRec} {service : Nat} (h : ∀ e ∈ r.entries, e.1 ≠ service) : r.lists service = none := by
  simpa [IndexRec.lists] using h

section
variable {c : CtxNo} {p : PortNo} {s : State} (hs : (s.context c).state = .locate) (hi : (s.context c).input = inputOf p)
include hs hi

theorem locate_waits (h : (getAt s.guide.index p).inUse = none) : locate c s = s := by
  simp only [locate, if_pos hs, hi, indexInUse_port, h]

variable {r : IndexRec} (hr : (getAt s.guide.index p).inUse = some r)
include hr

theorem locate_missing (h : r.lists (s.context c).service = none) : locate c s = failContext c .notInIndex s := by
  simp only [locate, if_pos hs, hi, indexInUse_port, hr, h]

theorem locate_listed {stream : Nat} (h : r.lists (s.context c).service = some stream) :
    locate c s = enterMap c stream s := by
  simp only [locate, if_pos hs, hi, indexInUse_port, hr, h]

end

/-! ### Entry to MAP (R102, R104) -/

/-- A request that is not granted leaves the part as it is. -/
theorem addUser_refused {i : Input} {stream : Nat} {role : Role} {q : UserReq} {s v : State} {r : AddResult}
    (h : addUser i stream role q s = (r, v)) (hr : r ≠ .granted) : v = s := by
  have hkeeps := (addUser_keeps i stream role q s).2
  rw [h] at hkeeps
  exact hkeeps hr

/-- The part with a context in MAP on a stream, before its MAP purpose is added. -/
def State.mapping (s : State) (c : CtxNo) (stream : Nat) : State :=
  s.setContext c { s.context c with state := .map, mapStream := some stream }

theorem mapping_eq (s : State) (c : CtxNo) (stream : Nat) :
    s.mapping c stream = s.setContext c { s.context c with state := .map, mapStream := some stream } := rfl

theorem mapping_input (s : State) (c : CtxNo) (stream : Nat) :
    ((s.mapping c stream).context c).input = (s.context c).input := by
  rw [mapping_eq, context_setContext, if_pos rfl]

section
variable {c : CtxNo} {stream : Nat} {s v : State}

theorem enterMap_granted
    (h : addUser (s.context c).input stream .sections (.ctx c .map) (s.mapping c stream) = (.granted, v)) :
    enterMap c stream s = v := by
  simp only [enterMap, ← mapping_eq, mapping_input, h]

theorem enterMap_refused {r : AddResult} (hr : r ≠ .granted)
    (h : addUser (s.context c).input stream .sections (.ctx c .map) (s.mapping c stream) = (r, v)) :
    enterMap c stream s = failContext c .noRoom (s.mapping c stream) := by
  obtain rfl := addUser_refused h hr
  simp only [enterMap, ← mapping_eq, mapping_input, h]

end

/-! ### The entry component (Table 6-2) -/

theorem entryComponentOf_nil : entryComponentOf [] = none := rfl

theorem entryComponentOf_video {before after : List Component} {k : Component} (hk : k.kind = .video)
    (hb : ∀ j ∈ before, j.kind ≠ .video) : entryComponentOf (before ++ k :: after) = some before.length := by
  have hfind : (before ++ k :: after).findIdx? (fun k => k.kind == .video) = some before.length := by
    have hnone : before.findIdx? (fun k => k.kind == .video) = none := by simpa using hb
    simp [List.findIdx?_append, hnone, List.findIdx?_cons, hk]
  simp [entryComponentOf, hfind]

theorem entryComponentOf_other {cs : List Component} (hne : cs ≠ []) (h : ∀ k ∈ cs, k.kind ≠ .video) :
    entryComponentOf cs = some 0 := by
  have hfind : cs.findIdx? (fun k => k.kind == .video) = none := by simpa using h
  simp [entryComponentOf, hfind, hne]

/-! ### The first usable map (R104) -/

/-- What a context in MAP records from its first usable map. -/
def Context.mapped (x : Context) (version : Nat) (m : MapBody) : Context :=
  { recordMap x version m with keyStream := usedKeyStream x m }

/-- The part with a context's record after a usable map, its verdicts computed again. -/
def State.mapTaken (s : State) (c : CtxNo) (y : Context) : State :=
  rejudgeVerdicts (· == c) (s.setContext c y)

theorem mapTaken_context (s : State) (c : CtxNo) (y : Context) : (s.mapTaken c y).context c = y := by
  rw [State.mapTaken, context_of_contexts (rejudgeVerdicts_contexts ..), context_setContext, if_pos rfl]

section
variable {c : CtxNo} {version : Nat} {m : MapBody} {s v : State} {x : Context} {added : List (Nat × Fin 8)}
variable (hx : x = (s.context c).mapCounted m)
include hx

theorem takeMap_refused
    (ha : addComponents x.input c (componentStreams (usedComponents x m)) (s.setContext c x) = (false, added, v)) :
    takeMap c version m s = failContext c .noRoom v := by
  simp only [takeMap, countMapOverflow_eq, ← hx, context_setContext, if_true, ha]

variable (ha : addComponents x.input c (componentStreams (usedComponents x m)) (s.setContext c x) = (true, added, v))
include ha

theorem takeMap_keyed {stream : Nat} (hs : usedKeyStream x m = some stream) :
    takeMap c version m s = enterKey c stream (v.mapTaken c (x.mapped version m)) := by
  simp only [takeMap, countMapOverflow_eq, ← hx, context_setContext, if_true, ha, hs]
  rw [State.mapTaken, Context.mapped, hs]

theorem takeMap_clear (hn : usedKeyStream x m = none) :
    takeMap c version m s =
      (v.mapTaken c (x.mapped version m)).setContext c { x.mapped version m with state := .entry } := by
  have hw : v.mapTaken c (x.mapped version m) =
      rejudgeVerdicts (· == c) (v.setContext c { recordMap x version m with keyStream := none }) := by
    rw [State.mapTaken, Context.mapped, hn]
  simp only [takeMap, countMapOverflow_eq, ← hx, context_setContext, if_true, ha, hn, ← hw, mapTaken_context]

end

/-! ### KEY (R105) -/

/-- A context lacks a tier that is required of it. -/
theorem requiredTiers_lacks (s : State) (x : Context) :
    (requiredTiers s x).any (fun t => !tierHeld s t) = true ↔ ∃ t ∈ requiredTiers s x, ¬tierHeld s t = true := by
  simp

/-- Hold sets and notices play no part in what tiers are required and held. -/
theorem HoldsOnly.tiers {s t : State} (h : HoldsOnly s t) (x : Context) :
    requiredTiers t x = requiredTiers s x ∧ tierHeld t = tierHeld s := by
  rw [h.eq]
  exact ⟨rfl, rfl⟩

/-- The part with a context in KEY and ENTITLEMENT judged on its destinations. -/
def State.keying (s : State) (c : CtxNo) : State :=
  rejudge judgeEntitlement (· == c) (s.setContext c { s.context c with state := .key })

theorem keying_eq (s : State) (c : CtxNo) :
    s.keying c = rejudge judgeEntitlement (· == c) (s.setContext c { s.context c with state := .key }) := rfl

theorem keying_context (s : State) (c : CtxNo) : (s.keying c).context c = { s.context c with state := .key } := by
  rw [State.keying, context_of_contexts (rejudge_contexts ..), context_setContext, if_pos rfl]

section
variable {c : CtxNo} {stream : Nat} {s : State} {x : Context} (hx : (s.keying c).context c = x)
include hx

theorem enterKey_notEntitled (h : (requiredTiers (s.keying c) x).any (fun t => !tierHeld (s.keying c) t) = true) :
    enterKey c stream s = failContext c .notEntitled (s.keying c) := by
  simp only [enterKey, ← keying_eq, hx, if_pos h]

variable (h : ¬(requiredTiers (s.keying c) x).any (fun t => !tierHeld (s.keying c) t) = true) {w y : State}
include h

theorem enterKey_noSlot (hj : joinSlot c x.input stream (s.keying c) = (none, w)) :
    enterKey c stream s = failContext c .noRoom w := by
  simp only [enterKey, ← keying_eq, hx, if_neg h, hj]

variable {k : SlotNo} {r : AddResult} (hj : joinSlot c x.input stream (s.keying c) = (some k, w))
variable (ha : addUser x.input stream .sections (.ctx c (.keys k)) (w.setContext c { x with slot := some k }) = (r, y))
include hj ha

theorem enterKey_refused (hr : r ≠ .granted) : enterKey c stream s = failContext c .noRoom y := by
  simp only [enterKey, ← keying_eq, hx, if_neg h, hj, ha]

theorem enterKey_granted (hr : r = .granted) : enterKey c stream s = judgeKey c (rejudge judgeSlot (· == c) y) := by
  subst hr
  simp only [enterKey, ← keying_eq, hx, if_neg h, hj, ha]

end

theorem judgeKey_opens {c : CtxNo} {s : State} (hs : (s.context c).state = .key) (ho : opensFor s (s.context c)) :
    judgeKey c s = s.setContext c { s.context c with state := .entry } := by
  simp only [judgeKey, hs, (slotOf_opens ..).2 ho, decide_true, Bool.and_self, if_true]

theorem judgeKey_stays {c : CtxNo} {s : State} (h : (s.context c).state ≠ .key ∨ ¬opensFor s (s.context c)) :
    judgeKey c s = s := by
  refine if_neg fun hh => ?_
  obtain ⟨hs, ho⟩ := Bool.and_eq_true_iff.1 hh
  exact h.elim (fun h => h (of_decide_eq_true hs)) (fun h => h ((slotOf_opens ..).1 ho))

/-- Settles O31: LOCATE by the index in use, MAP and KEY by what the additions and the join answer. -/
theorem acquisitionStages : Obligations.AcquisitionStages := by
  refine ⟨?locate, ?map, ?component, ?first, ?key, ?judge⟩
  case locate =>
    rintro c p s x rfl hs hi
    exact ⟨locate_waits hs hi, fun r hr h => locate_missing hs hi hr (lists_none h),
      fun r stream hr h => locate_listed hs hi hr h⟩
  case map =>
    rintro c stream s x u rfl rfl
    exact ⟨fun v => enterMap_granted, fun a v hr h => enterMap_refused hr h⟩
  case component =>
    intro cs
    refine ⟨fun h => h ▸ entryComponentOf_nil, ?_, entryComponentOf_other⟩
    rintro before after k rfl hk hb
    exact entryComponentOf_video hk hb
  case first =>
    rintro c version m s u x y hx rfl hy
    obtain rfl : y = x.mapped version m := hy
    refine ⟨fun added v ha => takeMap_refused hx ha, fun added v ha => ⟨_, .rejudgeVerdicts (· == c) _,
      (rejudgeVerdicts_on _ _).mono fun _ _ hd => beq_iff_eq.2 hd, fun hn => ?_, fun stream hs => ?_⟩⟩
    · exact takeMap_clear hx ha hn
    · exact takeMap_keyed hx ha hs
  case key =>
    intro c stream s x required held hx hreq hheld
    have hv : (s.keying c).context c = x := (keying_context s c).trans hx.symm
    have hown := rejudge_own judgeEntitlement c (s.setContext c x)
    have hkey : s.keying c = rejudge judgeEntitlement (· == c) (s.setContext c x) := by rw [hx]; rfl
    rw [← hkey] at hown
    obtain ⟨hr, hh⟩ := hown.1.tiers x
    have hlacks : (requiredTiers (s.keying c) x).any (fun t => !tierHeld (s.keying c) t) = true ↔
        ∃ t, required t ∧ ¬held t := by
      rw [requiredTiers_lacks, hr, hh, hreq, hheld]
      simp only [mem_requiredTiers, tierHeld_iff]
      rfl
    refine ⟨_, hown.1, hown.2, fun h => enterKey_notEntitled hv (hlacks.2 h), fun h => ?entitled⟩
    case entitled =>
      have hall : ¬(requiredTiers (s.keying c) x).any (fun t => !tierHeld (s.keying c) t) = true :=
        fun hl => (hlacks.1 hl).elim fun t ht => ht.2 (h t ht.1)
      exact ⟨fun w hj => enterKey_noSlot hv hall hj, fun k w r y hj ha => ⟨enterKey_refused hv hall hj ha,
        fun hg => ⟨_, (rejudge_own judgeSlot c y).1, (rejudge_own judgeSlot c y).2, enterKey_granted hv hall hj ha hg⟩⟩⟩
  case judge =>
    rintro c s x rfl
    exact ⟨judgeKey_opens, judgeKey_stays⟩

end Sys2Proof.Machine

/-! What an entry packet does: RUNNING, switches, capture starts, admission (O59). -/

namespace Sys2Proof.Machine

/-! ### RUNNING, and the outputs that can switch (R106, R107) -/

section
variable {c : CtxNo} {s : State}

theorem becomeRunning_other (h : (s.context c).state ≠ .entry) : becomeRunning c s = s := if_neg h

theorem becomeRunning_pb (h : (s.context c).state = .entry) (hi : (s.context c).input = pb) :
    becomeRunning c s = s.setContext c { s.context c with state := .running, deadline := none } := by
  simp [becomeRunning, h, hi]

theorem becomeRunning_tuner (h : (s.context c).state = .entry) (hi : (s.context c).input ≠ pb) :
    becomeRunning c s =
      startTracking (s.context c).service
        (s.setContext c { s.context c with state := .running, deadline := none }) := by
  simp [becomeRunning, h, hi]

end

theorem canSwitch_iff (s : State) (c : CtxNo) (o : OutputNo) :
    canSwitch s c o = true ↔
      (∃ b, (s.binding o).pending = some b ∧ b.ctx = c) ∧ (s.output o).marker = none := by
  simp only [canSwitch, Bool.and_eq_true, isPending_iff, Option.isNone_iff_eq_none]

/-! ### What handing a packet on and a retirement leave -/

theorem raiseDrain_identity (c d : CtxNo) (s : State) :
    ((raiseDrain c s).context d).input = (s.context d).input ∧
      ((raiseDrain c s).context d).service = (s.context d).service := by
  simp only [raiseDrain, context_setContext]
  split_ifs with h
  · exact h ▸ ⟨rfl, rfl⟩
  · exact ⟨rfl, rfl⟩

/-- A copy handed to an output leaves the identities of the contexts and the bindings. -/
theorem handToOutput_leaves (o : OutputNo) (c : CtxNo) (p : List Byte) (arrival : BitVec 32) (s : State) :
    (∀ d, ((handToOutput o c p arrival s).context d).input = (s.context d).input ∧
      ((handToOutput o c p arrival s).context d).service = (s.context d).service) ∧
    (handToOutput o c p arrival s).ctl.outputs = s.ctl.outputs := by
  unfold handToOutput
  dsimp only
  split
  · exact ⟨fun d => raiseDrain_identity c d _, rfl⟩
  · split
    · exact ⟨fun _ => ⟨rfl, rfl⟩, rfl⟩
    · simp only [offer_join]
      exact ⟨fun _ => ⟨rfl, rfl⟩, rfl⟩

/-- A retirement leaves the other contexts. -/
theorem retire_context_other {c d : CtxNo} (h : c ≠ d) (s : State) : (retire c s).context d = s.context d := by
  have hretired : (s.retired c).context d = s.context d := by
    have hset : ((removeContext c s).setContext c { s.context c with state := .retiring, deadline := none }).context d =
        s.context d := by
      rw [context_setContext, if_neg h]
      rfl
    unfold State.retired
    split
    · rw [context_of_contexts (endTracking_contexts ..), hset]
    · exact hset
  have hfreed (t : State) (x : Context) : (t.freed c x).context d = t.context d := getAt_setAt_ne _ _ h
  by_cases hgone : (s.context c).state = .free ∨ (s.context c).state = .retiring
  · rw [retire_gone hgone]
  · obtain ⟨hf, hr⟩ := not_or.1 hgone
    by_cases hd : (s.context c).drain = 0
    · rw [retire_drained hf hr hd, hfreed, hretired]
    · rw [retire_waits hf hr hd, hretired]

/-! ### A switch (R107; log 47) -/

/-- The part with the marker of a switch placed, the new current binding without its hold set, and the grants of the output
ended. -/
def State.switching (s : State) (o : OutputNo) (c : CtxNo) : State :=
  endGrants (fun g => g.output == o) .binding
    ((placeMarker o c s).setBinding o { current := some ⟨c, .none⟩, pending := none })

/-- The hold set of an output's new current binding at a switch. -/
def State.switchHold (s : State) (o : OutputNo) (c : CtxNo) : HoldSet :=
  { signal := !s.up (s.context c).input
    entitlement := entitlementReason s (s.context c)
    keyLapse := keyLapseReason s (s.context c)
    parental :=
      verdict { s with parental := { s.parental with grants := s.parental.grants.filter (fun g => g.output != o) } } c o }

theorem switchHold_eq (s : State) (o : OutputNo) (c : CtxNo) :
    judged (s.switching o c) judgeAll c (.output o) .none = s.switchHold o c := by
  rw [State.switching, endGrants_eq]
  rfl

/-- The part with an output switched, before the packet is handed on. -/
def State.switched (s : State) (o : OutputNo) (c : CtxNo) : State :=
  (s.switching o c).setBinding o { current := some ⟨c, s.switchHold o c⟩, pending := none }

theorem switched_eq (s : State) (o : OutputNo) (c : CtxNo) :
    s.switched o c =
      { s with
        out :=
          { s.out with
            outputs := setAt s.out.outputs o
              { s.output o with
                marker := some
                  { ctx := c, input := (s.context c).input, service := (s.context c).service,
                    components := (s.context c).components, ahead := (s.output o).queue.length } } }
        ctl := { s.ctl with
          outputs := setAt s.ctl.outputs o { current := some ⟨c, s.switchHold o c⟩, pending := none } }
        parental := { s.parental with grants := s.parental.grants.filter (fun g => g.output != o) }
        notices := s.notices.joinAll ((s.parental.grants.filter (fun g => g.output == o)).map
          (fun g => .grantEnd g.output g.key g.profile .binding)) } := by
  rw [State.switched, State.switching, endGrants_eq]
  simp only [State.setBinding, placeMarker, setAt_setAt]
  rfl

/-- A copy, where there is one, is handed to an output whose hold set is empty. -/
def handCopy (o : OutputNo) (c : CtxNo) (copy : Option (List Byte)) (arrival : BitVec 32) (hold : HoldSet) (s : State) :
    State :=
  match copy with
  | some p => if hold.isEmpty then handToOutput o c p arrival s else s
  | none => s

section
variable {o : OutputNo} {c : CtxNo} {copy : Option (List Byte)} {arrival : BitVec 32} {hold : HoldSet} {s v : State}

theorem HoldSet.isEmpty_iff (h : HoldSet) : h.isEmpty = true ↔ h = .none := beq_iff_eq

theorem handCopy_eq
    (h : (∃ p, copy = some p ∧ hold = .none ∧ v = handToOutput o c p arrival s) ∨ (copy = none ∨ hold ≠ .none) ∧ v = s) :
    handCopy o c copy arrival hold s = v := by
  rcases h with ⟨p, rfl, hh, rfl⟩ | ⟨rfl | hh, rfl⟩
  · exact if_pos ((HoldSet.isEmpty_iff hold).2 hh)
  · rfl
  · cases copy with
    | none => rfl
    | some p => exact if_neg fun he => hh ((HoldSet.isEmpty_iff hold).1 he)

theorem handCopy_leaves (o : OutputNo) (c : CtxNo) (copy : Option (List Byte)) (arrival : BitVec 32) (hold : HoldSet)
    (s : State) :
    (∀ d, ((handCopy o c copy arrival hold s).context d).input = (s.context d).input ∧
      ((handCopy o c copy arrival hold s).context d).service = (s.context d).service) ∧
    (handCopy o c copy arrival hold s).ctl.outputs = s.ctl.outputs := by
  unfold handCopy
  split
  · split
    · exact handToOutput_leaves ..
    · exact ⟨fun _ => ⟨rfl, rfl⟩, rfl⟩
  · exact ⟨fun _ => ⟨rfl, rfl⟩, rfl⟩

/-- The part with an output switched and the entry packet handed to it. -/
def State.switchedWith (s : State) (o : OutputNo) (c : CtxNo) (copy : Option (List Byte)) (arrival : BitVec 32) : State :=
  handCopy o c copy arrival (s.switchHold o c) (s.switched o c)

/-- The context that an output has switched to keeps its identity, and the output is a destination of it. -/
theorem switchedWith_leaves (s : State) (o : OutputNo) (c : CtxNo) (copy : Option (List Byte)) (arrival : BitVec 32) :
    (((s.switchedWith o c copy arrival).context c).input = (s.context c).input ∧
      ((s.switchedWith o c copy arrival).context c).service = (s.context c).service) ∧
    hasDestination (s.switchedWith o c copy arrival) c = true := by
  obtain ⟨hid, hout⟩ := handCopy_leaves o c copy arrival (s.switchHold o c) (s.switched o c)
  have hctx : (s.switched o c).context c = s.context c := by
    rw [switched_eq]
    rfl
  refine ⟨hctx ▸ hid c, (hasDestination_iff ..).2 (.inl ⟨o, ⟨c, s.switchHold o c⟩, ?_, rfl⟩)⟩
  have hb : (s.switchedWith o c copy arrival).binding o = ⟨some ⟨c, s.switchHold o c⟩, none⟩ :=
    (congrArg (fun v => getAt v o) hout).trans (getAt_setAt_self _ _ _)
  rw [hb]

/-- The context of the earlier current binding retires where it has lost its last destination. -/
def retireOld (old : Option Binding) (s : State) : State :=
  match old with
  | some b => retireIfUnbound b.ctx s
  | none => s

theorem switchOutput_eq (o : OutputNo) (c : CtxNo) (copy : Option (List Byte)) (arrival : BitVec 32) (s : State) :
    switchOutput o c copy arrival s =
      offer
        (.tuneDone (.output o) c
          ((retireOld (s.binding o).current (s.switchedWith o c copy arrival)).context c).input
          ((retireOld (s.binding o).current (s.switchedWith o c copy arrival)).context c).service (s.switchHold o c))
        (retireOld (s.binding o).current (s.switchedWith o c copy arrival)) := by
  rw [State.switchedWith, State.switched, ← switchHold_eq]
  rfl

/-- The old context, where there was one, keeps a destination. -/
theorem switchOutput_keeps
    (h : ∀ b, (s.binding o).current = some b → hasDestination (s.switchedWith o c copy arrival) b.ctx = true) :
    switchOutput o c copy arrival s =
      { s.switchedWith o c copy arrival with
        notices := (s.switchedWith o c copy arrival).notices.join
          (.tuneDone (.output o) c (s.context c).input (s.context c).service (s.switchHold o c)) } := by
  have hretire : retireOld (s.binding o).current (s.switchedWith o c copy arrival) = s.switchedWith o c copy arrival := by
    unfold retireOld
    split
    · next b hb => exact retireIfUnbound_bound (h b hb)
    · rfl
  obtain ⟨⟨hi, hs⟩, -⟩ := switchedWith_leaves s o c copy arrival
  rw [switchOutput_eq, hretire, hi, hs, offer_join]

/-- The old context has lost its last destination, and so is not the one the output has switched to. -/
theorem switchOutput_retires {b : Binding} (hb : (s.binding o).current = some b)
    (h : hasDestination (s.switchedWith o c copy arrival) b.ctx = false) :
    switchOutput o c copy arrival s =
      { retire b.ctx (s.switchedWith o c copy arrival) with
        notices := (retire b.ctx (s.switchedWith o c copy arrival)).notices.join
          (.tuneDone (.output o) c (s.context c).input (s.context c).service (s.switchHold o c)) } := by
  obtain ⟨⟨hi, hs⟩, hd⟩ := switchedWith_leaves s o c copy arrival
  have hretire : retireOld (s.binding o).current (s.switchedWith o c copy arrival) =
      retire b.ctx (s.switchedWith o c copy arrival) := by
    rw [hb]
    exact retireIfUnbound_unbound h
  have hne : b.ctx ≠ c := fun he => by
    rw [he, hd] at h
    contradiction
  rw [switchOutput_eq, hretire, retire_context_other hne, hi, hs, offer_join]

end

/-! ### A capture start (R108) -/

theorem startTag_waiting {c : CtxNo} {k : TagNo} {s : State} {w : Nat} {old : HoldSet}
    (h : s.tag k = .bound c (some w) old) :
    startTag c k s =
      { s with
        ctl := { s.ctl with tags := setAt s.ctl.tags k (.bound c none (judged s judgeAll c (.tag k) .none)) }
        notices := s.notices.join
          (.tuneDone (.tag k) c (s.context c).input (s.context c).service (judged s judgeAll c (.tag k) .none)) } := by
  simp only [startTag, h, if_true, offer_join]
  rfl

theorem startTag_other {c : CtxNo} {k : TagNo} {s : State} (h : ∀ w old, s.tag k ≠ .bound c (some w) old) :
    startTag c k s = s := by
  unfold startTag
  split
  · next c' w old hk => exact if_neg fun (he : c' = c) => h w old (he ▸ hk)
  all_goals rfl

/-! ### Admission (R117) -/

section
variable {o : OutputNo} {c : CtxNo} {copy : Option (List Byte)} (arrival : BitVec 32) {s : State}

theorem admitOutput_open {p : List Byte} (hb : (s.binding o).current = some ⟨c, .none⟩) (hp : copy = some p) :
    admitOutput c copy arrival o s = handToOutput o c p arrival s := by
  simp [admitOutput, hb, hp, HoldSet.isEmpty]

theorem admitOutput_closed (h : (s.binding o).current ≠ some ⟨c, .none⟩ ∨ copy = none) :
    admitOutput c copy arrival o s = s := by
  unfold admitOutput
  split
  · next b p hb =>
    refine if_neg fun hh => ?_
    obtain ⟨hc, he⟩ := Bool.and_eq_true_iff.1 hh
    have hbind : b = ⟨c, .none⟩ := by rw [← of_decide_eq_true hc, ← (HoldSet.isEmpty_iff _).1 he]
    exact h.elim (fun h => h (hbind ▸ hb)) nofun
  · rfl

end

section
variable {k : TagNo} {c : CtxNo} {s : State} (slot : Nat) (p : List Byte)

theorem admitTag_open (h : s.tag k = .bound c none .none) : admitTag c slot p k s = handToCapture k c slot p s := by
  simp [admitTag, h, HoldSet.isEmpty]

theorem admitTag_closed (h : s.tag k ≠ .bound c none .none) : admitTag c slot p k s = s := by
  unfold admitTag
  split
  · next c' hold hk =>
    refine if_neg fun hh => ?_
    obtain ⟨hc, he⟩ := Bool.and_eq_true_iff.1 hh
    rw [of_decide_eq_true hc, (HoldSet.isEmpty_iff _).1 he] at hk
    exact h hk
  all_goals rfl

end

theorem admitPacket_running {c : CtxNo} {s : State} (h : (s.context c).state = .running) (k : Fin 8) (p : List Byte)
    (copy : Option (List Byte)) (arrival : BitVec 32) (except : List OutputNo) :
    admitPacket c k p copy arrival except s =
      tagNos.foldl (fun s t => admitTag c (2 + k.val) p t s)
        ((outputNos.filter (fun o => !except.contains o)).foldl (fun s o => admitOutput c copy arrival o s) s) :=
  if_pos h

/-! ### A component packet is shown to a context (R14, R106) -/

section
variable {p : List Byte} (arrival : BitVec 32) {c : CtxNo} {k : Fin 8} {s : State}

/-- The packet carries the entry mark, and the component is the context's entry component. -/
def Context.marks (x : Context) (p : List Byte) (k : Fin 8) : Bool :=
  entryMark p && x.entryComponent == some k.val

theorem Context.marks_iff (x : Context) (p : List Byte) (k : Fin 8) :
    x.marks p k = true ↔ entryMark p = true ∧ x.entryComponent = some k.val := by
  simp [Context.marks]

theorem Context.marks_false {x : Context} (h : entryMark p = false ∨ x.entryComponent ≠ some k.val) : x.marks p k = false := by
  rcases h with h | h <;> simp [Context.marks, h]

theorem takeComponent_other (he : (s.context c).state ≠ .entry) (hr : (s.context c).state ≠ .running) :
    takeComponent p arrival c k s = s := by
  unfold takeComponent
  dsimp only
  split
  · contradiction
  · contradiction
  all_goals rfl

theorem takeComponent_entry (h : (s.context c).state = .entry) :
    takeComponent p arrival c k s = if (s.context c).marks p k then takeEntryPacket c k p arrival s else s := by
  simp only [takeComponent, h]
  rfl

theorem takeComponent_running (h : (s.context c).state = .running) :
    takeComponent p arrival c k s =
      if (s.context c).marks p k then takeEntryPacket c k p arrival s
      else admitPacket c k p (presentationCopy s (s.context c) p) arrival [] s := by
  simp only [takeComponent, h]
  rfl

theorem takeComponent_marked (h : (s.context c).state = .entry ∨ (s.context c).state = .running)
    (hm : (s.context c).marks p k = true) : takeComponent p arrival c k s = takeEntryPacket c k p arrival s := by
  rcases h with h | h
  · rw [takeComponent_entry arrival h, if_pos hm]
  · rw [takeComponent_running arrival h, if_pos hm]

end

/-- Settles O59: RUNNING, switches, capture starts and admission each by what they find, a component packet by the state of
the context and the entry mark. -/
theorem entryPacketsSwitchAndStart : Obligations.EntryPacketsSwitchAndStart := by
  refine ⟨?running, ?switches, ?starts,
    fun o c copy arrival s => ⟨fun p => admitOutput_open arrival, admitOutput_closed arrival⟩,
    fun k c slot p s => ⟨admitTag_open slot p, admitTag_closed slot p⟩, ?shown⟩
  case running =>
    rintro c s x rfl
    refine ⟨becomeRunning_other, ?_, canSwitch_iff s c⟩
    rintro u rfl h
    exact ⟨becomeRunning_pb h, becomeRunning_tuner h⟩
  case switches =>
    rintro o c copy arrival s u v x kept hold rfl rfl hhold hu hv
    obtain rfl : hold = s.switchHold o c := hhold
    obtain rfl : u = s.switched o c := hu.trans (switched_eq s o c).symm
    have hw : s.switchedWith o c copy arrival = v := handCopy_eq hv
    rw [← hw]
    refine ⟨switchOutput_keeps, fun b w hb hd hr => ?_⟩
    rw [hr]
    exact switchOutput_retires hb hd
  case starts =>
    rintro k c s x hold rfl rfl
    exact ⟨fun w old => startTag_waiting, startTag_other⟩
  case shown =>
    rintro p arrival c k s x rfl
    refine ⟨takeComponent_other arrival, fun he hm => ?entry, fun hr hm => ?runs, ?marked,
      fun copy except hr => admitPacket_running hr k p copy arrival except⟩
    case entry => rw [takeComponent_entry arrival he, Context.marks_false hm, if_neg Bool.false_ne_true]
    case runs => rw [takeComponent_running arrival hr, Context.marks_false hm, if_neg Bool.false_ne_true]
    case marked =>
      rintro u copy switching hs hm he rfl rfl rfl
      rw [takeComponent_marked arrival hs ((Context.marks_iff ..).2 ⟨hm, he⟩)]
      rfl

end Sys2Proof.Machine

/-! Lockouts and grants that end: LOCKOUT_END, GRANT_MINUTES_END (O15) and REVOKE_GRANTS (O41). -/

namespace Sys2Proof.Machine

/-! ### LOCKOUT_END and GRANT_MINUTES_END (R138, R141) -/

theorem exec_lockoutEnd (s : State) : exec .lockoutEnd s = .next (endLockouts s) := rfl

theorem exec_grantMinutesEnd (s : State) : exec .grantMinutesEnd s = .next (endMinuteGrants s) := rfl

/-- A lockout end stands while it is above uptime. -/
theorem lockoutEnd_filter (up : Nat) (x : Option Nat) :
    x.filter (fun e => decide (up < e)) =
      match x with
      | some e => if e ≤ up then none else some e
      | none => none := by
  cases x with
  | none => rfl
  | some e => by_cases h : e ≤ up <;> simp [h, Option.filter]

theorem endLockouts_eq (s : State) (ends : Option Nat → Option Nat)
    (h : ∀ x, x.filter (fun e => decide (s.clock.uptime < e)) = ends x) :
    endLockouts s =
      { s with parental := { s.parental with
        profiles := s.parental.profiles.map fun p => { p with lockoutEnd := ends p.lockoutEnd } } } := by
  simp only [endLockouts, h]

/-- The pairs of each output that lost a grant hold the verdict the state gives (R141). -/
theorem endGrantsAndJudge_on (hit : Grant → Bool) (cause : GrantEnd) (s : State) :
    VerdictsOn (endGrantsAndJudge hit cause s) (fun _ o => ∃ g ∈ s.parental.grants, hit g = true ∧ g.output = o) :=
  ⟨fun o b hb h => (endGrantsAndJudge_verdicts hit cause s o h).1 b hb,
    fun o b hb h => (endGrantsAndJudge_verdicts hit cause s o h).2 b hb⟩

/-- Settles O15: a lockout end by whether uptime has reached it, and the grants that have run out ended and judged. -/
theorem lockoutsAndMinuteGrantsEnd : Obligations.LockoutsAndMinuteGrantsEnd := by
  refine ⟨fun s => ?lockouts, ?grants⟩
  case lockouts =>
    exact (exec_lockoutEnd s).trans (congrArg _ (endLockouts_eq s _ (lockoutEnd_filter s.clock.uptime)))
  case grants =>
    rintro s ended rfl
    have hj := endGrantsAndJudge_holds (Grant.minutesOver s.clock.uptime) .minutes s
    have hv := endGrantsAndJudge_on (Grant.minutesOver s.clock.uptime) .minutes s
    rw [endGrants_eq] at hj
    exact ⟨endMinuteGrants s, exec_grantMinutesEnd s, hj, fun o b h hb => hv.1 o b hb h, fun o b h hb => hv.2 o b hb h⟩

/-! ### REVOKE_GRANTS (R142) -/

/-- The grants that a REVOKE_GRANTS with this output parameter ends: 0xFF names both outputs (Table 9-3). -/
def revokes (output : Byte) (g : Grant) : Bool :=
  decide (output.toNat = 255 ∨ g.output.val = output.toNat)

theorem takeRevokeGrants_range {output : Byte} (s : State) (h : 2 ≤ output.toNat) (hall : output.toNat ≠ 255) :
    takeRevokeGrants output s = (refuse .badParam, s) := by
  have hc : ¬(decide (output.toNat = 255) || decide (output.toNat < 2)) = true := by
    simp only [Bool.or_eq_true, decide_eq_true_eq]
    omega
  simp only [takeRevokeGrants, if_neg hc]

theorem takeRevokeGrants_taken {output : Byte} (s : State) (h : output.toNat < 2 ∨ output.toNat = 255) :
    takeRevokeGrants output s =
      (done (enc8 (s.parental.grants.filter (revokes output)).length),
        endGrantsAndJudge (revokes output) .revoked s) := by
  have hr : (fun g : Grant => output.toNat == 255 || g.output.val == output.toNat) = revokes output := by
    funext g
    simp [revokes, beq_eq_decide]
  have hc : (decide (output.toNat = 255) || decide (output.toNat < 2)) = true := by simpa using h.symm
  simp only [takeRevokeGrants, if_pos hc, hr]

/-- Settles O41: the output out of range, or the grants it names ended and judged. -/
theorem grantsAreRevoked : Obligations.GrantsAreRevoked := by
  refine fun tag output s hh =>
    ⟨fun h hall => exec_answered hh rfl (takeRevokeGrants_range s h hall), fun ended h he => ?_⟩
  obtain rfl : ended = revokes output := he
  have hj := endGrantsAndJudge_holds (revokes output) .revoked s
  rw [endGrants_eq] at hj
  exact ⟨_, exec_answered hh rfl (takeRevokeGrants_taken s h), hj, endGrantsAndJudge_on _ _ s⟩

end Sys2Proof.Machine

/-! The reasons of a profile against a context (O34). -/

namespace Sys2Proof.Machine

/-! ### RATING and UNRATED (R131, R132) -/

theorem place_eq_some_iff {n v : Nat} {k : Fin n} : place n v = some k ↔ k.val = v := by
  refine ⟨fun h => ?_, place_some k⟩
  unfold place at h
  split at h
  · cases h; rfl
  · cases h

/-- The level of a code: that of the table, and 15 beyond it. -/
theorem ratingLevel_eq (s : State) (k : Fin 8) (code : Nat) :
    ratingLevel s k code = if h : code < 64 then getAt (getAt s.parental.table k) (⟨code, h⟩ : Fin 64) else 15 := by
  unfold ratingLevel place
  split_ifs <;> rfl

theorem aboveLimit_iff (s : State) (p : Profile) (r : Rating) :
    aboveLimit s p r = true ↔ ∃ k : Fin 8, k.val = r.system ∧ getAt p.limits k < ratingLevel s k r.code := by
  simp only [← place_eq_some_iff, aboveLimit]
  cases place 8 r.system <;> simp

/-- The entries are the map ratings, and those of PLAY or of the event by the input of the context. -/
theorem ratingEntries_eq {s : State} {x : Context} {more : List Rating}
    (hpb : x.input = pb → more = (x.play.map PlayInfo.ratings).getD [])
    (htuner : x.input ≠ pb → more = ((verdictEvent s x).map Event.ratings).getD []) :
    (x.mapRatings ++ more).filter (fun r => decide (r.system < 8)) = ratingEntries s x := by
  by_cases h : x.input = pb
  · rw [ratingEntries, if_pos h, hpb h]
  · rw [ratingEntries, if_neg h, htuner h]

theorem ratingReason_iff (s : State) (x : Context) (p : ProfileNo) :
    (profileReasons s x p).rating = true ↔
      ∃ r ∈ ratingEntries s x, ∃ k : Fin 8, k.val = r.system ∧
        getAt (s.profile p).limits k < ratingLevel s k r.code := by
  simp only [profileReasons, List.any_eq_true, aboveLimit_iff]

theorem unratedReason_iff (s : State) (x : Context) (p : ProfileNo) :
    (profileReasons s x p).unrated = true ↔ ratingEntries s x = [] ∧ (s.profile p).unratedHold = true := by
  simp [profileReasons]

/-! ### The event whose ratings count (R131) -/

section
variable {s : State} {x : Context}

theorem verdictEvent_acquiring (h : x.state ≠ .running) : verdictEvent s x = currentEvent s x.service := if_neg h

theorem verdictEvent_tracked (h : x.state = .running) {t : Tracked} {id : Nat} (ht : trackedRec s x.service = some t)
    (hid : t.id = some id) :
    verdictEvent s x = s.guide.events.find? (fun e => e.service == x.service && e.id == id) := by
  simp only [verdictEvent, if_pos h, ht, Option.bind_some, hid]

theorem verdictEvent_untracked (h : x.state = .running) (hn : ∀ t, trackedRec s x.service = some t → t.id = none) :
    verdictEvent s x = none := by
  have hb : (trackedRec s x.service).bind Tracked.id = none := Option.bind_eq_none_iff.2 hn
  simp only [verdictEvent, if_pos h, hb]

end

/-! ### ADULT and LOCKED (R133) -/

theorem markedAdult_iff (s : State) (x : Context) :
    markedAdult s x = true ↔
      x.input = pb ∧ (∃ i, x.play = some i ∧ i.adult = true) ∨
        x.input ≠ pb ∧ ∃ r, serviceRec s x.service = some r ∧ r.adult = true := by
  by_cases h : x.input = pb <;> simp [markedAdult, h, Option.any_eq_true]

theorem adultReason_iff (s : State) (x : Context) (p : ProfileNo) :
    (profileReasons s x p).adult = true ↔ (s.profile p).adultHold = true ∧ markedAdult s x = true := by
  simp only [profileReasons, Bool.and_eq_true]

theorem lockedReason_iff (s : State) (x : Context) (p : ProfileNo) :
    (profileReasons s x p).locked = true ↔
      x.input ≠ pb ∧ ∃ l ∈ s.parental.locked, l.service = x.service ∧ l.mask.getLsbD p.val = true := by
  simp [profileReasons, hasBit]

/-! ### QUIET (R134) -/

theorem quietReason_set {s : State} {t : NetTime} {m : Nat} (hn : s.clock.net = some t) (hm : s.clock.minute = some m)
    (p : Profile) :
    quietReason s p = true ↔ ∃ w ∈ p.windows, ((m : Int) - (w.start : Int)) % 10080 < (w.length : Int) := by
  simp [quietReason, hn, hm, insideWindow]

theorem quietReason_unset {s : State} (hn : s.clock.net = none) (p : Profile) :
    quietReason s p = true ↔ p.timeUnknownHold = true ∧ p.windows ≠ [] := by
  simp [quietReason, hn]

/-- Settles O34: the entries by the input of the context, the event by its state, and each reason by what it reads. -/
theorem reasonsOfAProfile : Obligations.ReasonsOfAProfile := by
  refine ⟨⟨?entries, fun s x => ⟨fun h => ⟨fun t id ht hid => verdictEvent_tracked h ht hid, verdictEvent_untracked h⟩,
    verdictEvent_acquiring⟩, fun s x p => ⟨?adult, lockedReason_iff s x p⟩⟩,
    fun s x p => ⟨fun t m hn hm => quietReason_set hn hm _, fun hn => quietReason_unset hn _⟩⟩
  case adult => rw [adultReason_iff, markedAdult_iff, serviceRec]
  case entries =>
    rintro s x p more entries hpb htuner rfl
    have he := ratingEntries_eq (s := s) (x := x) (fun h => (hpb h).trans ?play) (fun h => (htuner h).trans ?event)
    case play => cases x.play <;> rfl
    case event => cases verdictEvent s x <;> rfl
    rw [he]
    simp only [← ratingLevel_eq]
    exact ⟨ratingReason_iff s x p, unratedReason_iff s x p⟩

end Sys2Proof.Machine

/-! PIN checks (O36), and the orders SET_PIN and LOCK_PARENTAL (O39). -/

namespace Sys2Proof.Machine

/-! ### A PIN check (R137) -/

theorem digitsOk_iff (pin : Pin) : digitsOk pin = true ↔ ∀ d ∈ pin.toList, d.toNat ≤ 9 := by
  simp only [digitsOk, List.all_eq_true, decide_eq_true_eq]

/-- A profile is locked out while its lockout end is above uptime. -/
def State.lockedOut (s : State) (q : ProfileNo) : Bool :=
  (s.profile q).lockoutEnd.any (fun e => decide (s.clock.uptime < e))

section
variable {s : State} {q : ProfileNo}

theorem lockedOut_of_lt {e : Nat} (he : (s.profile q).lockoutEnd = some e) (h : s.clock.uptime < e) :
    s.lockedOut q = true := by
  simp [State.lockedOut, he, h]

theorem lockedOut_over (h : ∀ e, (s.profile q).lockoutEnd = some e → e ≤ s.clock.uptime) : s.lockedOut q = false := by
  simpa [State.lockedOut, Option.any_eq_false] using h

variable {pin right : Pin}

theorem pinCheck_noPin (h : (s.profile q).pin = none) : pinCheck q pin s = (.noPin, s) := by
  simp only [pinCheck, h]

variable (hp : (s.profile q).pin = some right)
include hp

/-- A check against a profile with a PIN, by its lockout, the PIN given, and the failures before it. -/
theorem pinCheck_pin :
    pinCheck q pin s =
      if s.lockedOut q = true then (.lockedOut ((s.profile q).lockoutEnd.getD 0 - s.clock.uptime), s)
      else if pin = right then (.right, s.setProfile q { s.profile q with failures := 0 })
      else if 3 ≤ (s.profile q).failures + 1 then
        (.wrong 0 true,
          offer (.lockout q (s.clock.uptime + 600))
            (s.setProfile q { s.profile q with failures := 0, lockoutEnd := some (s.clock.uptime + 600) }))
      else
        (.wrong ((s.profile q).failures + 1) false,
          s.setProfile q { s.profile q with failures := (s.profile q).failures + 1 }) := by
  simp only [pinCheck, hp]
  rfl

theorem pinCheck_lockedOut {e : Nat} (he : (s.profile q).lockoutEnd = some e) (h : s.clock.uptime < e) :
    pinCheck q pin s = (.lockedOut (e - s.clock.uptime), s) := by
  rw [pinCheck_pin hp, if_pos (lockedOut_of_lt he h), he, Option.getD_some]

variable (hl : s.lockedOut q = false)
include hl

theorem pinCheck_right (h : pin = right) :
    pinCheck q pin s = (.right, s.setProfile q { s.profile q with failures := 0 }) := by
  rw [pinCheck_pin hp, if_neg (by simp [hl]), if_pos h]

theorem pinCheck_wrong (h : pin ≠ right) (hf : (s.profile q).failures < 2) :
    pinCheck q pin s =
      (.wrong ((s.profile q).failures + 1) false,
        s.setProfile q { s.profile q with failures := (s.profile q).failures + 1 }) := by
  rw [pinCheck_pin hp, if_neg (by simp [hl]), if_neg h, if_neg (by omega)]

theorem pinCheck_lockout (h : pin ≠ right) (hf : 2 ≤ (s.profile q).failures) :
    pinCheck q pin s =
      (.wrong 0 true,
        offer (.lockout q (s.clock.uptime + 600))
          (s.setProfile q { s.profile q with failures := 0, lockoutEnd := some (s.clock.uptime + 600) })) := by
  rw [pinCheck_pin hp, if_neg (by simp [hl]), if_neg h, if_pos (by omega)]

end

/-- Settles O36: the digits, and a check by the PIN and the lockout of the profile, the PIN given and the failures. -/
theorem pinChecks : Obligations.PinChecks := by
  refine ⟨digitsOk_iff, ?_⟩
  rintro q pin s x rfl
  refine ⟨pinCheck_noPin, fun right hp => ⟨fun e he h => pinCheck_lockedOut hp he h, fun hl => ?_⟩⟩
  have hover := lockedOut_over hl
  refine ⟨pinCheck_right hp hover, pinCheck_wrong hp hover, fun h hf => ?_⟩
  rw [pinCheck_lockout hp hover h hf, offer_join]
  rfl

/-! ### The effect of an order behind a PIN check (R137) -/

section
variable {s u : State} {q : ProfileNo} {d : Pin} {effect : State → Reply × State}

theorem afterCheck_none : afterCheck q none effect s = (refuse .badParam, s) := rfl

theorem afterCheck_right (h : pinCheck q d s = (.right, u)) : afterCheck q (some d) effect s = effect u := by
  simp only [afterCheck, h]

theorem afterCheck_failed {r : PinResult} (h : pinCheck q d s = (r, u)) (hr : r ≠ .right) :
    afterCheck q (some d) effect s = (pinReply r, u) := by
  simp only [afterCheck, h]

end

/-! ### SET_PIN (R147; log 50) -/

/-- The new PIN of a profile is set, or its PIN removed. -/
def pinSet (p : ProfileNo) (new : Option Pin) (s : State) : Reply × State :=
  (done [], s.setProfile p { s.profile p with pin := new })

/-- What SET_PIN refuses whatever the authorisation: a digit above 9, and the removal of profile 0's PIN behind the
lock. -/
def State.refusesPin (s : State) (p : ProfileNo) (pin new : Option Pin) : Bool :=
  !(pin.all digitsOk && new.all digitsOk) || (new.isNone && p == 0 && s.parental.lock)

section
variable {p : ProfileNo} {profile : Byte} {pin new : Option Pin} {s : State}

theorem all_digitsOk_eq_false : pin.all digitsOk = false ↔ ∃ d, pin = some d ∧ digitsOk d = false := by
  cases pin <;> simp

theorem refusesPin_iff :
    s.refusesPin p pin new = true ↔
      (∃ d, pin = some d ∧ digitsOk d = false) ∨ (∃ d, new = some d ∧ digitsOk d = false) ∨
        (new = none ∧ p = 0 ∧ s.parental.lock = true) := by
  simp only [State.refusesPin, Bool.or_eq_true, Bool.not_eq_true', Bool.and_eq_false_iff, all_digitsOk_eq_false,
    or_assoc, Bool.and_eq_true, Option.isNone_iff_eq_none, beq_iff_eq, and_assoc]

theorem takeSetPin_range (h : 4 ≤ profile.toNat) : takeSetPin profile pin new s = (refuse .badParam, s) := by
  simp only [takeSetPin, place_none h]

variable (hp : p.val = profile.toNat)
include hp

/-- The refusals stand first; then a PIN is asked for where the profile has one, or the lock is set. -/
theorem takeSetPin_place :
    takeSetPin profile pin new s =
      if s.refusesPin p pin new = true then (refuse .badParam, s)
      else if (s.profile p).pin.isSome = true then afterCheck p pin (pinSet p new) s
      else if s.parental.lock = true then afterCheck 0 pin (pinSet p new) s
      else pinSet p new s := by
  simp only [takeSetPin, place_some p hp]
  rfl

theorem takeSetPin_refused (h : s.refusesPin p pin new = true) :
    takeSetPin profile pin new s = (refuse .badParam, s) := by
  rw [takeSetPin_place hp, if_pos h]

variable (hr : ¬s.refusesPin p pin new = true)
include hr

theorem takeSetPin_checked (h : (s.profile p).pin.isSome = true ∨ s.parental.lock = true) :
    takeSetPin profile pin new s = afterCheck (gateProfile s p) pin (pinSet p new) s := by
  rw [takeSetPin_place hp, if_neg hr, gateProfile]
  by_cases ho : (s.profile p).pin.isSome = true
  · rw [if_pos ho, if_pos ho]
  · rw [if_neg ho, if_neg ho, if_pos (h.resolve_left ho)]

theorem takeSetPin_free (hn : (s.profile p).pin = none) (hl : s.parental.lock = false) :
    takeSetPin profile pin new s = pinSet p new s := by
  rw [takeSetPin_place hp, if_neg hr, if_neg (by simp [hn]), if_neg (by simp [hl])]

end

/-! ### LOCK_PARENTAL (R143) -/

section
variable {s : State}

theorem takeLockParental_noPin (h : (s.profile 0).pin = none) : takeLockParental s = (refuse .noPin, s) := by
  simp [takeLockParental, h]

theorem takeLockParental_set (h : (s.profile 0).pin.isSome = true) (hl : s.parental.lock = true) :
    takeLockParental s = (refuse .already, s) := by
  rw [takeLockParental, if_neg (by simpa using Option.isSome_iff_ne_none.1 h), if_pos hl]

theorem takeLockParental_clear (h : (s.profile 0).pin.isSome = true) (hl : s.parental.lock = false) :
    takeLockParental s = (done [], { s with parental := { s.parental with lock := true } }) := by
  rw [takeLockParental, if_neg (by simpa using Option.isSome_iff_ne_none.1 h), if_neg (by simp [hl])]

end

/-- Settles O39: SET_PIN by its parameters, the PIN of the profile, the lock and the check; LOCK_PARENTAL by the PIN of
profile 0 and the lock. -/
theorem pinsAndTheParentalLock : Obligations.PinsAndTheParentalLock := by
  refine fun tag s hh => ⟨?range, ?set, fun h => exec_answered hh rfl (takeLockParental_noPin h),
    fun h hl => exec_answered hh rfl (takeLockParental_set h hl),
    fun h hl => exec_answered hh rfl (takeLockParental_clear h hl)⟩
  case range =>
    intro profile pin new h
    refine exec_answered hh rfl ?_
    rcases le_or_gt 4 profile.toNat with hr | hr
    · exact takeSetPin_range hr
    · refine takeSetPin_refused (p := ⟨profile.toNat, hr⟩) rfl (refusesPin_iff.2 ?_)
      simpa [Fin.ext_iff] using h.resolve_left (not_le.2 hr)
  case set =>
    rintro p q profile pin new hp hd hn hz rfl
    have hr : ¬s.refusesPin p pin new = true := by
      rw [refusesPin_iff]
      rintro (⟨d, hs, hf⟩ | ⟨d, hs, hf⟩ | h)
      · exact Bool.false_ne_true (hf.symm.trans (hd d hs))
      · exact Bool.false_ne_true (hf.symm.trans (hn d hs))
      · exact hz h
    refine ⟨fun h hl => exec_answered hh rfl (takeSetPin_free hp hr h hl), fun h => ?checked⟩
    have hc := takeSetPin_checked hp hr h
    refine ⟨?none, ?failed, ?right⟩
    case none =>
      rintro rfl
      exact exec_answered hh rfl hc
    case failed =>
      rintro d r u rfl hk hne
      exact exec_answered hh rfl (hc.trans (afterCheck_failed hk hne))
    case right =>
      rintro d u rfl hk
      exact exec_answered hh rfl (hc.trans (afterCheck_right hk))

end Sys2Proof.Machine

/-! LOAD_RATING_ROW, SET_PROFILE and BIND_PROFILE (O37), LOCK_SERVICE and UNLOCK_SERVICE (O38). -/

namespace Sys2Proof.Machine

/-! ### Orders behind the gate of the parental lock (R144) -/

section
variable {i : Instr} {s u : State} {code tag : Byte} {params : List Byte} {q : ProfileNo} {pin : Option Pin}
  {effect : State → Reply × State} {r : Reply} {t : State} (hh : s.handsOn = true)
  (hi : orderParts i = some (code, tag, params))
  (hg : takeOrder i s = gated q pin effect s)
include hh hi hg

/-- A gated order that fails the gate is answered by it. -/
theorem exec_fails (h : FailsGate q pin s r u) : exec i s = .next (pushAnswer code tag r u) :=
  exec_answered hh hi (hg.trans (gated_of_fails h effect))

/-- A gated order that passes the gate is answered with its effect on the part the check leaves. -/
theorem exec_passes (h : PassesGate q pin s u) (he : effect u = (r, t)) :
    exec i s = .next (pushAnswer code tag r t) :=
  exec_answered hh hi (hg.trans ((gated_of_passes h effect).trans he))

end

/-! ### LOAD_RATING_ROW (R145) -/

theorem levels_le_iff {n : Nat} (v : Vector Byte n) :
    v.toList.all (fun l => decide (l.toNat ≤ 15)) = true ↔ ∀ l ∈ v.toList, l.toNat ≤ 15 := by
  simp only [List.all_eq_true, decide_eq_true_eq]

section
variable {system : Byte} {levels : Vector Byte 64} {pin : Option Pin} {s : State}

theorem takeLoadRatingRow_range (h : 8 ≤ system.toNat) :
    takeLoadRatingRow system levels pin s = (refuse .badParam, s) := by
  simp only [takeLoadRatingRow, place_none h]

theorem takeLoadRatingRow_levels {l : Byte} (hl : l ∈ levels.toList) (h : 15 < l.toNat) :
    takeLoadRatingRow system levels pin s = (refuse .badParam, s) := by
  have hc : ¬levels.toList.all (fun l => decide (l.toNat ≤ 15)) = true :=
    fun ha => not_lt.2 ((levels_le_iff levels).1 ha l hl) h
  simp only [takeLoadRatingRow, if_neg hc]
  cases place 8 system.toNat <;> rfl

theorem takeLoadRatingRow_taken {k : Fin 8} (hk : k.val = system.toNat) (h : ∀ l ∈ levels.toList, l.toNat ≤ 15) :
    takeLoadRatingRow system levels pin s = gated 0 pin (fun s => (done [], loadRow k levels s)) s := by
  simp only [takeLoadRatingRow, place_some k hk, if_pos ((levels_le_iff levels).2 h)]

end

theorem loadRow_holds (k : Fin 8) (levels : Vector Byte 64) (s : State) :
    HoldsOnly { s with parental := { s.parental with table := setAt s.parental.table k (levels.map BitVec.toNat) } }
      (loadRow k levels s) :=
  HoldsOnly.rejudgeVerdicts _ _

theorem loadRow_on (k : Fin 8) (levels : Vector Byte 64) (s : State) :
    VerdictsOn (loadRow k levels s) (fun _ _ => True) :=
  (rejudgeVerdicts_on (fun _ => true) _).mono fun _ _ _ => rfl

/-! ### SET_PROFILE (R146) -/

section
variable (limits : Vector Byte 8) (unrated adult unknown : Byte) (windows : List (Word16 × Word16))

/-- The parameters of a SET_PROFILE, less the profile it names, are in range. -/
structure ProfileInRange : Prop where
  limits : ∀ l ∈ limits.toList, l.toNat ≤ 15
  unrated : unrated.toNat ≤ 1
  adult : adult.toNat ≤ 1
  unknown : unknown.toNat ≤ 1
  count : windows.length ≤ 4
  windows : ∀ w ∈ windows, w.1.toNat ≤ 10079 ∧ 1 ≤ w.2.toNat ∧ w.2.toNat ≤ 10080

/-- A profile with the limits, policies and windows of a SET_PROFILE. -/
def profileWith (x : Profile) : Profile :=
  { x with
    limits := limits.map BitVec.toNat, unratedHold := unrated.toNat == 1, adultHold := adult.toNat == 1,
    timeUnknownHold := unknown.toNat == 1, windows := windows.map (fun w => ⟨w.1.toNat, w.2.toNat⟩) }

variable {limits unrated adult unknown windows} {p : ProfileNo} {profile : Byte} {pin : Option Pin} {s : State}

theorem profileInRange_iff :
    ProfileInRange limits unrated adult unknown windows ↔
      (limits.toList.all (fun l => decide (l.toNat ≤ 15)) && decide (unrated.toNat ≤ 1) && decide (adult.toNat ≤ 1) &&
        decide (unknown.toNat ≤ 1) && decide (windows.length ≤ 4) && windows.all windowOk) = true := by
  simp only [Bool.and_eq_true, decide_eq_true_eq, List.all_eq_true, windowOk, and_assoc]
  exact ⟨fun h => ⟨h.limits, h.unrated, h.adult, h.unknown, h.count, h.windows⟩,
    fun ⟨hl, hu, ha, hk, hc, hw⟩ => ⟨hl, hu, ha, hk, hc, hw⟩⟩

theorem takeSetProfile_range (h : 4 ≤ profile.toNat) :
    takeSetProfile profile limits unrated adult unknown windows pin s = (refuse .badParam, s) := by
  simp only [takeSetProfile, place_none h]

theorem takeSetProfile_refused (h : ¬ProfileInRange limits unrated adult unknown windows) :
    takeSetProfile profile limits unrated adult unknown windows pin s = (refuse .badParam, s) := by
  rw [profileInRange_iff] at h
  simp only [takeSetProfile, if_neg h]
  cases place 4 profile.toNat <;> rfl

theorem takeSetProfile_taken (hp : p.val = profile.toNat) (h : ProfileInRange limits unrated adult unknown windows) :
    takeSetProfile profile limits unrated adult unknown windows pin s =
      gated (gateProfile s p) pin
        (fun s =>
          (done [],
            rejudgeProfile p (s.setProfile p (profileWith limits unrated adult unknown windows (s.profile p))))) s := by
  simp only [takeSetProfile, place_some p hp, if_pos (profileInRange_iff.1 h)]
  rfl

end

/-! ### BIND_PROFILE (R148; log 47) -/

theorem profileParam_range {profile : Byte} (h : 4 ≤ profile.toNat) (hn : profile.toNat ≠ 255) :
    profileParam profile = none := by
  rw [profileParam, if_neg hn, place_none h, Option.map_none]

theorem profileParam_some {profile : Byte} {p : Option ProfileNo}
    (h : p = none ∧ profile.toNat = 255 ∨ ∃ k : ProfileNo, p = some k ∧ k.val = profile.toNat) :
    profileParam profile = some p := by
  rcases h with ⟨rfl, h⟩ | ⟨k, rfl, hk⟩
  · exact if_pos h
  · rw [profileParam, if_neg (by omega), place_some k hk, Option.map_some]

section
variable {output profile : Byte} {pin : Option Pin} {s : State} {o : OutputNo} {p : Option ProfileNo}

theorem takeBindProfile_range (h : 2 ≤ output.toNat) :
    takeBindProfile output profile pin s = (refuse .badParam, s) := by
  simp only [takeBindProfile, place_none h]

theorem takeBindProfile_profile (h : profileParam profile = none) :
    takeBindProfile output profile pin s = (refuse .badParam, s) := by
  simp only [takeBindProfile, h]
  cases place 2 output.toNat <;> rfl

theorem takeBindProfile_taken (ho : o.val = output.toNat) (hp : profileParam profile = some p) :
    takeBindProfile output profile pin s =
      gated ((p.map (gateProfile s)).getD 0) pin
        (fun s => (done [], if getAt s.parental.binding o = p then s else bindProfileTo o p s)) s := by
  simp only [takeBindProfile, place_some o ho, hp]

end

theorem bindProfileTo_holds (o : OutputNo) (p : Option ProfileNo) (s : State) :
    HoldsOnly
      { s with
        parental :=
          { s.parental with
            binding := setAt s.parental.binding o p
            grants := s.parental.grants.filter (fun g => !(g.output == o)) }
        notices := s.notices.joinAll
          ((s.parental.grants.filter (fun g => g.output == o)).map
            (fun g => .grantEnd g.output g.key g.profile .profile)) }
      (bindProfileTo o p s) := by
  rw [bindProfileTo, endGrants_eq]
  exact HoldsOnly.rejudgePairs o _

theorem bindProfileTo_on (o : OutputNo) (p : Option ProfileNo) (s : State) :
    VerdictsOn (bindProfileTo o p s) (fun _ o' => o' = o) :=
  rejudgePairs_on o _

/-- Settles O37: each order by its parameters, by the gate, and BIND_PROFILE by whether the binding is a new one. -/
theorem ratingRowsAndProfilesAreSet : Obligations.RatingRowsAndProfilesAreSet := by
  refine ⟨fun tag pin s hh => ⟨?rowRange, ?row, ?profileRange, ?profile⟩, fun tag output profile pin s hh =>
    ⟨?bindRange, ?bind⟩⟩
  case rowRange =>
    rintro system levels (h | ⟨l, hl, h⟩)
    · exact exec_answered hh rfl (takeLoadRatingRow_range h)
    · exact exec_answered hh rfl (takeLoadRatingRow_levels hl h)
  case row =>
    intro k system levels hk hl
    have hg := takeLoadRatingRow_taken (pin := pin) (s := s) hk hl
    exact ⟨fun r u h => exec_fails hh rfl hg h,
      fun u h => ⟨_, exec_passes hh rfl hg h rfl, loadRow_holds k levels u, loadRow_on k levels u⟩⟩
  case profileRange =>
    intro profile limits unrated adult unknown windows h
    refine exec_answered hh rfl ?_
    rcases h with h | h
    · exact takeSetProfile_range h
    · refine takeSetProfile_refused fun hr => ?_
      rcases h with ⟨l, hl, h⟩ | h | h | h | h | ⟨w, hw, h⟩
      · exact not_lt.2 (hr.limits l hl) h
      · exact not_lt.2 hr.unrated h
      · exact not_lt.2 hr.adult h
      · exact not_lt.2 hr.unknown h
      · exact not_lt.2 hr.count h
      · obtain ⟨hstart, hpos, hlen⟩ := hr.windows w hw
        omega
  case profile =>
    rintro p q profile limits unrated adult unknown windows hp hl hu ha hk hc hw rfl
    have hg := takeSetProfile_taken (pin := pin) (s := s) hp ⟨hl, hu, ha, hk, hc, hw⟩
    exact ⟨fun r u h => exec_fails hh rfl hg h,
      fun u h => ⟨_, exec_passes hh rfl hg h rfl, HoldsOnly.rejudgeProfile p _, rejudgeProfile_on p _⟩⟩
  case bindRange =>
    rintro (h | ⟨h, hn⟩)
    · exact exec_answered hh rfl (takeBindProfile_range h)
    · exact exec_answered hh rfl (takeBindProfile_profile (profileParam_range h hn))
  case bind =>
    intro o p q ho hp hq
    have hg := takeBindProfile_taken (pin := pin) (s := s) ho (profileParam_some hp)
    have hq' : q = (p.map (gateProfile s)).getD 0 := by
      rw [hq]
      cases p <;> rfl
    subst hq'
    exact ⟨fun r u h => exec_fails hh rfl hg h,
      fun u h hsame => exec_passes hh rfl hg h (by rw [if_pos hsame]),
      fun u h hnew => ⟨bindProfileTo o p u, exec_passes hh rfl hg h (by rw [if_neg hnew]), bindProfileTo_holds o p u,
        bindProfileTo_on o p u⟩⟩

/-! ### LOCK_SERVICE (R149) -/

theorem rejudgeService_on (service : Nat) (s : State) :
    VerdictsOn (rejudgeService service s)
      (fun c _ => ((rejudgeService service s).context c).input ≠ pb ∧
        ((rejudgeService service s).context c).service = service) := by
  have hc : ∀ c, (rejudgeService service s).context c = s.context c :=
    fun c => congrArg (fun v => getAt v c) (HoldsOnly.rejudgeService service s).contexts
  refine (rejudgeVerdicts_on (onService s service) s).mono fun c _ h => ?_
  rw [hc] at h
  simpa [onService] using h

/-- What LOCK_SERVICE does past the gate. -/
def serviceLocked (n : Nat) (new : LockedService) (s : State) : Reply × State :=
  if s.parental.locked.any (fun l => l.service == n) then
    (done [], rejudgeService n (s.setLocked (s.parental.locked.map (fun l => if l.service == n then new else l))))
  else if s.parental.locked.length < 32 then
    (done [], rejudgeService n (s.setLocked (s.parental.locked ++ [new])))
  else (refuse .noRoom, s)

/-- What UNLOCK_SERVICE does past the gate. -/
def serviceUnlocked (n : Nat) (s : State) : Reply × State :=
  if s.parental.locked.any (fun l => l.service == n) then
    (done [], rejudgeService n (s.setLocked (s.parental.locked.filter (fun l => l.service != n))))
  else (refuse .notFound, s)

section
variable {service : Word16} {mask : Byte} {pin : Option Pin} {s : State}

theorem takeLockService_range (h : mask.toNat = 0 ∨ 15 < mask.toNat) :
    takeLockService service mask pin s = (refuse .badParam, s) :=
  if_pos (by simpa using h)

theorem takeLockService_taken (h0 : mask.toNat ≠ 0) (h15 : mask.toNat ≤ 15) :
    takeLockService service mask pin s =
      gated 0 pin (serviceLocked service.toNat ⟨service.toNat, mask.setWidth 4⟩) s :=
  if_neg (by simp only [Bool.or_eq_true, decide_eq_true_eq]; omega)

theorem takeUnlockService_eq :
    takeUnlockService service pin s = gated 0 pin (serviceUnlocked service.toNat) s := rfl

end

section
variable {n : Nat} {new : LockedService} {s : State}

theorem listed_iff :
    s.parental.locked.any (fun l => l.service == n) = true ↔ ∃ l ∈ s.parental.locked, l.service = n := by
  simp only [List.any_eq_true, beq_iff_eq]

theorem not_listed (h : ∀ l ∈ s.parental.locked, l.service ≠ n) :
    ¬s.parental.locked.any (fun l => l.service == n) = true := by
  rw [listed_iff]
  exact fun ⟨l, hl, he⟩ => h l hl he

theorem serviceLocked_listed (h : ∃ l ∈ s.parental.locked, l.service = n) :
    serviceLocked n new s =
      (done [],
        rejudgeService n (s.setLocked (s.parental.locked.map (fun l => if l.service = n then new else l)))) := by
  rw [serviceLocked, if_pos (listed_iff.2 h)]
  simp only [beq_iff_eq]

theorem serviceLocked_room (h : ∀ l ∈ s.parental.locked, l.service ≠ n) (hr : s.parental.locked.length < 32) :
    serviceLocked n new s = (done [], rejudgeService n (s.setLocked (s.parental.locked ++ [new]))) := by
  rw [serviceLocked, if_neg (not_listed h), if_pos hr]

theorem serviceLocked_full (h : ∀ l ∈ s.parental.locked, l.service ≠ n) (hr : 32 ≤ s.parental.locked.length) :
    serviceLocked n new s = (refuse .noRoom, s) := by
  rw [serviceLocked, if_neg (not_listed h), if_neg (not_lt.2 hr)]

theorem serviceUnlocked_listed (h : ∃ l ∈ s.parental.locked, l.service = n) :
    serviceUnlocked n s =
      (done [], rejudgeService n (s.setLocked (s.parental.locked.filter (fun l => l.service != n)))) := by
  rw [serviceUnlocked, if_pos (listed_iff.2 h)]

theorem serviceUnlocked_absent (h : ∀ l ∈ s.parental.locked, l.service ≠ n) :
    serviceUnlocked n s = (refuse .notFound, s) := by
  rw [serviceUnlocked, if_neg (not_listed h)]

end

/-- Settles O38: the mask, the gate, and then whether the service is listed and the list has room. -/
theorem servicesAreLockedAndUnlocked : Obligations.ServicesAreLockedAndUnlocked := by
  rintro tag service pin s n hh rfl
  have hu := takeUnlockService_eq (service := service) (pin := pin) (s := s)
  refine ⟨fun mask h => exec_answered hh rfl (takeLockService_range h), fun mask h0 h15 => ?lock,
    fun r u h => exec_fails hh rfl hu h, fun u h ha => exec_passes hh rfl hu h (serviceUnlocked_absent ha),
    fun u h hl => ⟨_, exec_passes hh rfl hu h (serviceUnlocked_listed hl), HoldsOnly.rejudgeService _ _,
      rejudgeService_on _ _⟩⟩
  case lock =>
    have hg := takeLockService_taken (service := service) (pin := pin) (s := s) h0 h15
    exact ⟨fun r u h => exec_fails hh rfl hg h,
      fun u h hl => ⟨_, exec_passes hh rfl hg h (serviceLocked_listed hl), HoldsOnly.rejudgeService _ _,
        rejudgeService_on _ _⟩,
      fun u h ha hr => ⟨_, exec_passes hh rfl hg h (serviceLocked_room ha hr), HoldsOnly.rejudgeService _ _,
        rejudgeService_on _ _⟩,
      fun u h ha hr => exec_passes hh rfl hg h (serviceLocked_full ha hr)⟩

end Sys2Proof.Machine

/-! UNLOCK, and the grant it makes (O40). -/

namespace Sys2Proof.Machine

/-! ### The refusals and the PIN check of UNLOCK (R139, R172) -/

section
variable {output scope : Byte} {pin : Pin} {ms : Word16} {s u : State}

theorem takeUnlock_range (h : 2 ≤ output.toNat) : takeUnlock output pin scope ms s = (refuse .badParam, s) := by
  simp only [takeUnlock, place_none h]

theorem takeUnlock_digits (h : digitsOk pin = false) : takeUnlock output pin scope ms s = (refuse .badParam, s) := by
  simp only [takeUnlock, h]
  cases place 2 output.toNat <;> rfl

theorem takeUnlock_scope (h : 1 < scope.toNat) : takeUnlock output pin scope ms s = (refuse .badParam, s) := by
  have h0 : ¬scope.toNat = 0 := by omega
  have h1 : ¬scope.toNat = 1 := by omega
  simp only [takeUnlock, if_neg h0, if_neg h1, ite_self]
  cases place 2 output.toNat <;> rfl

variable {o : OutputNo} {n : Option Nat} {adj : Bool}

/-- Past its refusals an UNLOCK asks for an EVENT grant, or for a MINUTES grant with the minutes brought into 1 to
720. -/
theorem takeUnlock_taken (ho : o.val = output.toNat) (hd : digitsOk pin = true)
    (hscope : scope.toNat = 0 ∧ n = none ∧ adj = false ∨
      scope.toNat = 1 ∧ n = some (max 1 (min 720 ms.toNat)) ∧ adj = decide (ms.toNat < 1 ∨ 720 < ms.toNat)) :
    takeUnlock output pin scope ms s = unlockWith o pin n adj s := by
  have hd' : ¬(!digitsOk pin) = true := by simp [hd]
  simp only [takeUnlock, place_some o ho, if_neg hd']
  rcases hscope with ⟨h0, rfl, rfl⟩ | ⟨h1, rfl, rfl⟩
  · rw [if_pos h0]
  · have hadj : (clamp 1 720 ms.toNat != ms.toNat) = decide (ms.toNat < 1 ∨ 720 < ms.toNat) := by
      rw [bne_eq_decide_ne, clamp_eq 1 720 _ (by omega)]
      exact decide_eq_decide.2 (by omega)
    rw [if_neg (by omega), if_pos h1, hadj, clamp_eq 1 720 _ (by omega)]

theorem unlockWith_unbound (h : (s.binding o).current = none ∨ getAt s.parental.binding o = none) :
    unlockWith o pin n adj s = (⟨.notBound, adj, []⟩, s) := by
  rcases h with h | h
  · simp only [unlockWith, h]
    rfl
  · simp only [unlockWith, h]
    cases (s.binding o).current <;> rfl

variable {b : Binding} {p : ProfileNo} (hb : (s.binding o).current = some b) (hp : getAt s.parental.binding o = some p)
include hb hp

theorem unlockWith_failed {r : PinResult} (h : pinCheck p pin s = (r, u)) (hr : r ≠ .right) :
    unlockWith o pin n adj s = (⟨(pinReply r).outcome, adj, (pinReply r).results⟩, u) := by
  simp only [unlockWith, hb, hp, h]

theorem unlockWith_right (h : pinCheck p pin s = (.right, u)) :
    unlockWith o pin n adj s =
      (⟨.done, adj, encGrantKey (grantFor u o b.ctx p n).key ++ enc8 p.val ++ encScope (grantFor u o b.ctx p n).scope⟩,
        placeGrant (grantFor u o b.ctx p n) u) := by
  simp only [unlockWith, hb, hp, h]

end

/-- A PIN check changes nothing that a grant is made of. -/
theorem grantFor_pinCheck {q : ProfileNo} {pin : Pin} {s u : State} {r : PinResult} (h : pinCheck q pin s = (r, u))
    (o : OutputNo) (c : CtxNo) (p : ProfileNo) (n : Option Nat) : grantFor u o c p n = grantFor s o c p n := by
  obtain ⟨-, hctl, hguide, hclock, -⟩ := pinCheck_keeps q pin s u (by rw [h])
  have hx : u.context c = s.context c := congrArg (fun x : Ctl => getAt x.contexts c) hctl
  have he : grantEvent u (s.context c) = grantEvent s (s.context c) := by simp only [grantEvent, trackedRec, hguide]
  simp only [grantFor, hx, he, hclock]

/-! ### The place of a grant (R140) -/

/-- The grant list plays no part in what changes beside it. -/
theorem HoldsOnly.setGrants {s t : State} (h : HoldsOnly s t) (l : List Grant) :
    HoldsOnly (s.setGrants l) (t.setGrants l) :=
  ⟨congrArg (fun x : State => x.setGrants l) h.bare, h.notices⟩

/-- A grant for another output plays no part in the verdict of a pair. -/
theorem verdict_setGrants_append {s : State} {g : Grant} {o : OutputNo} (ho : g.output ≠ o) (c : CtxNo) :
    verdict (s.setGrants (s.parental.grants ++ [g])) c o = verdict s c o := by
  have hs : ∀ k p, g.serves o k p = false := fun k p => by simp [Grant.serves, ho]
  unfold verdict
  simp only [setGrants_parental_binding, setGrants_parental_grants, List.any_append, List.any_cons, List.any_nil, hs,
    Bool.or_false]
  rfl

section
variable {g : Grant} {s : State}

/-- A grant that replaces one for the same output, key and profile. -/
theorem placeGrant_replaces (h : ∃ y ∈ s.parental.grants, y.serves g.output g.key g.profile = true) :
    placeGrant g s =
      rejudgePairs g.output
        (s.setGrants (s.parental.grants.filter (fun y => !y.serves g.output g.key g.profile) ++ [g])) := by
  simp only [placeGrant, if_pos (List.any_eq_true.2 h)]
  rfl

variable (hn : ∀ y ∈ s.parental.grants, ¬y.serves g.output g.key g.profile = true)
include hn

theorem placeGrant_joins (h : s.parental.grants.length < 8) :
    placeGrant g s = rejudgePairs g.output (s.setGrants (s.parental.grants ++ [g])) := by
  have ha : ¬s.parental.grants.any (fun y => y.serves g.output g.key g.profile) = true := by simpa using hn
  simp only [placeGrant, if_neg ha, if_neg (not_le.2 h)]

/-- The oldest grant leaves a full list, with its notice, and the pairs of its output are computed again. -/
def displaced (old : Grant) (rest : List Grant) (s : State) : State :=
  rejudgePairs old.output (offer (.grantEnd old.output old.key old.profile .displaced) (s.setGrants rest))

theorem placeGrant_displaces {old : Grant} {rest : List Grant} (h : 8 ≤ s.parental.grants.length)
    (hl : s.parental.grants = old :: rest) :
    placeGrant g s =
      rejudgePairs g.output
        ((displaced old rest s).setGrants ((displaced old rest s).parental.grants ++ [g])) := by
  have ha : ¬s.parental.grants.any (fun y => y.serves g.output g.key g.profile) = true := by simpa using hn
  simp only [placeGrant, if_neg ha, if_pos h]
  rw [hl]
  rfl

end

theorem displaced_holds (old : Grant) (rest : List Grant) (s : State) :
    HoldsOnly
      { s with
        parental := { s.parental with grants := rest }
        notices := s.notices.join (.grantEnd old.output old.key old.profile .displaced) }
      (displaced old rest s) := by
  rw [displaced, offer_join]
  exact HoldsOnly.rejudgePairs old.output _

theorem displaced_grants (old : Grant) (rest : List Grant) (s : State) :
    (displaced old rest s).parental.grants = rest :=
  congrArg Parental.grants (displaced_holds old rest s).parental

/-- A grant that joins, and then the pairs of its output computed again, leave the verdicts of the other output. -/
theorem rejudgePairs_joined_other {g : Grant} {o : OutputNo} {s : State} (ho : g.output ≠ o)
    (h : VerdictsOn s (fun _ o' => o' = o)) :
    VerdictsOn (rejudgePairs g.output (s.setGrants (s.parental.grants ++ [g]))) (fun _ o' => o' = o) := by
  have hv : ∀ c, verdict (rejudgePairs g.output (s.setGrants (s.parental.grants ++ [g]))) c o = verdict s c o :=
    fun c => (verdict_eq (HoldsOnly.rejudgePairs g.output _) c o).trans (verdict_setGrants_append ho c)
  have hb : (rejudgePairs g.output (s.setGrants (s.parental.grants ++ [g]))).binding o = s.binding o :=
    rejudgePairs_other g.output o _ ho
  refine ⟨?_, ?_⟩
  · rintro o' b hc rfl
    rw [hv]
    exact h.1 o' b (hb ▸ hc) rfl
  · rintro o' b hc rfl
    rw [hv]
    exact h.2 o' b (hb ▸ hc) rfl

/-- Once the new grant stands in the list, the pairs of the displaced grant's output hold the verdict the state
gives. -/
theorem placed_displaced_on (g old : Grant) (rest : List Grant) (s : State) :
    VerdictsOn
      (rejudgePairs g.output ((displaced old rest s).setGrants ((displaced old rest s).parental.grants ++ [g])))
      (fun _ o => o = old.output) := by
  by_cases ho : g.output = old.output
  · rw [← ho]
    exact rejudgePairs_on g.output _
  · exact rejudgePairs_joined_other ho (rejudgePairs_on old.output _)

section
variable {g : Grant} {s : State}

theorem placeGrant_on : VerdictsOn (placeGrant g s) (fun _ o => o = g.output) :=
  rejudgePairs_on g.output _

theorem placeGrant_replaces_holds (h : ∃ y ∈ s.parental.grants, y.serves g.output g.key g.profile = true) :
    HoldsOnly
      (s.setGrants (s.parental.grants.filter (fun y => !y.serves g.output g.key g.profile) ++ [g]))
      (placeGrant g s) := by
  rw [placeGrant_replaces h]
  exact HoldsOnly.rejudgePairs g.output _

variable (hn : ∀ y ∈ s.parental.grants, ¬y.serves g.output g.key g.profile = true)
include hn

theorem placeGrant_joins_holds (h : s.parental.grants.length < 8) :
    HoldsOnly (s.setGrants (s.parental.grants ++ [g])) (placeGrant g s) := by
  rw [placeGrant_joins hn h]
  exact HoldsOnly.rejudgePairs g.output _

variable {old : Grant} {rest : List Grant} (h : 8 ≤ s.parental.grants.length) (hl : s.parental.grants = old :: rest)
include h hl

theorem placeGrant_displaces_holds :
    HoldsOnly
      { s with
        parental := { s.parental with grants := rest ++ [g] }
        notices := s.notices.join (.grantEnd old.output old.key old.profile .displaced) }
      (placeGrant g s) := by
  rw [placeGrant_displaces hn h hl, displaced_grants]
  exact ((displaced_holds old rest s).setGrants (rest ++ [g])).trans (HoldsOnly.rejudgePairs g.output _)

theorem placeGrant_displaces_on : VerdictsOn (placeGrant g s) (fun _ o => o = old.output) := by
  rw [placeGrant_displaces hn h hl]
  exact placed_displaced_on g old rest s

end

/-- Settles O40: the refusals, the binding of the output, the PIN check, and the grant by what the list holds. -/
theorem unlockMakesAGrant : Obligations.UnlockMakesAGrant := by
  refine fun tag output scope pin ms s hh => ⟨?refused, fun o n adj ho hd hscope => ⟨fun h => ?unbound, ?checked⟩⟩
  case refused =>
    rintro (h | h | h)
    · exact exec_answered hh rfl (takeUnlock_range h)
    · exact exec_answered hh rfl (takeUnlock_digits h)
    · exact exec_answered hh rfl (takeUnlock_scope h)
  case unbound => exact exec_answered hh rfl ((takeUnlock_taken ho hd hscope).trans (unlockWith_unbound h))
  case checked =>
    intro b p r u hb hp hc
    have ht := takeUnlock_taken (s := s) ho hd hscope
    refine ⟨fun hr => exec_answered hh rfl (ht.trans (unlockWith_failed hb hp hc hr)), ?granted⟩
    rintro g x rfl rfl hg
    have hmade : grantFor s o b.ctx p n = g := by
      rw [hg]
      cases n <;> rfl
    have hright := unlockWith_right (n := n) (adj := adj) hb hp hc
    rw [grantFor_pinCheck hc, hmade] at hright
    obtain ⟨hgrants, -⟩ := pinCheck_keeps p pin s u (by rw [hc])
    have hout : g.output = o := by rw [hg]
    have hprofile : g.profile = p := by rw [hg]
    have hserves : ∀ y : Grant, y.serves g.output g.key g.profile = true ↔
        y.output = o ∧ y.key = g.key ∧ y.profile = p :=
      fun y => by simp [Grant.serves, hout, hprofile, and_assoc]
    rw [← hgrants]
    refine ⟨placeGrant g u, exec_answered hh rfl (ht.trans hright), hout ▸ placeGrant_on, ?replaces, fun hnone => ?new⟩
    case replaces =>
      rintro ⟨y, hy, hs⟩
      have hr := placeGrant_replaces_holds ⟨y, hy, (hserves y).2 hs⟩
      rwa [hout, hprofile] at hr
    case new =>
      have hn : ∀ y ∈ u.parental.grants, ¬y.serves g.output g.key g.profile = true :=
        fun y hy hs => hnone y hy ((hserves y).1 hs)
      exact ⟨placeGrant_joins_holds hn, fun old rest h hl =>
        ⟨placeGrant_displaces_holds hn h hl, placeGrant_displaces_on hn h hl⟩⟩

end Sys2Proof.Machine

/-! Answers and notices on HL-out (O19). -/

namespace Sys2Proof.Machine

/-! ### The arbiter where an answer or a notice goes (R162) -/

theorem arbitrate_answer {s : State} {a : Answer} {rest : List Answer} (h : s.mgmt.answers = a :: rest) :
    arbitrate s = sendAnswer a rest s := by
  simp only [arbitrate, h]

/-- A head notice waits where the unit is READY or the notice is READY itself (log 16). -/
theorem waitingNotice_head {s : State} {n : Notice} {rest : List Notice} (h : s.notices.queue = n :: rest)
    (hr : s.mgmt.ready = true ∨ n.isReady = true) : waitingNotice s = some (n, rest) := by
  simp only [waitingNotice, h]
  exact if_pos (by simpa using hr)

theorem arbitrate_notice {s : State} {n : Notice} {rest : List Notice} (ha : s.mgmt.answers = [])
    (h : s.notices.queue = n :: rest) (hr : s.mgmt.ready = true ∨ n.isReady = true) :
    arbitrate s = sendNotice n rest s := by
  simp only [arbitrate, ha, waitingNotice_head h hr]

/-- A notice that may go leaves the unit READY: the unit was READY, or the notice makes it so (R168). -/
theorem sendNotice_ready {s : State} {n : Notice} (rest : List Notice) (hr : s.mgmt.ready = true ∨ n.isReady = true) :
    sendNotice n rest s =
      sendHlOut (ownPacket 0x1FF2 s.link.noticeCount (noticePayload n s.notices.missed))
        { s with
          notices := { queue := rest, missed := false }
          mgmt := { s.mgmt with ready := true }
          link := { s.link with noticeCount := (s.link.noticeCount + 1) % 16 }
          out := { s.out with sent := { s.out.sent with notices := bump top32 s.out.sent.notices } } } := by
  have hready : (s.mgmt.ready || n.isReady) = true := by simpa using hr
  simp only [sendNotice, hready]

/-- Settles O19: the head answer goes, else the head notice that may go, and each is what `sendAnswer` and `sendNotice`
make of it. -/
theorem answersAndNoticesAreSent : Obligations.AnswersAndNoticesAreSent := by
  intro s
  refine ⟨fun a rest h => ?answer, fun n rest ha h hr => ?notice⟩
  case answer => exact congrArg _ (arbitrate_answer h)
  case notice =>
    change Host.Outcome.next (arbitrate s) = _
    rw [arbitrate_notice ha h hr, sendNotice_ready rest hr]
    rfl

end Sys2Proof.Machine

/-! Packets join the presentation queues and the capture queue, or are discarded and counted (O42). -/

namespace Sys2Proof.Machine

/-! ### A presentation copy (R152) -/

section
variable {o : OutputNo} {s : State}

theorem handToOutput_joins (c : CtxNo) (packet : List Byte) (arrival : BitVec 32)
    (h : (s.output o).queue.length < 64) :
    handToOutput o c packet arrival s =
      raiseDrain c
        (s.setOutput o { s.output o with queue := (s.output o).queue ++ [⟨packet, arrival, c⟩] }) :=
  if_pos h

theorem handToOutput_discards (c : CtxNo) (packet : List Byte) (arrival : BitVec 32)
    (h : 64 ≤ (s.output o).queue.length) :
    handToOutput o c packet arrival s =
      { s with
        out :=
          { s.out with
            outputs := setAt s.out.outputs o
              { s.output o with
                overflowDiscards := bump top32 (s.output o).overflowDiscards
                overflowMark := true } }
        notices :=
          if (s.output o).overflowMark then s.notices
          else s.notices.join (.outputOverflow o (bump top32 (s.output o).overflowDiscards)) } := by
  simp only [handToOutput, if_neg (not_lt.2 h), offer_join]
  split <;> rfl

end

/-! ### A raw packet (R158, R159) -/

section
variable {t : TagNo} {c : CtxNo} {s : State}

theorem handToCapture_joins (slot : Nat) (packet : List Byte) (hq : s.out.capture.length < 128)
    (hc : getAt s.out.captureCount c < 64) :
    handToCapture t c slot packet s =
      raiseDrain c
        { s with
          out :=
            { s.out with
              capture := s.out.capture ++ [⟨withStream packet (captureStream t.val slot), t, c⟩]
              captureCount := setAt s.out.captureCount c (getAt s.out.captureCount c + 1)
              records := setAt s.out.records t
                { getAt s.out.records t with captured := bump top32 (getAt s.out.records t).captured } } } :=
  if_pos (by simp [hq, hc])

theorem handToCapture_loses (slot : Nat) (packet : List Byte)
    (h : 128 ≤ s.out.capture.length ∨ 64 ≤ getAt s.out.captureCount c) :
    handToCapture t c slot packet s =
      { s with
        out :=
          { s.out with
            records := setAt s.out.records t
              { getAt s.out.records t with lost := bump top32 (getAt s.out.records t).lost, lossMark := true } }
        notices :=
          if (getAt s.out.records t).lossMark then s.notices
          else s.notices.join (.captureLoss t (bump top32 (getAt s.out.records t).lost)) } := by
  have hfull : ¬(decide (s.out.capture.length < 128) && decide (getAt s.out.captureCount c < 64)) = true := by
    simp only [Bool.and_eq_true, decide_eq_true_eq]
    omega
  simp only [handToCapture, if_neg hfull, offer_join, State.captureRec]
  split <;> rfl

end

/-! ### Renumbering (R158) -/

/-- Byte 1 of a renumbered packet. -/
def renumbered (b : Byte) (n : Nat) : Byte :=
  (b &&& 0xE0) ||| BitVec.ofNat 8 (n / 256 % 32)

/-- The upper three bits of byte 1 stay, and the lower five take the upper bits of the stream number. -/
theorem renumbered_toNat (b : Byte) (n : Nat) : (renumbered b n).toNat = b.toNat / 32 * 32 + n / 256 % 32 := by
  have hupper : b &&& (0xE0 : Byte) = (b >>> 5) <<< 5 := by
    ext i hi
    interval_cases i <;> simp
  have hlow : n / 256 % 32 < 2 ^ 5 := Nat.mod_lt _ (by decide)
  have hshift : (b >>> 5 <<< 5).toNat = (b.toNat / 32) <<< 5 := by
    have := b.isLt
    simp only [BitVec.toNat_shiftLeft, BitVec.toNat_ushiftRight, Nat.shiftLeft_eq, Nat.shiftRight_eq_div_pow]
    omega
  rw [renumbered, hupper, BitVec.toNat_or, hshift, BitVec.toNat_ofNat, Nat.mod_eq_of_lt (hlow.trans (by decide)),
    ← Nat.shiftLeft_add_eq_or_of_lt hlow, Nat.shiftLeft_eq]

theorem withStream_eq (p : List Byte) (n : Nat) :
    withStream p n = (p.modify 1 (renumbered · n)).set 2 (BitVec.ofNat 8 n) := rfl

section
variable {p : List Byte} (n : Nat)

theorem withStream_length : (withStream p n).length = p.length := by
  rw [withStream_eq, List.length_set, List.length_modify]

theorem withStream_getElem?_of_ne {k : Nat} (h1 : k ≠ 1) (h2 : k ≠ 2) : (withStream p n)[k]? = p[k]? := by
  rw [withStream_eq, List.getElem?_set_ne h2.symm, List.getElem?_modify_ne _ _ h1.symm]

theorem byteAt_withStream_one (h : 3 ≤ p.length) :
    byteAt (withStream p n) 1 = byteAt p 1 / 32 * 32 + n / 256 % 32 := by
  have h1 : p[1]? = some p[1] := List.getElem?_eq_getElem (by omega)
  simp only [byteAt, List.getD_eq_getElem?_getD]
  rw [withStream_eq, List.getElem?_set_ne (by decide), List.getElem?_modify_eq, h1]
  exact renumbered_toNat p[1] n

theorem byteAt_withStream_two (h : 3 ≤ p.length) : byteAt (withStream p n) 2 = n % 256 := by
  have h2 : 2 < (p.modify 1 (renumbered · n)).length := by rw [List.length_modify]; omega
  simp only [byteAt, List.getD_eq_getElem?_getD]
  rw [withStream_eq, List.getElem?_set_self h2]
  exact BitVec.toNat_ofNat n 8

theorem streamNumber_withStream (h : 3 ≤ p.length) (hn : n < 8192) : streamNumber (withStream p n) = n := by
  rw [streamNumber, byteAt_withStream_one n h, byteAt_withStream_two n h]
  omega

end

/-- Settles O42: the queue's length, and for capture the context's share, decide between joining and being counted; a
renumbered packet keeps every bit outside its stream number. -/
theorem packetsJoinTheQueues : Obligations.PacketsJoinTheQueues := by
  refine ⟨?presentation, ?capture, ?renumbering⟩
  case presentation =>
    rintro o c packet arrival s x rfl
    exact ⟨fun h => handToOutput_joins c packet arrival h, fun h => handToOutput_discards c packet arrival h⟩
  case capture =>
    rintro t c slot packet s r n rfl rfl
    exact ⟨fun hq hc => handToCapture_joins slot.val packet hq hc, fun h => handToCapture_loses slot.val packet h⟩
  case renumbering =>
    intro p n hp hn
    refine ⟨streamNumber_withStream n hp hn, withStream_length n, ?_, fun k => withStream_getElem?_of_ne n⟩
    rw [byteAt_withStream_one n hp]
    omega

end Sys2Proof.Machine

/-! A send opportunity of a presentation output, and the clock stamp of a departing packet (O18). -/

namespace Sys2Proof.Machine

/-! ### What a send opportunity sends (R154, R155) -/

/-- The pacing of an output goes one on (R154). -/
def paced (o : OutputNo) (s : State) : State :=
  s.setOutput o { s.output o with paceIndex := (s.output o).paceIndex + 1 }

/-- What goes at an opportunity: the marker that is due, else the queue's head or filler (R155). -/
def sendDue (o : OutputNo) (s : State) : State :=
  match (s.output o).marker with
  | some m => if m.ahead = 0 then sendMarker o m s else sendQueued o s
  | none => sendQueued o s

/-- Time moves on to the next opportunity before anything is sent (R154; log 2). -/
theorem exec_poSendOpportunity {o : OutputNo} {s : State} {tm : TimeBase}
    (h : tm = (advanceTo (nextOpportunity (s.output o)) s).time) :
    exec (.poSendOpportunity o) s = .next (sendDue o (paced o { s with time := tm })) := by
  subst h
  rfl

section
variable (o : OutputNo) (s : State)

theorem paced_output : (paced o s).output o = { s.output o with paceIndex := (s.output o).paceIndex + 1 } := by
  rw [paced, output_setOutput, if_pos rfl]

theorem paced_time : (paced o s).time = s.time := rfl

/-- What the packet sent leaves of an output takes the place of the paced output. -/
theorem paced_setOutput (x : Output) : (paced o s).setOutput o x = s.setOutput o x := by
  simp only [paced, State.setOutput, setAt_setAt]

end

section
variable {o : OutputNo} {s : State}

theorem sendDue_marker {m : Marker} (hm : (s.output o).marker = some m) (ha : m.ahead = 0) :
    sendDue o s = sendMarker o m s := by
  simp only [sendDue, hm, if_pos ha]

theorem sendDue_queued (h : ∀ m, (s.output o).marker = some m → m.ahead ≠ 0) : sendDue o s = sendQueued o s := by
  unfold sendDue
  split
  · next m hm => exact if_neg (h m hm)
  · rfl

theorem sendQueued_filler (h : (s.output o).queue = []) :
    sendQueued o s =
      sendPo o fillerPacket
        (s.setOutput o { s.output o with fillerSent := bump top32 (s.output o).fillerSent }) := by
  simp only [sendQueued, h]

theorem sendQueued_head {q : QueuedPacket} {rest : List QueuedPacket} (h : (s.output o).queue = q :: rest) :
    sendQueued o s = departPo o q rest s := by
  simp only [sendQueued, h]

end

/-! ### Clock stamps (R156, R157) -/

/-- A run of bytes stands for a number of as many bytes. -/
theorem bytesValue_lt (l : List Byte) : bytesValue l < 256 ^ l.length := by
  induction l using List.reverseRecOn with
  | nil => decide
  | append_singleton l b ih =>
    have happend : bytesValue (l ++ [b]) = bytesValue l * 256 + b.toNat := by simp [bytesValue]
    have := b.isLt
    rw [happend, List.length_append, List.length_singleton, pow_succ]
    omega

theorem stampField_lt (p : List Byte) : stampField p < 2 ^ 48 :=
  calc stampField p < 256 ^ ((p.drop 6).take 6).length := bytesValue_lt _
    _ ≤ 256 ^ 6 := Nat.pow_le_pow_right (by decide) (List.length_take_le 6 _)
    _ = 2 ^ 48 := by decide

/-- A packet's clock stamp holds a 33-bit base. -/
theorem clockStamp_base_lt {p : List Byte} {b e : Nat} (h : clockStamp p = some (b, e)) : b < 2 ^ 33 := by
  have := stampField_lt p
  unfold clockStamp at h
  split at h
  · obtain ⟨rfl, -⟩ := Prod.mk.inj (Option.some.inj h)
    omega
  · cases h

section
variable {p : List Byte} {b e t : Nat}

theorem stampResult_none (h : clockStamp p = none) : stampResult p t = .none := by
  simp only [stampResult, h]

theorem stampResult_fault (h : clockStamp p = some (b, e)) (he : 300 ≤ e) : stampResult p t = .fault := by
  simp only [stampResult, h, if_neg (not_lt.2 he)]

theorem stampResult_corrected (h : clockStamp p = some (b, e)) (he : e < 300) :
    stampResult p t = .corrected ((b + (e + t) / 300) % 2 ^ 33) ((e + t) % 300) := by
  simp only [stampResult, h, if_pos he]
  rfl

variable (hp : p.length = 188)
include hp

theorem withStamp_length (b e : Nat) : (withStamp p b e).length = 188 := by
  simp [withStamp, enc16, enc32, hp]

/-- A stamp leaves what says whether a packet has one: the flags stand before it. -/
theorem stampReadable_withStamp (b e : Nat) :
    stampFlag (withStamp p b e) = stampFlag p ∧ faultyAdaptation (withStamp p b e) = faultyAdaptation p := by
  have hbyte (i : Nat) (hi : i < 6) : (withStamp p b e).getD i 0 = p.getD i 0 := getD_withStamp p b e hp i (.inl hi)
  have hbit (i k : Nat) (hi : i < 6) : bitAt (withStamp p b e) i k = bitAt p i k :=
    congrArg (BitVec.getLsbD · k) (hbyte i hi)
  have hpresent : adaptationPresent (withStamp p b e) = adaptationPresent p := hbit 3 5 (by decide)
  have hpayload : payloadPresent (withStamp p b e) = payloadPresent p := hbit 3 4 (by decide)
  have hlength : adaptationLength (withStamp p b e) = adaptationLength p :=
    congrArg BitVec.toNat (hbyte 4 (by decide))
  have hflag : stampFlag (withStamp p b e) = stampFlag p := by
    unfold stampFlag
    rw [hpresent, hlength, hbit 5 6 (by decide)]
  refine ⟨hflag, ?_⟩
  unfold faultyAdaptation
  rw [hflag, hpresent, hpayload, hlength]

/-- The six bytes of a new stamp: its base, the six bits kept, its extension. -/
theorem stampField_withStamp (hb : b < 2 ^ 33) (he : e < 512) :
    stampField (withStamp p b e) = b * 32768 + (stampField p / 512 % 64) * 512 + e := by
  have htake : (p.take 6).length = 6 := by simp [hp]
  unfold stampField withStamp
  rw [List.append_assoc, List.drop_left' htake, List.take_left' (by rfl)]
  exact bytesValue_enc48 _ (by omega)

theorem clockStamp_withStamp (h : (clockStamp p).isSome) (hb : b < 2 ^ 33) (he : e < 512) :
    clockStamp (withStamp p b e) = some (b, e) := by
  obtain ⟨hflag, hfault⟩ := stampReadable_withStamp hp b e
  have hreadable : (stampFlag p && !faultyAdaptation p) = true := by
    by_contra hn
    simp [clockStamp, hn] at h
  have hbase : (b * 32768 + (stampField p / 512 % 64) * 512 + e) / 32768 = b := by omega
  have hext : (b * 32768 + (stampField p / 512 % 64) * 512 + e) % 512 = e := by omega
  rw [clockStamp, hflag, hfault, if_pos hreadable, stampField_withStamp hp hb he, hbase, hext]

end

/-- Settles O18: marker, head of the queue or filler by what the output holds, and the stamp by its extension. -/
theorem presentationOpportunity : Obligations.PresentationOpportunity := by
  refine ⟨?opportunity, ?stamps⟩
  case opportunity =>
    intro o s x tm hx htm
    subst hx
    have hout : (paced o { s with time := tm }).output o =
        { s.output o with paceIndex := (s.output o).paceIndex + 1 } := paced_output o { s with time := tm }
    rw [exec_poSendOpportunity htm]
    refine ⟨fun m hm ha => ?marker, fun hm hq => ?filler, ?head⟩
    case marker =>
      rw [sendDue_marker (by rw [hout, hm]) ha, sendMarker, hout, paced_setOutput]
      rfl
    case filler =>
      rw [sendDue_queued (by rwa [hout]), sendQueued_filler (by rw [hout, hq]), hout, paced_setOutput]
      rfl
    case head =>
      rintro q rest r p hm hq rfl rfl
      rw [sendDue_queued (by rwa [hout]), sendQueued_head (by rw [hout, hq]), departPo, hout, paced_setOutput,
        paced_time]
      rfl
  case stamps =>
    intro p t hp
    refine ⟨stampResult_none, fun b e => stampResult_fault, fun b e h he => ?_⟩
    have hsome : (clockStamp p).isSome := by rw [h]; rfl
    have hbase : (b + (e + t) / 300) % 2 ^ 33 < 2 ^ 33 := Nat.mod_lt _ (by decide)
    have hext : (e + t) % 300 < 512 := (Nat.mod_lt _ (by decide)).trans (by decide)
    exact ⟨_, _, stampResult_corrected h he, rfl, rfl, clockStamp_withStamp hp hsome hbase hext,
      withStamp_length hp _ _, getD_withStamp p _ _ hp⟩

end Sys2Proof.Machine

/-! Orders written as bytes and read back (O54). -/

namespace Sys2Proof.Laws.OrderRoundTrip

/-! ### Every order is read back from its parts (R171) -/

/-- Each command is read back from its parts: the family OrderRoundTrip as a whole. -/
theorem roundTrip (i : Instr) : Statement i := by
  cases i
  case setFilter => exact setFilter _ _ _ _ _ _ _
  case clearFilter => exact clearFilter _ _
  case setDelivery => exact setDelivery _ _ _
  case setSourceGuide => exact setSourceGuide _ _
  case setSourceTime => exact setSourceTime _ _
  case setSourceAccess => exact setSourceAccess _ _ _
  case queryClock => exact queryClock _
  case queryGuideService => exact queryGuideService _ _ _
  case setHomeNetwork => exact setHomeNetwork _ _
  case readExceptions => exact readExceptions _ _
  case clearExceptions => exact clearExceptions _ _
  case querySlotSlot => exact querySlotSlot _ _
  case querySlotInput => exact querySlotInput _ _
  case tune => exact tune _ _ _ _
  case capture => exact capture _ _ _ _
  case play => exact play _ _ _ _ _
  case releaseOutput => exact releaseOutput _ _
  case releaseTag => exact releaseTag _ _
  case setAcquisitionLimit => exact setAcquisitionLimit _ _
  case queryContext => exact queryContext _ _
  case queryPort => exact queryPort _ _
  case queryEntry => exact queryEntry _ _ _
  case loadRatingRow => exact loadRatingRow _ _ _ _
  case setProfile => exact setProfile _ _ _ _ _ _ _ _
  case setPin => exact setPin _ _ _ _
  case bindProfile => exact bindProfile _ _ _ _
  case lockService => exact lockService _ _ _ _
  case unlockService => exact unlockService _ _ _
  case unlock => exact unlock _ _ _ _ _
  case revokeGrants => exact revokeGrants _ _
  case lockParental => exact lockParental _
  case setOutputRate => exact setOutputRate _ _ _
  case queryOutput => exact queryOutput _ _
  case queryCapture => exact queryCapture _ _
  case identify => exact identify _
  case restart => exact restart _
  all_goals exact statement_of_none rfl

/-! ### The length of an order's parameters (R171, R179) -/

@[simp] theorem length_bytes16 (w : Word16) : (bytes16 w).length = 2 := rfl

@[simp] theorem length_pinPlace (pin : Option Pin) : (pinPlace pin).length = 4 := by
  cases pin <;> simp [pinPlace]

theorem length_pinBytes_le (pin : Option Pin) : (pinBytes pin).length ≤ 4 := by
  cases pin <;> simp [pinBytes]

theorem length_sourceBytes_le (source : SourceParam) : (sourceBytes source).length ≤ 3 := by
  rcases source with _ | ⟨p, st⟩ <;> simp [sourceBytes]

/-- The windows of a well-formed SET_PROFILE fit with its PIN and its 17 other bytes. -/
theorem windowsWellFormed_iff (windows : List (Word16 × Word16)) (pin : Option Pin) :
    windowsWellFormed windows pin = true ↔ 4 * windows.length + (pinBytes pin).length + 17 ≤ 184 := by
  cases pin <;> simp [windowsWellFormed, pinBytes]

section
variable {i : Instr} {code tag : Byte} {params : List Byte} (hw : i.wellFormed = true)
  (hp : orderParts i = some (code, tag, params))
include hw hp

/-- A well-formed order fits the payload of one packet behind its header of 4 bytes. -/
theorem length_params_le : params.length ≤ 180 := by
  cases i <;> simp only [orderParts, Option.some.injEq, Prod.mk.injEq, reduceCtorEq] at hp <;>
    obtain ⟨-, -, rfl⟩ := hp
  case play ratings =>
    have : ratings.length ≤ 88 := by simpa [Instr.wellFormed, ratingsWellFormed] using hw
    have := length_pairs ratings
    simp only [List.length_cons]
    omega
  case setProfile windows pin =>
    have hfit := (windowsWellFormed_iff windows pin).1 hw
    have := length_windows windows
    simp only [List.length_cons, List.length_append, Vector.length_toList]
    omega
  case setSourceGuide source | setSourceTime source | setSourceAccess source =>
    have := length_sourceBytes_le source
    simp only [List.length_cons]
    omega
  case loadRatingRow pin | bindProfile pin | lockService pin | unlockService pin =>
    have := length_pinBytes_le pin
    simp only [List.length_cons, List.length_append, Vector.length_toList, length_bytes16]
    omega
  all_goals simp

/-- No order has code 0, the byte that ends an order list (R170). -/
theorem code_ne_zero : code.toNat ≠ 0 := by
  intro h0
  obtain rfl : code = 0 := BitVec.eq_of_toNat_eq h0
  have hread : OrderRead.unknown = .order i := roundTrip i hw 0 tag params hp
  cases hread

end

/-! ### Framing (R170) -/

/-- An order's bytes are framed by its parameter length, whatever follows. -/
theorem frameOrder_bytes {code tag : Byte} {params rest : List Byte} (hc : code.toNat ≠ 0) (hl : params.length < 2 ^ 16) :
    frameOrder (code :: tag :: bytes16 (BitVec.ofNat 16 params.length) ++ params ++ rest) = .framed code tag params := by
  have hlen : (word16 ((BitVec.ofNat 16 params.length).extractLsb' 8 8)
      ((BitVec.ofNat 16 params.length).extractLsb' 0 8)).toNat = params.length := by
    rw [word16_bytes16, BitVec.toNat_ofNat, Nat.mod_eq_of_lt hl]
  simp [frameOrder, bytes16, hc, hlen]

/-- Settles O54: an order's bytes are framed by its length, and its parts are read as it. -/
theorem ordersWrittenAreReadBack : Obligations.OrdersWrittenAreReadBack := by
  intro i l hw hl rest
  obtain ⟨⟨code, tag, params⟩, hp, rfl⟩ := Option.map_eq_some_iff.1 hl
  have hlen : params.length < 2 ^ 16 := by
    have := length_params_le hw hp
    omega
  refine ⟨code, tag, params, frameOrder_bytes (code_ne_zero hw hp) hlen, ?_, roundTrip i hw code tag params hp⟩
  simp only [List.length_append, List.length_cons, length_bytes16]
  omega

end Sys2Proof.Laws.OrderRoundTrip

/-! The hand-over of an order (O4). -/

namespace Sys2Proof.Machine

/-! ### What the owner of an order leaves (R171) -/

/-- An order other than RESTART leaves the waiting commands, the management unit and every invariant as they are. -/
theorem takeOrder_kept {i : Instr} (s : State) (hi : ∀ tag, i ≠ .restart tag) : Kept s (takeOrder i s).2 := by
  have h := Kept.refl s
  cases i
  case setFilter => exact h.takeSetFilter _ _ _ _ _ _
  case clearFilter => exact h.takeClearFilter _
  case setDelivery => exact h.takeSetDelivery (fun _ _ _ => rfl) _ _
  case setSourceGuide => exact h.takeSetSourceGuide (fun _ _ => rfl) _
  case setSourceTime => exact h.takeSetSourceTime (fun _ _ => rfl) _
  case setSourceAccess => exact h.takeSetSourceAccess (fun _ _ => rfl) _ _
  case queryGuideService => exact h.takeQueryGuideService _ _
  case setHomeNetwork => exact h.takeSetHomeNetwork (fun _ _ => rfl) _
  case readExceptions => exact h.takeReadExceptions _
  case clearExceptions => exact h.takeClearExceptions _
  case querySlotSlot => exact h.takeQuerySlotSlot _
  case querySlotInput => exact h.takeQuerySlotInput _
  case tune => exact h.takeTune _ _ _
  case capture => exact h.takeCapture _ _ _
  case play => exact h.takePlay _ _ _ _
  case releaseOutput => exact h.takeReleaseOutput _
  case releaseTag => exact h.takeReleaseTag _
  case setAcquisitionLimit => exact h.takeSetAcquisitionLimit (fun _ _ => rfl) _
  case queryContext => exact h.takeQueryContext _
  case queryPort => exact h.takeQueryPort _
  case queryEntry => exact h.takeQueryEntry _ _
  case loadRatingRow => exact h.takeLoadRatingRow (fun _ _ => rfl) (fun _ _ => rfl) _ _ _
  case setProfile => exact h.takeSetProfile (fun _ _ => rfl) _ _ _ _ _ _ _
  case setPin => exact h.takeSetPin (fun _ _ => rfl) _ _ _
  case bindProfile => exact h.takeBindProfile (fun _ _ => rfl) (fun _ _ => rfl) _ _ _
  case lockService => exact h.takeLockService (fun _ _ => rfl) (fun _ _ => rfl) _ _ _
  case unlockService => exact h.takeUnlockService (fun _ _ => rfl) (fun _ _ => rfl) _ _
  case unlock => exact h.takeUnlock (fun _ _ => rfl) _ _ _ _
  case revokeGrants => exact h.takeRevokeGrants _
  case lockParental => exact h.takeLockParental (fun _ _ => rfl)
  case setOutputRate => exact h.takeSetOutputRate (fun _ _ => rfl) _ _
  case queryOutput => exact h.takeQueryOutput _
  case queryCapture => exact h.takeQueryCapture _
  case restart tag => exact absurd rfl (hi tag)
  all_goals exact h

/-- RESTART alone has the code 0x61 (Table 9-3). -/
theorem code_eq_restart_iff {i : Instr} {code tag : Byte} {params : List Byte}
    (h : orderParts i = some (code, tag, params)) : code = 0x61 ↔ ∃ t, i = .restart t := by
  cases i <;> simp only [orderParts, Option.some.injEq, Prod.mk.injEq, reduceCtorEq] at h <;>
    obtain ⟨rfl, -, -⟩ := h <;> simp

/-- What the owner of an order leaves of the management unit: RESTART marks it as waiting, any other leaves it (R176). -/
theorem takeOrder_mgmt {i : Instr} {s : State} {code tag : Byte} {params : List Byte}
    (h : orderParts i = some (code, tag, params)) (hr : s.mgmt.restarting = false) :
    (takeOrder i s).2.pending = s.pending ∧
      (takeOrder i s).2.mgmt = { s.mgmt with restarting := code == 0x61 } := by
  by_cases hc : code = 0x61
  · obtain ⟨t, rfl⟩ := (code_eq_restart_iff h).1 hc
    subst hc
    exact ⟨rfl, rfl⟩
  · have hk : Kept s (takeOrder i s).2 := takeOrder_kept s fun t ht => hc ((code_eq_restart_iff h).2 ⟨t, ht⟩)
    have hb : (code == 0x61) = false := beq_false_of_ne hc
    exact ⟨hk.pending, by rw [hk.mgmt, hb, ← hr]⟩

/-- Settles O4: an order is the hand-over to its owner, and what that leaves of the management unit is known. -/
theorem ordersAreHandedOnAndAnswered : Obligations.OrdersAreHandedOnAndAnswered := by
  refine ⟨fun i s hi hoff => ?notTaken, fun i s code tag params hi hready hrestart hroom => ?answered⟩
  case notTaken =>
    obtain ⟨⟨code, tag, params⟩, hi⟩ := Option.isSome_iff_exists.1 hi
    have hh : s.handsOn = false := by
      rw [← Bool.not_eq_true, handsOn_iff]
      rintro ⟨hready, hrestart, hroom⟩
      rcases hoff with h | h | h
      · simp [h] at hready
      · simp [h] at hrestart
      · omega
    rw [exec_order i s code tag params hi, handOver_off _ _ _ _ hh]
  case answered =>
    have hh : s.handsOn = true := (handsOn_iff s).2 ⟨hready, hrestart, hroom⟩
    obtain ⟨hpending, hmgmt⟩ := takeOrder_mgmt hi hrestart
    refine ⟨_, (takeOrder i s).1, exec_handed i s code tag params hi hh, hpending, ?_⟩
    simp only [pushAnswer, hmgmt]

end Sys2Proof.Machine

/-! The decoding of order packets (O21). -/

namespace Sys2Proof.Machine

/-! ### The head of the management buffer (R170) -/

/-- The packet that comes to the head has an order left. -/
theorem listEnded_of_dropEnded {l rest : List OrderPacket} {p : OrderPacket} (h : dropEnded l = p :: rest) :
    p.listEnded = false := by
  induction l with
  | nil => cases h
  | cons a l ih =>
    rw [dropEnded] at h
    split at h
    · exact ih h
    · next ha =>
      cases h
      simpa using ha

/-- Where framing finds the end of the list, the packet's list has ended. -/
theorem listEnded_of_frameOrder {p : OrderPacket} (h : frameOrder p.rest = .ended) : p.listEnded = true := by
  unfold frameOrder at h
  split at h
  · next hr => simp [OrderPacket.listEnded, hr]
  · next code l hr =>
    split at h
    · next hc => simp [OrderPacket.listEnded, hr, byteAt, hc]
    · split at h
      · split at h <;> cases h
      · cases h

theorem pruneBuffer_off {s : State} (h : s.mgmt.restarting = false) :
    pruneBuffer s = s.setBuffer (dropEnded s.mgmt.buffer) := by
  simp [pruneBuffer, h]

/-! ### DECODE_ORDER by what stands at the head -/

theorem exec_decodeOrder (s : State) : exec .decodeOrder s = .next (decodeNext s) := rfl

theorem decodeNext_idle {s : State} (h : s.mgmt.ready = false ∨ s.mgmt.restarting = true) : decodeNext s = s :=
  if_neg (by rcases h with h | h <;> simp [h])

section
variable {s : State} {p : OrderPacket} {rest : List OrderPacket}

/-- An order waits while the answer queue is full (R171). -/
theorem decodeHead_waits (hh : s.handsOn = false) (hp : p.listEnded = false) : decodeHead p rest s = s := by
  unfold decodeHead
  split
  · next hf => simp [listEnded_of_frameOrder hf] at hp
  all_goals exact handOver_off _ _ _ _ hh

variable {code tag : Byte}

/-- A list that runs over its packet is answered MALFORMED and leaves with it (R170). -/
theorem decodeHead_overrun (hh : s.handsOn = true)
    (hf : frameOrder p.rest = .headerOverrun code tag ∨ frameOrder p.rest = .paramOverrun code tag) :
    decodeHead p rest s = pushAnswer code tag (refuse .malformed) (s.setBuffer rest) := by
  rcases hf with hf | hf <;> simp only [decodeHead, hf, handOver_on _ _ _ _ hh]

theorem decodeHead_framed {params : List Byte} {r : Reply} {t : State} (hh : s.handsOn = true)
    (hf : frameOrder p.rest = .framed code tag params)
    (ht : takeFramed code tag params
      (s.setBuffer ({ p with position := p.position + 4 + params.length } :: rest)) = (r, t)) :
    decodeHead p rest s = pushAnswer code tag r t := by
  simp only [decodeHead, hf, handOver_on _ _ _ _ hh, ht]

end

/-- Ended packets leave after an answer of the management unit's own (log 18). -/
theorem pruneBuffer_pushAnswer {s : State} (h : s.mgmt.restarting = false) (code tag : Byte) (r : Reply)
    (l : List OrderPacket) :
    pruneBuffer (pushAnswer code tag r (s.setBuffer l)) = pushAnswer code tag r (s.setBuffer (dropEnded l)) := by
  rw [pruneBuffer_off (by simpa using h)]
  rfl

section
variable {s : State} (hready : s.mgmt.ready = true) (hrestart : s.mgmt.restarting = false)
include hready hrestart

theorem decodeNext_empty (hd : dropEnded s.mgmt.buffer = []) : decodeNext s = s.setBuffer [] := by
  simp [decodeNext, hready, hrestart, pruneBuffer_off, hd]

variable {p : OrderPacket} {rest : List OrderPacket} (hd : dropEnded s.mgmt.buffer = p :: rest)
include hd

theorem decodeNext_head : decodeNext s = pruneBuffer (decodeHead p rest (s.setBuffer (p :: rest))) := by
  simp [decodeNext, hready, hrestart, pruneBuffer_off, hd]

theorem decodeNext_waits (hfull : 16 ≤ s.mgmt.answers.length) : decodeNext s = s.setBuffer (p :: rest) := by
  have hoff : (s.setBuffer (p :: rest)).handsOn = false := by simp [State.handsOn, not_lt.2 hfull]
  have hprune : pruneBuffer (s.setBuffer (p :: rest)) = s.setBuffer (dropEnded (p :: rest)) :=
    pruneBuffer_off (s := s.setBuffer (p :: rest)) hrestart
  rw [decodeNext_head hready hrestart hd, decodeHead_waits hoff (listEnded_of_dropEnded hd), hprune,
    dropEnded_idem _ _ _ hd]

variable {code tag : Byte} (hroom : s.mgmt.answers.length < 16)
include hroom

theorem decodeNext_overrun
    (hf : frameOrder p.rest = .headerOverrun code tag ∨ frameOrder p.rest = .paramOverrun code tag) :
    decodeNext s = pushAnswer code tag (refuse .malformed) (s.setBuffer (dropEnded rest)) := by
  have hon : (s.setBuffer (p :: rest)).handsOn = true := (handsOn_iff _).2 ⟨hready, hrestart, hroom⟩
  rw [decodeNext_head hready hrestart hd, decodeHead_overrun hon hf]
  exact pruneBuffer_pushAnswer hrestart code tag _ rest

variable {params : List Byte} {q : OrderPacket} {r : Reply} (hf : frameOrder p.rest = .framed code tag params)
  (hq : q = { p with position := p.position + 4 + params.length })
include hf hq

/-- A framed order is taken and answered with the decode position behind it; then ended packets leave (R170, log 18). -/
theorem decodeNext_framed {t : State} (ht : takeFramed code tag params (s.setBuffer (q :: rest)) = (r, t)) :
    decodeNext s = pruneBuffer (pushAnswer code tag r t) := by
  have hon : (s.setBuffer (p :: rest)).handsOn = true := (handsOn_iff _).2 ⟨hready, hrestart, hroom⟩
  subst hq
  rw [decodeNext_head hready hrestart hd, decodeHead_framed hon hf ht]

/-- A framed order that the management unit answers itself (R171). -/
theorem decodeNext_refused
    (ht : takeFramed code tag params (s.setBuffer (q :: rest)) = (r, s.setBuffer (q :: rest))) :
    decodeNext s = pushAnswer code tag r (s.setBuffer (dropEnded (q :: rest))) := by
  rw [decodeNext_framed hready hrestart hd hroom hf hq ht, pruneBuffer_pushAnswer hrestart]

/-- A framed order that is handed on as its own command would be (R170, R171). -/
theorem decodeNext_order {i : Instr} (hi : readOrder code tag params = .order i) :
    ∃ t, exec i (s.setBuffer (q :: rest)) = .next t ∧ decodeNext s = pruneBuffer t := by
  have hon : (s.setBuffer (q :: rest)).handsOn = true := (handsOn_iff _).2 ⟨hready, hrestart, hroom⟩
  obtain ⟨params', hparts⟩ := orderParts_of_readOrder code tag params i hi
  have ht : takeFramed code tag params (s.setBuffer (q :: rest)) = takeOrder i (s.setBuffer (q :: rest)) := by
    simp only [takeFramed, hi]
  exact ⟨_, exec_handed i _ code tag params' hparts hon, decodeNext_framed hready hrestart hd hroom hf hq ht⟩

end

/-- Settles O21: by what stands at the head of the buffer, the room for an answer, and what the order is read as. -/
theorem ordersAreDecoded : Obligations.OrdersAreDecoded := by
  intro s
  simp only [exec_decodeOrder, Host.Outcome.next.injEq]
  refine ⟨decodeNext_idle, decodeNext_empty, fun p rest hready hrestart hd =>
    ⟨decodeNext_waits hready hrestart hd, fun code tag => decodeNext_overrun hready hrestart hd,
      fun code tag params q hroom hf hq => ?framed⟩⟩
  have hrefused {r : Reply} := decodeNext_refused (r := r) hready hrestart hd hroom hf hq
  refine ⟨fun hr => ?malformed, fun hr => ?unknown, fun hr => ?badForm, fun i hr => ?order⟩
  case malformed => exact hrefused (by simp only [takeFramed, hr])
  case unknown => exact hrefused (by simp only [takeFramed, hr])
  case badForm => exact hrefused (by simp only [takeFramed, hr])
  case order => exact decodeNext_order hready hrestart hd hroom hf hq hr

end Sys2Proof.Machine

/-! The queue of commands, and that no command stops the part (O1, O2, O3). -/

namespace Sys2Proof.Machine

/-! ### A step by what waits in the queue (log 2) -/

theorem step_of_pending_cons {s : State} {c : Instr} {rest : List Instr} (h : s.pending = c :: rest) :
    step s = exec c { s with pending := rest } := by
  simp only [step, h]

theorem step_of_pending_nil {s : State} (h : s.pending = []) : step s = .next (passCycles 1 s) := by
  simp only [step, h]

/-- Settles O1: in the state with `c :: rest` in its queue, `c` stands at the front. -/
theorem stepTakesTheFrontCommand : Obligations.StepTakesTheFrontCommand :=
  fun _ _ _ => step_of_pending_cons rfl

/-- Settles O2: one reference cycle raises the cycle count and the 27 MHz counter by 1 each. -/
theorem emptyQueuePassesOneCycle : Obligations.EmptyQueuePassesOneCycle :=
  fun _ h => step_of_pending_nil h

/-! ### No command stops the part -/

/-- A command that is no order answers the state its moment or its input leaves. -/
theorem safe_exec_of_event {i : Instr} (hi : orderParts i = none) (s : State) : Safe (exec i s) := by
  cases i
  case pinReset locks => exact ⟨pinResetState locks s, rfl⟩
  case fuseReadEnd fuses => exact ⟨_, exec_fuseReadEnd fuses s⟩
  case lockLineFalls p => exact ⟨lockFalls p s, rfl⟩
  case lockLineRises p => exact ⟨lockRises p s, rfl⟩
  case unitTaken p bytes => exact ⟨takeLinkBytes (inputOf p) bytes s, rfl⟩
  case hlInUnitTaken bytes => exact ⟨_, exec_takenOn pb bytes s⟩
  case deliveryTimeout => exact ⟨deliveryTimedOut s, rfl⟩
  case uptimeSecond => exact ⟨_, exec_uptimeSecond s⟩
  case expiry => exact ⟨_, exec_expiry s⟩
  case waitDeadline d =>
    cases d with
    | output o => exact ⟨_, exec_waitDeadline_output o s⟩
    | tag k => exact ⟨_, exec_waitDeadline_tag k s⟩
  case acquisitionDeadline c => exact ⟨_, exec_acquisitionDeadline c s⟩
  case lockoutEnd => exact ⟨_, exec_lockoutEnd s⟩
  case grantMinutesEnd => exact ⟨_, exec_grantMinutesEnd s⟩
  case poSendOpportunity o => exact ⟨sendPresentation o s, rfl⟩
  case hlOutOpportunity => exact ⟨arbitrate s, rfl⟩
  case decodeOrder => exact ⟨_, exec_decodeOrder s⟩
  case restartEffect => exact ⟨_, exec_restartEffect s⟩
  all_goals exact absurd hi (Option.some_ne_none _)

/-- Settles O3: an order is handed over to its owner or left (R171), and any other command has its own effect. -/
theorem everyCommandAnswersANextState : Obligations.EveryCommandAnswersANextState := by
  intro i s
  cases hi : orderParts i with
  | none => exact safe_exec_of_event hi s
  | some parts =>
    obtain ⟨code, tag, params⟩ := parts
    exact ⟨_, exec_order i s code tag params hi⟩

end Sys2Proof.Machine
